-- ==== Sys2Proof/Word.lean ====
section
/-!
DEFINITION. Word.lean: the word types of the part and the plain data every layer shares.
The 32-bit register (spec/02 R47), the 64-bit pair (R48), the byte of memory (spec/00 R4), and the sorted table
that stands for sparse state (scratchpad tags, registers, blocks).
-/

namespace Sys2Proof

/-- One 32-bit register (spec/02 R47). -/
abbrev Word := BitVec 32
/-- One 64-bit pair, address or instruction word (spec/02 R31, R48). -/
abbrev DWord := BitVec 64
/-- One byte of memory (spec/00 R4). -/
abbrev Byte := BitVec 8

/-- Sparse data by key: a list of (key, value), keys strictly rising when built with `Tab.put`. -/
abbrev Tab (α : Type) := List (Nat × α)

/-- The value at a key, if the table lists it. -/
def Tab.find {α : Type} : Tab α → Nat → Option α
  | [], _ => none
  | (k, v) :: t, n => if k = n then some v else Tab.find t n

/-- The value at a key, or a default where none is listed. -/
def Tab.getD {α : Type} (t : Tab α) (n : Nat) (d : α) : α := (Tab.find t n).getD d

/-- List a value at a key, replacing the one listed there. -/
def Tab.put {α : Type} : Tab α → Nat → α → Tab α
  | [], n, v => [(n, v)]
  | (k, u) :: t, n, v =>
    if n < k then (n, v) :: (k, u) :: t
    else if n = k then (n, v) :: t
    else (k, u) :: Tab.put t n v

/-- Remove a key. -/
def Tab.del {α : Type} : Tab α → Nat → Tab α
  | [], _ => []
  | (k, u) :: t, n => if k = n then Tab.del t n else (k, u) :: Tab.del t n

/-- Change the value at a key, where the table lists one. -/
def Tab.upd {α : Type} (f : α → α) : Tab α → Nat → Tab α
  | [], _ => []
  | (k, u) :: t, n => if k = n then (k, f u) :: t else (k, u) :: Tab.upd f t n

/-- The values of a table, in the order of their keys. -/
def Tab.vals {α : Type} (t : Tab α) : List α := t.map (·.2)

end Sys2Proof
end

