-- ==== Sys2Proof/Config.lean ====
section
/-!
DEFINITION. Config.lean: what an implementation fixes, and the free values: values the spec leaves open, each an
opaque constant without a body, applied to the free-value counter of the state or to the operands.
-/

namespace Sys2Proof.Config

/-- Lanes of a row (spec/00 R1, spec/01 R17). -/
def width : Nat := 64
/-- Compute cores of the package (spec/01 R13): 8 dies of 40. -/
def computeCores : Nat := 320
/-- Service pairs of the package (spec/01 R13). -/
def servicePairs : Nat := 14
/-- Bytes of a scratchpad (spec/01 R17). -/
def spadBytes : Nat := 4 * 2 ^ 20
/-- Records a block or quad fault queue holds (spec/18 R370, spec/13 R288). -/
def faultRecords : Nat := 16
/-- Entries of a reservation table (spec/01 R18). -/
def tableEntries : Nat := 16
/-- Installed memory of an NMD (spec/01 R25): 192 GiB. -/
def nmdBytes : Nat := 192 * 2 ^ 30
/-- Installed memory of an FMD: up to 1 TiB (spec/01 R13); all of it here (DESIGN CHOICE, log 13). -/
def fmdBytes : Nat := 2 ^ 40
/-- Collector latches of a core (spec/13 R281). -/
def coreLatches : Nat := 4

/-- Sectors of 64 bytes an L1 holds: 256 KiB (spec/01 R17, spec/09 R174). -/
def l1Sectors : Nat := 4096
/-- Lines of 256 bytes a slice of an RDC holds: 64 MiB in 32 slices (spec/01 R13, spec/09 R174). -/
def rdcLines : Nat := 8192
/-- Lines of 256 bytes a slice of a memory die's L2 holds: 2 MiB on an NMD, 1 MiB on an FMD (spec/01 R13). -/
def l2Lines (die : Nat) : Nat := if die < 4 then 8192 else 4096
/-- Free value: whether an uncovered read of a register or predicate returns the written value (spec/02 R36, R38):
free-value counter, register code, thread, clock of the write (DESIGN CHOICE, log 5). -/
opaque uncovered : Nat → Nat → Nat → Nat → Bool
/-- Free value: a choice among writers the spec leaves open (spec/09 R179, spec/12 R255): counter and address
(DESIGN CHOICE, log 17). -/
opaque pick : Nat → Nat → Nat
/-- Free value: the approximation a special function returns, by function and operand, within the bound of spec/07
R141 (DESIGN CHOICE, log 6). -/
opaque approx : Nat → Word → Word
/-- Free value: the traversal state TRAV leaves in ray registers +14 and +15 (spec/17 R354), by counter (DESIGN CHOICE, log 9). -/
opaque travToken : Nat → DWord
/-- Free value: a byte of a saved image beyond its header (spec/18 R383), by counter and offset (DESIGN CHOICE, log 10). -/
opaque imageByte : Nat → Nat → Byte
/-- Free value: the loader's verdict on the bytes of a bundle (spec/19 R406, DESIGN CHOICE, log 11). -/
opaque bundleStatus : List Byte → Nat
/-- Free value: the version a bundle names (spec/19 R406, DESIGN CHOICE, log 11). -/
opaque bundleVersion : List Byte → Nat
/-- Free value: the key, digests and signature of an attestation report, by nonce (spec/19 R408, DESIGN CHOICE, log 11). -/
opaque report : Nat → Nat
/-- Free value: the channel or rank of a memory die that holds a physical address (spec/09 R181, DESIGN CHOICE, log 8). -/
opaque channelOf : Nat → Nat
/-- Free values: the settings of an in-switch reduction group (spec/19 R404), which system software makes in the switches, by
the group's package × 2^12 + channel: contributors, bytes, FP32 rather than INT32 (DESIGN CHOICE, log 22). -/
opaque redCount : Nat → Nat
opaque redLength : Nat → Nat
opaque redFloat : Nat → Bool
/-- Free value: a result the spec does not state, by counter and place. -/
opaque unstated : Nat → Nat → Nat

end Sys2Proof.Config
end

