-- ==== Sys2Proof/Syntax.lean ====
section
/-!
DEFINITION. Syntax.lean: the instruction words of Rybry and the events of the part as data.
One constructor of `Instr` per row of spec/opcode_table.json: 176 instruction words (spec/02 R50) with their header
(spec/02 R31) and typed operands, and 104 events (spec/95_what_each_step_holds), each with the data that says which
thread, operation or unit it concerns and what the outside supplies.
-/

namespace Sys2Proof

/-- A register operand (spec/02 R47). -/
inductive Reg where
  /-- x0 to x190, per thread. -/
  | x (n : Fin 191)
  /-- Reads zero, discards writes. -/
  | xz
  /-- g0 to g63, block-uniform. -/
  | g (n : Fin 64)
  deriving DecidableEq, Repr

/-- A predicate p0 to p7; p7 is constant true (spec/02 R40). -/
abbrev Pred := Fin 8
/-- A block token tk0 to tk31 (spec/03 R69). -/
abbrev Tok := Fin 32

/-- The idle, guard and neg fields, which have no reserved values (spec/02 R31, R52). -/
structure Hdr where
  idle : BitVec 10 := 0
  guard : Pred := 7
  neg : Bool := false
  deriving DecidableEq, Repr

/-- The token fields of the T format (spec/02 R45). -/
structure Toks where
  tko : Tok
  t0 : Tok
  t1 : Tok
  t2 : Tok
  deriving DecidableEq, Repr

/-- Scopes (spec/00 R6, R7). -/
inductive Scope where
  | core | quad | die | pkg | pod | sys
  deriving DecidableEq, Repr

/-- Spaces (spec/00 R6). -/
inductive Space where
  | global | spad | qspad
  deriving DecidableEq, Repr

/-- Access sizes (spec/00 R6). -/
inductive Size where
  | b8 | b16 | b32 | b64 | b128
  deriving DecidableEq, Repr

/-- Integer compares (spec/04 R92). -/
inductive Cmp where
  | eq | ne | lt | le | gt | ge
  deriving DecidableEq, Repr

/-- FP compares (spec/06 R131). -/
inductive FCmp where
  | eq | ne | lt | le | gt | ge | num | nan
  deriving DecidableEq, Repr

/-- The combining predicate of a compare (spec/04 R92). -/
inductive PComb where
  | none
  | and (q : Pred) (neg : Bool)
  | or (q : Pred) (neg : Bool)
  | xor (q : Pred) (neg : Bool)
  deriving DecidableEq, Repr

/-- Saturation of IADD, ISUB, IMAD (spec/04 R88). -/
inductive ArithMod where
  | wrap | sat | satU
  deriving DecidableEq, Repr

/-- Rounding modes of a word (spec/05 R119, spec/06 R127). -/
inductive RMode where
  | rn | rz | rm | rp
  deriving DecidableEq, Repr

/-- Source format of FCLASS (spec/06 R127). -/
inductive FSrc where
  | fp32 | fp16 | bf16
  deriving DecidableEq, Repr

/-- Signedness of DOT4 (spec/06 R127). -/
inductive DotSign where
  | ss | uu | su
  deriving DecidableEq, Repr

/-- Permute modes (spec/08 R160). -/
inductive XMode where
  | idx | up | dn | xor | rot
  deriving DecidableEq, Repr

/-- Fill of XRDI (spec/08 R162). -/
inductive XFill where
  | zero | own | keep
  deriving DecidableEq, Repr

/-- The offset of XRDI: a number, or WIDTH >> s (spec/08 R162). -/
inductive XOff where
  | n (v : BitVec 8)
  | w (s : Fin 8)
  deriving DecidableEq, Repr

/-- Reduction operations (spec/08 R163). -/
inductive XOp where
  | iadd | imin | imax | umin | umax | and | or | xor | fadd | fmin | fmax
  deriving DecidableEq, Repr

/-- Modes of XVOTE (spec/08 R159, R166). -/
inductive VoteMode where
  | bal | balhi | cnt | pre
  deriving DecidableEq, Repr

/-- Modes of XPRED (spec/08 R159, R166). -/
inductive PredMode where
  | all | any | uni
  deriving DecidableEq, Repr

/-- Levels of PREF (spec/09 R197). -/
inductive PrefLevel where
  | l1 | rdc | l2
  deriving DecidableEq, Repr

/-- Levels of CMAINT (spec/09 R198). -/
inductive CLevel where
  | l1 | rdc | l2 | far
  deriving DecidableEq, Repr

/-- Operations of CMAINT (spec/09 R198). -/
inductive COp where
  | cln | inv | ci
  deriving DecidableEq, Repr

/-- Kinds of FENCE (spec/10 R216). -/
inductive FenceKind where
  | ar | acq | rel | sc
  deriving DecidableEq, Repr

/-- Orders of an atomic (spec/11 R225). -/
inductive AOrder where
  | rlx | acq | rel | ar
  deriving DecidableEq, Repr

/-- Operations of the atomics (spec/11 R226). -/
inductive AOp where
  | add | min | max | umin | umax | and | or | xor | xchg | cas | inc | dec | fadd
  deriving DecidableEq, Repr

/-- Barrier levels (spec/11 R232). -/
inductive BLevel where
  | core | quad | die | pkg | pod
  deriving DecidableEq, Repr

/-- Element size of a copy (spec/12 R253). -/
inductive CElem where
  | e4 | e8 | e16
  deriving DecidableEq, Repr

/-- Modes of CPADV (spec/12 R264). -/
inductive AdvMode where
  | p | c | n
  deriving DecidableEq, Repr

/-- Forms of MQRY (spec/13 R289). -/
inductive MqForm where
  | stat | latch | cfg
  deriving DecidableEq, Repr

/-- Forms of ACCRD (spec/14 R306). -/
inductive RdForm where
  | f32 | i64 | st
  deriving DecidableEq, Repr

/-- Settle scopes of ACCSET (spec/14 R306). -/
inductive SetScope where
  | core | quad | die | pkg
  deriving DecidableEq, Repr

/-- Culling of RAST (spec/17 R351). -/
inductive Cull where
  | none | back | front
  deriving DecidableEq, Repr

/-- Kinds of FILL (spec/16 R342). -/
inductive FillKind where
  | v | s | vs
  deriving DecidableEq, Repr

/-- Activity classes of PWRH (spec/16 R337). -/
inductive ActClass where
  | idle | int | mem | vec | sfu | mtx
  deriving DecidableEq, Repr

/-- Forms of STRQ (spec/16 R342). -/
inductive SqForm where
  | imb | st | lim
  deriving DecidableEq, Repr

/-- Forms of PQRY; only .OWN has an address (spec/15 R328). -/
inductive PqForm where
  | own (a : Reg)
  | dies
  deriving DecidableEq, Repr

/-- Owners of a 64 KiB page (spec/15 R320). -/
inductive Owner where
  | none | p | t | shared
  deriving DecidableEq, Repr

/-- Special registers (spec/04 R98). -/
inductive SReg where
  | width | lane | slot | rowid | nrow | blkid | nblk | qpos | qgid | dgid | dgpos | gridid | prio | part | level
  | clk | seed | cnt | pdepth
  | lc (k : Fin 3)
  | mb (k : Fin 16)
  | fs (k : Fin 8)
  | xlwin | taglim | faultst
  deriving DecidableEq, Repr

/-- Control and status registers (spec/18 R367). -/
inductive Csr where
  | stvec | sepc | scause | stval | sstat | sie | sip | clkcmp
  | ftvec | fepc | fcause | ftval | fstat
  | bsel | bctl
  | bfr (k : Fin 8)
  | svcpend
  | qbase (q : Fin 16)
  | qctl (q : Fin 16)
  | qtail (q : Fin 16)
  | qhead (q : Fin 16)
  | gridnext | ctxtab | partcfg | chsel | chcid | capctl | capbase | capsize
  | poolbase (k : Fin 6)
  | poolnpg (k : Fin 6)
  | bfs (k : Fin 8)
  | copylim | prelim | strcfg | cslimq | cslimd | coresel
  | qoscls (k : Fin 7)
  | migsrc | migdst | migctl | hbper | leader | leadslot
  deriving DecidableEq, Repr

/-- A thread: the handle of its block (GRIDID + BLKID × 2^32) and row × 64 + lane (spec/01 R21). -/
structure Tid where
  blk : Nat
  idx : Nat
  deriving DecidableEq, Repr

/-- A barrier: its level, the key of its holder (block handle, quad group, die group, grid) and its identifier
(spec/11 R232). -/
structure BarId where
  level : BLevel
  holder : Nat
  id : Nat
  deriving DecidableEq, Repr

/-- The bytes of a transfer between packages, and its words of 4 bytes that carry poison (spec/09 R180, spec/12 R262). -/
structure Payload where
  data : List Byte
  bad : List Nat := []
  deriving DecidableEq, Repr

/-- One access of a host to package memory, by physical address (spec/19 R405). -/
inductive HostAcc where
  | load (addr len : Nat)
  | store (addr : Nat) (data : List Byte)
  | atomic (addr : Nat) (s64 : Bool) (op : AOp) (b cmp : DWord)
  deriving DecidableEq, Repr

/-- The instructions of the part: its words (spec/02 R50) and its events (spec/95_what_each_step_holds). -/
inductive Instr where
  -- CTRL (spec/03)
  | nop (h : Hdr)
  | bra (h : Hdr) (ofs : BitVec 26)
  | brx (h : Hdr) (a : Reg) (imm : BitVec 22)
  | call (h : Hdr) (ofs : BitVec 26) (k : Fin 64)
  | ret (h : Hdr) (a : Reg)
  | loop (h : Hdr) (k : Fin 3) (a : Reg) (len : Fin 512)
  | loopi (h : Hdr) (k : Fin 3) (count : BitVec 21) (len : Fin 512)
  | brkl (h : Hdr) (k : Fin 3) (ofs : BitVec 26)
  | yield (h : Hdr)
  | cvset (h : Hdr) (n : Fin 16) (a : Reg) (tok : Option Tok) (mask : BitVec 16)
  | sign (h : Hdr) (n : Fin 16)
  | start (h : Hdr)
  | waitc (h : Hdr) (ld st cp mt : Fin 64)
  | tkw (h : Hdr) (toks : Toks) (any : Bool)
  | exit (h : Hdr)
  | sleep (h : Hdr) (a : Reg) (mb : Bool) (clocks : BitVec 21)
  -- INT (spec/04)
  | iadd (h : Hdr) (d a b : Reg) (m : ArithMod)
  | isub (h : Hdr) (d a b : Reg) (m : ArithMod)
  | imul (h : Hdr) (d a b : Reg)
  | imulh (h : Hdr) (d a b : Reg) (u : Bool)
  | imad (h : Hdr) (d a b c : Reg) (m : ArithMod)
  | imin (h : Hdr) (d a b : Reg) (u : Bool)
  | imax (h : Hdr) (d a b : Reg) (u : Bool)
  | iabs (h : Hdr) (d a : Reg) (sat : Bool)
  | and (h : Hdr) (d a b : Reg)
  | or (h : Hdr) (d a b : Reg)
  | xor (h : Hdr) (d a b : Reg)
  | andn (h : Hdr) (d a b : Reg)
  | shl (h : Hdr) (d a b : Reg)
  | shr (h : Hdr) (d a b : Reg)
  | sar (h : Hdr) (d a b : Reg)
  | rol (h : Hdr) (d a b : Reg)
  | bfx (h : Hdr) (d a b : Reg) (s : Bool)
  | bfi (h : Hdr) (d a b c : Reg)
  | popc (h : Hdr) (d a : Reg)
  | clz (h : Hdr) (d a : Reg)
  | brev (h : Hdr) (d a : Reg)
  | isetp (h : Hdr) (p : Pred) (a b : Reg) (cmp : Cmp) (u : Bool) (comb : PComb)
  | plop (h : Hdr) (pd pa pb pc : Pred) (lut : BitVec 8)
  | sel (h : Hdr) (d a b : Reg) (p : Pred) (neg : Bool)
  | mov (h : Hdr) (d a : Reg)
  | movi (h : Hdr) (d : Reg) (imm : BitVec 30)
  | movhi (h : Hdr) (d : Reg) (imm : BitVec 16)
  | movs (h : Hdr) (d : Reg) (sr : SReg)
  | movsw (h : Hdr) (sr : SReg) (a : Reg)
  | lea (h : Hdr) (d a b : Reg) (sh : Fin 8) (u : Bool)
  | iadd64 (h : Hdr) (d a b : Reg)
  | pget (h : Hdr) (d : Reg)
  | pput (h : Hdr) (a : Reg) (mask : BitVec 7)
  | iaddi (h : Hdr) (d a : Reg) (imm : BitVec 22)
  | andi (h : Hdr) (d a : Reg) (imm : BitVec 22)
  | ori (h : Hdr) (d a : Reg) (imm : BitVec 22)
  | xori (h : Hdr) (d a : Reg) (imm : BitVec 22)
  | isetpi (h : Hdr) (p : Pred) (a : Reg) (imm : BitVec 22) (cmp : Cmp) (u : Bool)
  -- VFP (spec/05, spec/06)
  | fadd (h : Hdr) (d a b : Reg) (mode : RMode) (x2 sat : Bool)
  | fsub (h : Hdr) (d a b : Reg) (mode : RMode) (x2 sat : Bool)
  | fmul (h : Hdr) (d a b : Reg) (mode : RMode) (x2 sat : Bool)
  | ffma (h : Hdr) (d a b c : Reg) (mode : RMode) (x2 sat na nc : Bool)
  | fmin (h : Hdr) (d a b : Reg) (x2 nan : Bool)
  | fmax (h : Hdr) (d a b : Reg) (x2 nan : Bool)
  | fabs (h : Hdr) (d a : Reg) (x2 : Bool)
  | fneg (h : Hdr) (d a : Reg) (x2 : Bool)
  | fsetp (h : Hdr) (p : Pred) (a b : Reg) (cmp : FCmp) (comb : PComb)
  | frnd (h : Hdr) (d a : Reg) (mode : RMode)
  | fclamp (h : Hdr) (d a b c : Reg) (x2 : Bool)
  | f2i (h : Hdr) (d a : Reg) (u : Bool) (mode : RMode)
  | i2f (h : Hdr) (d a : Reg) (u : Bool) (mode : RMode)
  | hadd2 (h : Hdr) (d a b : Reg) (mode : RMode) (sat bf : Bool)
  | hmul2 (h : Hdr) (d a b : Reg) (mode : RMode) (sat bf : Bool)
  | hfma2 (h : Hdr) (d a b c : Reg) (mode : RMode) (sat bf : Bool)
  | dot2 (h : Hdr) (d a b c : Reg) (mode : RMode) (bf : Bool)
  | dot4 (h : Hdr) (d a b c : Reg) (sat : Bool) (sg : DotSign)
  | cvt (h : Hdr) (d a c : Reg) (dst src : Fin 8)
  | cvtpk (h : Hdr) (d a b c : Reg) (dst : Fin 8)
  | cvtup (h : Hdr) (d a b : Reg) (src : Fin 8)
  | fscl (h : Hdr) (d a b : Reg) (mode : RMode)
  | fclass (h : Hdr) (d a : Reg) (src : FSrc)
  -- SFU (spec/07)
  | rcp (h : Hdr) (d a : Reg)
  | rsq (h : Hdr) (d a : Reg)
  | sqrt (h : Hdr) (d a : Reg) (mode : RMode)
  | exp2 (h : Hdr) (d a : Reg)
  | log2 (h : Hdr) (d a : Reg)
  | sin (h : Hdr) (d a : Reg)
  | cos (h : Hdr) (d a : Reg)
  | sincos (h : Hdr) (d a : Reg)
  | tanh (h : Hdr) (d a : Reg)
  | tlu (h : Hdr) (d a b : Reg)
  | dropm (h : Hdr) (p : Pred) (a b : Reg)
  | csamp (h : Hdr) (d a b : Reg)
  | rng (h : Hdr) (d a : Reg) (uf : Bool)
  | fdiv (h : Hdr) (d a b : Reg) (mode : RMode)
  -- XLN (spec/08)
  | xrd (h : Hdr) (d a b c : Reg) (mode : XMode)
  | xrdi (h : Hdr) (d a : Reg) (mode : XMode) (fill : XFill) (off : XOff)
  | xred (h : Hdr) (d a : Reg) (op : XOp)
  | xscan (h : Hdr) (d a : Reg) (op : XOp) (exc : Bool)
  | xvote (h : Hdr) (d : Reg) (p : Pred) (neg : Bool) (mode : VoteMode)
  | xpred (h : Hdr) (pd p : Pred) (neg : Bool) (mode : PredMode)
  | xcmp (h : Hdr) (d a c : Reg) (p : Pred) (neg : Bool)
  | xexp (h : Hdr) (d a c : Reg) (p : Pred) (neg : Bool)
  | xmatch (h : Hdr) (d a : Reg) (hi : Bool)
  -- MEM (spec/09); q selects QSPAD
  | lds (h : Hdr) (d base : Reg) (ofs : BitVec 16) (sz : Size) (q : Bool)
  | sts (h : Hdr) (d base : Reg) (ofs : BitVec 16) (sz : Size) (q : Bool)
  | ldsf (h : Hdr) (d base : Reg) (ofs : BitVec 15) (sz : Size) (q keep : Bool)
  | stse (h : Hdr) (d base : Reg) (ofs : BitVec 15) (sz : Size) (q : Bool)
  | tags (h : Hdr) (a b : Reg) (q set : Bool)
  | tagr (h : Hdr) (d a : Reg) (q : Bool)
  | ldg (h : Hdr) (d base : Reg) (ofs : BitVec 16) (sz : Size)
  | stg (h : Hdr) (d base : Reg) (ofs : BitVec 16) (sz : Size)
  | ldu (h : Hdr) (d base : Reg) (ofs : BitVec 16) (sz : Size)
  | pref (h : Hdr) (lvl : PrefLevel) (base : Reg) (ofs : BitVec 16)
  | cmaint (h : Hdr) (a b : Reg) (lvl : CLevel) (op : COp)
  -- SYNC (spec/10, spec/11)
  | fence (h : Hdr) (kind : FenceKind) (sc : Scope)
  | lda (h : Hdr) (d base : Reg) (ofs : BitVec 13) (sc : Scope) (sz : Size) (sp : Space)
  | stl (h : Hdr) (d base : Reg) (ofs : BitVec 13) (sc : Scope) (sz : Size) (sp : Space)
  | atom (h : Hdr) (d a b : Reg) (sc : Scope) (ord : AOrder) (s64 : Bool) (op : AOp)
  | atoms (h : Hdr) (d a b : Reg) (sc : Scope) (ord : AOrder) (s64 q : Bool) (op : AOp)
  | red (h : Hdr) (a b : Reg) (sc : Scope) (rel s64 : Bool) (op : AOp)
  | bar (h : Hdr) (p : Pred) (a : Reg) (cnt : BitVec 14) (ex : Bool) (lvl : BLevel) (id : Fin 16)
  | bara (h : Hdr) (a : Reg) (cnt : BitVec 14) (ex : Bool) (lvl : BLevel) (id : Fin 16)
  | barw (h : Hdr) (p : Pred) (ex : Bool) (lvl : BLevel) (id : Fin 16)
  | barn (h : Hdr) (d : Reg) (lvl : BLevel) (id : Fin 16)
  | semacq (h : Hdr) (sc : Scope) (a : Reg) (cnt : BitVec 16) (k : Fin 64)
  | semrel (h : Hdr) (sc : Scope) (q : Option (Fin 4)) (a : Reg) (cnt : BitVec 16) (k : Fin 64)
  | semtry (h : Hdr) (p : Pred) (sc : Scope) (a : Reg) (cnt : BitVec 16) (k : Fin 64)
  | semrd (h : Hdr) (d : Reg) (clr : Bool) (k : Fin 64)
  -- COPY (spec/12)
  | cpl (h : Hdr) (a b : Reg) (toks : Toks) (el : CElem)
  | cpt (h : Hdr) (a b : Reg) (toks : Toks) (el : CElem)
  | cpr (h : Hdr) (a b : Reg) (toks : Toks)
  | cpstage (h : Hdr) (a : Reg) (size : BitVec 10) (min max : Fin 64)
  | cpstageOff (h : Hdr)
  | cpadv (h : Hdr) (d : Reg) (mode : AdvMode)
  | cpremPut (h : Hdr) (a b : Reg) (toks : Toks)
  | cpremPost (h : Hdr) (a b : Reg) (toks : Toks)
  | tkj (h : Hdr) (toks : Toks)
  | cpfill (h : Hdr) (a b : Reg) (toks : Toks) (el : CElem)
  -- MTX (spec/13)
  | mma (h : Hdr) (a : Reg) (cv : Fin 16) (j : Fin 16) (toks : Toks) (ru : Bool)
  | mmas (h : Hdr) (a : Reg) (cv : Fin 16) (j : Fin 16) (toks : Toks) (ru : Bool)
  | mrel (h : Hdr) (cv : Option (Fin 16))
  | mfq (h : Hdr) (d : Reg) (peek : Bool)
  | mqry (h : Hdr) (d : Reg) (form : MqForm)
  -- ACC (spec/14)
  | accz (h : Hdr) (a b : Reg) (toks : Toks)
  | accadd (h : Hdr) (a b : Reg) (toks : Toks)
  | accrd (h : Hdr) (d a : Reg) (form : RdForm)
  | accset (h : Hdr) (a b : Reg) (toks : Toks) (sc : SetScope)
  | accfl (h : Hdr) (a b : Reg) (toks : Toks)
  | accout (h : Hdr) (a b : Reg) (toks : Toks)
  | accpoi (h : Hdr) (a b : Reg) (toks : Toks)
  -- GFX (spec/17)
  | rast (h : Hdr) (a b : Reg) (tko : Tok) (cull : Cull)
  | trav (h : Hdr) (a b : Reg) (toks : Toks)
  | sample (h : Hdr) (a b : Reg) (toks : Toks)
  | winacq (h : Hdr) (d : Reg) (cons : Bool) (ch : Fin 8)
  | winrel (h : Hdr) (cons : Bool) (ch : Fin 8)
  | ordt (h : Hdr) (a b : Reg) (toks : Toks) (fin : Bool)
  | ttask (h : Hdr) (a b : Reg) (toks : Toks)
  | tfence (h : Hdr) (a b : Reg) (toks : Toks)
  | omrg (h : Hdr) (a b : Reg) (toks : Toks)
  -- SYS (spec/18)
  | trap (h : Hdr) (imm : BitVec 22)
  | eret (h : Hdr)
  | csrr (h : Hdr) (d : Reg) (csr : Csr)
  | csrw (h : Hdr) (csr : Csr) (a : Reg)
  | csrset (h : Hdr) (d : Reg) (csr : Csr) (a : Reg)
  | csrclr (h : Hdr) (d : Reg) (csr : Csr) (a : Reg)
  | tlbinv (h : Hdr) (a b c : Reg) (all : Bool) (sc : Scope)
  | launch (h : Hdr) (a b : Reg) (toks : Toks)
  | wfi (h : Hdr)
  | halt (h : Hdr)
  | rmark (h : Hdr) (a : Reg) (mark : BitVec 22)
  | ctxsave (h : Hdr) (d a b : Reg) (keep : Bool)
  | ctxload (h : Hdr) (d a : Reg)
  -- PWR (spec/16)
  | fill (h : Hdr) (kind : FillKind) (a : Reg) (clocks : BitVec 16)
  | pwrh (h : Hdr) (cls : ActClass)
  | strq (h : Hdr) (d : Reg) (form : SqForm)
  -- PART (spec/15)
  | pgive (h : Hdr) (a b : Reg) (toks : Toks) (back move : Bool)
  | ptake (h : Hdr) (a b : Reg) (toks : Toks) (back : Bool)
  | pqry (h : Hdr) (d : Reg) (form : PqForm)
  | pzero (h : Hdr) (a b : Reg) (owner : Owner)
  -- EVENTS
  /-- INSTRUCTION_FETCH (R33): The dispatcher fetches a thread's next word, decodes it and appends it to its engine queue. -/
  | instructionFetch (t : Tid)
  /-- DECODE_FAULT (R52): A word that is not an instruction faults once every earlier word of the thread has issued. -/
  | decodeFault (ts : List Tid)
  /-- FAULT_EVENT_REISSUE (R370): Threads held because the block fault queue was full reissue their word when a record frees. -/
  | faultEventReissue (blk : Nat)
  /-- URGENT_AGEING (R65): A word eligible for 1,024 clocks without issuing makes its path-table entry urgent. -/
  | urgentAgeing (t : Tid)
  /-- YIELD_DEMOTION_END (R85): After 64 issue opportunities a yielding thread returns to its block's priority. -/
  | yieldDemotionEnd (t : Tid)
  /-- MSHR_REJECT_RETRY (R178): Threads of a group rejected for lack of miss-status entries become eligible again after 8 clocks. -/
  | mshrRejectRetry (t : Tid)
  /-- LOAD_COMPLETE (R187): A variable-latency load's data arrive, its destination is written and its ld counter falls. -/
  | loadComplete (op : Nat)
  /-- STORE_PERFORMED (R187): A store is performed in the scratchpad or the L1 and its st counter falls. -/
  | storePerformed (op : Nat)
  /-- FORWARDED_WRITE_ACK (R420): A home L2 acknowledges a write forwarded from the RDC. -/
  | forwardedWriteAck (die id : Nat)
  /-- TAG_STEP (R193): A waiting LDSF or STSE step is served when its words' tags satisfy it. -/
  | tagStep (op : Nat)
  /-- TAG_WAIT (R194): A tag step not served within TAGLIM clocks is abandoned and the thread takes TAG_WAIT. -/
  | tagWait (op : Nat)
  /-- GATHER_OPEN (R155): The first arrival of a row's thread at a cross-lane word opens a gather. -/
  | gatherOpen (t : Tid)
  /-- GATHER_COMPLETE (R155): A gather completes when every live row-mate has arrived, and its present threads become eligible. -/
  | gatherComplete (blk row : Nat)
  /-- GATHER_WINDOW_CLOSE (R155): The gather window expires and the gather completes with the threads present. -/
  | gatherWindowClose (blk row : Nat)
  /-- REQUEST_ENTRY (R270): A fired matrix epoch held for lack of a reservation entry enters the table when one frees. -/
  | requestEntry (op : Nat)
  /-- PASS_GRANT (R271): The arbiter grants a pass of a request when the array can accept one. -/
  | passGrant (op : Nat)
  /-- QME_LINE_WRITE (R285): The engine writes a request's contributions into destination lines at the booked clocks. -/
  | qmeLineWrite (op : Nat)
  /-- REQUEST_COMPLETE (R285): A request completes 4 clocks after its last line write; counters and token follow. -/
  | requestComplete (op : Nat)
  /-- COPY_OPERATION_START (R249): The copy engine starts an operation once earlier accesses are performed and consumed tokens are complete. -/
  | copyOperationStart (op : Nat)
  /-- COPY_OPERATION_COMPLETE (R249): A copy operation completes after its last write, with tags, semaphore, token and counter following. -/
  | copyOperationComplete (op : Nat)
  /-- ENGINE_PAGE_SERVICE_REQUEST (R421): An engine meeting a non-present page queues a page-service record and holds the operation. -/
  | enginePageServiceRequest (op : Nat)
  /-- COPYLIM_EXPIRY (R251): An operation waiting for page service or a posting beyond COPYLIM ends with error. -/
  | copylimExpiry (op : Nat)
  /-- CPR_LINE_WRITE (R259): A CPR line is written at its scheduled clock or from its bank queue. -/
  | cprLineWrite (op : Nat)
  /-- INBOUND_PUT (R262): An inbound transfer is placed into a posting, or refused, at the receiver. -/
  | inboundPut (pod pkg chan seq : Nat) (p : Payload)
  /-- PUT_ACKNOWLEDGE (R262): The sender's CPREM.PUT completes at the receiver's acknowledgement or error acknowledgement. -/
  | putAcknowledge (op : Nat) (err : Bool)
  /-- TOKEN_JOIN_COMPLETE (R263): A TKJ operation completes when its consumed tokens' operations have completed. -/
  | tokenJoinComplete (op : Nat)
  /-- CONTRIBUTION_APPLY (R298): A contribution is applied to the issuing core's copy of an accumulation line. -/
  | contributionApply (op : Nat)
  /-- WRITE_BACK (R297): An R copy's deltas are added into the home line as one indivisible step. -/
  | writeBack (core line : Nat)
  /-- BARRIER_ARRIVAL (R234): An arrival is counted once its release completes, at issue + 1 with .EX. -/
  | barrierArrival (op : Nat)
  /-- PHASE_OPEN (R233): A barrier phase opens normally or BROKEN when its condition first holds. -/
  | phaseOpen (b : BarId)
  /-- BARRIER_WAVE (R338): A wave of waiting threads is released, every 4 clocks after the opening. -/
  | barrierWave (b : BarId)
  /-- SEMAPHORE_SERVE (R241): The head of a semaphore's queue takes its units when COUNT suffices, and acquires. -/
  | semaphoreServe (core : Nat) (k : Fin 64)
  /-- HOST_MAILBOX_WRITE (R100): A host or firmware writes a core mailbox, which wakes SLEEP.MB. -/
  | hostMailboxWrite (core : Nat) (k : Fin 16) (v : Word)
  /-- THREAD_RELEASE (R86): An exited thread's slot and registers are released when its counters and token operations drain. -/
  | threadRelease (t : Tid)
  /-- BLOCK_COMPLETE (R86): A block completes when every thread has exited or been killed and has been released. -/
  | blockComplete (blk : Nat)
  /-- GRID_COMPLETE (R389): A grid completes and writes its status and DONEVAL to DONEVA as a release. -/
  | gridComplete (grid : Nat)
  /-- RECORD_PULL (R389): A work distributor pulls an eligible pending record or saved unit by priority and age. -/
  | recordPull (die : Nat) (q : Fin 16)
  /-- BLOCK_PLACEMENT (R28): The work distributor places blocks on cores whose free resources allow, refusing unplaceable co-resident grids. -/
  | blockPlacement (grid : Nat) (cores : List Nat)
  /-- DISTRIBUTOR_PREEMPT (R381): The work distributor requests pre-emption of a unit to place a record of higher priority. -/
  | distributorPreempt (blk : Nat)
  /-- PRELIM_EXPIRY (R382): The deferral step ends at r + PRELIM and the save is forced. -/
  | prelimExpiry (blk : Nat)
  /-- PREEMPT_DEFER_END (R382): Deferral ends when no barrier holds a partial arrival of the unit, and Stop begins. -/
  | preemptDeferEnd (blk : Nat)
  /-- PREEMPT_DRAIN_COMPLETE (R382): Once the unit's words and engine operations drain, it is flushed, saved and its cores freed. -/
  | preemptDrainComplete (blk : Nat)
  /-- UNIT_RESTORE (R384): A saved unit is placed whole again and its threads resume at their positions. -/
  | unitRestore (blk : Nat) (cores : List Nat)
  /-- PTAKE_FLAG_POLL (R327): A waiting PTAKE rereads its flag at home at least once per 256 clocks. -/
  | ptakeFlagPoll (op : Nat)
  /-- INGRESS_RELEASE (R350): The ingress releases its buffer when full, finished or idle for 256 clocks. -/
  | ingressRelease (grid : Nat) (region : Fin 16)
  /-- LINK_DRAIN_COMPLETE (R400): Both retry buffers empty, and the link goes to PAUSED, ACTIVE or TRAIN. -/
  | linkDrainComplete (link : Nat)
  /-- LINK_TRAIN_FAIL (R400): Training fails or times out, and the link enters FAILED. -/
  | linkTrainFail (link : Nat)
  /-- STRHOLD_EXPIRY (R335): The hold count reaching STRHOLD, and every 256 clocks after, raises THR and enters THROTTLE. -/
  | strholdExpiry (quad : Nat)
  /-- THROTTLE_DECAY (R335): 1,024 monitor clocks within half STRTHR lower THR by one. -/
  | throttleDecay (quad : Nat)
  /-- BCTL_RESUME (R372): The head record's threads reissue their word, or the engine retries the page; the record is removed. -/
  | bctlResume
  /-- BCTL_SKIP (R372): The head record's threads continue at the next word; the record is removed. -/
  | bctlSkip
  /-- BCTL_KILLT (R372): The head record's threads are killed; the record is removed. -/
  | bctlKillt
  /-- BCTL_KILLB (R372): Every thread of the block is killed and all its records removed. -/
  | bctlKillb
  /-- BCTL_PREEMPT (R372): Pre-empts the selected block's unit into its grid's save area. -/
  | bctlPreempt
  /-- BCTL_MIGRATE (R385): Moves the selected block's unit to other cores. -/
  | bctlMigrate
  /-- BCTL_POP (R372): Removes the head imprecise record. -/
  | bctlPop
  /-- BCTL_INVALID (R372): An unused command code does nothing and sets ERR. -/
  | bctlInvalid
  /-- QTAIL_WRITE (R389): A tail write releases the writer's records and makes them pending, checking each one. -/
  | qtailWrite (q : Fin 16) (v : Word)
  /-- GRIDNEXT_WRITE (R367): Writes the next GRIDID, faulting on 0 or bit 31 set. -/
  | gridnextWrite (v : Word)
  /-- BFS_WRITE (R115): Writes a grid format slot, faulting while any block of the grid is resident. -/
  | bfsWrite (k : Fin 8) (v : Word)
  /-- PARTCFG_WRITE (R27): Changes the dies assigned to T; each changed die pulls only from its new partition. -/
  | partcfgWrite (v : Word) (dies : List Nat)
  /-- CAPCTL_WRITE (R393): Sets capture and replay mode or clears the overflow flag. -/
  | capctlWrite (v : Word)
  /-- REGISTER_WRITE (R366): Writes a CSR or link register that has no row of its own. -/
  | registerWrite (core : Nat) (csr : Csr) (v : DWord)
  /-- SVCREQ_ENTRY (R370): The leader takes SVCREQ while a record awaits service and the interrupt is enabled. -/
  | svcreqEntry (core : Nat)
  /-- CLKCMP_MATCH (R367): CLK reaching CLKCMP makes CLKCMP pending and it is taken if enabled. -/
  | clkcmpMatch (core : Nat)
  /-- LINK_EVENT_ENTRY (R374): Firmware takes LINK_EVENT, with VAL naming the lowest module with a nonzero LKEVT. -/
  | linkEventEntry (core : Nat)
  /-- HEARTBEAT_SEND (R391): A service pair sends a heartbeat to every other pair once per HBPER. -/
  | heartbeatSend (core : Nat)
  /-- HEARTBEAT_MISSED (R391): A receiver counts a missed period after 2 × HBPER without a heartbeat. -/
  | heartbeatMissed (core sender : Nat)
  /-- TAKEOVER (R392): The candidate claims the next epoch, resets the silent leader and enters supervisor level. -/
  | takeover (slot : Nat)
  /-- LEADER_CLAIM (R392): A pair receiving a claim ignores lower epochs and resolves equal claims. -/
  | leaderClaim (slot : Nat)
  /-- STRING_MONITOR_EVAL (R335): Each monitor clock the string state and throttle value are updated from the deviations. -/
  | stringMonitorEval (quad : Nat) (currents : List Int)
  /-- RAIL_GAP_EXCURSION (R339): A level's gap monitor sees more than 200 mV and the string enters GAP. -/
  | railGapExcursion (core : Nat)
  /-- RAIL_GAP_END (R339): 64 consecutive clocks below 180 mV end the excursion and restore the string state. -/
  | railGapEnd (quad : Nat)
  /-- PWRH_GRACE_END (R342): A PWRH grace period ends after STRHOLD monitor clocks. -/
  | pwrhGraceEnd (core : Nat)
  /-- FILL_EXPIRY (R342): A core's FILL request runs out. -/
  | fillExpiry (core : Nat)
  /-- FREQUENCY_CHANGE (R340): Service firmware changes an island's frequency, suppressing issue for at most 512 clocks. -/
  | frequencyChange (core : Nat) (clocks : Nat)
  /-- THERMAL_FLAG (R341): A core whose predicted temperature or droop count exceeds its limit is flagged. -/
  | thermalFlag (core : Nat)
  /-- THERMAL_UNFLAG (R341): A flag clears when a window closes under both release conditions. -/
  | thermalUnflag (core : Nat)
  /-- MIGRATION_GO (R184): Setting MIGCTL.GO starts a tier migration copy, or sets ERR if refused. -/
  | migrationGo (die : Nat)
  /-- MIGRATION_DONE (R185): The tier migration engine finishes its copy, clears GO and sets DONE. -/
  | migrationDone (die : Nat)
  /-- INGRESS_DELIVERY (R349): Deliverable packets enter the owner's CH7 buffer in ascending sequence. -/
  | ingressDelivery (grid : Nat) (region : Fin 16)
  /-- SOFT_ERROR (R180): An uncorrectable soft error poisons the affected sector. -/
  | softError (sec : Nat)
  /-- HOST_ACCESS (R405): A host load, store or atomic arrives over the fabric. -/
  | hostAccess (acc : HostAcc) (nodir : Bool)
  /-- DISPLAY_SCANOUT (R405): The display engine reads a frame from memory devices. -/
  | displayScanout (addr len : Nat)
  /-- FLIT_CRC_RETRY (R399): A flit failing its CRC is resent from the retry buffer and LKRETRY counts it. -/
  | flitCrcRetry (link : Nat)
  /-- LANE_ERROR (R402): A lane's error checker exceeds its threshold and sets LKDERR or LKSERR. -/
  | laneError (link lane : Nat)
  /-- LKCTL_PAUSE_SET (R400): Setting PAUSE takes an ACTIVE link into DRAIN. -/
  | lkctlPauseSet (link : Nat)
  /-- LKCTL_PAUSE_CLEAR (R400): Clearing PAUSE returns a PAUSED link to ACTIVE when PAUSE is 0 at both ends. -/
  | lkctlPauseClear (link : Nat)
  /-- LKCTL_RETRAIN (R400): Setting RETRAIN starts training, through DRAIN from ACTIVE. -/
  | lkctlRetrain (link : Nat)
  /-- LINK_TRAIN_COMPLETE (R400): Lanes train at the requested width and the link goes to PAUSED or ACTIVE. -/
  | linkTrainComplete (link : Nat)
  /-- REDUCTION_CONTRIBUTION (R404): A CPREM.PUT to an in-switch reduction group is counted as a contribution. -/
  | reductionContribution (group : Nat) (src : Nat) (p : Payload)
  /-- REDUCTION_TIMEOUT (R404): A reduction group times out or breaks, and contributors receive TIMEOUT. -/
  | reductionTimeout (group : Nat)
  /-- TRANSFER_LINK_TIMEOUT (R262): A remote transfer lost to a link outage completes at the sender with TIMEOUT. -/
  | transferLinkTimeout (op : Nat)
  /-- PACKAGE_POWER_UP (R406): At power-up only the loader runs, links train and registers take their reset values. -/
  | packagePowerUp
  /-- BUNDLE_LENGTH_WRITE (R406): A host's length write makes the loader verify the bundle, start the service pairs and write a status. -/
  | bundleLengthWrite (len : Nat)
  /-- BANK_SWITCH (R407): At a quiescent point all pairs switch to the newly loaded firmware bank unless its version is lower. -/
  | bankSwitch
  /-- ATTESTATION_REQUEST (R408): A nonce request returns a signed attestation report. -/
  | attestationRequest (nonce : Nat)
  /-- PACKAGE_SUSPEND (R409): The package stops, drains, pauses its links, self-refreshes memory and collapses its logic rails. -/
  | packageSuspend
  /-- PACKAGE_RESUME (R409): The package reverses a suspend and threads continue from their positions. -/
  | packageResume
  /-- SYSTEM_SUSPEND (R410): Leaders stop, park waiting remote transfers and suspend every package. -/
  | systemSuspend
  /-- SYSTEM_RESUME (R410): Packages resume and senders resend parked transfers whole before issue restarts. -/
  | systemResume
  /-- ENGINE_OPERATION_COMPLETE (R213): An engine operation begun by an ACC, GFX or PART word, or by LAUNCH or TTASK, completes after its last write. Its counter decrement, token completion and, for ACCSET, the overflow check and ACC_OVERFLOW record follow. -/
  | engineOperationComplete (op : Nat)
  /-- MEMORY_PLANE_OFF (R181): A memory die's memory plane loses power. From then on, loads to its homes return poison and stores are discarded and logged. -/
  | memoryPlaneOff (die : Nat)
  /-- SELF_REFRESH_ENTRY (R341): Service firmware, or the CXL device for an idle rank, places an HBM4E channel or LPDDR6 rank with no mapped pages in self-refresh. -/
  | selfRefreshEntry (die chan : Nat)
  deriving DecidableEq, Repr

end Sys2Proof
end

