-- ==== Sys2Proof/WellFormed.lean ====
section
/-!
DEFINITION. WellFormed.lean: which terms of `Instr` are instruction words of the part, and which registers a word
names. `Instr.opds` lists every register operand with the group it opens, the alignment it needs and the register
kinds its field accepts (spec/02 R47 to R49 and the entry of each word); `Instr.fieldsOk` lists the modifier rules
that the operand types leave open. Both are decided by the encoding alone; the launch allocation enters in
Machine/Issue.lean (spec/02 R52, order 5).
-/

namespace Sys2Proof

/-- One register operand of a word: the first register of a group of `n`, which must be a multiple of `al`; whether
x, g and xz are accepted; whether the word reads or writes it as a fixed register source or destination. -/
structure Opd where
  r : Reg
  n : Nat := 1
  al : Nat := 1
  x : Bool := true
  g : Bool := true
  z : Bool := true
  rd : Bool := false
  wr : Bool := false
  deriving DecidableEq, Repr

/-- The operand names registers that exist under an allocation of `nregs` registers (spec/02 R47, R48). -/
def Opd.ok (nregs : Nat) (o : Opd) : Bool :=
  match o.r with
  | .xz => o.z
  | .g i => o.g && i.val % o.al == 0 && i.val + o.n ≤ 64
  | .x i => o.x && i.val % o.al == 0 && i.val + o.n ≤ nregs

/-- The registers of an 8, 16, 32, 64 or 128-bit operand (spec/09 R186). -/
def Size.regs : Size → Nat
  | .b8 | .b16 | .b32 => 1
  | .b64 => 2
  | .b128 => 4

/-- The bytes of an access (spec/00 R6). -/
def Size.bytes : Size → Nat
  | .b8 => 1
  | .b16 => 2
  | .b32 => 4
  | .b64 => 8
  | .b128 => 16

/-- A single source register. -/
def src (r : Reg) : Opd := { r := r, rd := true }
/-- A single destination register. -/
def dst (r : Reg) : Opd := { r := r, wr := true }
/-- A source group of n registers aligned to n (spec/02 R48). -/
def srcN (n : Nat) (r : Reg) : Opd := { r := r, n := n, al := n, rd := true }
/-- A destination group of n registers aligned to n. -/
def dstN (n : Nat) (r : Reg) : Opd := { r := r, n := n, al := n, wr := true }
/-- A source group of g registers only, n registers aligned to `al`. -/
def gSrc (n al : Nat) (r : Reg) : Opd := { r := r, n := n, al := al, x := false, z := false, rd := true }
/-- A group of x registers only, n registers aligned to n. -/
def xGrp (n : Nat) (r : Reg) : Opd := { r := r, n := n, al := n, g := false, z := false, rd := true, wr := true }

/-- One register, or a pair with .X2 (spec/06 R127). -/
def x2n (x2 : Bool) : Nat := if x2 then 2 else 1

/-- The x register of a number below 191; register 0 stands for a number that is none. -/
def xReg (n : Nat) : Reg := if h : n < 191 then .x ⟨n, h⟩ else .x 0

/-- Is the special register 64 bits wide (spec/04 R98)? -/
def SReg.wide : SReg → Bool
  | .clk | .seed => true
  | _ => false

/-- Is the CSR 64 bits wide (spec/18 R367)? -/
def Csr.wide : Csr → Bool
  | .stvec | .sepc | .stval | .clkcmp | .ftvec | .fepc | .ftval | .bsel | .svcpend | .qbase _ | .ctxtab | .capbase
  | .poolbase _ | .migsrc | .migdst => true
  | _ => false

/-- Registers of a CSR operand. -/
def Csr.regs (c : Csr) : Nat := if c.wide then 2 else 1

/-- Every register operand of a word, with its group. -/
def Instr.opds : Instr → List Opd
  | .brx _ a _ => [srcN 2 a]
  | .call _ _ k => [{ r := xReg (2 * k.val), n := 2, al := 2, wr := true }]
  | .ret _ a => [srcN 2 a]
  | .loop _ _ a _ => [src a]
  | .cvset _ _ a _ _ => [src a]
  | .sleep _ a _ _ => [src a]
  | .iadd _ d a b _ | .isub _ d a b _ | .imul _ d a b | .imulh _ d a b _ | .imin _ d a b _ | .imax _ d a b _
  | .and _ d a b | .or _ d a b | .xor _ d a b | .andn _ d a b | .shl _ d a b | .shr _ d a b | .sar _ d a b
  | .rol _ d a b | .bfx _ d a b _ | .sel _ d a b _ _ => [dst d, src a, src b]
  | .imad _ d a b c _ | .bfi _ d a b c => [dst d, src a, src b, src c]
  | .iabs _ d a _ | .popc _ d a | .clz _ d a | .brev _ d a | .mov _ d a => [dst d, src a]
  | .isetp _ _ a b _ _ _ => [src a, src b]
  | .movi _ d _ => [dst d]
  | .movhi _ d _ => [{ r := d, rd := true, wr := true }]
  | .movs _ d sr => [dstN (if sr.wide then 2 else 1) d]
  | .movsw _ _ a => [src a]
  | .lea _ d a b _ _ => [dstN 2 d, srcN 2 a, src b]
  | .iadd64 _ d a b => [dstN 2 d, srcN 2 a, srcN 2 b]
  | .pget _ d => [dst d]
  | .pput _ a _ => [src a]
  | .iaddi _ d a _ | .andi _ d a _ | .ori _ d a _ | .xori _ d a _ => [dst d, src a]
  | .isetpi _ _ a _ _ _ => [src a]
  | .fadd _ d a b _ x2 _ | .fsub _ d a b _ x2 _ | .fmul _ d a b _ x2 _ | .fmin _ d a b x2 _ | .fmax _ d a b x2 _ =>
      [dstN (x2n x2) d, srcN (x2n x2) a, srcN (x2n x2) b]
  | .ffma _ d a b c _ x2 _ _ _ | .fclamp _ d a b c x2 =>
      [dstN (x2n x2) d, srcN (x2n x2) a, srcN (x2n x2) b, srcN (x2n x2) c]
  | .fabs _ d a x2 | .fneg _ d a x2 => [dstN (x2n x2) d, srcN (x2n x2) a]
  | .fsetp _ _ a b _ _ => [src a, src b]
  | .frnd _ d a _ | .f2i _ d a _ _ | .i2f _ d a _ _ | .fclass _ d a _ => [dst d, src a]
  | .hadd2 _ d a b _ _ _ | .hmul2 _ d a b _ _ _ | .fscl _ d a b _ | .cvtup _ d a b _ => [dst d, src a, src b]
  | .hfma2 _ d a b c _ _ _ | .dot2 _ d a b c _ _ | .dot4 _ d a b c _ _ => [dst d, src a, src b, src c]
  | .cvt _ d a c _ _ => [dst d, src a, src c]
  | .cvtpk _ d a b c _ => [{ r := d, rd := true, wr := true }, src a, src b, src c]
  | .rcp _ d a | .rsq _ d a | .sqrt _ d a _ | .exp2 _ d a | .log2 _ d a | .sin _ d a | .cos _ d a | .tanh _ d a
  | .rng _ d a _ => [dst d, src a]
  | .sincos _ d a => [dstN 2 d, src a]
  | .tlu _ d a b => [dst d, src a, gSrc 4 4 b]
  | .dropm _ _ a b => [src a, src b]
  | .csamp _ d a b | .fdiv _ d a b _ => [dst d, src a, src b]
  | .xrd _ d a b c _ => [dst d, src a, src b, src c]
  | .xrdi _ d a _ fl _ => [{ r := d, rd := fl == .keep, wr := true }, src a]
  | .xred _ d a _ | .xscan _ d a _ _ => [dst d, src a]
  | .xvote _ d _ _ m => [dstN (if m = .bal ∨ m = .balhi then 2 else 1) d]
  | .xcmp _ d a c _ _ => [dstN 2 d, src a, src c]
  | .xexp _ d a c _ _ => [dst d, src a, src c]
  | .xmatch _ d a _ => [dstN 2 d, src a]
  | .lds _ d base _ sz _ => [dstN sz.regs d, src base]
  | .sts _ d base _ sz _ => [srcN sz.regs d, src base]
  | .ldsf _ d base _ sz _ _ => [dstN sz.regs d, src base]
  | .stse _ d base _ sz _ => [srcN sz.regs d, src base]
  | .tags _ a b _ _ => [src a, src b]
  | .tagr _ d a _ => [dst d, src a]
  | .ldg _ d base _ sz | .ldu _ d base _ sz => [dstN sz.regs d, srcN 2 base]
  | .stg _ d base _ sz => [srcN sz.regs d, srcN 2 base]
  | .pref _ _ base _ => [srcN 2 base]
  | .cmaint _ a b _ _ => [srcN 2 a, src b]
  | .lda _ d base _ _ sz sp => [dstN sz.regs d, srcN (if sp = .global then 2 else 1) base]
  | .stl _ d base _ _ sz sp => [srcN sz.regs d, srcN (if sp = .global then 2 else 1) base]
  | .atom _ d a b _ _ s64 op => [{ dstN (x2n s64) d with rd := op == .cas }, srcN 2 a, srcN (x2n s64) b]
  | .atoms _ d a b _ _ s64 _ op => [{ dstN (x2n s64) d with rd := op == .cas }, src a, srcN (x2n s64) b]
  | .red _ a b _ _ s64 _ => [srcN 2 a, srcN (x2n s64) b]
  | .bar _ _ a _ _ _ _ => [src a]
  | .bara _ a _ _ _ _ => [src a]
  | .barn _ d _ _ => [dst d]
  | .semacq _ _ a _ _ => [src a]
  | .semrel _ _ _ a _ _ => [src a]
  | .semtry _ _ _ a _ _ => [src a]
  | .semrd _ d _ _ => [dst d]
  | .cpl _ a b _ _ => [{ r := a, n := 4, al := 4, z := false, rd := true }, src b]
  | .cpt _ a b _ _ => [gSrc 2 2 a, gSrc 6 2 b]
  | .cpr _ a b _ => [gSrc 2 2 a, gSrc 2 2 b]
  | .cpstage _ a _ _ _ => [src a]
  | .cpadv _ d _ => [dst d]
  | .cpremPut _ a b _ | .cpremPost _ a b _ => [gSrc 4 4 a, gSrc 2 2 b]
  | .cpfill _ a b _ _ => [gSrc 4 2 a, gSrc 1 1 b]
  | .mma _ a _ j _ _ | .mmas _ a _ j _ _ =>
      [{ r := a, al := 4, g := false, z := false, rd := true },
       gSrc 4 4 (.g ⟨4 * j.val, by omega⟩)]
  | .mfq _ d _ => [dstN 4 d]
  | .mqry _ d _ => [dst d]
  | .accz _ a b _ | .accset _ a b _ _ | .accfl _ a b _ | .accpoi _ a b _ => [gSrc 2 2 a, gSrc 1 1 b]
  | .accadd _ a b _ => [srcN 2 a, src b]
  | .accrd _ d a f => [dstN (if f = .f32 then 1 else 2) d, srcN 2 a]
  | .accout _ a b _ => [gSrc 2 2 a, gSrc 4 4 b]
  | .rast _ a b _ _ => [{ xGrp 4 a with rd := false }, gSrc 2 2 b]
  | .trav _ a b _ => [xGrp 16 a, gSrc 8 8 b]
  | .sample _ a b _ => [xGrp 4 a, gSrc 4 4 b]
  | .winacq _ d _ _ => [dst d]
  | .ordt _ a b _ _ => [gSrc 2 2 a, gSrc 1 1 b]
  | .ttask _ a b _ => [gSrc 2 2 a, { gSrc 1 1 b with rd := false, wr := true }]
  | .tfence _ a b _ => [src a, dst b]
  | .omrg _ a b _ => [{ xGrp 8 a with wr := false }, gSrc 4 4 b]
  | .csrr _ d c => [dstN c.regs d]
  | .csrw _ c a => [srcN c.regs a]
  | .csrset _ d c a | .csrclr _ d c a => [dstN c.regs d, srcN c.regs a]
  | .tlbinv _ a b c _ _ => [srcN 2 a, src b, src c]
  | .launch _ a b _ => [gSrc 2 2 a, { gSrc 2 2 b with wr := true }]
  | .rmark _ a _ => [src a]
  | .ctxsave _ d a b _ => [dst d, srcN 2 a, srcN 2 b]
  | .ctxload _ d a => [dst d, srcN 2 a]
  | .fill _ _ a _ => [src a]
  | .strq _ d _ => [dst d]
  | .pgive _ a b _ _ _ | .ptake _ a b _ _ => [gSrc 4 4 a, gSrc 2 2 b]
  | .pqry _ d (.own a) => [dst d, srcN 2 a]
  | .pqry _ d .dies => [dst d]
  | .pzero _ a b _ => [srcN 2 a, src b]
  | _ => []

/-- The highest identifier of a barrier level (spec/11 R232). -/
def BLevel.maxId : BLevel → Nat
  | .core => 15
  | .quad | .die => 3
  | .pkg => 1
  | .pod => 0

/-- The operations RED accepts (spec/11 R226). -/
def AOp.redOk : AOp → Bool
  | .xchg | .cas => false
  | _ => true

/-- A CSR every field of which is read-only (spec/18 R366, R367). -/
def Csr.readOnly : Csr → Bool
  | .sip | .bfr _ | .svcpend | .qhead _ | .leader | .leadslot => true
  | _ => false

/-- A special register MOVSW may write (spec/04 R98). -/
def SReg.writable : SReg → Bool
  | .mb _ | .xlwin | .taglim | .faultst => true
  | _ => false

/-- The modifier rules that the operand types leave open: reserved combinations, which fault ILLEGAL_OP at decode
(spec/02 R52, order 3). -/
def Instr.fieldsOk : Instr → Bool
  | .loop _ _ _ len => 1 ≤ len.val && len.val ≤ 256
  | .loopi _ _ _ len => 1 ≤ len.val && len.val ≤ 256
  | .movsw _ sr _ => sr.writable
  | .ldsf _ _ _ _ sz _ _ => decide (sz = .b32 ∨ sz = .b64 ∨ sz = .b128)
  | .stse _ _ _ _ sz _ => decide (sz = .b32 ∨ sz = .b64 ∨ sz = .b128)
  | .atom _ _ _ _ _ _ s64 op => !(s64 && op == .fadd)
  | .atoms _ _ _ _ _ _ s64 _ op => !(s64 && op == .fadd)
  | .red _ _ _ _ _ s64 op => op.redOk && !(s64 && op == .fadd)
  | .bar _ _ _ _ _ lvl id => id.val ≤ lvl.maxId
  | .bara _ _ _ _ lvl id => id.val ≤ lvl.maxId
  | .barw _ _ _ lvl id => id.val ≤ lvl.maxId
  | .barn _ _ lvl id => id.val ≤ lvl.maxId
  | .cpstage _ _ size mn mx =>
      1 ≤ size.toNat && 2 ≤ mx.val && mx.val ≤ 32 && 1 ≤ mn.val && mn.val ≤ mx.val
  | .csrw _ c _ => !c.readOnly
  | .csrset _ _ c _ => !c.readOnly
  | .csrclr _ _ c _ => !c.readOnly
  | .tlbinv _ a b c all _ => !all || (a == .xz && b == .xz && c == .xz)
  | _ => true

/-- An instruction word that decodes under the largest allocation: its modifiers hold and its register groups are
aligned, of the right kind and inside the register file. -/
def Instr.wf (i : Instr) : Bool := i.fieldsOk && i.opds.all (Opd.ok 191)

/-- The header of an instruction word; events have none. -/
def Instr.hdr? : Instr → Option Hdr
  | .nop h => some h
  | .bra h _ => some h
  | .brx h _ _ => some h
  | .call h _ _ => some h
  | .ret h _ => some h
  | .loop h _ _ _ => some h
  | .loopi h _ _ _ => some h
  | .brkl h _ _ => some h
  | .yield h => some h
  | .cvset h _ _ _ _ => some h
  | .sign h _ => some h
  | .start h => some h
  | .waitc h _ _ _ _ => some h
  | .tkw h _ _ => some h
  | .exit h => some h
  | .sleep h _ _ _ => some h
  | .iadd h _ _ _ _ => some h
  | .isub h _ _ _ _ => some h
  | .imul h _ _ _ => some h
  | .imulh h _ _ _ _ => some h
  | .imad h _ _ _ _ _ => some h
  | .imin h _ _ _ _ => some h
  | .imax h _ _ _ _ => some h
  | .iabs h _ _ _ => some h
  | .and h _ _ _ => some h
  | .or h _ _ _ => some h
  | .xor h _ _ _ => some h
  | .andn h _ _ _ => some h
  | .shl h _ _ _ => some h
  | .shr h _ _ _ => some h
  | .sar h _ _ _ => some h
  | .rol h _ _ _ => some h
  | .bfx h _ _ _ _ => some h
  | .bfi h _ _ _ _ => some h
  | .popc h _ _ => some h
  | .clz h _ _ => some h
  | .brev h _ _ => some h
  | .isetp h _ _ _ _ _ _ => some h
  | .plop h _ _ _ _ _ => some h
  | .sel h _ _ _ _ _ => some h
  | .mov h _ _ => some h
  | .movi h _ _ => some h
  | .movhi h _ _ => some h
  | .movs h _ _ => some h
  | .movsw h _ _ => some h
  | .lea h _ _ _ _ _ => some h
  | .iadd64 h _ _ _ => some h
  | .pget h _ => some h
  | .pput h _ _ => some h
  | .iaddi h _ _ _ => some h
  | .andi h _ _ _ => some h
  | .ori h _ _ _ => some h
  | .xori h _ _ _ => some h
  | .isetpi h _ _ _ _ _ => some h
  | .fadd h _ _ _ _ _ _ => some h
  | .fsub h _ _ _ _ _ _ => some h
  | .fmul h _ _ _ _ _ _ => some h
  | .ffma h _ _ _ _ _ _ _ _ _ => some h
  | .fmin h _ _ _ _ _ => some h
  | .fmax h _ _ _ _ _ => some h
  | .fabs h _ _ _ => some h
  | .fneg h _ _ _ => some h
  | .fsetp h _ _ _ _ _ => some h
  | .frnd h _ _ _ => some h
  | .fclamp h _ _ _ _ _ => some h
  | .f2i h _ _ _ _ => some h
  | .i2f h _ _ _ _ => some h
  | .hadd2 h _ _ _ _ _ _ => some h
  | .hmul2 h _ _ _ _ _ _ => some h
  | .hfma2 h _ _ _ _ _ _ _ => some h
  | .dot2 h _ _ _ _ _ _ => some h
  | .dot4 h _ _ _ _ _ _ => some h
  | .cvt h _ _ _ _ _ => some h
  | .cvtpk h _ _ _ _ _ => some h
  | .cvtup h _ _ _ _ => some h
  | .fscl h _ _ _ _ => some h
  | .fclass h _ _ _ => some h
  | .rcp h _ _ => some h
  | .rsq h _ _ => some h
  | .sqrt h _ _ _ => some h
  | .exp2 h _ _ => some h
  | .log2 h _ _ => some h
  | .sin h _ _ => some h
  | .cos h _ _ => some h
  | .sincos h _ _ => some h
  | .tanh h _ _ => some h
  | .tlu h _ _ _ => some h
  | .dropm h _ _ _ => some h
  | .csamp h _ _ _ => some h
  | .rng h _ _ _ => some h
  | .fdiv h _ _ _ _ => some h
  | .xrd h _ _ _ _ _ => some h
  | .xrdi h _ _ _ _ _ => some h
  | .xred h _ _ _ => some h
  | .xscan h _ _ _ _ => some h
  | .xvote h _ _ _ _ => some h
  | .xpred h _ _ _ _ => some h
  | .xcmp h _ _ _ _ _ => some h
  | .xexp h _ _ _ _ _ => some h
  | .xmatch h _ _ _ => some h
  | .lds h _ _ _ _ _ => some h
  | .sts h _ _ _ _ _ => some h
  | .ldsf h _ _ _ _ _ _ => some h
  | .stse h _ _ _ _ _ => some h
  | .tags h _ _ _ _ => some h
  | .tagr h _ _ _ => some h
  | .ldg h _ _ _ _ => some h
  | .stg h _ _ _ _ => some h
  | .ldu h _ _ _ _ => some h
  | .pref h _ _ _ => some h
  | .cmaint h _ _ _ _ => some h
  | .fence h _ _ => some h
  | .lda h _ _ _ _ _ _ => some h
  | .stl h _ _ _ _ _ _ => some h
  | .atom h _ _ _ _ _ _ _ => some h
  | .atoms h _ _ _ _ _ _ _ _ => some h
  | .red h _ _ _ _ _ _ => some h
  | .bar h _ _ _ _ _ _ => some h
  | .bara h _ _ _ _ _ => some h
  | .barw h _ _ _ _ => some h
  | .barn h _ _ _ => some h
  | .semacq h _ _ _ _ => some h
  | .semrel h _ _ _ _ _ => some h
  | .semtry h _ _ _ _ _ => some h
  | .semrd h _ _ _ => some h
  | .cpl h _ _ _ _ => some h
  | .cpt h _ _ _ _ => some h
  | .cpr h _ _ _ => some h
  | .cpstage h _ _ _ _ => some h
  | .cpstageOff h => some h
  | .cpadv h _ _ => some h
  | .cpremPut h _ _ _ => some h
  | .cpremPost h _ _ _ => some h
  | .tkj h _ => some h
  | .cpfill h _ _ _ _ => some h
  | .mma h _ _ _ _ _ => some h
  | .mmas h _ _ _ _ _ => some h
  | .mrel h _ => some h
  | .mfq h _ _ => some h
  | .mqry h _ _ => some h
  | .accz h _ _ _ => some h
  | .accadd h _ _ _ => some h
  | .accrd h _ _ _ => some h
  | .accset h _ _ _ _ => some h
  | .accfl h _ _ _ => some h
  | .accout h _ _ _ => some h
  | .accpoi h _ _ _ => some h
  | .rast h _ _ _ _ => some h
  | .trav h _ _ _ => some h
  | .sample h _ _ _ => some h
  | .winacq h _ _ _ => some h
  | .winrel h _ _ => some h
  | .ordt h _ _ _ _ => some h
  | .ttask h _ _ _ => some h
  | .tfence h _ _ _ => some h
  | .omrg h _ _ _ => some h
  | .trap h _ => some h
  | .eret h => some h
  | .csrr h _ _ => some h
  | .csrw h _ _ => some h
  | .csrset h _ _ _ => some h
  | .csrclr h _ _ _ => some h
  | .tlbinv h _ _ _ _ _ => some h
  | .launch h _ _ _ => some h
  | .wfi h => some h
  | .halt h => some h
  | .rmark h _ _ => some h
  | .ctxsave h _ _ _ _ => some h
  | .ctxload h _ _ => some h
  | .fill h _ _ _ => some h
  | .pwrh h _ => some h
  | .strq h _ _ => some h
  | .pgive h _ _ _ _ _ => some h
  | .ptake h _ _ _ _ => some h
  | .pqry h _ _ => some h
  | .pzero h _ _ _ => some h
  | _ => none

end Sys2Proof
end

