-- ==== Sys2Proof/Decode.lean ====
section
/-!
DEFINITION. Decode.lean: from the 64 bits of a word to an instruction or a named rejection, and back.
The seven operand layouts of spec/02 R42, the opcode map of R50 (`formatOf`), the operand tables of every entry
(`parseCtrl` to `parsePart`), the checks of R52 that the bits alone decide (orders 1, 2, 3), and the encoder written
from the same tables.
-/

namespace Sys2Proof

/-- Why a bit pattern is no instruction (spec/02 R52). -/
inductive Reject where
  /-- Class 0xE or 0xF, or a class the service profile lacks. -/
  | illegalClass
  /-- Reserved opcode, reserved modifier value, nonzero unused bit. -/
  | illegalOp
  /-- A register code past the allocation, of the wrong kind, or a misaligned group. -/
  | illegalReg
  /-- The current level is below the one R51 requires. -/
  | priv
  deriving DecidableEq, Repr

/-- The operand layouts of spec/02 R42. -/
inductive Fmt where
  | A | I | L | B | M | T | W
  deriving DecidableEq, Repr

/-- The operand field [37:0], cut into the fields of its layout (spec/02 R42). -/
inductive Fields where
  | A (d a b c m : Nat)
  | I (d a imm : Nat)
  | L (d imm : Nat)
  | B (m ofs aux : Nat)
  | M (d base ofs sz sp : Nat)
  | T (a b tko t0 t1 t2 m : Nat)
  | W (ld st cp mt z : Nat)
  deriving DecidableEq, Repr

/-- The n bits of x from bit lo upwards. -/
def bitsAt (x lo n : Nat) : Nat := x / 2 ^ lo % 2 ^ n

/-- Cut the operand field (spec/02 R42). -/
def Fmt.split (f : Fmt) (x : Nat) : Fields :=
  match f with
  | .A => .A (bitsAt x 30 8) (bitsAt x 22 8) (bitsAt x 14 8) (bitsAt x 6 8) (bitsAt x 0 6)
  | .I => .I (bitsAt x 30 8) (bitsAt x 22 8) (bitsAt x 0 22)
  | .L => .L (bitsAt x 30 8) (bitsAt x 0 30)
  | .B => .B (bitsAt x 32 6) (bitsAt x 6 26) (bitsAt x 0 6)
  | .M => .M (bitsAt x 30 8) (bitsAt x 22 8) (bitsAt x 6 16) (bitsAt x 3 3) (bitsAt x 0 3)
  | .T => .T (bitsAt x 30 8) (bitsAt x 22 8) (bitsAt x 17 5) (bitsAt x 12 5) (bitsAt x 7 5) (bitsAt x 2 5)
            (bitsAt x 0 2)
  | .W => .W (bitsAt x 32 6) (bitsAt x 26 6) (bitsAt x 20 6) (bitsAt x 14 6) (bitsAt x 0 14)

/-- The operand field of given fields (spec/02 R42). -/
def Fields.join : Fields → Nat
  | .A d a b c m => d * 2 ^ 30 + a * 2 ^ 22 + b * 2 ^ 14 + c * 2 ^ 6 + m
  | .I d a imm => d * 2 ^ 30 + a * 2 ^ 22 + imm
  | .L d imm => d * 2 ^ 30 + imm
  | .B m ofs aux => m * 2 ^ 32 + ofs * 2 ^ 6 + aux
  | .M d base ofs sz sp => d * 2 ^ 30 + base * 2 ^ 22 + ofs * 2 ^ 6 + sz * 2 ^ 3 + sp
  | .T a b tko t0 t1 t2 m =>
      a * 2 ^ 30 + b * 2 ^ 22 + tko * 2 ^ 17 + t0 * 2 ^ 12 + t1 * 2 ^ 7 + t2 * 2 ^ 2 + m
  | .W ld st cp mt z => ld * 2 ^ 32 + st * 2 ^ 26 + cp * 2 ^ 20 + mt * 2 ^ 14 + z

/-- The layout of given fields. -/
def Fields.fmt : Fields → Fmt
  | .A .. => .A | .I .. => .I | .L .. => .L | .B .. => .B | .M .. => .M | .T .. => .T | .W .. => .W

/-- The operand layouts of a class by opcode, from opcode 0x00 on (spec/02 R50). -/
def classFmts : Nat → List Fmt
  | 0x0 => [.L, .B, .I, .B, .I, .I, .L, .B, .L, .I, .I, .L, .W, .T, .L, .I]
  | 0x1 => [.A, .A, .A, .A, .A, .A, .A, .A, .A, .A, .A, .A, .A, .A, .A, .A, .A, .A, .A, .A, .A, .A, .A, .A, .A,
            .L, .L, .I, .I, .A, .A, .I, .I, .I, .I, .I, .I, .I]
  | 0x2 => [.A, .A, .A, .A, .A, .A, .A, .A, .A, .A, .A, .A, .A, .A, .A, .A, .A, .A, .A, .A, .A, .A, .A]
  | 0x3 => [.A, .A, .A, .A, .A, .A, .A, .A, .A, .A, .A, .A, .A, .A]
  | 0x4 => [.A, .I, .A, .A, .A, .A, .A, .A, .A]
  | 0x5 => [.M, .M, .M, .M, .A, .A, .M, .M, .M, .M, .A]
  | 0x6 => [.L, .M, .M, .A, .A, .A, .I, .I, .I, .I, .I, .I, .I, .I]
  | 0x7 => [.T, .T, .T, .I, .I, .T, .T, .T]
  | 0x8 => [.T, .T, .L, .I, .I]
  | 0x9 => [.T, .T, .A, .T, .T, .T, .T]
  | 0xA => [.T, .T, .T, .I, .I, .T, .T, .T, .T]
  | 0xB => [.L, .L, .I, .I, .I, .I, .A, .T, .L, .L, .I, .A, .A]
  | 0xC => [.I, .I, .I]
  | 0xD => [.T, .T, .I, .A]
  | _ => []

/-- The operand layout of an opcode; none for a reserved one (spec/02 R50). -/
def formatOf (cls op : Nat) : Option Fmt := (classFmts cls)[op]?

/-- A register from its 8-bit code (spec/02 R47). -/
def Reg.ofCode (n : Nat) : Reg :=
  if h : n < 191 then .x ⟨n, h⟩ else if h2 : 192 ≤ n ∧ n < 256 then .g ⟨n - 192, by omega⟩ else .xz
/-- The 8-bit code of a register (spec/02 R47). -/
def Reg.code : Reg → Nat
  | .x n => n.val
  | .xz => 0xBF
  | .g n => 192 + n.val

/-- A value of a bounded field, wrapping beyond the bound. -/
def fin (n : Nat) (v : Nat) [NeZero n] : Fin n := Fin.ofNat n v
/-- A single bit as a Bool. -/
def flag (v : Nat) : Bool := v % 2 == 1
/-- A Bool as a single bit. -/
def bit (b : Bool) : Nat := if b then 1 else 0

/-- Accept only where a condition holds. -/
def chk {α : Type} (b : Bool) (o : Option α) : Option α := if b then o else none

def Scope.code : Scope → Nat
  | .core => 0 | .quad => 1 | .die => 2 | .pkg => 3 | .pod => 4 | .sys => 5
def Scope.ofCode : Nat → Option Scope
  | 0 => some .core | 1 => some .quad | 2 => some .die | 3 => some .pkg | 4 => some .pod | 5 => some .sys | _ => none
def Space.code : Space → Nat
  | .global => 0 | .spad => 1 | .qspad => 2
def Space.ofCode : Nat → Option Space
  | 0 => some .global | 1 => some .spad | 2 => some .qspad | _ => none
def Size.code : Size → Nat
  | .b8 => 0 | .b16 => 1 | .b32 => 2 | .b64 => 3 | .b128 => 4
def Size.ofCode : Nat → Option Size
  | 0 => some .b8 | 1 => some .b16 | 2 => some .b32 | 3 => some .b64 | 4 => some .b128 | _ => none
def Cmp.code : Cmp → Nat
  | .eq => 0 | .ne => 1 | .lt => 2 | .le => 3 | .gt => 4 | .ge => 5
def Cmp.ofCode : Nat → Option Cmp
  | 0 => some .eq | 1 => some .ne | 2 => some .lt | 3 => some .le | 4 => some .gt | 5 => some .ge | _ => none
def FCmp.code : FCmp → Nat
  | .eq => 0 | .ne => 1 | .lt => 2 | .le => 3 | .gt => 4 | .ge => 5 | .num => 6 | .nan => 7
def FCmp.ofCode : Nat → Option FCmp
  | 0 => some .eq | 1 => some .ne | 2 => some .lt | 3 => some .le | 4 => some .gt | 5 => some .ge
  | 6 => some .num | 7 => some .nan | _ => none
/-- The comb code of a combining predicate (spec/04 R92). -/
def PComb.comb : PComb → Nat
  | .none => 0 | .and .. => 1 | .or .. => 2 | .xor .. => 3
/-- The c field of a combining predicate: predicate and negate (spec/04 R92). -/
def PComb.c : PComb → Nat
  | .none => 0
  | .and q n | .or q n | .xor q n => q.val + 8 * bit n
/-- A combining predicate from its comb code and its c field (spec/04 R92): c<7:4> is 0, and c is 0 without one. -/
def PComb.ofCode (comb c : Nat) : Option PComb :=
  match comb with
  | 0 => chk (c == 0) (some .none)
  | 1 => chk (decide (c < 16)) (some (.and (fin 8 (c % 8)) (flag (c / 8))))
  | 2 => chk (decide (c < 16)) (some (.or (fin 8 (c % 8)) (flag (c / 8))))
  | 3 => chk (decide (c < 16)) (some (.xor (fin 8 (c % 8)) (flag (c / 8))))
  | _ => Option.none
/-- m<1:0> of the INT arithmetic words: SAT and U, U alone reserved (spec/04 R88). -/
def ArithMod.code : ArithMod → Nat
  | .wrap => 0 | .sat => 2 | .satU => 3
def ArithMod.ofCode : Nat → Option ArithMod
  | 0 => some .wrap | 2 => some .sat | 3 => some .satU | _ => none
def RMode.code : RMode → Nat
  | .rn => 0 | .rz => 1 | .rm => 2 | .rp => 3
def RMode.ofCode : Nat → Option RMode
  | 0 => some .rn | 1 => some .rz | 2 => some .rm | 3 => some .rp | _ => none
def FSrc.code : FSrc → Nat
  | .fp32 => 0 | .fp16 => 1 | .bf16 => 2
def FSrc.ofCode : Nat → Option FSrc
  | 0 => some .fp32 | 1 => some .fp16 | 2 => some .bf16 | _ => none
def DotSign.code : DotSign → Nat
  | .ss => 0 | .uu => 1 | .su => 2
def DotSign.ofCode : Nat → Option DotSign
  | 0 => some .ss | 1 => some .uu | 2 => some .su | _ => none
def XMode.code : XMode → Nat
  | .idx => 0 | .up => 1 | .dn => 2 | .xor => 3 | .rot => 4
def XMode.ofCode : Nat → Option XMode
  | 0 => some .idx | 1 => some .up | 2 => some .dn | 3 => some .xor | 4 => some .rot | _ => none
def XFill.code : XFill → Nat
  | .zero => 0 | .own => 1 | .keep => 2
def XFill.ofCode : Nat → Option XFill
  | 0 => some .zero | 1 => some .own | 2 => some .keep | _ => none
/-- imm[16:8] of XRDI: REL and the offset (spec/08 R162). -/
def XOff.code : XOff → Nat
  | .n v => v.toNat
  | .w s => 256 + s.val
def XOff.ofCode (v : Nat) : Option XOff :=
  if v < 256 then some (.n (BitVec.ofNat 8 v)) else chk (decide (v < 264)) (some (.w (fin 8 (v - 256))))
def XOp.code : XOp → Nat
  | .iadd => 0 | .imin => 1 | .imax => 2 | .umin => 3 | .umax => 4 | .and => 5 | .or => 6 | .xor => 7 | .fadd => 8
  | .fmin => 9 | .fmax => 10
def XOp.ofCode : Nat → Option XOp
  | 0 => some .iadd | 1 => some .imin | 2 => some .imax | 3 => some .umin | 4 => some .umax | 5 => some .and
  | 6 => some .or | 7 => some .xor | 8 => some .fadd | 9 => some .fmin | 10 => some .fmax | _ => none
def VoteMode.code : VoteMode → Nat
  | .bal => 0 | .balhi => 1 | .cnt => 2 | .pre => 3
def VoteMode.ofCode : Nat → Option VoteMode
  | 0 => some .bal | 1 => some .balhi | 2 => some .cnt | 3 => some .pre | _ => none
def PredMode.code : PredMode → Nat
  | .all => 0 | .any => 1 | .uni => 2
def PredMode.ofCode : Nat → Option PredMode
  | 0 => some .all | 1 => some .any | 2 => some .uni | _ => none
def PrefLevel.code : PrefLevel → Nat
  | .l1 => 0 | .rdc => 1 | .l2 => 2
def PrefLevel.ofCode : Nat → Option PrefLevel
  | 0 => some .l1 | 1 => some .rdc | 2 => some .l2 | _ => none
def CLevel.code : CLevel → Nat
  | .l1 => 0 | .rdc => 1 | .l2 => 2 | .far => 3
def CLevel.ofCode : Nat → Option CLevel
  | 0 => some .l1 | 1 => some .rdc | 2 => some .l2 | 3 => some .far | _ => none
def COp.code : COp → Nat
  | .cln => 1 | .inv => 2 | .ci => 3
def COp.ofCode : Nat → Option COp
  | 1 => some .cln | 2 => some .inv | 3 => some .ci | _ => none
def FenceKind.code : FenceKind → Nat
  | .ar => 0 | .acq => 1 | .rel => 2 | .sc => 3
def FenceKind.ofCode : Nat → Option FenceKind
  | 0 => some .ar | 1 => some .acq | 2 => some .rel | 3 => some .sc | _ => none
def AOrder.code : AOrder → Nat
  | .rlx => 0 | .acq => 1 | .rel => 2 | .ar => 3
def AOrder.ofCode : Nat → Option AOrder
  | 0 => some .rlx | 1 => some .acq | 2 => some .rel | 3 => some .ar | _ => none
def AOp.code : AOp → Nat
  | .add => 0 | .min => 1 | .max => 2 | .umin => 3 | .umax => 4 | .and => 5 | .or => 6 | .xor => 7 | .xchg => 8
  | .cas => 9 | .inc => 10 | .dec => 11 | .fadd => 12
def AOp.ofCode : Nat → Option AOp
  | 0 => some .add | 1 => some .min | 2 => some .max | 3 => some .umin | 4 => some .umax | 5 => some .and
  | 6 => some .or | 7 => some .xor | 8 => some .xchg | 9 => some .cas | 10 => some .inc | 11 => some .dec
  | 12 => some .fadd | _ => none
def BLevel.code : BLevel → Nat
  | .core => 0 | .quad => 1 | .die => 2 | .pkg => 3 | .pod => 4
def BLevel.ofCode : Nat → Option BLevel
  | 0 => some .core | 1 => some .quad | 2 => some .die | 3 => some .pkg | 4 => some .pod | _ => none
def CElem.code : CElem → Nat
  | .e4 => 0 | .e8 => 1 | .e16 => 2
def CElem.ofCode : Nat → Option CElem
  | 0 => some .e4 | 1 => some .e8 | 2 => some .e16 | _ => none
def AdvMode.code : AdvMode → Nat
  | .p => 0 | .c => 1 | .n => 2
def AdvMode.ofCode : Nat → Option AdvMode
  | 0 => some .p | 1 => some .c | 2 => some .n | _ => none
def MqForm.code : MqForm → Nat
  | .stat => 0 | .latch => 1 | .cfg => 2
def MqForm.ofCode : Nat → Option MqForm
  | 0 => some .stat | 1 => some .latch | 2 => some .cfg | _ => none
def RdForm.code : RdForm → Nat
  | .f32 => 0 | .i64 => 1 | .st => 2
def RdForm.ofCode : Nat → Option RdForm
  | 0 => some .f32 | 1 => some .i64 | 2 => some .st | _ => none
def SetScope.code : SetScope → Nat
  | .core => 0 | .quad => 1 | .die => 2 | .pkg => 3
def SetScope.ofCode : Nat → Option SetScope
  | 0 => some .core | 1 => some .quad | 2 => some .die | 3 => some .pkg | _ => none
def Cull.code : Cull → Nat
  | .none => 0 | .back => 1 | .front => 2
def Cull.ofCode : Nat → Option Cull
  | 0 => some .none | 1 => some .back | 2 => some .front | _ => Option.none
def FillKind.code : FillKind → Nat
  | .v => 1 | .s => 2 | .vs => 3
def FillKind.ofCode : Nat → Option FillKind
  | 1 => some .v | 2 => some .s | 3 => some .vs | _ => none
def ActClass.code : ActClass → Nat
  | .idle => 0 | .int => 1 | .mem => 2 | .vec => 3 | .sfu => 4 | .mtx => 5
def ActClass.ofCode : Nat → Option ActClass
  | 0 => some .idle | 1 => some .int | 2 => some .mem | 3 => some .vec | 4 => some .sfu | 5 => some .mtx | _ => none
def SqForm.code : SqForm → Nat
  | .imb => 0 | .st => 1 | .lim => 2
def SqForm.ofCode : Nat → Option SqForm
  | 0 => some .imb | 1 => some .st | 2 => some .lim | _ => none
def Owner.code : Owner → Nat
  | .none => 0 | .p => 1 | .t => 2 | .shared => 3
def Owner.ofCode : Nat → Option Owner
  | 0 => some .none | 1 => some .p | 2 => some .t | 3 => some .shared | _ => Option.none

/-- Special-register identifiers (spec/04 R98). -/
def SReg.code : SReg → Nat
  | .width => 0x000 | .lane => 0x001 | .slot => 0x002 | .rowid => 0x003 | .nrow => 0x004 | .blkid => 0x005
  | .nblk => 0x006 | .qpos => 0x007 | .qgid => 0x008 | .dgid => 0x009 | .dgpos => 0x00A | .gridid => 0x00B
  | .prio => 0x00C | .part => 0x00D | .level => 0x00E | .clk => 0x010 | .seed => 0x011 | .cnt => 0x012
  | .pdepth => 0x013
  | .lc k => 0x018 + k.val
  | .mb k => 0x020 + k.val
  | .fs k => 0x030 + k.val
  | .xlwin => 0x040 | .taglim => 0x041 | .faultst => 0x042
/-- The special register of an identifier; none for a reserved one (spec/04 R98). -/
def SReg.ofCode (n : Nat) : Option SReg :=
  if h : 0x018 ≤ n ∧ n < 0x01B then some (.lc ⟨n - 0x018, by omega⟩)
  else if h : 0x020 ≤ n ∧ n < 0x030 then some (.mb ⟨n - 0x020, by omega⟩)
  else if h : 0x030 ≤ n ∧ n < 0x038 then some (.fs ⟨n - 0x030, by omega⟩)
  else match n with
  | 0x000 => some .width | 0x001 => some .lane | 0x002 => some .slot | 0x003 => some .rowid | 0x004 => some .nrow
  | 0x005 => some .blkid | 0x006 => some .nblk | 0x007 => some .qpos | 0x008 => some .qgid | 0x009 => some .dgid
  | 0x00A => some .dgpos | 0x00B => some .gridid | 0x00C => some .prio | 0x00D => some .part | 0x00E => some .level
  | 0x010 => some .clk | 0x011 => some .seed | 0x012 => some .cnt | 0x013 => some .pdepth
  | 0x040 => some .xlwin | 0x041 => some .taglim | 0x042 => some .faultst
  | _ => none

/-- CSR numbers (spec/18 R367). -/
def Csr.code : Csr → Nat
  | .stvec => 0x000 | .sepc => 0x001 | .scause => 0x002 | .stval => 0x003 | .sstat => 0x004 | .sie => 0x005
  | .sip => 0x006 | .clkcmp => 0x007
  | .ftvec => 0x080 | .fepc => 0x081 | .fcause => 0x082 | .ftval => 0x083 | .fstat => 0x084
  | .bsel => 0x100 | .bctl => 0x101
  | .bfr k => 0x102 + k.val
  | .svcpend => 0x10A
  | .qbase q => 0x110 + q.val
  | .qctl q => 0x120 + q.val
  | .qtail q => 0x130 + q.val
  | .qhead q => 0x140 + q.val
  | .gridnext => 0x150 | .ctxtab => 0x151 | .partcfg => 0x152 | .chsel => 0x160 | .chcid => 0x161
  | .capctl => 0x170 | .capbase => 0x171 | .capsize => 0x172
  | .poolbase k => 0x180 + k.val
  | .poolnpg k => 0x188 + k.val
  | .bfs k => 0x190 + k.val
  | .copylim => 0x200 | .prelim => 0x201 | .strcfg => 0x202 | .cslimq => 0x203 | .cslimd => 0x204
  | .coresel => 0x280
  | .qoscls k => 0x300 + k.val
  | .migsrc => 0x310 | .migdst => 0x311 | .migctl => 0x312 | .hbper => 0x380 | .leader => 0x381 | .leadslot => 0x382
/-- The CSR of a number; none outside the map (spec/18 R367). -/
def Csr.ofCode (n : Nat) : Option Csr :=
  if h : 0x102 ≤ n ∧ n < 0x10A then some (.bfr ⟨n - 0x102, by omega⟩)
  else if h : 0x110 ≤ n ∧ n < 0x120 then some (.qbase ⟨n - 0x110, by omega⟩)
  else if h : 0x120 ≤ n ∧ n < 0x130 then some (.qctl ⟨n - 0x120, by omega⟩)
  else if h : 0x130 ≤ n ∧ n < 0x140 then some (.qtail ⟨n - 0x130, by omega⟩)
  else if h : 0x140 ≤ n ∧ n < 0x150 then some (.qhead ⟨n - 0x140, by omega⟩)
  else if h : 0x180 ≤ n ∧ n < 0x186 then some (.poolbase ⟨n - 0x180, by omega⟩)
  else if h : 0x188 ≤ n ∧ n < 0x18E then some (.poolnpg ⟨n - 0x188, by omega⟩)
  else if h : 0x190 ≤ n ∧ n < 0x198 then some (.bfs ⟨n - 0x190, by omega⟩)
  else if h : 0x300 ≤ n ∧ n < 0x307 then some (.qoscls ⟨n - 0x300, by omega⟩)
  else match n with
  | 0x000 => some .stvec | 0x001 => some .sepc | 0x002 => some .scause | 0x003 => some .stval | 0x004 => some .sstat
  | 0x005 => some .sie | 0x006 => some .sip | 0x007 => some .clkcmp
  | 0x080 => some .ftvec | 0x081 => some .fepc | 0x082 => some .fcause | 0x083 => some .ftval | 0x084 => some .fstat
  | 0x100 => some .bsel | 0x101 => some .bctl | 0x10A => some .svcpend
  | 0x150 => some .gridnext | 0x151 => some .ctxtab | 0x152 => some .partcfg | 0x160 => some .chsel
  | 0x161 => some .chcid | 0x170 => some .capctl | 0x171 => some .capbase | 0x172 => some .capsize
  | 0x200 => some .copylim | 0x201 => some .prelim | 0x202 => some .strcfg | 0x203 => some .cslimq
  | 0x204 => some .cslimd | 0x280 => some .coresel
  | 0x310 => some .migsrc | 0x311 => some .migdst | 0x312 => some .migctl
  | 0x380 => some .hbper | 0x381 => some .leader | 0x382 => some .leadslot
  | _ => none

/-- A predicate from the low bits of a register-sized field whose high bits are 0. -/
def predOf (v : Nat) : Option Pred := chk (decide (v < 8)) (some (fin 8 v))
/-- The four token fields. -/
def toksOf (tko t0 t1 t2 : Nat) : Toks := ⟨fin 32 tko, fin 32 t0, fin 32 t1, fin 32 t2⟩
/-- The register of a field. -/
abbrev rg (n : Nat) : Reg := Reg.ofCode n
/-- The space of a scratchpad word: 1 SPAD, 2 QSPAD (spec/09 R170). -/
def spadSel : Nat → Option Bool
  | 1 => some false | 2 => some true | _ => none
/-- The code of a scratchpad space. -/
def spadCode (q : Bool) : Nat := if q then 2 else 1

/-- CTRL words (spec/03). -/
def parseCtrl (h : Hdr) : Nat → Fields → Option Instr
  | 0x00, .L d i => chk (d == 0 && i == 0) (some (.nop h))
  | 0x01, .B m o x => chk (m == 0 && x == 0) (some (.bra h (BitVec.ofNat 26 o)))
  | 0x02, .I d a i => chk (d == 0) (some (.brx h (rg a) (BitVec.ofNat 22 i)))
  | 0x03, .B m o x => chk (m == 0) (some (.call h (BitVec.ofNat 26 o) (fin 64 x)))
  | 0x04, .I d a i => chk (d == 0 && i == 0) (some (.ret h (rg a)))
  | 0x05, .I d a i => chk (decide (d < 3) && i / 512 == 0 && decide (1 ≤ i % 512) && decide (i % 512 ≤ 256))
      (some (.loop h (fin 3 d) (rg a) (fin 512 (i % 512))))
  | 0x06, .L d i => chk (decide (d < 3) && decide (1 ≤ i % 512) && decide (i % 512 ≤ 256))
      (some (.loopi h (fin 3 d) (BitVec.ofNat 21 (i / 512)) (fin 512 (i % 512))))
  | 0x07, .B m o x => chk (decide (m < 3) && x == 0) (some (.brkl h (fin 3 m) (BitVec.ofNat 26 o)))
  | 0x08, .L d i => chk (d == 0 && i == 0) (some (.yield h))
  | 0x09, .I d a i =>
      let tok := i / 2 ^ 16 % 32
      if flag (i / 2 ^ 21) then
        chk (decide (d < 16)) (some (.cvset h (fin 16 d) (rg a) (some (fin 32 tok)) (BitVec.ofNat 16 (i % 2 ^ 16))))
      else
        chk (decide (d < 16) && tok == 0) (some (.cvset h (fin 16 d) (rg a) none (BitVec.ofNat 16 (i % 2 ^ 16))))
  | 0x0A, .I d a i => chk (decide (d < 16) && a == 0 && i == 0) (some (.sign h (fin 16 d)))
  | 0x0B, .L d i => chk (d == 0 && i == 0) (some (.start h))
  | 0x0C, .W ld st cp mt z => chk (z == 0) (some (.waitc h (fin 64 ld) (fin 64 st) (fin 64 cp) (fin 64 mt)))
  | 0x0D, .T a b k t0 t1 t2 m =>
      chk (a == 0 && b == 0 && decide (m < 2)) (some (.tkw h (toksOf k t0 t1 t2) (flag m)))
  | 0x0E, .L d i => chk (d == 0 && i == 0) (some (.exit h))
  | 0x0F, .I d a i => chk (d == 0) (some (.sleep h (rg a) (flag (i / 2 ^ 21)) (BitVec.ofNat 21 (i % 2 ^ 21))))
  | _, _ => none

/-- A modifier bit of an A-format word. -/
def mb (m k : Nat) : Bool := flag (m / 2 ^ k)

/-- INT words (spec/04). -/
def parseInt (h : Hdr) : Nat → Fields → Option Instr
  | 0x00, .A d a b c m => chk (c == 0) ((ArithMod.ofCode m).map (Instr.iadd h (rg d) (rg a) (rg b)))
  | 0x01, .A d a b c m => chk (c == 0) ((ArithMod.ofCode m).map (Instr.isub h (rg d) (rg a) (rg b)))
  | 0x02, .A d a b c m => chk (c == 0 && m == 0) (some (.imul h (rg d) (rg a) (rg b)))
  | 0x03, .A d a b c m => chk (c == 0 && decide (m < 2)) (some (.imulh h (rg d) (rg a) (rg b) (mb m 0)))
  | 0x04, .A d a b c m => (ArithMod.ofCode m).map (Instr.imad h (rg d) (rg a) (rg b) (rg c))
  | 0x05, .A d a b c m => chk (c == 0 && decide (m < 2)) (some (.imin h (rg d) (rg a) (rg b) (mb m 0)))
  | 0x06, .A d a b c m => chk (c == 0 && decide (m < 2)) (some (.imax h (rg d) (rg a) (rg b) (mb m 0)))
  | 0x07, .A d a b c m => chk (b == 0 && c == 0 && (m == 0 || m == 2)) (some (.iabs h (rg d) (rg a) (mb m 1)))
  | 0x08, .A d a b c m => chk (c == 0 && m == 0) (some (.and h (rg d) (rg a) (rg b)))
  | 0x09, .A d a b c m => chk (c == 0 && m == 0) (some (.or h (rg d) (rg a) (rg b)))
  | 0x0A, .A d a b c m => chk (c == 0 && m == 0) (some (.xor h (rg d) (rg a) (rg b)))
  | 0x0B, .A d a b c m => chk (c == 0 && m == 0) (some (.andn h (rg d) (rg a) (rg b)))
  | 0x0C, .A d a b c m => chk (c == 0 && m == 0) (some (.shl h (rg d) (rg a) (rg b)))
  | 0x0D, .A d a b c m => chk (c == 0 && m == 0) (some (.shr h (rg d) (rg a) (rg b)))
  | 0x0E, .A d a b c m => chk (c == 0 && m == 0) (some (.sar h (rg d) (rg a) (rg b)))
  | 0x0F, .A d a b c m => chk (c == 0 && m == 0) (some (.rol h (rg d) (rg a) (rg b)))
  | 0x10, .A d a b c m => chk (c == 0 && decide (m < 2)) (some (.bfx h (rg d) (rg a) (rg b) (mb m 0)))
  | 0x11, .A d a b c m => chk (m == 0) (some (.bfi h (rg d) (rg a) (rg b) (rg c)))
  | 0x12, .A d a b c m => chk (b == 0 && c == 0 && m == 0) (some (.popc h (rg d) (rg a)))
  | 0x13, .A d a b c m => chk (b == 0 && c == 0 && m == 0) (some (.clz h (rg d) (rg a)))
  | 0x14, .A d a b c m => chk (b == 0 && c == 0 && m == 0) (some (.brev h (rg d) (rg a)))
  | 0x15, .A d a b c m =>
      (predOf d).bind fun p => (Cmp.ofCode (m % 8)).bind fun cc => (PComb.ofCode (m / 16) c).map fun q =>
        .isetp h p (rg a) (rg b) cc (mb m 3) q
  | 0x16, .A d a b c m =>
      chk (decide (d < 64) && m == 0) ((predOf a).bind fun pa => (predOf b).map fun pb =>
        .plop h (fin 8 (d % 8)) pa pb (fin 8 (d / 8)) (BitVec.ofNat 8 c))
  | 0x17, .A d a b c m => chk (c == 0 && decide (m < 16)) (some (.sel h (rg d) (rg a) (rg b) (fin 8 (m % 8)) (mb m 3)))
  | 0x18, .A d a b c m => chk (b == 0 && c == 0 && m == 0) (some (.mov h (rg d) (rg a)))
  | 0x19, .L d i => some (.movi h (rg d) (BitVec.ofNat 30 i))
  | 0x1A, .L d i => chk (decide (i < 2 ^ 16)) (some (.movhi h (rg d) (BitVec.ofNat 16 i)))
  | 0x1B, .I d a i => chk (a == 0) ((SReg.ofCode i).map (Instr.movs h (rg d)))
  | 0x1C, .I d a i => chk (d == 0) ((SReg.ofCode i).bind fun s => chk s.writable (some (.movsw h s (rg a))))
  | 0x1D, .A d a b c m => chk (c == 0 && decide (m < 16)) (some (.lea h (rg d) (rg a) (rg b) (fin 8 (m % 8)) (mb m 3)))
  | 0x1E, .A d a b c m => chk (c == 0 && m == 0) (some (.iadd64 h (rg d) (rg a) (rg b)))
  | 0x1F, .I d a i => chk (a == 0 && i == 0) (some (.pget h (rg d)))
  | 0x20, .I d a i => chk (d == 0 && decide (i < 128)) (some (.pput h (rg a) (BitVec.ofNat 7 i)))
  | 0x21, .I d a i => some (.iaddi h (rg d) (rg a) (BitVec.ofNat 22 i))
  | 0x22, .I d a i => some (.andi h (rg d) (rg a) (BitVec.ofNat 22 i))
  | 0x23, .I d a i => some (.ori h (rg d) (rg a) (BitVec.ofNat 22 i))
  | 0x24, .I d a i => some (.xori h (rg d) (rg a) (BitVec.ofNat 22 i))
  | 0x25, .I d a i =>
      chk (decide (d < 128)) ((Cmp.ofCode (d / 8 % 8)).map fun cc =>
        .isetpi h (fin 8 (d % 8)) (rg a) (BitVec.ofNat 22 i) cc (flag (d / 64)))
  | _, _ => none

/-- VFP words (spec/05 R119, spec/06 R127). -/
def parseVfp (h : Hdr) : Nat → Fields → Option Instr
  | 0x00, .A d a b c m => chk (c == 0 && decide (m < 16)) ((RMode.ofCode (m % 4)).map fun r =>
      .fadd h (rg d) (rg a) (rg b) r (mb m 3) (mb m 2))
  | 0x01, .A d a b c m => chk (c == 0 && decide (m < 16)) ((RMode.ofCode (m % 4)).map fun r =>
      .fsub h (rg d) (rg a) (rg b) r (mb m 3) (mb m 2))
  | 0x02, .A d a b c m => chk (c == 0 && decide (m < 16)) ((RMode.ofCode (m % 4)).map fun r =>
      .fmul h (rg d) (rg a) (rg b) r (mb m 3) (mb m 2))
  | 0x03, .A d a b c m => (RMode.ofCode (m % 4)).map fun r =>
      .ffma h (rg d) (rg a) (rg b) (rg c) r (mb m 3) (mb m 2) (mb m 4) (mb m 5)
  | 0x04, .A d a b c m => chk (c == 0 && (m == 0 || m == 1 || m == 8 || m == 9))
      (some (.fmin h (rg d) (rg a) (rg b) (mb m 3) (mb m 0)))
  | 0x05, .A d a b c m => chk (c == 0 && (m == 0 || m == 1 || m == 8 || m == 9))
      (some (.fmax h (rg d) (rg a) (rg b) (mb m 3) (mb m 0)))
  | 0x06, .A d a b c m => chk (b == 0 && c == 0 && (m == 0 || m == 8)) (some (.fabs h (rg d) (rg a) (mb m 3)))
  | 0x07, .A d a b c m => chk (b == 0 && c == 0 && (m == 0 || m == 8)) (some (.fneg h (rg d) (rg a) (mb m 3)))
  | 0x08, .A d a b c m => chk (!mb m 3)
      ((predOf d).bind fun p => (FCmp.ofCode (m % 8)).bind fun cc => (PComb.ofCode (m / 16) c).map fun q =>
        .fsetp h p (rg a) (rg b) cc q)
  | 0x09, .A d a b c m => chk (b == 0 && c == 0) ((RMode.ofCode m).map (Instr.frnd h (rg d) (rg a)))
  | 0x0A, .A d a b c m => chk (m == 0 || m == 8) (some (.fclamp h (rg d) (rg a) (rg b) (rg c) (mb m 3)))
  | 0x0B, .A d a b c m => chk (b == 0 && c == 0 && decide (m < 8)) ((RMode.ofCode (m % 4)).map
      (Instr.f2i h (rg d) (rg a) (mb m 2)))
  | 0x0C, .A d a b c m => chk (b == 0 && c == 0 && decide (m < 8)) ((RMode.ofCode (m % 4)).map
      (Instr.i2f h (rg d) (rg a) (mb m 2)))
  | 0x0D, .A d a b c m => chk (c == 0 && decide (m < 16)) ((RMode.ofCode (m / 2 % 4)).map fun r =>
      .hadd2 h (rg d) (rg a) (rg b) r (mb m 3) (mb m 0))
  | 0x0E, .A d a b c m => chk (c == 0 && decide (m < 16)) ((RMode.ofCode (m / 2 % 4)).map fun r =>
      .hmul2 h (rg d) (rg a) (rg b) r (mb m 3) (mb m 0))
  | 0x0F, .A d a b c m => chk (decide (m < 16)) ((RMode.ofCode (m / 2 % 4)).map fun r =>
      .hfma2 h (rg d) (rg a) (rg b) (rg c) r (mb m 3) (mb m 0))
  | 0x10, .A d a b c m => chk (decide (m < 8)) ((RMode.ofCode (m / 2)).map fun r =>
      .dot2 h (rg d) (rg a) (rg b) (rg c) r (mb m 0))
  | 0x11, .A d a b c m => chk (decide (m < 8)) ((DotSign.ofCode (m % 4)).map fun g =>
      .dot4 h (rg d) (rg a) (rg b) (rg c) (mb m 2) g)
  | 0x12, .A d a b c m => chk (b == 0) (some (.cvt h (rg d) (rg a) (rg c) (fin 8 (m / 8)) (fin 8 (m % 8))))
  | 0x13, .A d a b c m => chk (decide (m < 8)) (some (.cvtpk h (rg d) (rg a) (rg b) (rg c) (fin 8 m)))
  | 0x14, .A d a b c m => chk (c == 0 && decide (m < 8)) (some (.cvtup h (rg d) (rg a) (rg b) (fin 8 m)))
  | 0x15, .A d a b c m => chk (c == 0) ((RMode.ofCode m).map (Instr.fscl h (rg d) (rg a) (rg b)))
  | 0x16, .A d a b c m => chk (b == 0 && c == 0) ((FSrc.ofCode m).map (Instr.fclass h (rg d) (rg a)))
  | _, _ => none

/-- SFU words (spec/07 R140). -/
def parseSfu (h : Hdr) : Nat → Fields → Option Instr
  | 0x00, .A d a b c m => chk (b == 0 && c == 0 && m == 0) (some (.rcp h (rg d) (rg a)))
  | 0x01, .A d a b c m => chk (b == 0 && c == 0 && m == 0) (some (.rsq h (rg d) (rg a)))
  | 0x02, .A d a b c m => chk (b == 0 && c == 0) ((RMode.ofCode m).map (Instr.sqrt h (rg d) (rg a)))
  | 0x03, .A d a b c m => chk (b == 0 && c == 0 && m == 0) (some (.exp2 h (rg d) (rg a)))
  | 0x04, .A d a b c m => chk (b == 0 && c == 0 && m == 0) (some (.log2 h (rg d) (rg a)))
  | 0x05, .A d a b c m => chk (b == 0 && c == 0 && m == 0) (some (.sin h (rg d) (rg a)))
  | 0x06, .A d a b c m => chk (b == 0 && c == 0 && m == 0) (some (.cos h (rg d) (rg a)))
  | 0x07, .A d a b c m => chk (b == 0 && c == 0 && m == 0) (some (.sincos h (rg d) (rg a)))
  | 0x08, .A d a b c m => chk (b == 0 && c == 0 && m == 0) (some (.tanh h (rg d) (rg a)))
  | 0x09, .A d a b c m => chk (c == 0 && m == 0) (some (.tlu h (rg d) (rg a) (rg b)))
  | 0x0A, .A d a b c m => chk (c == 0 && m == 0) ((predOf d).map fun p => .dropm h p (rg a) (rg b))
  | 0x0B, .A d a b c m => chk (c == 0 && m == 0) (some (.csamp h (rg d) (rg a) (rg b)))
  | 0x0C, .A d a b c m => chk (b == 0 && c == 0 && decide (m < 2)) (some (.rng h (rg d) (rg a) (mb m 0)))
  | 0x0D, .A d a b c m => chk (c == 0) ((RMode.ofCode m).map (Instr.fdiv h (rg d) (rg a) (rg b)))
  | _, _ => none

/-- XLN words (spec/08 R159, R162). -/
def parseXln (h : Hdr) : Nat → Fields → Option Instr
  | 0x00, .A d a b c m => (XMode.ofCode m).map (Instr.xrd h (rg d) (rg a) (rg b) (rg c))
  | 0x01, .I d a i => chk (i % 256 == 0)
      ((XMode.ofCode (i / 2 ^ 19)).bind fun mo => (XFill.ofCode (i / 2 ^ 17 % 4)).bind fun f =>
        (XOff.ofCode (i / 2 ^ 8 % 512)).map (Instr.xrdi h (rg d) (rg a) mo f))
  | 0x02, .A d a b c m => chk (b == 0 && c == 0) ((XOp.ofCode m).map (Instr.xred h (rg d) (rg a)))
  | 0x03, .A d a b c m => chk (b == 0 && c == 0 && decide (m < 32)) ((XOp.ofCode (m % 16)).map fun o =>
      .xscan h (rg d) (rg a) o (mb m 4))
  | 0x04, .A d a b c m => chk (b == 0 && c == 0 && decide (a < 16)) ((VoteMode.ofCode m).map
      (Instr.xvote h (rg d) (fin 8 (a % 8)) (flag (a / 8))))
  | 0x05, .A d a b c m => chk (b == 0 && c == 0 && decide (a < 16)) ((predOf d).bind fun pd =>
      (PredMode.ofCode m).map (Instr.xpred h pd (fin 8 (a % 8)) (flag (a / 8))))
  | 0x06, .A d a b c m => chk (b == 0 && decide (m < 16)) (some (.xcmp h (rg d) (rg a) (rg c) (fin 8 (m % 8)) (mb m 3)))
  | 0x07, .A d a b c m => chk (b == 0 && decide (m < 16)) (some (.xexp h (rg d) (rg a) (rg c) (fin 8 (m % 8)) (mb m 3)))
  | 0x08, .A d a b c m => chk (b == 0 && c == 0 && decide (m < 2)) (some (.xmatch h (rg d) (rg a) (mb m 0)))
  | _, _ => none

/-- MEM words (spec/09 R186, R191, R197, R198). -/
def parseMem (h : Hdr) : Nat → Fields → Option Instr
  | 0x00, .M d b o z p => (Size.ofCode z).bind fun sz => (spadSel p).map
      (Instr.lds h (rg d) (rg b) (BitVec.ofNat 16 o) sz)
  | 0x01, .M d b o z p => (Size.ofCode z).bind fun sz => (spadSel p).map
      (Instr.sts h (rg d) (rg b) (BitVec.ofNat 16 o) sz)
  | 0x02, .M d b o z p => chk (decide (2 ≤ z)) ((Size.ofCode z).bind fun sz => (spadSel p).map fun q =>
      .ldsf h (rg d) (rg b) (BitVec.ofNat 15 (o / 2)) sz q (flag o))
  | 0x03, .M d b o z p => chk (decide (2 ≤ z) && o % 2 == 0) ((Size.ofCode z).bind fun sz => (spadSel p).map
      (Instr.stse h (rg d) (rg b) (BitVec.ofNat 15 (o / 2)) sz))
  | 0x04, .A d a b c m => chk (d == 0 && c == 0 && decide (m < 8)) ((spadSel (m / 2)).map fun q =>
      .tags h (rg a) (rg b) q (mb m 0))
  | 0x05, .A d a b c m => chk (b == 0 && c == 0 && decide (m < 8) && m % 2 == 0) ((spadSel (m / 2)).map
      (Instr.tagr h (rg d) (rg a)))
  | 0x06, .M d b o z p => chk (p == 0) ((Size.ofCode z).map (Instr.ldg h (rg d) (rg b) (BitVec.ofNat 16 o)))
  | 0x07, .M d b o z p => chk (p == 0) ((Size.ofCode z).map (Instr.stg h (rg d) (rg b) (BitVec.ofNat 16 o)))
  | 0x08, .M d b o z p => chk (p == 0) ((Size.ofCode z).map (Instr.ldu h (rg d) (rg b) (BitVec.ofNat 16 o)))
  | 0x09, .M d b o z p => chk (p == 0 && z == 2) ((PrefLevel.ofCode d).map fun l =>
      .pref h l (rg b) (BitVec.ofNat 16 o))
  | 0x0A, .A d a b c m => chk (d == 0 && c == 0 && decide (m < 16)) ((CLevel.ofCode (m / 4)).bind fun l =>
      (COp.ofCode (m % 4)).map (Instr.cmaint h (rg a) (rg b) l))
  | _, _ => none

/-- SYNC words (spec/10 R216, R220; spec/11 R225, R236, R240). -/
def parseSync (h : Hdr) : Nat → Fields → Option Instr
  | 0x00, .L d i => chk (d == 0 && decide (i < 32)) ((FenceKind.ofCode (i / 8)).bind fun k =>
      (Scope.ofCode (i % 8)).map (Instr.fence h k))
  | 0x01, .M d b o z p => (Scope.ofCode (o % 8)).bind fun s => (Size.ofCode z).bind fun sz => (Space.ofCode p).map
      (Instr.lda h (rg d) (rg b) (BitVec.ofNat 13 (o / 8)) s sz)
  | 0x02, .M d b o z p => (Scope.ofCode (o % 8)).bind fun s => (Size.ofCode z).bind fun sz => (Space.ofCode p).map
      (Instr.stl h (rg d) (rg b) (BitVec.ofNat 13 (o / 8)) s sz)
  | 0x03, .A d a b c m => chk (c % 4 == 0) ((Scope.ofCode (c / 32)).bind fun s => (AOrder.ofCode (c / 8 % 4)).bind
      fun r => (AOp.ofCode m).bind fun o => chk (!(flag (c / 4) && o == .fadd))
        (some (.atom h (rg d) (rg a) (rg b) s r (flag (c / 4)) o)))
  | 0x04, .A d a b c m => (spadSel (c % 4)).bind fun q => (Scope.ofCode (c / 32)).bind fun s =>
      (AOrder.ofCode (c / 8 % 4)).bind fun r => (AOp.ofCode m).bind fun o => chk (!(flag (c / 4) && o == .fadd))
        (some (.atoms h (rg d) (rg a) (rg b) s r (flag (c / 4)) q o))
  | 0x05, .A d a b c m => chk (d == 0 && c % 4 == 0 && (c / 8) % 2 == 0) ((Scope.ofCode (c / 32)).bind fun s =>
      (AOp.ofCode m).bind fun o => chk (o.redOk && !(flag (c / 4) && o == .fadd))
        (some (.red h (rg a) (rg b) s (flag (c / 16)) (flag (c / 4)) o)))
  | 0x06, .I d a i => (predOf d).bind fun p => (BLevel.ofCode (i / 16 % 8)).bind fun l =>
      chk (decide (i % 16 ≤ l.maxId)) (some (.bar h p (rg a) (BitVec.ofNat 14 (i / 256)) (flag (i / 128)) l
        (fin 16 (i % 16))))
  | 0x07, .I d a i => chk (d == 0) ((BLevel.ofCode (i / 16 % 8)).bind fun l =>
      chk (decide (i % 16 ≤ l.maxId)) (some (.bara h (rg a) (BitVec.ofNat 14 (i / 256)) (flag (i / 128)) l
        (fin 16 (i % 16)))))
  | 0x08, .I d a i => chk (a == 0 && decide (i < 256)) ((predOf d).bind fun p => (BLevel.ofCode (i / 16 % 8)).bind
      fun l => chk (decide (i % 16 ≤ l.maxId)) (some (.barw h p (flag (i / 128)) l (fin 16 (i % 16)))))
  | 0x09, .I d a i => chk (a == 0 && decide (i < 128)) ((BLevel.ofCode (i / 16)).bind fun l =>
      chk (decide (i % 16 ≤ l.maxId)) (some (.barn h (rg d) l (fin 16 (i % 16)))))
  | 0x0A, .I d a i => (Scope.ofCode d).map fun s =>
      .semacq h s (rg a) (BitVec.ofNat 16 (i / 64)) (fin 64 (i % 64))
  | 0x0B, .I d a i => chk (decide (d < 64)) ((Scope.ofCode (d % 8)).bind fun s =>
      if flag (d / 8) then
        some (.semrel h s (some (fin 4 (d / 16))) (rg a) (BitVec.ofNat 16 (i / 64)) (fin 64 (i % 64)))
      else chk (d / 16 == 0) (some (.semrel h s none (rg a) (BitVec.ofNat 16 (i / 64)) (fin 64 (i % 64)))))
  | 0x0C, .I d a i => chk (decide (d < 64)) ((Scope.ofCode (d / 8)).map fun s =>
      .semtry h (fin 8 (d % 8)) s (rg a) (BitVec.ofNat 16 (i / 64)) (fin 64 (i % 64)))
  | 0x0D, .I d a i => chk (a == 0 && decide (i < 128)) (some (.semrd h (rg d) (flag (i / 64)) (fin 64 (i % 64))))
  | _, _ => none

/-- COPY words (spec/12 R253, R257, R260, R263, R264). -/
def parseCopy (h : Hdr) : Nat → Fields → Option Instr
  | 0x00, .T a b k t0 t1 t2 m => (CElem.ofCode m).map (Instr.cpl h (rg a) (rg b) (toksOf k t0 t1 t2))
  | 0x01, .T a b k t0 t1 t2 m => (CElem.ofCode m).map (Instr.cpt h (rg a) (rg b) (toksOf k t0 t1 t2))
  | 0x02, .T a b k t0 t1 t2 m => chk (m == 0) (some (.cpr h (rg a) (rg b) (toksOf k t0 t1 t2)))
  | 0x03, .I d a i =>
      if i = 0 then chk (d == 0 && a == 0) (some (.cpstageOff h))
      else
        let size := i / 4096
        let mn := i / 64 % 64
        let mx := i % 64
        chk (d == 0 && decide (1 ≤ size) && decide (2 ≤ mx) && decide (mx ≤ 32) && decide (1 ≤ mn) && decide (mn ≤ mx))
          (some (.cpstage h (rg a) (BitVec.ofNat 10 size) (fin 64 mn) (fin 64 mx)))
  | 0x04, .I d a i => chk (a == 0) ((AdvMode.ofCode i).map (Instr.cpadv h (rg d)))
  | 0x05, .T a b k t0 t1 t2 m =>
      match m with
      | 0 => some (.cpremPut h (rg a) (rg b) (toksOf k t0 t1 t2))
      | 1 => some (.cpremPost h (rg a) (rg b) (toksOf k t0 t1 t2))
      | _ => none
  | 0x06, .T a b k t0 t1 t2 m => chk (a == 0 && b == 0 && m == 0) (some (.tkj h (toksOf k t0 t1 t2)))
  | 0x07, .T a b k t0 t1 t2 m => (CElem.ofCode m).map (Instr.cpfill h (rg a) (rg b) (toksOf k t0 t1 t2))
  | _, _ => none

/-- MTX words (spec/13 R282, R287, R288, R289). -/
def parseMtx (h : Hdr) : Nat → Fields → Option Instr
  | 0x00, .T a b k t0 t1 t2 m => chk (decide (m < 2))
      (some (.mma h (rg a) (fin 16 (b / 16)) (fin 16 (b % 16)) (toksOf k t0 t1 t2) (flag m)))
  | 0x01, .T a b k t0 t1 t2 m => chk (decide (m < 2))
      (some (.mmas h (rg a) (fin 16 (b / 16)) (fin 16 (b % 16)) (toksOf k t0 t1 t2) (flag m)))
  | 0x02, .L d i => chk (i == 0)
      (if d = 16 then some (.mrel h none) else chk (decide (d < 16)) (some (.mrel h (some (fin 16 d)))))
  | 0x03, .I d a i => chk (a == 0 && decide (i < 2)) (some (.mfq h (rg d) (flag i)))
  | 0x04, .I d a i => chk (a == 0) ((MqForm.ofCode i).map (Instr.mqry h (rg d)))
  | _, _ => none

/-- ACC words (spec/14 R306). -/
def parseAcc (h : Hdr) : Nat → Fields → Option Instr
  | 0x00, .T a b k t0 t1 t2 m => chk (m == 0) (some (.accz h (rg a) (rg b) (toksOf k t0 t1 t2)))
  | 0x01, .T a b k t0 t1 t2 m => chk (m == 0) (some (.accadd h (rg a) (rg b) (toksOf k t0 t1 t2)))
  | 0x02, .A d a b c m => chk (b == 0 && c == 0) ((RdForm.ofCode m).map (Instr.accrd h (rg d) (rg a)))
  | 0x03, .T a b k t0 t1 t2 m => (SetScope.ofCode m).map (Instr.accset h (rg a) (rg b) (toksOf k t0 t1 t2))
  | 0x04, .T a b k t0 t1 t2 m => chk (m == 0) (some (.accfl h (rg a) (rg b) (toksOf k t0 t1 t2)))
  | 0x05, .T a b k t0 t1 t2 m => chk (m == 0) (some (.accout h (rg a) (rg b) (toksOf k t0 t1 t2)))
  | 0x06, .T a b k t0 t1 t2 m => chk (m == 0) (some (.accpoi h (rg a) (rg b) (toksOf k t0 t1 t2)))
  | _, _ => none

/-- GFX words (spec/17 R345, R348, R351, R354, R358, R360, R362). -/
def parseGfx (h : Hdr) : Nat → Fields → Option Instr
  | 0x00, .T a b k t0 t1 t2 m => chk (t0 == k && t1 == k && t2 == k)
      ((Cull.ofCode m).map (Instr.rast h (rg a) (rg b) (fin 32 k)))
  | 0x01, .T a b k t0 t1 t2 m => chk (m == 0) (some (.trav h (rg a) (rg b) (toksOf k t0 t1 t2)))
  | 0x02, .T a b k t0 t1 t2 m => chk (m == 0) (some (.sample h (rg a) (rg b) (toksOf k t0 t1 t2)))
  | 0x03, .I d a i => chk (a == 0 && decide (i < 16)) (some (.winacq h (rg d) (flag (i / 8)) (fin 8 (i % 8))))
  | 0x04, .I d a i => chk (d == 0 && a == 0 && decide (i < 16)) (some (.winrel h (flag (i / 8)) (fin 8 (i % 8))))
  | 0x05, .T a b k t0 t1 t2 m => chk (decide (m < 2)) (some (.ordt h (rg a) (rg b) (toksOf k t0 t1 t2) (flag m)))
  | 0x06, .T a b k t0 t1 t2 m => chk (m == 0) (some (.ttask h (rg a) (rg b) (toksOf k t0 t1 t2)))
  | 0x07, .T a b k t0 t1 t2 m => chk (m == 0) (some (.tfence h (rg a) (rg b) (toksOf k t0 t1 t2)))
  | 0x08, .T a b k t0 t1 t2 m => chk (m == 0) (some (.omrg h (rg a) (rg b) (toksOf k t0 t1 t2)))
  | _, _ => none

/-- SYS words (spec/18 R375, R376, R379, R386, R390, R396). -/
def parseSys (h : Hdr) : Nat → Fields → Option Instr
  | 0x00, .L d i => chk (d == 0 && decide (i < 2 ^ 22)) (some (.trap h (BitVec.ofNat 22 i)))
  | 0x01, .L d i => chk (d == 0 && i == 0) (some (.eret h))
  | 0x02, .I d a i => chk (a == 0) ((Csr.ofCode i).map (Instr.csrr h (rg d)))
  | 0x03, .I d a i => chk (d == 0) ((Csr.ofCode i).bind fun c => chk (!c.readOnly) (some (.csrw h c (rg a))))
  | 0x04, .I d a i => (Csr.ofCode i).bind fun c => chk (!c.readOnly) (some (.csrset h (rg d) c (rg a)))
  | 0x05, .I d a i => (Csr.ofCode i).bind fun c => chk (!c.readOnly) (some (.csrclr h (rg d) c (rg a)))
  | 0x06, .A d a b c m => chk (d == 0 && decide (m < 16)) ((Scope.ofCode (m % 8)).bind fun s =>
      chk (!mb m 3 || (rg a == .xz && rg b == .xz && rg c == .xz)) (some (.tlbinv h (rg a) (rg b) (rg c) (mb m 3) s)))
  | 0x07, .T a b k t0 t1 t2 m => chk (m == 0) (some (.launch h (rg a) (rg b) (toksOf k t0 t1 t2)))
  | 0x08, .L d i => chk (d == 0 && i == 0) (some (.wfi h))
  | 0x09, .L d i => chk (d == 0 && i == 0) (some (.halt h))
  | 0x0A, .I d a i => chk (d == 0) (some (.rmark h (rg a) (BitVec.ofNat 22 i)))
  | 0x0B, .A d a b c m => chk (c == 0 && decide (m < 2)) (some (.ctxsave h (rg d) (rg a) (rg b) (mb m 0)))
  | 0x0C, .A d a b c m => chk (b == 0 && c == 0 && m == 0) (some (.ctxload h (rg d) (rg a)))
  | _, _ => none

/-- PWR words (spec/16 R342). -/
def parsePwr (h : Hdr) : Nat → Fields → Option Instr
  | 0x00, .I d a i => chk (decide (i < 2 ^ 16)) ((FillKind.ofCode d).map fun k =>
      .fill h k (rg a) (BitVec.ofNat 16 i))
  | 0x01, .I d a i => chk (a == 0 && i == 0) ((ActClass.ofCode d).map (Instr.pwrh h))
  | 0x02, .I d a i => chk (a == 0) ((SqForm.ofCode i).map (Instr.strq h (rg d)))
  | _, _ => none

/-- PART words (spec/15 R323, R328, R329). -/
def parsePart (h : Hdr) : Nat → Fields → Option Instr
  | 0x00, .T a b k t0 t1 t2 m => some (.pgive h (rg a) (rg b) (toksOf k t0 t1 t2) (flag (m / 2)) (flag m))
  | 0x01, .T a b k t0 t1 t2 m => chk (m % 2 == 0) (some (.ptake h (rg a) (rg b) (toksOf k t0 t1 t2) (flag (m / 2))))
  | 0x02, .I d a i =>
      match i with
      | 0 => some (.pqry h (rg d) (.own (rg a)))
      | 1 => chk (a == 0) (some (.pqry h (rg d) .dies))
      | _ => none
  | 0x03, .A d a b c m => chk (d == 0 && c == 0) ((Owner.ofCode m).map (Instr.pzero h (rg a) (rg b)))
  | _, _ => none

/-- The operand tables of a class. -/
def parseFields (cls : Nat) (h : Hdr) (op : Nat) (f : Fields) : Option Instr :=
  match cls with
  | 0x0 => parseCtrl h op f
  | 0x1 => parseInt h op f
  | 0x2 => parseVfp h op f
  | 0x3 => parseSfu h op f
  | 0x4 => parseXln h op f
  | 0x5 => parseMem h op f
  | 0x6 => parseSync h op f
  | 0x7 => parseCopy h op f
  | 0x8 => parseMtx h op f
  | 0x9 => parseAcc h op f
  | 0xA => parseGfx h op f
  | 0xB => parseSys h op f
  | 0xC => parsePwr h op f
  | 0xD => parsePart h op f
  | _ => none

/-- The class field of a word (spec/02 R31). -/
def wordClass (w : Nat) : Nat := bitsAt w 60 4
/-- The opcode field of a word (spec/02 R31). -/
def wordOp (w : Nat) : Nat := bitsAt w 42 8
/-- The idle, guard and neg fields of a word (spec/02 R31). -/
def wordHdr (w : Nat) : Hdr := ⟨BitVec.ofNat 10 (bitsAt w 50 10), fin 8 (bitsAt w 39 3), flag (w / 2 ^ 38)⟩

/-- The checks of spec/02 R52 that the bits alone decide, in their order: class, opcode, operand field. -/
def parse (w : Nat) : Except Reject Instr :=
  if 0xE ≤ wordClass w then .error .illegalClass
  else match formatOf (wordClass w) (wordOp w) with
    | none => .error .illegalOp
    | some f =>
      match parseFields (wordClass w) (wordHdr w) (wordOp w) (f.split (bitsAt w 0 38)) with
      | none => .error .illegalOp
      | some i => .ok i

/-- Decode a word under the largest allocation and no context: `parse` and the register rules that hold under every
allocation (spec/02 R47 to R49). -/
def decode (w : BitVec 64) : Except Reject Instr :=
  match parse w.toNat with
  | .error e => .error e
  | .ok i => if i.opds.all (Opd.ok 191) then .ok i else .error .illegalReg

/-- The 64-bit word of eight bytes, lowest address first (spec/00 R4). -/
def wordOfBytes : List Byte → Nat
  | [] => 0
  | b :: t => b.toNat + 256 * wordOfBytes t

/-- Decode the eight bytes of a word, lowest address first: total on any list of bytes. -/
def decodeBytes (bs : List Byte) : Except Reject Instr :=
  if bs.length = 8 then decode (BitVec.ofNat 64 (wordOfBytes bs)) else .error .illegalOp

/-- The instruction the decoder reads from a word given as the opcode table numbers its bits: bit 0 is the least
significant bit; a word is 64 bits, and the bits above `nbits` are 0. -/
def decodeTableWord (nbits w : Nat) : Option Instr :=
  match decode (BitVec.ofNat 64 (w % 2 ^ nbits)) with
  | .ok i => some i
  | .error _ => none

/-- The T fields of an engine word. -/
def tF (a b : Nat) (t : Toks) (m : Nat) : Fields := .T a b t.tko.val t.t0.val t.t1.val t.t2.val m
/-- The A fields of a word from registers. -/
def aF (d a b c : Reg) (m : Nat) : Fields := .A d.code a.code b.code c.code m
/-- m of an FP32 arithmetic word (spec/06 R127). -/
def fpM (r : RMode) (x2 sat : Bool) : Nat := r.code + 4 * bit sat + 8 * bit x2
/-- m of a packed word (spec/06 R127). -/
def hpM (r : RMode) (sat bf : Bool) : Nat := bit bf + 2 * r.code + 8 * bit sat
/-- imm of a barrier word (spec/11 R236). -/
def barI (cnt : BitVec 14) (ex : Bool) (l : BLevel) (id : Fin 16) : Nat :=
  cnt.toNat * 256 + 128 * bit ex + 16 * l.code + id.val

/-- Class, opcode and operand fields of an instruction word; none for an event. -/
def Instr.toFields : Instr → Option (Nat × Nat × Fields)
  | .nop _ => some (0, 0x00, .L 0 0)
  | .bra _ o => some (0, 0x01, .B 0 o.toNat 0)
  | .brx _ a i => some (0, 0x02, .I 0 a.code i.toNat)
  | .call _ o k => some (0, 0x03, .B 0 o.toNat k.val)
  | .ret _ a => some (0, 0x04, .I 0 a.code 0)
  | .loop _ k a l => some (0, 0x05, .I k.val a.code l.val)
  | .loopi _ k n l => some (0, 0x06, .L k.val (n.toNat * 512 + l.val))
  | .brkl _ k o => some (0, 0x07, .B k.val o.toNat 0)
  | .yield _ => some (0, 0x08, .L 0 0)
  | .cvset _ n a none m => some (0, 0x09, .I n.val a.code m.toNat)
  | .cvset _ n a (some t) m => some (0, 0x09, .I n.val a.code (2 ^ 21 + t.val * 2 ^ 16 + m.toNat))
  | .sign _ n => some (0, 0x0A, .I n.val 0 0)
  | .start _ => some (0, 0x0B, .L 0 0)
  | .waitc _ ld st cp mt => some (0, 0x0C, .W ld.val st.val cp.val mt.val 0)
  | .tkw _ t any => some (0, 0x0D, tF 0 0 t (bit any))
  | .exit _ => some (0, 0x0E, .L 0 0)
  | .sleep _ a m n => some (0, 0x0F, .I 0 a.code (bit m * 2 ^ 21 + n.toNat))
  | .iadd _ d a b m => some (1, 0x00, .A d.code a.code b.code 0 m.code)
  | .isub _ d a b m => some (1, 0x01, .A d.code a.code b.code 0 m.code)
  | .imul _ d a b => some (1, 0x02, .A d.code a.code b.code 0 0)
  | .imulh _ d a b u => some (1, 0x03, .A d.code a.code b.code 0 (bit u))
  | .imad _ d a b c m => some (1, 0x04, aF d a b c m.code)
  | .imin _ d a b u => some (1, 0x05, .A d.code a.code b.code 0 (bit u))
  | .imax _ d a b u => some (1, 0x06, .A d.code a.code b.code 0 (bit u))
  | .iabs _ d a s => some (1, 0x07, .A d.code a.code 0 0 (2 * bit s))
  | .and _ d a b => some (1, 0x08, .A d.code a.code b.code 0 0)
  | .or _ d a b => some (1, 0x09, .A d.code a.code b.code 0 0)
  | .xor _ d a b => some (1, 0x0A, .A d.code a.code b.code 0 0)
  | .andn _ d a b => some (1, 0x0B, .A d.code a.code b.code 0 0)
  | .shl _ d a b => some (1, 0x0C, .A d.code a.code b.code 0 0)
  | .shr _ d a b => some (1, 0x0D, .A d.code a.code b.code 0 0)
  | .sar _ d a b => some (1, 0x0E, .A d.code a.code b.code 0 0)
  | .rol _ d a b => some (1, 0x0F, .A d.code a.code b.code 0 0)
  | .bfx _ d a b s => some (1, 0x10, .A d.code a.code b.code 0 (bit s))
  | .bfi _ d a b c => some (1, 0x11, aF d a b c 0)
  | .popc _ d a => some (1, 0x12, .A d.code a.code 0 0 0)
  | .clz _ d a => some (1, 0x13, .A d.code a.code 0 0 0)
  | .brev _ d a => some (1, 0x14, .A d.code a.code 0 0 0)
  | .isetp _ p a b c u q => some (1, 0x15, .A p.val a.code b.code q.c (c.code + 8 * bit u + 16 * q.comb))
  | .plop _ pd pa pb pc l => some (1, 0x16, .A (pd.val + 8 * pc.val) pa.val pb.val l.toNat 0)
  | .sel _ d a b p n => some (1, 0x17, .A d.code a.code b.code 0 (p.val + 8 * bit n))
  | .mov _ d a => some (1, 0x18, .A d.code a.code 0 0 0)
  | .movi _ d i => some (1, 0x19, .L d.code i.toNat)
  | .movhi _ d i => some (1, 0x1A, .L d.code i.toNat)
  | .movs _ d s => some (1, 0x1B, .I d.code 0 s.code)
  | .movsw _ s a => some (1, 0x1C, .I 0 a.code s.code)
  | .lea _ d a b s u => some (1, 0x1D, .A d.code a.code b.code 0 (s.val + 8 * bit u))
  | .iadd64 _ d a b => some (1, 0x1E, .A d.code a.code b.code 0 0)
  | .pget _ d => some (1, 0x1F, .I d.code 0 0)
  | .pput _ a m => some (1, 0x20, .I 0 a.code m.toNat)
  | .iaddi _ d a i => some (1, 0x21, .I d.code a.code i.toNat)
  | .andi _ d a i => some (1, 0x22, .I d.code a.code i.toNat)
  | .ori _ d a i => some (1, 0x23, .I d.code a.code i.toNat)
  | .xori _ d a i => some (1, 0x24, .I d.code a.code i.toNat)
  | .isetpi _ p a i c u => some (1, 0x25, .I (p.val + 8 * c.code + 64 * bit u) a.code i.toNat)
  | .fadd _ d a b r x s => some (2, 0x00, .A d.code a.code b.code 0 (fpM r x s))
  | .fsub _ d a b r x s => some (2, 0x01, .A d.code a.code b.code 0 (fpM r x s))
  | .fmul _ d a b r x s => some (2, 0x02, .A d.code a.code b.code 0 (fpM r x s))
  | .ffma _ d a b c r x s na nc => some (2, 0x03, aF d a b c (fpM r x s + 16 * bit na + 32 * bit nc))
  | .fmin _ d a b x n => some (2, 0x04, .A d.code a.code b.code 0 (bit n + 8 * bit x))
  | .fmax _ d a b x n => some (2, 0x05, .A d.code a.code b.code 0 (bit n + 8 * bit x))
  | .fabs _ d a x => some (2, 0x06, .A d.code a.code 0 0 (8 * bit x))
  | .fneg _ d a x => some (2, 0x07, .A d.code a.code 0 0 (8 * bit x))
  | .fsetp _ p a b c q => some (2, 0x08, .A p.val a.code b.code q.c (c.code + 16 * q.comb))
  | .frnd _ d a r => some (2, 0x09, .A d.code a.code 0 0 r.code)
  | .fclamp _ d a b c x => some (2, 0x0A, aF d a b c (8 * bit x))
  | .f2i _ d a u r => some (2, 0x0B, .A d.code a.code 0 0 (r.code + 4 * bit u))
  | .i2f _ d a u r => some (2, 0x0C, .A d.code a.code 0 0 (r.code + 4 * bit u))
  | .hadd2 _ d a b r s bf => some (2, 0x0D, .A d.code a.code b.code 0 (hpM r s bf))
  | .hmul2 _ d a b r s bf => some (2, 0x0E, .A d.code a.code b.code 0 (hpM r s bf))
  | .hfma2 _ d a b c r s bf => some (2, 0x0F, aF d a b c (hpM r s bf))
  | .dot2 _ d a b c r bf => some (2, 0x10, aF d a b c (bit bf + 2 * r.code))
  | .dot4 _ d a b c s g => some (2, 0x11, aF d a b c (g.code + 4 * bit s))
  | .cvt _ d a c t s => some (2, 0x12, .A d.code a.code 0 c.code (8 * t.val + s.val))
  | .cvtpk _ d a b c t => some (2, 0x13, aF d a b c t.val)
  | .cvtup _ d a b s => some (2, 0x14, .A d.code a.code b.code 0 s.val)
  | .fscl _ d a b r => some (2, 0x15, .A d.code a.code b.code 0 r.code)
  | .fclass _ d a s => some (2, 0x16, .A d.code a.code 0 0 s.code)
  | .rcp _ d a => some (3, 0x00, .A d.code a.code 0 0 0)
  | .rsq _ d a => some (3, 0x01, .A d.code a.code 0 0 0)
  | .sqrt _ d a r => some (3, 0x02, .A d.code a.code 0 0 r.code)
  | .exp2 _ d a => some (3, 0x03, .A d.code a.code 0 0 0)
  | .log2 _ d a => some (3, 0x04, .A d.code a.code 0 0 0)
  | .sin _ d a => some (3, 0x05, .A d.code a.code 0 0 0)
  | .cos _ d a => some (3, 0x06, .A d.code a.code 0 0 0)
  | .sincos _ d a => some (3, 0x07, .A d.code a.code 0 0 0)
  | .tanh _ d a => some (3, 0x08, .A d.code a.code 0 0 0)
  | .tlu _ d a b => some (3, 0x09, .A d.code a.code b.code 0 0)
  | .dropm _ p a b => some (3, 0x0A, .A p.val a.code b.code 0 0)
  | .csamp _ d a b => some (3, 0x0B, .A d.code a.code b.code 0 0)
  | .rng _ d a u => some (3, 0x0C, .A d.code a.code 0 0 (bit u))
  | .fdiv _ d a b r => some (3, 0x0D, .A d.code a.code b.code 0 r.code)
  | .xrd _ d a b c m => some (4, 0x00, aF d a b c m.code)
  | .xrdi _ d a m f o => some (4, 0x01, .I d.code a.code (m.code * 2 ^ 19 + f.code * 2 ^ 17 + o.code * 2 ^ 8))
  | .xred _ d a o => some (4, 0x02, .A d.code a.code 0 0 o.code)
  | .xscan _ d a o e => some (4, 0x03, .A d.code a.code 0 0 (o.code + 16 * bit e))
  | .xvote _ d p n m => some (4, 0x04, .A d.code (p.val + 8 * bit n) 0 0 m.code)
  | .xpred _ pd p n m => some (4, 0x05, .A pd.val (p.val + 8 * bit n) 0 0 m.code)
  | .xcmp _ d a c p n => some (4, 0x06, .A d.code a.code 0 c.code (p.val + 8 * bit n))
  | .xexp _ d a c p n => some (4, 0x07, .A d.code a.code 0 c.code (p.val + 8 * bit n))
  | .xmatch _ d a hi => some (4, 0x08, .A d.code a.code 0 0 (bit hi))
  | .lds _ d b o z q => some (5, 0x00, .M d.code b.code o.toNat z.code (spadCode q))
  | .sts _ d b o z q => some (5, 0x01, .M d.code b.code o.toNat z.code (spadCode q))
  | .ldsf _ d b o z q k => some (5, 0x02, .M d.code b.code (o.toNat * 2 + bit k) z.code (spadCode q))
  | .stse _ d b o z q => some (5, 0x03, .M d.code b.code (o.toNat * 2) z.code (spadCode q))
  | .tags _ a b q s => some (5, 0x04, .A 0 a.code b.code 0 (2 * spadCode q + bit s))
  | .tagr _ d a q => some (5, 0x05, .A d.code a.code 0 0 (2 * spadCode q))
  | .ldg _ d b o z => some (5, 0x06, .M d.code b.code o.toNat z.code 0)
  | .stg _ d b o z => some (5, 0x07, .M d.code b.code o.toNat z.code 0)
  | .ldu _ d b o z => some (5, 0x08, .M d.code b.code o.toNat z.code 0)
  | .pref _ l b o => some (5, 0x09, .M l.code b.code o.toNat 2 0)
  | .cmaint _ a b l o => some (5, 0x0A, .A 0 a.code b.code 0 (4 * l.code + o.code))
  | .fence _ k s => some (6, 0x00, .L 0 (8 * k.code + s.code))
  | .lda _ d b o s z p => some (6, 0x01, .M d.code b.code (o.toNat * 8 + s.code) z.code p.code)
  | .stl _ d b o s z p => some (6, 0x02, .M d.code b.code (o.toNat * 8 + s.code) z.code p.code)
  | .atom _ d a b s r w o => some (6, 0x03, .A d.code a.code b.code (32 * s.code + 8 * r.code + 4 * bit w) o.code)
  | .atoms _ d a b s r w q o =>
      some (6, 0x04, .A d.code a.code b.code (32 * s.code + 8 * r.code + 4 * bit w + spadCode q) o.code)
  | .red _ a b s r w o => some (6, 0x05, .A 0 a.code b.code (32 * s.code + 16 * bit r + 4 * bit w) o.code)
  | .bar _ p a n e l i => some (6, 0x06, .I p.val a.code (barI n e l i))
  | .bara _ a n e l i => some (6, 0x07, .I 0 a.code (barI n e l i))
  | .barw _ p e l i => some (6, 0x08, .I p.val 0 (barI 0 e l i))
  | .barn _ d l i => some (6, 0x09, .I d.code 0 (barI 0 false l i))
  | .semacq _ s a n k => some (6, 0x0A, .I s.code a.code (n.toNat * 64 + k.val))
  | .semrel _ s none a n k => some (6, 0x0B, .I s.code a.code (n.toNat * 64 + k.val))
  | .semrel _ s (some q) a n k => some (6, 0x0B, .I (s.code + 8 + 16 * q.val) a.code (n.toNat * 64 + k.val))
  | .semtry _ p s a n k => some (6, 0x0C, .I (p.val + 8 * s.code) a.code (n.toNat * 64 + k.val))
  | .semrd _ d c k => some (6, 0x0D, .I d.code 0 (64 * bit c + k.val))
  | .cpl _ a b t e => some (7, 0x00, tF a.code b.code t e.code)
  | .cpt _ a b t e => some (7, 0x01, tF a.code b.code t e.code)
  | .cpr _ a b t => some (7, 0x02, tF a.code b.code t 0)
  | .cpstage _ a z mn mx => some (7, 0x03, .I 0 a.code (z.toNat * 4096 + mn.val * 64 + mx.val))
  | .cpstageOff _ => some (7, 0x03, .I 0 0 0)
  | .cpadv _ d m => some (7, 0x04, .I d.code 0 m.code)
  | .cpremPut _ a b t => some (7, 0x05, tF a.code b.code t 0)
  | .cpremPost _ a b t => some (7, 0x05, tF a.code b.code t 1)
  | .tkj _ t => some (7, 0x06, tF 0 0 t 0)
  | .cpfill _ a b t e => some (7, 0x07, tF a.code b.code t e.code)
  | .mma _ a c j t r => some (8, 0x00, tF a.code (16 * c.val + j.val) t (bit r))
  | .mmas _ a c j t r => some (8, 0x01, tF a.code (16 * c.val + j.val) t (bit r))
  | .mrel _ none => some (8, 0x02, .L 16 0)
  | .mrel _ (some c) => some (8, 0x02, .L c.val 0)
  | .mfq _ d p => some (8, 0x03, .I d.code 0 (bit p))
  | .mqry _ d f => some (8, 0x04, .I d.code 0 f.code)
  | .accz _ a b t => some (9, 0x00, tF a.code b.code t 0)
  | .accadd _ a b t => some (9, 0x01, tF a.code b.code t 0)
  | .accrd _ d a f => some (9, 0x02, .A d.code a.code 0 0 f.code)
  | .accset _ a b t s => some (9, 0x03, tF a.code b.code t s.code)
  | .accfl _ a b t => some (9, 0x04, tF a.code b.code t 0)
  | .accout _ a b t => some (9, 0x05, tF a.code b.code t 0)
  | .accpoi _ a b t => some (9, 0x06, tF a.code b.code t 0)
  | .rast _ a b k c => some (0xA, 0x00, tF a.code b.code ⟨k, k, k, k⟩ c.code)
  | .trav _ a b t => some (0xA, 0x01, tF a.code b.code t 0)
  | .sample _ a b t => some (0xA, 0x02, tF a.code b.code t 0)
  | .winacq _ d c ch => some (0xA, 0x03, .I d.code 0 (8 * bit c + ch.val))
  | .winrel _ c ch => some (0xA, 0x04, .I 0 0 (8 * bit c + ch.val))
  | .ordt _ a b t f => some (0xA, 0x05, tF a.code b.code t (bit f))
  | .ttask _ a b t => some (0xA, 0x06, tF a.code b.code t 0)
  | .tfence _ a b t => some (0xA, 0x07, tF a.code b.code t 0)
  | .omrg _ a b t => some (0xA, 0x08, tF a.code b.code t 0)
  | .trap _ i => some (0xB, 0x00, .L 0 i.toNat)
  | .eret _ => some (0xB, 0x01, .L 0 0)
  | .csrr _ d c => some (0xB, 0x02, .I d.code 0 c.code)
  | .csrw _ c a => some (0xB, 0x03, .I 0 a.code c.code)
  | .csrset _ d c a => some (0xB, 0x04, .I d.code a.code c.code)
  | .csrclr _ d c a => some (0xB, 0x05, .I d.code a.code c.code)
  | .tlbinv _ a b c al s => some (0xB, 0x06, .A 0 a.code b.code c.code (8 * bit al + s.code))
  | .launch _ a b t => some (0xB, 0x07, tF a.code b.code t 0)
  | .wfi _ => some (0xB, 0x08, .L 0 0)
  | .halt _ => some (0xB, 0x09, .L 0 0)
  | .rmark _ a i => some (0xB, 0x0A, .I 0 a.code i.toNat)
  | .ctxsave _ d a b k => some (0xB, 0x0B, .A d.code a.code b.code 0 (bit k))
  | .ctxload _ d a => some (0xB, 0x0C, .A d.code a.code 0 0 0)
  | .fill _ k a n => some (0xC, 0x00, .I k.code a.code n.toNat)
  | .pwrh _ c => some (0xC, 0x01, .I c.code 0 0)
  | .strq _ d f => some (0xC, 0x02, .I d.code 0 f.code)
  | .pgive _ a b t bk mv => some (0xD, 0x00, tF a.code b.code t (2 * bit bk + bit mv))
  | .ptake _ a b t bk => some (0xD, 0x01, tF a.code b.code t (2 * bit bk))
  | .pqry _ d (.own a) => some (0xD, 0x02, .I d.code a.code 0)
  | .pqry _ d .dies => some (0xD, 0x02, .I d.code 0 1)
  | .pzero _ a b o => some (0xD, 0x03, .A 0 a.code b.code 0 o.code)
  | _ => none

/-- The header's share of a word (spec/02 R31). -/
def Hdr.code (h : Hdr) : Nat := h.idle.toNat * 2 ^ 50 + h.guard.val * 2 ^ 39 + bit h.neg * 2 ^ 38

/-- The word of an instruction (spec/02 R31, R42, R50); none for an event. -/
def encode (i : Instr) : Option (BitVec 64) :=
  match i.toFields, i.hdr? with
  | some (cls, op, f), some h => some (BitVec.ofNat 64 (cls * 2 ^ 60 + op * 2 ^ 42 + h.code + f.join))
  | _, _ => none

/-- Is the constructor an instruction word (not an event)? -/
def Instr.isWord (i : Instr) : Bool := i.hdr?.isSome

/-- The engine class of a word, 0x0 to 0xD; 0xF for an event (spec/02 R50). -/
def Instr.cls (i : Instr) : Nat := match i.toFields with
  | some (c, _, _) => c
  | none => 0xF

end Sys2Proof
end

