-- ==== Sys2Proof/Machine/State.lean ====
section
/-!
DEFINITION. Machine/State.lean: the state of the package as plain data, everything the spec gives the machine, and
the state after package power-up. Threads, blocks, groups and grids (spec/01 R21 to R28), cores, quads and dies
(R13 to R19), memory and its caches (spec/09 R174), operations in flight (spec/10 R213), service cores and CSRs
(spec/18), links and firmware (spec/19). Numbers that the manual only counts are Nat; register contents are bit
vectors.
-/

namespace Sys2Proof.Machine

/-- Why a step would stop with a fault of the model: there is no such reason. Fault codes of the part are taken as spec/18 R370 and
R374 say, and where software breaks an obligation the machine goes on with any values (spec/00 R2). -/
inductive Fault where
  deriving DecidableEq, Repr

/-- Why the model gives no next state. -/
inductive Refusal where
  /-- An instruction without a meaning. Raised by arms of Dispatch only. Safe. -/
  | notModelled (mnemonic : String)
  /-- An event of the agenda whose condition does not hold in this state: the part has no such step here. Raised by
  the event meanings. Safe: the model stops on an agenda that no run of the part follows. -/
  | notEnabled (what : String)
  /-- A word placed on the agenda as an event. Raised by `step`. Safe, as above. -/
  | notAnEvent
  deriving DecidableEq, Repr

/-- The outcome of a meaning. -/
abbrev Out (σ : Type) := Host.Outcome σ Fault Refusal

/-- The privilege levels (spec/02 R51). -/
inductive Level where
  | user | sup | fw
  deriving DecidableEq, Repr

/-- The four outstanding counters (spec/03 R68). -/
inductive Cnt where
  | ld | st | cp | mt
  deriving DecidableEq, Repr

/-- One hardware loop level (spec/03 R74). -/
structure LoopLv where
  act : Bool := false
  st : DWord := 0
  en : DWord := 0
  lc : Word := 0
  deriving DecidableEq, Repr

/-- A fixed-latency write in flight (spec/02 R36): `dst` is a register code 0 to 255, or 256 + k for predicate k;
`due` the clock of the write; `q` the class of the producing word; `ths` the threads (by index) whose word it was, for
a g register. -/
structure PendW where
  dst : Nat
  val : Word
  due : Nat
  q : Nat
  ths : List Nat := []
  deriving DecidableEq, Repr

/-- A place of the dispatch window: its word, none while it is to be fetched again after a restore, its mark of
having issued (spec/02 R33, R55), and the clock since which the word has been eligible without a break, kept at the end of
each clock (spec/03 R63, R65). -/
structure WinEnt where
  word : Option DWord := none
  issued : Bool := false
  elig : Option Nat := none
  deriving DecidableEq, Repr

/-- A precise trap a thread takes before its next word (spec/09 R180, spec/11 R233, spec/17 R357): fault code, the
address of the word it names, and VAL. -/
structure Trap where
  code : Nat
  pc : DWord
  val : DWord
  sub : Nat := 0
  deriving DecidableEq, Repr

/-- The life of a thread (spec/03 R86). -/
inductive TStatus where
  | live | exited | killed | released
  deriving DecidableEq, Repr

/-- A BARA phase recorded in a thread (spec/11 R237). -/
structure BarRec where
  bar : BarId
  phase : Nat
  deriving DecidableEq, Repr

/-- A hit of a ray (spec/17 R356): triangle index, shader-table index, t as a quotient, u and v. -/
structure THit where
  tri : Nat
  idx : Nat
  tn : Int
  td : Nat
  u : Word
  v : Word
  deriving DecidableEq, Repr

/-- A place a traversal has still to visit: a node, or `cnt` triangles of a leaf from `ref` on; its level. -/
structure TItem where
  leaf : Bool
  ref : Nat
  cnt : Nat
  lvl : Nat
  deriving DecidableEq, Repr

/-- Traversal state behind ray registers +14 and +15 (spec/17 R354): what is left to visit, tmax as it began, the
committed hit, the candidate reported. -/
structure TravSt where
  stack : List TItem
  tmax : Word
  best : Option THit := none
  cand : Option THit := none
  deriving DecidableEq, Repr

/-- Where a thread stood before it issued a CPR, for the faults of its fault point (spec/12 R257): the clock, the word, and the
position. -/
structure Undo where
  clk : Nat
  word : DWord
  pc : DWord
  win : List WinEnt
  loops : List LoopLv
  lbuf : Tab DWord
  qlast : Tab Nat
  deriving DecidableEq, Repr

/-- A thread (spec/01 R21): the state a block start creates for each lane of each row. `since`: the clock at which its word at
the pc became its oldest (spec/03 R84); `heldAt`: the word, and the clock, at which it last found its condition not to hold.
`tkSnap`: what a waiting word holds of the clock h of spec/03 R84 or of the start of its release: 0 a token's operations, 3 a
token never produced, 1 the writes of a release, 2 the accesses of a TLBINV. `yield`: 0 while it does not yield; else 1 more than the issue opportunities its demotion still has, 66 and 67 in the clock of
the YIELD, 67 where it was demoted before (spec/03 R85). `owed`: the clock from which the bound of spec/03 R67 counts.
`aged`: the clock of its word's first rejection (spec/09 R178). `iseen`, `iacq`: the changes of memory its fetches see, and those they
will see from its next control transfer on (spec/02 R56). `freed`: the clock from which its slot is free (spec/03 R86). `accAt`: the clock before which
no access word issues behind a BARW (spec/10 R202). `later`: the traps of TLU words in flight, with the clock of their completion
(spec/07 R147). `tabAt`: the order in which its sign began to wait for the reservation table (spec/13 R270). `undo`: where it stood
before a CPR whose fault point has not passed (spec/12 R257). -/
structure Thread where
  x : Tab Word := []
  preds : BitVec 7 := 0
  pc : DWord := 0
  win : List WinEnt := []
  loops : List LoopLv := [{}, {}, {}]
  lbuf : Tab DWord := []
  ld : Nat := 0
  st : Nat := 0
  cp : Nat := 0
  mt : Nat := 0
  qlast : Tab Nat := []
  start : Nat := 0
  pend : List PendW := []
  readyAt : Nat := 0
  rejected : Option Nat := none
  fpAt : Nat := 0
  since : Option Nat := none
  heldAt : Option (DWord × Nat) := none
  tkSnap : List (Nat × List Nat) := []
  yield : Nat := 0
  owed : Nat := 0
  urgent : Bool := false
  aged : Option Nat := none
  status : TStatus := .live
  waitOp : Option Nat := none
  susp : Option Nat := none
  trap : Option Trap := none
  level : Level := .user
  bara : List BarRec := []
  lastRes : List (BarId × Bool) := []
  travs : Tab TravSt := []
  accAt : Nat := 0
  later : List (Nat × Trap) := []
  iseen : Nat := 0
  iacq : Nat := 0
  freed : Nat := 0
  tabAt : Option Nat := none
  undo : Option Undo := none
  deriving DecidableEq, Repr

/-- A token: produced bit and the operations added to it; those still in `State.ops` are its set (spec/03 R69). -/
structure TokSt where
  prod : Bool := false
  ops : List Nat := []
  deriving DecidableEq, Repr

/-- The operation descriptor an epoch's first sign fixes (spec/03 R71, spec/13 R272). -/
inductive CvOp where
  | none
  | plain
  /-- Opcode and bits [37:0] of the MMA or MMAS word, and the number of the request its first sign began. -/
  | mtx (opbits req : Nat)
  deriving DecidableEq, Repr

/-- A convergence register (spec/03 R71); `tokOp` is the token operation its fire completes (R72). -/
structure CvSt where
  members : BitVec 16 := 0
  tok : Option Tok := none
  signed : List Nat := []
  op : CvOp := .none
  tokOp : Option Nat := none
  deriving DecidableEq, Repr

/-- A matrix request from its first sign on (spec/13 R270 to R285). Fixed by the first sign: register, opcode, .RU,
descriptor registers, command block, member rows. `fs`: the format slots as the latest sign, or the fire, reads them; `frag`: the A fragments by row of A; `g63` as read at
the fire; `entered`, `age`: entry into the table; `passes` granted; `grid`: the exponent of each EXACT line; `sums`: for
FAST the FP32 value P of each element, for EXACT the contributions of every pass, rounded to the grid of their lines, with
`nan` the places that are not finite; `pas`: the lines by physical address, or of a failed request those it may mark;
`fail`: code and detail of spec/13 R284; `lines` written; `last`: the clock of the last grant; `t0`: the start of the
line writes (R285). `ready`: the clock after the fault point of its last sign; `full`: from the end of its epoch on the order in which
it came to the table, with the register's own token operation `tokOp` (R270, R274). -/
structure MReq where
  cv : Nat
  sparse : Bool
  ru : Bool
  desc : List Word
  cmd : List Word
  fs : List Word
  rowIds : List Nat
  frag : List (Nat × List Word) := []
  g63 : Word := 0
  entered : Bool := false
  age : Nat := 0
  passes : Nat := 0
  grid : List Int := []
  pas : List Nat := []
  sums : List Int := []
  nan : List Nat := []
  fail : Option (Nat × Nat) := none
  lines : Nat := 0
  last : Nat := 0
  t0 : Nat := 0
  ready : Nat := 0
  full : Option Nat := none
  tokOp : Option Nat := none
  deriving DecidableEq, Repr

/-- A collector latch: the A operand held by a convergence register (spec/13 R281). -/
structure Latch where
  key : Nat
  rows : Nat
  fa : Word
  sparse : Bool
  kch : Nat
  frag : List (Nat × List Word)
  deriving DecidableEq, Repr

/-- A fault record (spec/18 R371): the eight words of BFR0 to BFR7 as fields. -/
structure FRec where
  id : Nat
  lost : Bool := false
  imp : Bool := false
  susp : Bool := false
  code : Nat
  slot : Nat := 0
  lane : Nat := 0
  sub : Nat := 0
  blkid : Nat := 0
  pc : DWord := 0
  val : DWord := 0
  lmask : DWord := 0
  row : Nat := 0
  /-- The operation whose page the record asks for (spec/12 R421), if any. -/
  op : Option Nat := none
  deriving DecidableEq, Repr

/-- A barrier (spec/11 R233). `c0`, `e`: the count the first arrival of the phase named, and E; `part`: the threads
arrived in the current phase, in the order of arrival; `here`: above core level, the blocks arrived; `waiting`: the operations of the threads that wait for it, in the order of arrival;
`waves` lists the operations of
waiters released by an opening and not yet served by a wave; `waveAt`: by core, the clock of its next wave and the last
clock of the release (spec/16 R338). `results`: the outcome of each opened phase. -/
structure Bar where
  phase : Nat := 0
  c0 : Option Nat := none
  e : Nat := 0
  part : List Tid := []
  here : List Nat := []
  broken : Bool := false
  killMark : Bool := false
  lastOk : Bool := true
  waiting : List Nat := []
  waves : List Nat := []
  waveAt : Tab (Nat × Nat) := []
  results : List (Nat × Bool) := []
  deriving DecidableEq, Repr

/-- The copy ring of a block (spec/12 R265, R266). -/
structure Ring where
  base : Nat
  size : Nat
  mn : Nat
  mx : Nat
  head : Nat := 0
  tail : Nat := 0
  d : Nat
  lavg : Nat := 0
  iavg : Nat := 0
  lastP : Option Nat := none
  deriving DecidableEq, Repr

/-- BCTL.STATE of a block (spec/18 R372). -/
inductive BState where
  | pending | resident | preempting | saved | completed
  deriving DecidableEq, Repr

/-- A block (spec/01 R21, R28). `mrel`: releases of latches by MREL, each with its register and clock (spec/13 R287); `spw`: writes of
its special registers in flight; `held`: fault events that wait for room in its queue (spec/18 R370); `lastSeq`: the last SEQ of its ORDT words
(spec/17 R348); `mlost`: a record of the quad fault queue was lost (spec/13 R288). -/
structure Block where
  core : Nat
  grid : Nat
  blkid : Nat
  nrow : Nat := 1
  slots : List Nat := [0]
  regs : Nat := 32
  spadBase : Nat := 0
  spadSize : Nat := 0
  accLines : Nat := 0
  part : Nat := 0
  prio : Nat := 0
  qgid : Option Nat := none
  dgid : Option Nat := none
  dgpos : Nat := 0
  cid : Nat := 0
  g : Tab Word := []
  gpend : List PendW := []
  fs : List Word := []
  threads : Tab Thread := []
  toks : Tab TokSt := []
  cvs : Tab CvSt := []
  cvpend : List (Nat × CvSt × Nat) := []
  latches : List Latch := []
  mrel : List (Nat × Nat) := []
  xlwin : Word := 256
  taglim : Word := 0x00100000
  spw : List (Nat × Word × Nat) := []
  faultst : BitVec 4 := 0
  ring : Option Ring := none
  actclass : ActClass := .vec
  faultq : List FRec := []
  lostMark : Bool := false
  held : List (FRec × List Tid) := []
  bars : Tab Bar := []
  lastSeq : Option Nat := none
  fin : Bool := false
  mlost : Bool := false
  bstate : BState := .resident
  deriving DecidableEq, Repr

/-- A window channel of a quad group (spec/17 R346). -/
structure Chan where
  full0 : Bool := false
  full1 : Bool := false
  pidx : Bool := false
  cidx : Bool := false
  pheld : Bool := false
  cheld : Bool := false
  deriving DecidableEq, Repr

/-- A quad group of a grid: its barriers and window channels. -/
structure QGroup where
  bars : Tab Bar := []
  chans : Tab Chan := []
  deriving DecidableEq, Repr

/-- One of the 64 fence slots of a grid (spec/17 R362). -/
structure FenceSlot where
  gen : Nat := 0
  task : Option Nat := none
  status : Nat := 0
  deriving DecidableEq, Repr

/-- A packet waiting at the ingress of a screen region (spec/17 R349); `bad`: its runs of 16 bytes that carry poison. -/
structure Packet where
  prod : Nat
  seq : Nat
  fin : Bool
  data : List Byte
  bad : List Nat := []
  deriving DecidableEq, Repr

/-- The ingress of a screen region (spec/17 R349, R350): pending packets, watermarks, producers that are done; the
records of the buffer it fills, how many, the buffer's poisoned runs of 16 bytes, and the clock of the last delivery; whether LAST was sent. -/
structure Region where
  pend : List Packet := []
  marks : Tab Nat := []
  fins : List Nat := []
  buf : List Byte := []
  cnt : Nat := 0
  bad : List Nat := []
  at_ : Nat := 0
  last : Bool := false
  deriving DecidableEq, Repr

/-- The fields of a launch record (spec/18 R387). -/
structure LRec where
  entry : DWord := 0
  nblk : Nat := 1
  nrow : Nat := 1
  regs : Nat := 32
  spadb : Nat := 0
  accb : Nat := 0
  qg : Bool := false
  cores : Bool := false
  gfx : Bool := false
  pod : Bool := false
  sup : Bool := false
  pcls : Nat := 0
  prio : Nat := 0
  part : Nat := 3
  dgn : Nat := 0
  memaff : Nat := 0
  fs : List Word := []
  mbmask : BitVec 16 := 0
  mbs : List Word := []
  trapen : BitVec 4 := 0
  cid : Nat := 0
  gridid : Nat := 0
  seed : DWord := 0
  save : DWord := 0
  bind : DWord := 0
  doneva : DWord := 0
  doneval : Word := 0
  deps : List Nat := []
  podlid : Word := 0
  deriving DecidableEq, Repr

/-- The status of a grid (spec/18 R373, R389). -/
inductive GStatus where
  | accepted | running | done | faulted | killed | refused
  deriving DecidableEq, Repr

/-- A grid: the blocks of one launch (spec/01 R23, spec/18 R389). `deps`: the incomplete grids it waited for at its
acceptance; `refuse`: it is to complete REFUSED; `since`: the clocks of the compute dies' fabrics at its acceptance; `rel`: writes, by core, that its completion waits for (R389). -/
structure Grid where
  lrec : LRec := {}
  fs : List Word := []
  bars : Tab Bar := []
  dbars : Tab Bar := []
  qgroups : Tab QGroup := []
  fences : Tab FenceSlot := []
  regions : Tab Region := []
  binds : List Word := []
  nextBlk : Nat := 0
  doneBlks : List Nat := []
  killedBlks : List Nat := []
  faulted : Bool := false
  killed : Bool := false
  status : GStatus := .accepted
  queue : Nat := 0
  order : Nat := 0
  deps : List Nat := []
  refuse : Bool := false
  since : List Nat := []
  rel : List (Nat × Nat) := []
  deriving DecidableEq, Repr

/-- A semaphore (spec/11 R239): the operations in its waiting queue are SEMACQ operations, oldest first. -/
structure Sem where
  count : Nat := 0
  err : Bool := false
  timeout : Bool := false
  ovf : Bool := false
  queue : List Nat := []
  deriving DecidableEq, Repr

/-- A cached byte with its dirty mark (spec/09 R174). -/
structure CByte where
  v : Byte
  dirty : Bool := false
  deriving DecidableEq, Repr

/-- One accumulation-store copy of a line (spec/14 R295): settled content or a private delta. -/
structure AccCopy where
  settled : Bool
  exact : Bool
  e : Int
  estab : Nat
  vals : List Int
  touched : List Bool
  nan : List Bool := []
  ovf : Bool := false
  poison : Bool := false
  blk : Nat
  age : Nat
  deriving DecidableEq, Repr

/-- A cached translation (spec/18 R378). -/
structure TlbEnt where
  cid : Nat
  va : Nat
  size : Nat
  pa : Nat
  r : Bool
  w : Bool
  x : Bool
  u : Bool
  nodir : Bool := false
  deriving DecidableEq, Repr

/-- A cross-lane gather of a row (spec/08 R155): its word, its opening and window, and once complete its present
threads, by index, and the clock of its completion. -/
structure Gather where
  blk : Nat
  row : Nat
  pc : DWord
  since : Nat
  win : Nat
  done : Option (List Nat) := none
  doneAt : Nat := 0
  deriving DecidableEq, Repr

/-- A core (spec/01 R17). Cores 0 to 319 compute; 320 to 333 are the service pairs. `ptab`: the path table's entries, each a
kernel and a word address; `oflow`: the overflow list, in order of arrival (spec/03 R64). `spare`: the free miss-status entries
that are not reserved for the oldest ageing word (spec/09 R178); `rastFree`: the clock from which it accepts a RAST (spec/17 R363);
`filler`: a bit for each of the last 1,024 clocks, set where it drove filler, `gap`: its gap monitor sees an excursion (spec/16 R334, R339);
`vclk`: the issue groups counted since capture mode began, its virtual clock (spec/18 R394). -/
structure Core where
  clk : Nat := 0
  vclk : Nat := 0
  mb : Tab Word := []
  mbAt : Option Nat := none
  mbPend : List (Nat × Word × Nat) := []
  sems : Tab Sem := []
  spad : List Host.Cell := []
  tags : List Nat := []
  spoison : List Nat := []
  l1 : Tab CByte := []
  l1poison : List Nat := []
  l1whole : List Nat := []
  owned : List Nat := []
  acc : Tab AccCopy := []
  tlb : List TlbEnt := []
  copylim : Word := 0x01000000
  prelim : Word := 400000
  fill : Option (FillKind × Nat) := none
  filler : Nat := 0
  gap : Bool := false
  droop : Nat := 0
  flagged : Bool := false
  suppress : Nat := 0
  sfuFree : Nat := 0
  rastFree : Nat := 0
  memFree : Nat := 0
  spare : Nat := 0
  copyFree : Nat := 0
  gathers : List Gather := []
  ptab : List (Nat × Nat) := []
  oflow : List (Tid × Nat) := []
  book : List (Nat × Nat) := []
  classAt : Tab Nat := []
  grace : Option Nat := none
  graceLast : Option Nat := none
  cid : Nat := 0
  deriving DecidableEq, Repr

/-- A record of the quad fault queue (spec/13 R288). -/
structure MRec where
  seq : Nat
  blk : Nat
  blkid : Nat
  code : Nat
  cv : Nat
  cmd : Word
  detail : Word
  deriving DecidableEq, Repr

/-- The state of a quad's string monitor (spec/16 R335). -/
inductive MState where
  | normal | filler | throttle | gap
  deriving DecidableEq, Repr

/-- A quad (spec/01 R18, R19). `arrayAt`: the core granted the last pass, and its clock from which the array takes the next (spec/13
R285); `dev`: the deviations of R332; `hist`: the level currents of the last 1,024 monitor clocks, the newest first; `hold`, `within`: the counts of spec/16 R335; `gapSave`: state
and THR before a rail-gap excursion; `step`: a monitor clock under way that waits for its third (1) or fifth (2) row. -/
structure Quad where
  arrayAt : Nat × Nat := (0, 0)
  mfq : List MRec := []
  thrCfg : Nat := 13
  holdCfg : Nat := 16
  cslim : Nat := 1024
  dev : List Int := [0, 0, 0, 0]
  hist : List (List Int) := []
  mstate : MState := .normal
  thr : Nat := 0
  hold : Nat := 0
  within : Nat := 0
  gapSave : Option (MState × Nat) := none
  mclk : Nat := 0
  step : Nat := 0
  deriving DecidableEq, Repr

/-- A write the RDC has forwarded to its home and that is not acknowledged (spec/10 R420): the bytes, the sectors of a
poisoned write, and the sectors one store word wrote whole (spec/09 R180). -/
structure Fwd where
  id : Nat
  bytes : List Host.Cell
  poison : List Nat := []
  whole : List Nat := []
  deriving DecidableEq, Repr

/-- A compute die (spec/01 R13, R26). `clk`: the clock of its fabric's island; `job`: what its work distributor has pulled (spec/18 R389): a grid, or a saved unit of
it by its lowest block. -/
structure Die where
  clk : Nat := 0
  partT : Bool := false
  cslim : Nat := 4096
  job : Option (Nat × Option Nat) := none
  rdc : Tab Byte := []
  rpoison : List Nat := []
  fwd : List Fwd := []
  deriving DecidableEq, Repr

/-- A memory die: 0 to 3 NMD, 4 and 5 FMD (spec/01 R13; spec/09 R181, R183, R184). `poolTaken`, `poolBack`: pages taken
from the front of the rehoming pool, and pages returned to it (spec/15 R326). `mig`: a copy under way, source, destination
and pages (R185). -/
structure MDie where
  qos : List Word := []
  planeOff : Bool := false
  log : List Nat := []
  asleep : List Nat := []
  poolbase : DWord := 0
  poolnpg : Word := 0
  poolTaken : Nat := 0
  poolBack : List Nat := []
  migsrc : DWord := 0
  migdst : DWord := 0
  migctl : Word := 0
  mig : Option (Nat × Nat × Nat) := none
  deriving DecidableEq, Repr

/-- An established accumulation line (spec/14 R293). `vals`: the 72-bit integers of an EXACT line; the FP32 values of a
FAST line are the bytes of the line at home. `cap`: under capture mode, for each element of a FAST line the exact sum in units of 2^-149 and marks, bit 0 a
NaN, bit 1 a +∞, bit 2 a -∞ (spec/18 R394). -/
structure AccLine where
  exact : Bool
  e : Int
  vals : List Int
  nan : List Bool := []
  ovf : Bool := false
  poison : Bool := false
  estab : Nat := 0
  cap : List (Int × Nat) := []
  deriving DecidableEq, Repr

/-- Memory: the devices, the home L2s, poison, page owners and accumulation lines. `ver` counts the changes of home bytes; `old`:
the version of a change, an address, and its byte before, oldest first, for instruction fetches that do not see the change yet
(spec/02 R56). -/
structure Mem where
  dev : List Host.Cell := []
  l2 : Tab CByte := []
  devPoison : List Nat := []
  l2Poison : List Nat := []
  owner : Tab Owner := []
  lines : Tab AccLine := []
  ver : Nat := 0
  old : List (Nat × Nat × Byte) := []
  deriving DecidableEq, Repr

/-- A service core (spec/18 R367, R374, R391). `entry`: the supervisor entry registered with its firmware (R392); `heard`,
`missed`: by slot, its clock at the last heartbeat or counted period, and the periods missed; `prevLead`: the leader its
present one follows; `depth`: the handlers it is in (spec/19 R407); `irq`: SIP at the end of the clock before. -/
structure Svc where
  stvec : DWord := 0
  sepc : DWord := 0
  scause : Word := 0
  stval : DWord := 0
  sstat : Word := 4
  sie : Word := 0
  ftvec : DWord := 0
  fepc : DWord := 0
  fcause : Word := 0
  ftval : DWord := 0
  fstat : Word := 4
  clkcmp : DWord := 0
  coresel : Nat := 0
  hbper : Word := 2000000
  epoch : Nat := 0
  leadKind : Nat := 0
  leadSlot : Nat := 0
  linkPend : Bool := false
  hbPend : Bool := false
  silent : Nat := 0
  halted : Bool := false
  inReset : Bool := false
  started : Bool := false
  entry : DWord := 0
  hbAt : Nat := 0
  heard : Tab Nat := []
  missed : Tab Nat := []
  prevLead : Nat := 0
  depth : Nat := 0
  irq : Nat := 0
  deriving DecidableEq, Repr

/-- A queue ring (spec/18 R389): `recs`, from QHEAD on, the grid of each record and whether the record is finished. -/
structure Ringq where
  base : DWord := 0
  ctl : Word := 0
  tail : Nat := 0
  head : Nat := 0
  recs : List (Nat × Bool) := []
  deriving DecidableEq, Repr

/-- The states of a link (spec/19 R400, R402), in the order of their codes. -/
inductive LState where
  | down | train | active | drain | paused | failed
  deriving DecidableEq, Repr

/-- One end of a link: the module's registers (spec/19 R402) and, equal at both ends, the state, trained width and
map in force (R400). `clk`: link clocks; `win`: resends counted in the present window; `winAt`: its start; `fails`: consecutive failures of
one flit (R399); `since`: the clock at which it entered its state. -/
structure Link where
  state : LState := .active
  width : Nat := 0
  lasterr : Nat := 0xFF
  pause : Bool := false
  retrain : Bool := false
  twidth : Nat := 0
  remap : Word := 0
  map : Word := 0
  retry : Word := 0
  thr : Word := 0x004003E8
  derr : DWord := 0
  serr : BitVec 4 := 0
  evt : BitVec 3 := 0
  clk : Nat := 0
  win : Nat := 0
  winAt : Nat := 0
  fails : Nat := 0
  since : Nat := 0
  deriving DecidableEq, Repr

/-- A CPR: the address of its first line, the lines, the source's offset in the core's scratchpad, phase, semaphore, and from its
fault point on its lines by physical address and the booked clocks of a scheduled one (spec/12 R257 to R259). -/
structure CprReq where
  va : DWord
  nl : Nat
  src : Nat
  phase : Nat
  sem : Option Nat
  pas : List Nat := []
  slots : List Nat := []
  deriving DecidableEq, Repr

/-- A buffer posted for an inbound transfer on a channel (spec/12 R261). -/
structure Posting where
  chan : Nat
  blk : Nat
  dsp : Nat
  dst : Nat
  size : Nat
  ctl : Word
  deriving DecidableEq, Repr

/-- An in-switch reduction group (spec/19 R404); `bad`: the words of 4 bytes of a contribution that carry poison. -/
structure RedGroup where
  id : Nat
  members : Nat
  got : List (Nat × List Byte) := []
  bad : List Nat := []
  deriving DecidableEq, Repr

/-- The fabric: postings and reductions. -/
structure Fabric where
  posts : List Posting := []
  reds : List RedGroup := []
  deriving DecidableEq, Repr

/-- Firmware and power (spec/19 R406 to R410). -/
structure Fw where
  loaded : Bool := false
  banks : List (Option Nat) := [none, none]
  active : Nat := 0
  rollback : Nat := 0
  status : Nat := 0
  pkgSusp : Bool := false
  sysSusp : Bool := false
  deriving DecidableEq, Repr

/-- What the part has answered to the outside (spec/19 R401, R405, R408). -/
inductive OutMsg where
  | hostLoad (addr : Nat) (data : List Byte)
  | hostOk (addr : Nat)
  | hostErr (addr : Nat)
  | hostPoison (addr : Nat)
  | frame (addr : Nat) (data : List Byte)
  | put (pod pkg chan seq : Nat) (data : List Byte) (bad : List Nat)
  | ack (chan seq : Nat) (err : Bool)
  | report (nonce : Nat) (banks : List (Option Nat)) (active rollback : Nat) (body : Nat)
  deriving DecidableEq, Repr

/-- Where bytes lie: a physical address of the memory system, or an offset in a core's scratchpad. -/
inductive Loc where
  | mem (pa : Nat)
  | spad (core off : Nat)
  deriving DecidableEq, Repr

/-- One lane's access (spec/10 R201): thread, place, virtual address, data (of a load, once it is performed), compare
value, and whether a performed load read poison. -/
structure Acc where
  t : Tid
  loc : Loc
  va : DWord := 0
  data : Nat := 0
  cmp : Nat := 0
  bad : Bool := false
  deriving DecidableEq, Repr

/-- A run of bytes an engine moves: destination, and a source place or a repeated pattern (spec/12 R255). Places are
virtual: space code and address or offset. -/
structure Seg where
  dsp : Nat
  dst : Nat
  ssp : Nat := 0
  src : Nat := 0
  pat : Option Nat := none
  len : Nat
  deriving DecidableEq, Repr

/-- What an operation in flight does (spec/03 R68 to R70, spec/10 R213). -/
inductive OpKind where
  /-- LDG, LDS, LDA: one lane's load of n bytes into d; the acquire scope of an LDA (spec/09 R187, spec/10 R221). -/
  | load (a : Acc) (n : Nat) (d : Reg) (acq : Option Scope)
  /-- LDU: one load for the block, to every active thread (spec/09 R188). -/
  | loadU (a : Acc) (n : Nat) (d : Reg)
  /-- TAGR (spec/09 R195). -/
  | tagr (a : Acc) (d : Reg)
  /-- LDSF waiting for its tags (spec/09 R192). -/
  | ldsf (a : Acc) (n : Nat) (d : Reg) (keep : Bool)
  /-- STSE waiting for its tags (spec/09 R192). -/
  | stse (a : Acc) (n : Nat)
  /-- STG, STS, STL: the lanes of one row; the release scope of an STL (spec/09 R187, spec/10 R221); the sectors, by
  place of their first byte, that the word's whole issue group writes whole (spec/09 R180). -/
  | store (accs : List Acc) (n : Nat) (rel : Option Scope) (full : List Loc)
  /-- TAGS (spec/09 R195). -/
  | tags (t : Tid) (core w k : Nat) (set : Bool)
  /-- CMAINT over sectors (spec/09 R198). -/
  | cmaint (secs : List Nat) (lvl : CLevel) (op : COp)
  /-- ATOM, ATOMS of one group (spec/11 R227). -/
  | atom (accs : List Acc) (n : Nat) (op : AOp) (ord : AOrder) (sc : Scope) (d : Reg)
  /-- RED of one row's lanes (spec/11 R227). -/
  | red (accs : List Acc) (n : Nat) (op : AOp) (rel : Option Scope)
  /-- SEMREL (spec/11 R241): target core, semaphore, units. -/
  | semrel (t : Tid) (core k n : Nat) (sc : Scope)
  /-- SEMTRY (spec/11 R241). -/
  | semtry (t : Tid) (k n : Nat) (p : Pred) (sc : Scope)
  /-- SEMACQ in the waiting queue (spec/11 R241). -/
  | semacq (t : Tid) (k n : Nat) (sc : Scope)
  /-- An arrival whose release is not complete: BAR or BARA (spec/11 R234, R237). -/
  | barArr (t : Tid) (b : BarId) (c : Nat) (ex : Bool) (p : Option Pred)
  /-- A thread waiting for a barrier phase (spec/11 R233, R235, R237). -/
  | barWait (t : Tid) (b : BarId) (phase : Nat) (ex : Bool) (p : Pred)
  /-- CPL, CPT, CPFILL: runs of bytes, control word, element size, bytes done (spec/12 R249, R255). -/
  | copy (segs : List Seg) (ctl : Word) (el : Nat)
  /-- CPR (spec/12 R257 to R259). -/
  | cpr (r : CprReq)
  /-- CPREM.PUT: source, length, target pod, package and channel, control word, number (spec/12 R260, R262). -/
  | put (ssp src len pod pkg chan : Nat) (ctl : Word) (seq : Nat)
  /-- CPREM.POST (spec/12 R260, R261). -/
  | post (p : Posting)
  /-- An inbound transfer at the receiver, from its arrival on (spec/12 R262); `bad`: its words of 4 bytes that carry poison. -/
  | inbound (pod pkg chan seq : Nat) (data : List Byte) (bad : List Nat)
  /-- TKJ (spec/12 R263), and the token operation of a CVSET epoch (spec/03 R72). -/
  | join
  /-- The token operation an armed convergence register completes at its fire (spec/03 R72). -/
  | epoch (cv : Nat)
  /-- An MMA or MMAS request (spec/13 R270). -/
  | mtx (r : MReq)
  /-- The operation that the lane operations of one block add to a token (spec/03 R69, spec/12 R246, spec/14 R309): it
  completes with the last of them. -/
  | group
  /-- ACCADD of one lane (spec/14 R311): the element's place and the value. -/
  | accadd (a : Acc) (v : Word)
  /-- ACCZ (spec/14 R310): the lines by physical address, mode and window. -/
  | accz (pas : List Nat) (exact : Bool) (e : Int)
  /-- ACCSET at a scope (spec/14 R313). -/
  | accset (va : DWord) (pas : List Nat) (sc : SetScope)
  /-- ACCFL (spec/14 R313). -/
  | accfl (pas : List Nat)
  /-- ACCPOI (spec/14 R317). -/
  | accpoi (pas : List Nat)
  /-- ACCOUT (spec/14 R315): lines; for each line its destination's parts; SETF, slot word, g63, LANE0. -/
  | accout (va : DWord) (pas : List Nat) (dsts : List (List (Loc × Nat))) (setf : Bool) (fs g : Word) (lane : Nat)
  /-- ACCRD (spec/14 R312). -/
  | accrd (a : Acc) (f : RdForm) (d : Reg)
  /-- PGIVE (spec/15 R324 to R326): the six words of the range descriptor and flag address; the thread of the word. -/
  | pgive (desc : List Word) (t : Tid) (back move : Bool)
  /-- PTAKE (spec/15 R327): the same; the pages and the flag's place as checked. -/
  | ptake (desc : List Word) (t : Tid) (pages : List Nat) (flag : Nat) (back : Bool)
  /-- PQRY.OWN (spec/15 R328). -/
  | pqry (t : Tid) (pa : Nat) (d : Reg)
  /-- PZERO (spec/15 R329). -/
  | pzero (pages : List Nat) (owner : Owner)
  /-- RAST (spec/17 R352). -/
  | rast (d : Reg) (lanes : List Tid) (g : List Word) (sc : List Word) (cull : Cull)
  /-- TRAV of one lane (spec/17 R354): ray registers and descriptor as read at issue. -/
  | trav (t : Tid) (a : Reg) (ray desc : List Word)
  /-- SAMPLE of one lane (spec/17 R358): the format, and each texel's address, place and weight in units of 2^-16. -/
  | sample (t : Tid) (a : Reg) (fmt : Nat) (tx : List (DWord × Nat × Nat))
  /-- OMRG of one lane (spec/17 R360): fragment registers and tile descriptor. -/
  | omrg (t : Tid) (frag desc : List Word)
  /-- ORDT (spec/17 R348): the packet's bytes once read, and its runs of 16 bytes that carry poison. -/
  | ordt (off len mask seq : Nat) (fin : Bool) (data : List Byte) (bad : List Nat)
  /-- WINACQ waiting (spec/17 R346). -/
  | winacq (d : Reg) (cons : Bool) (ch : Nat)
  /-- TTASK (spec/17 R362): the record's place. -/
  | ttask (pa : Nat) (b : Reg)
  /-- TFENCE (spec/17 R362). -/
  | tfence (t : Tid) (slot gen : Nat) (expired : Bool) (b : Reg)
  /-- LAUNCH (spec/18 R390): the record's place. -/
  | launch (pa q : Nat) (b : Reg)
  /-- CTXSAVE (spec/18 R386): status register, image address, handle. -/
  | ctxsave (t : Tid) (d : Reg) (va id : DWord) (keep : Bool)
  /-- CTXLOAD (spec/18 R386). -/
  | ctxload (t : Tid) (d : Reg) (va : DWord)
  deriving DecidableEq, Repr

/-- An operation in flight. `after`: the operations that must complete before it starts (spec/03 R70, spec/10 R213);
`acts`: the active threads of its word in its block, where they are more than `tids`; `cnts`: the counters that fall at its completion; `stage`, `prog`: how far it has come; `page`: the fault record it
waits on, `pageAt` since when (spec/12 R251), of a tag step the clock of its arrival (spec/09 R194). `done`: the elements of a copy already moved; `lim`: the limit in force on
its wait; `vclk`: the core's virtual clock when it began (spec/18 R394). -/
structure Op where
  id : Nat
  core : Nat
  blk : Nat
  row : Nat := 0
  kind : OpKind
  tids : List Tid := []
  acts : List Tid := []
  cnts : List (Tid × Cnt) := []
  after : List Nat := []
  pc : DWord := 0
  clk : Nat := 0
  stage : Nat := 0
  prog : Nat := 0
  started : Bool := false
  page : Option Nat := none
  pageAt : Nat := 0
  done : List Nat := []
  lim : Nat := 0
  vclk : Nat := 0
  deriving DecidableEq, Repr

/-- A saved block of a unit (spec/18 R383): the header of its image lies in memory at `pages` (places and lengths), its
body's bytes are those the free values `free` name (DESIGN CHOICE, log 10); the state they stand for: the block, its waiting operations,
the state of its groups, its scratchpad window and tags by offset, the semaphores where they are saved. `auto`: it waits to
be restored by a work distributor, `mig`: on other cores (R385); `cores`: where the unit was. -/
structure Saved where
  blk : Nat
  unit : List Nat
  pages : List (Nat × Nat) := []
  size : Nat := 0
  free : Nat := 0
  body : Block
  ops : List Op := []
  qg : Option QGroup := none
  dbars : Tab Bar := []
  gbars : Tab Bar := []
  spad : List Host.Cell := []
  tags : List Nat := []
  spoison : List Nat := []
  sems : Option (Tab Sem) := none
  auto : Bool := false
  mig : Bool := false
  cores : List Nat := []
  deriving DecidableEq, Repr

/-- A pre-emption in progress (spec/18 R382): the unit; the clock of the request, of core `core`; phase 0 Defer, 1 Stop and
Drain; the pages of each member's image; CTXSAVE's operation and form, or a migration. -/
structure Preempt where
  unit : List Nat
  since : Nat
  core : Nat
  phase : Nat := 0
  imgs : List (List (Nat × Nat)) := []
  op : Option Nat := none
  keep : Bool := false
  migrate : Bool := false
  deriving DecidableEq, Repr

/-- Package registers and tables (spec/18 R367). `bctl`: a command that waits for a pre-emption, on block `bctlSel` (R372);
`caplog`: the entries of the capture log, `replay`: those a replay has still to take (R394, R395). -/
structure Pkg where
  bsel : DWord := 0
  bctl : Word := 0
  bctlSel : Nat := 0
  bctlErr : Bool := false
  queues : Tab Ringq := []
  gridnext : Word := 1
  ctxtab : DWord := 0
  nt : Nat := 0
  chsel : Nat := 0
  chcid : Tab Nat := []
  capctl : Word := 0
  capbase : DWord := 0
  capsize : Word := 0
  caplog : List (List Word) := []
  replay : List (List Word) := []
  pkgNo : Nat := 0
  podNo : Nat := 0
  saved : List Saved := []
  preempts : List Preempt := []
  suspended : Bool := false
  deriving DecidableEq, Repr

/-- The issue group whose word `exec` performs (spec/01 R28): the core, the address of the word, the threads. -/
structure Issue where
  core : Nat := 0
  pc : DWord := 0
  tids : List Tid := []
  deriving DecidableEq, Repr

/-- What some words may still read of an earlier clock (spec/11 R237, spec/13 R289, spec/16 R342), by core the last clock at
which it was so: the state words of barriers; by block MQRY's .STAT and .LATCH; by quad STRQ's .IMB, its THR and STATE, its .LIM. -/
structure Past where
  clks : Tab Nat
  bars : List (BarId × Word) := []
  blks : Tab (Word × Word) := []
  quads : Tab (Word × Word × Word) := []
  deriving DecidableEq, Repr

/-- One entry of the agenda, which says what happens next (the model's own, DESIGN CHOICE, log 1): an issue, an event, or n clocks of
some islands, of all of them where none is named (spec/00 R3, spec/01 R20): a core by its number, the fabric of compute die
d as 1,000 + d, link k as 2,000 + k. -/
inductive Turn where
  | issue (g : Issue)
  | event (i : Instr)
  | tick (n : Nat) (who : List Nat)
  deriving DecidableEq, Repr

/-- The package. `cur`, `agenda`, `free`, `nextId`, `order`, `past` are the model's own (DESIGN CHOICE, logs 1, 5, 18). -/
structure State where
  cur : Issue := {}
  agenda : List Turn := []
  free : Nat := 0
  nextId : Nat := 1
  order : Nat := 0
  cores : Tab Core := []
  quads : Tab Quad := []
  dies : Tab Die := []
  mdies : Tab MDie := []
  svcs : Tab Svc := []
  blocks : Tab Block := []
  grids : Tab Grid := []
  ops : List Op := []
  mem : Mem := {}
  pkg : Pkg := {}
  links : Tab Link := []
  fabric : Fabric := {}
  fw : Fw := {}
  outs : List OutMsg := []
  past : List Past := []
  deriving DecidableEq, Repr

/-- The handle of the block of service core `slot`, 0 to 13: grid 0, block index `slot`. -/
def svcHandle (slot : Nat) : Nat := slot * 2 ^ 32

/-- The one thread of a service core after reset: no word fetched, firmware level (DESIGN CHOICE, log 4). -/
def svcBlock (slot : Nat) : Block :=
  { core := 320 + slot, grid := 0, blkid := slot, regs := 191, part := 2, threads := [(0, { level := .fw })] }

/-- QOSCLS0 to QOSCLS6 after power-up: WAYS 0xFFFF, SHARE 36, LAT 3 for class 0 and 1 otherwise (spec/09 R183). -/
def qosReset : List Word := 0xFFFF24C0 :: List.replicate 6 0xFFFF2440

/-- The package after power-up (spec/19 R406): every register at its reset value, memory with nothing listed, no grid,
no operation, the fourteen service pairs not yet running. -/
def State.reset : State where
  mdies := (List.range 6).map fun k => (k, { qos := qosReset })
  dies := (List.range 8).map fun k => (k, {})
  svcs := (List.range 14).map fun k => (k, {})
  blocks := (List.range 14).map fun k => (svcHandle k, svcBlock k)

end Sys2Proof.Machine
end

