-- ==== Sys2Proof/Machine/Ops.lean ====
section
/-!
DEFINITION. Machine/Ops.lean: the named operations over the state: cores, blocks, threads; reading registers and
predicates with the writes in flight (spec/02 R36); writing them; operations in flight, counters and tokens (spec/03
R68, R69); fault records and taking an exception (spec/18 R370, R374) and the return from one (R375).
-/

namespace Sys2Proof

/-- The lane of a thread (spec/01 R21). -/
def Tid.lane (t : Tid) : Nat := t.idx % 64
/-- The row of a thread (spec/01 R21). -/
def Tid.row (t : Tid) : Nat := t.idx / 64
/-- The k-th register after r; xz stays xz (spec/02 R48). -/
def Reg.plus (r : Reg) (k : Nat) : Reg :=
  match r with
  | .xz => .xz
  | .x n => Reg.ofCode (if n.val + k < 191 then n.val + k else 0xBF)
  | .g n => Reg.ofCode (if n.val + k < 64 then 192 + n.val + k else 0xBF)

/-- The tokens a T-format word consumes: its tki fields other than tko (spec/02 R45). -/
def Toks.ins (k : Toks) : List Tok :=
  ([k.t0, k.t1, k.t2].filter (· != k.tko)).foldl (fun a t => if a.contains t then a else a ++ [t]) []

end Sys2Proof

namespace Sys2Proof.Machine

/-! ### Numbers -/

/-- Bits lo .. lo + n − 1 of a word as a number. -/
def fld {w : Nat} (v : BitVec w) (lo n : Nat) : Nat := v.toNat / 2 ^ lo % 2 ^ n
/-- Bit k of a word. -/
def bitOf {w : Nat} (v : BitVec w) (k : Nat) : Bool := v.toNat / 2 ^ k % 2 == 1
/-- The n bytes of a number, lowest address first (spec/00 R4). -/
def bytesOf (n v : Nat) : List Byte := (List.range n).map fun i => BitVec.ofNat 8 (v / 2 ^ (8 * i))
/-- The number of a list of bytes, lowest address first (spec/00 R4). -/
def ofBytes (bs : List Byte) : Nat := bs.foldr (fun b a => b.toNat + 256 * a) 0
/-- The lowest of a list, or a default. -/
def minD (d : Nat) (l : List Nat) : Nat := l.foldl Nat.min (l.headD d)
/-- Insert into an ascending list without repeats. -/
def insNat (n : Nat) : List Nat → List Nat
  | [] => [n]
  | m :: t => if n < m then n :: m :: t else if n = m then m :: t else m :: insNat n t
/-- A list without repeats, ascending. -/
def sortNat (l : List Nat) : List Nat := l.foldl (fun a n => insNat n a) []
/-- Sign extension of the low n bits of v to an integer. -/
def sext (n v : Nat) : Int := if v % 2 ^ n < 2 ^ (n - 1) then (v % 2 ^ n : Nat) else (v % 2 ^ n : Nat) - (2 ^ n : Nat)
/-- An integer as a 32-bit word. -/
def wordOf (i : Int) : Word := BitVec.ofInt 32 i

/-! ### Cores, blocks, threads -/

/-- A core, at its power-up state where nothing has changed it. -/
def State.core (s : State) (c : Nat) : Core := s.cores.getD c {}
/-- Change a core. -/
def State.modCore (s : State) (c : Nat) (f : Core → Core) : State := { s with cores := s.cores.put c (f (s.core c)) }
/-- The core clock CLK (spec/04 R98). -/
def State.now (s : State) (c : Nat) : Nat := (s.core c).clk
/-- Is the core a service pair (spec/01 R13)? -/
def isSvc (c : Nat) : Bool := 320 ≤ c && c < 334
/-- The compute die of a compute core. -/
def dieOf (c : Nat) : Nat := c / 40
/-- The quad of a compute core. -/
def quadOf (c : Nat) : Nat := c / 4
/-- QPOS of a core (spec/01 R19); 0 on a service core (spec/04 R98). -/
def qposOf (c : Nat) : Nat := if isSvc c then 0 else c % 4
/-- A quad. -/
def State.quad (s : State) (q : Nat) : Quad := s.quads.getD q {}
/-- Change a quad. -/
def State.modQuad (s : State) (q : Nat) (f : Quad → Quad) : State := { s with quads := s.quads.put q (f (s.quad q)) }
/-- A compute die. -/
def State.die (s : State) (d : Nat) : Die := s.dies.getD d {}
/-- Change a compute die. -/
def State.modDie (s : State) (d : Nat) (f : Die → Die) : State := { s with dies := s.dies.put d (f (s.die d)) }
/-- A memory die. -/
def State.mdie (s : State) (d : Nat) : MDie := s.mdies.getD d {}
/-- Change a memory die. -/
def State.modMDie (s : State) (d : Nat) (f : MDie → MDie) : State :=
  { s with mdies := s.mdies.put d (f (s.mdie d)) }
/-- A service core by slot. -/
def State.svc (s : State) (k : Nat) : Svc := s.svcs.getD k {}
/-- Change a service core. -/
def State.modSvc (s : State) (k : Nat) (f : Svc → Svc) : State := { s with svcs := s.svcs.put k (f (s.svc k)) }
/-- A block, if the handle names one. -/
def State.block? (s : State) (b : Nat) : Option Block := s.blocks.find b
/-- A block; a default one for an unknown handle. -/
def State.block (s : State) (b : Nat) : Block := s.blocks.getD b { core := 0, grid := 0, blkid := 0 }
/-- Change a block that exists. -/
def State.modBlock (s : State) (b : Nat) (f : Block → Block) : State := { s with blocks := s.blocks.upd f b }
/-- A grid. -/
def State.grid (s : State) (g : Nat) : Grid := s.grids.getD g {}
/-- Change a grid that exists. -/
def State.modGrid (s : State) (g : Nat) (f : Grid → Grid) : State := { s with grids := s.grids.upd f g }
/-- A thread; a default one where none exists. -/
def State.thread (s : State) (t : Tid) : Thread := (s.block t.blk).threads.getD t.idx {}
/-- Change a thread that exists. -/
def State.modThread (s : State) (t : Tid) (f : Thread → Thread) : State :=
  s.modBlock t.blk fun b => { b with threads := b.threads.upd f t.idx }
/-- Change several threads. -/
def State.modThreads (s : State) (ts : List Tid) (f : Thread → Thread) : State :=
  ts.foldl (fun s t => s.modThread t f) s
/-- The slot of a thread (spec/01 R21). -/
def State.slot (s : State) (t : Tid) : Nat := ((s.block t.blk).slots[t.row]?).getD 0
/-- The service slot of a service core's block. -/
def svcSlot (c : Nat) : Nat := c - 320

/-! ### Registers and predicates -/

/-- A value with writes in flight to it (spec/02 R36): those due are in force, and each later one of the thread's own
may or may not be seen, a free value (DESIGN CHOICE, log 5). -/
def withPend (free now thr dst : Nat) (pend : List PendW) (base : Word) : Word :=
  pend.foldl (fun v p =>
    if p.dst = dst ∧ (p.due ≤ now ∨ ((dst < 192 ∨ 256 ≤ dst ∨ p.ths.contains thr = true)
        ∧ Config.uncovered free dst thr p.due = true)) then p.val else v) base

/-- Read one 32-bit register as a source of thread t (spec/02 R36, R47, R49). -/
def State.rd (s : State) (t : Tid) (r : Reg) : Word :=
  let b := s.block t.blk
  match r with
  | .xz => 0
  | .x n => let th := s.thread t; withPend s.free (s.now b.core) t.idx n.val th.pend (th.x.getD n.val 0)
  | .g n => withPend s.free (s.now b.core) t.idx (192 + n.val) b.gpend (b.g.getD n.val 0)

/-- Read a pair: low half in the even register (spec/02 R48). -/
def State.rd64 (s : State) (t : Tid) (r : Reg) : DWord := (s.rd t (r.plus 1)) ++ (s.rd t r)

/-- Read n registers as one number, the first lowest (spec/02 R48). -/
def State.rdN (s : State) (t : Tid) (r : Reg) (n : Nat) : Nat :=
  (List.range n).foldr (fun k a => (s.rd t (r.plus k)).toNat + 2 ^ 32 * a) 0

/-- Read n registers as a list of words. -/
def State.rds (s : State) (t : Tid) (r : Reg) (n : Nat) : List Word := (List.range n).map fun k => s.rd t (r.plus k)

/-- Read a predicate; p7 is constant true (spec/02 R40). -/
def State.rdP (s : State) (t : Tid) (p : Pred) : Bool :=
  if p = 7 then true
  else
    let th := s.thread t
    bitOf (withPend s.free (s.now (s.block t.blk).core) t.idx (256 + p.val) th.pend
      (if th.preds.getLsbD p.val then 1 else 0)) 0

/-- Is a thread of the issue group an active lane (spec/02 R40)? -/
def State.isActive (s : State) (h : Hdr) (t : Tid) : Bool := s.rdP t h.guard != h.neg

/-- The active lanes of the issue group. -/
def State.act (s : State) (h : Hdr) : List Tid := s.cur.tids.filter (s.isActive h)

/-- The blocks of a list of threads, ascending, without repeats. -/
def blksOf (ts : List Tid) : List Nat := sortNat (ts.map (·.blk))

/-- The lowest-numbered lane of a block among threads; ties by row (spec/02 R49). -/
def lowLane (ts : List Tid) (b : Nat) : Option Tid :=
  (ts.filter (·.blk == b)).foldl (fun o t => match o with
    | none => some t
    | some u => if t.lane < u.lane ∨ (t.lane = u.lane ∧ t.idx < u.idx) then some t else some u) none

/-- Threads in ascending lane order (spec/00 R8). -/
def byLane (ts : List Tid) : List Tid :=
  ts.foldl (fun a t => (a.filter fun u => u.lane < t.lane ∨ (u.lane = t.lane ∧ u.idx ≤ t.idx)) ++ [t]
    ++ a.filter fun u => !(decide (u.lane < t.lane ∨ (u.lane = t.lane ∧ u.idx ≤ t.idx)))) []

/-- Set a register of a thread's own file now. -/
def Thread.setX (th : Thread) (n : Nat) (v : Word) : Thread := { th with x := th.x.put n v }
/-- Set a predicate now; p7 is discarded. -/
def Thread.setP (th : Thread) (k : Nat) (v : Bool) : Thread :=
  if k < 7 then
    { th with preds := if v then th.preds ||| BitVec.ofNat 7 (2 ^ k) else th.preds &&& ~~~ (BitVec.ofNat 7 (2 ^ k)) }
  else th

/-- A write in flight, kept in the order the writes become due. -/
def insPend (p : PendW) : List PendW → List PendW
  | [] => [p]
  | q :: t => if p.due < q.due then p :: q :: t else q :: insPend p t

/-- Let the writes of a thread that are due land (spec/02 R36). -/
def Thread.land (now : Nat) (th : Thread) : Thread :=
  let th' := (th.pend.filter (fun p => p.due ≤ now)).foldl
    (fun th p => if p.dst < 256 then th.setX p.dst p.val else th.setP (p.dst - 256) (bitOf p.val 0)) th
  { th' with
    pend := th.pend.filter fun p => !decide (p.due ≤ now)
    trap := th.trap.orElse fun _ => (th.later.find? fun p => decide (p.1 ≤ now)).map (·.2)
    later := th.later.filter fun p => !decide (p.1 ≤ now) }

/-- A written XLWIN: bits [12:0], at least 16 and at most 4,096 (spec/04 R101). -/
def clampWin (v : Word) : Word := BitVec.ofNat 32 (Nat.min 4096 (Nat.max 16 (fld v 0 13)))

/-- A MOVSW to a block-scope register takes effect: 0 XLWIN, 1 TAGLIM, 2 FAULTST, whose bits [5:2] a 1 clears (spec/04
R101 to R103). -/
def Block.putSp (b : Block) (k : Nat) (v : Word) : Block :=
  match k with
  | 0 => { b with xlwin := clampWin v }
  | 1 => { b with taglim := v }
  | _ => { b with faultst := b.faultst &&& ~~~ (BitVec.ofNat 4 (fld v 2 4)) }

/-- Let the writes of a block that are due land: its threads' registers, its g registers, XLWIN and TAGLIM, its
convergence registers, its MRELs (spec/02 R36, R49; spec/03 R82; spec/04 R99; spec/13 R287). -/
def Block.land (now : Nat) (b : Block) : Block :=
  { b with
    threads := b.threads.map fun p => (p.1, p.2.land now)
    g := (b.gpend.filter (fun p => p.due ≤ now)).foldl (fun g p => g.put (p.dst - 192) p.val) b.g
    gpend := b.gpend.filter fun p => !decide (p.due ≤ now)
    spw := b.spw.filter fun p => !decide (p.2.2 ≤ now)
    xlwin := ((b.spw.filter (fun p => p.2.2 ≤ now)).foldl (fun b p => b.putSp p.1 p.2.1) b).xlwin
    taglim := ((b.spw.filter (fun p => p.2.2 ≤ now)).foldl (fun b p => b.putSp p.1 p.2.1) b).taglim
    faultst := ((b.spw.filter (fun p => p.2.2 ≤ now)).foldl (fun b p => b.putSp p.1 p.2.1) b).faultst
    cvs := (b.cvpend.filter (fun p => p.2.2 ≤ now)).foldl (fun c p => c.put p.1 { Tab.getD c p.1 {} with
      members := p.2.1.members, tok := p.2.1.tok, op := .none }) b.cvs
    cvpend := b.cvpend.filter fun p => !decide (p.2.2 ≤ now)
    latches := b.latches.filter fun l => !b.mrel.any fun m => m.1 == l.key && decide (m.2 ≤ now)
    mrel := b.mrel.filter fun m => !decide (m.2 ≤ now) }

/-- Let the mailbox writes of a core that are due land; each wakes SLEEP.MB (spec/04 R99, R100). -/
def Core.land (k : Core) : Core :=
  let due := k.mbPend.filter fun p => p.2.2 ≤ k.clk
  { k with
    mb := due.foldl (fun m p => m.put p.1 p.2.1) k.mb
    mbAt := due.foldl (fun _ p => some p.2.2) k.mbAt
    mbPend := k.mbPend.filter fun p => !decide (p.2.2 ≤ k.clk) }

/-- Let every write that is due land, in every core and block. -/
def State.landAll (s : State) : State :=
  { s with cores := s.cores.map (fun p => (p.1, p.2.land))
           blocks := s.blocks.map fun p => (p.1, p.2.land (s.now p.2.core)) }

/-- Set a bit of FAULTST[5:2] in a block now: 0 ACCOVF, 1 BROKEN, 2 COPYERR, 3 TIMEOUT; writes due by now are in force
first (spec/04 R103). -/
def State.setFaultst (s : State) (b k : Nat) : State :=
  s.modBlock b fun blk =>
    let blk := blk.land (s.now blk.core)
    { blk with faultst := blk.faultst ||| BitVec.ofNat 4 (2 ^ k) }

/-- The records of a block in the quad fault queues: a restored block may have some in the queue of a quad it has left (spec/13 R288,
R291). -/
def State.mRecs (s : State) (b : Nat) : List MRec := s.quads.flatMap fun q => q.2.mfq.filter (·.blk == b)
/-- Take records out of the quad fault queues. -/
def State.dropRecs (s : State) (p : MRec → Bool) : State :=
  { s with quads := s.quads.map fun q => (q.1, { q.2 with mfq := q.2.mfq.filter fun r => !p r }) }

/-- Write one register of thread t at a clock (spec/02 R36, R49); xz discards. -/
def State.wrAt (s : State) (t : Tid) (r : Reg) (v : Word) (due q : Nat) : State :=
  match r with
  | .xz => s
  | .x n => s.modThread t fun th => { th with pend := insPend ⟨n.val, v, due, q, []⟩ th.pend }
  | .g n =>
    let ths := (s.cur.tids.filter (·.blk == t.blk)).map (·.idx)
    s.modBlock t.blk fun b => { b with gpend := insPend ⟨192 + n.val, v, due, q, ths⟩ b.gpend }

/-- Write one register of thread t now: the completion of a variable-latency word (spec/02 R38). -/
def State.wr (s : State) (t : Tid) (r : Reg) (v : Word) : State :=
  match r with
  | .xz => s
  | .x n => s.modThread t fun th => th.setX n.val v
  | .g n => s.modBlock t.blk fun b => { b with g := b.g.put n.val v }

/-- Write n registers from a number, the first lowest, now, all at once (spec/02 R38; DESIGN CHOICE, log 5). -/
def State.wrN (s : State) (t : Tid) (r : Reg) (n v : Nat) : State :=
  (List.range n).foldl (fun s k => s.wr t (r.plus k) (BitVec.ofNat 32 (v / 2 ^ (32 * k)))) s

/-- Write a predicate of thread t at a clock; p7 is discarded (spec/02 R40). -/
def State.wrPAt (s : State) (t : Tid) (p : Pred) (v : Bool) (due q : Nat) : State :=
  if p = 7 then s
  else s.modThread t fun th => { th with pend := insPend ⟨256 + p.val, if v then 1 else 0, due, q, []⟩ th.pend }

/-- Write a predicate of thread t now. -/
def State.wrP (s : State) (t : Tid) (p : Pred) (v : Bool) : State := s.modThread t fun th => th.setP p.val v

/-- Does a thread's write to a register take effect: an x register for every thread, a g register for the
lowest-numbered active lane of its block (spec/02 R49)? -/
def writesReg (ts : List Tid) (t : Tid) : Reg → Bool
  | .g _ => lowLane ts t.blk == some t
  | _ => true

/-! ### Operations in flight, counters, tokens -/

/-- An operation by its number. -/
def State.op? (s : State) (id : Nat) : Option Op := s.ops.find? (·.id == id)
/-- Change an operation. -/
def State.modOp (s : State) (id : Nat) (f : Op → Op) : State :=
  { s with ops := s.ops.map fun o => if o.id = id then f o else o }
/-- Is the operation still incomplete? -/
def State.pending (s : State) (id : Nat) : Bool := s.ops.any (·.id == id)
/-- Has every operation an operation waits for completed (spec/03 R70)? -/
def State.startable (s : State) (o : Op) : Bool := o.after.all fun i => !s.pending i

/-- A counter of a thread (spec/03 R68). -/
def Thread.cnt (th : Thread) : Cnt → Nat
  | .ld => th.ld | .st => th.st | .cp => th.cp | .mt => th.mt
/-- Add 1 to a counter. -/
def Thread.up (c : Cnt) (th : Thread) : Thread :=
  match c with
  | .ld => { th with ld := th.ld + 1 } | .st => { th with st := th.st + 1 }
  | .cp => { th with cp := th.cp + 1 } | .mt => { th with mt := th.mt + 1 }
/-- Take 1 from a counter. -/
def Thread.down (c : Cnt) (th : Thread) : Thread :=
  match c with
  | .ld => { th with ld := th.ld - 1 } | .st => { th with st := th.st - 1 }
  | .cp => { th with cp := th.cp - 1 } | .mt => { th with mt := th.mt - 1 }

/-- An operation as it goes in flight: under the next number, with its core's virtual clock (spec/18 R394). -/
def State.numbered (s : State) (o : Op) : Op := { o with id := s.nextId, vclk := (s.core o.core).vclk }
/-- Put an operation in flight under the next number; its counters rise (spec/03 R68). -/
def State.addOp (s : State) (o : Op) : State :=
  o.cnts.foldl (fun s p => s.modThread p.1 (Thread.up p.2)) { s with ops := s.ops ++ [s.numbered o], nextId := s.nextId + 1 }

/-- A token of a block (spec/03 R69). -/
def Block.tok (b : Block) (k : Tok) : TokSt := b.toks.getD k.val {}
/-- The operations of a token that are incomplete. -/
def State.tokOps (s : State) (b : Nat) (k : Tok) : List Nat := ((s.block b).tok k).ops.filter s.pending
/-- Is the token complete (spec/03 R69)? -/
def State.tokDone (s : State) (b : Nat) (k : Tok) : Bool := (s.tokOps b k).isEmpty
/-- Set a token's produced bit and add operations to it (spec/03 R69). -/
def State.produce (s : State) (b : Nat) (k : Tok) (ids : List Nat) : State :=
  let live := s.tokOps b k
  s.modBlock b fun blk => { blk with toks := blk.toks.put k.val { prod := true, ops := live ++ ids } }

/-- Complete an operation: it leaves the list, which completes it for every token that holds it, and its counters
fall (spec/03 R68, R69). -/
def State.finish (s : State) (id : Nat) : State :=
  match s.op? id with
  | none => s
  | some o =>
    o.cnts.foldl (fun s p => s.modThread p.1 (Thread.down p.2)) { s with ops := s.ops.filter fun p => p.id != id }

/-- The values a word may return where one that held at some clock of the `w` before issue will do: the present one and
those of that time. -/
def State.recent (s : State) (w : Nat) (now : Word) (f : Past → Option Word) : List Word :=
  let c := s.cur.core
  now :: (s.past.filter fun p => decide (s.now c ≤ Tab.getD p.clks c 0 + w)).filterMap f
/-- One of several values, a free choice (DESIGN CHOICE, log 18). -/
def State.oneOf (s : State) (k : Nat) (l : List Word) : Word := l.getD (Config.pick s.free k % Nat.max 1 l.length) 0

/-- Use up one free value. -/
def State.useFree (s : State) : State := { s with free := s.free + 1 }
/-- The next order number, for queues the spec orders by age. -/
def State.useOrder (s : State) : State := { s with order := s.order + 1 }

/-! ### Retiring a word -/

/-- The loop levels after the word at `pc` issues, and the back edge taken, if any (spec/03 R75): levels are tried
innermost first. -/
def backEdge (pc : DWord) (ls : List LoopLv) : List LoopLv × Option DWord :=
  go 3 ls
where
  go : Nat → List LoopLv → List LoopLv × Option DWord
  | 0, ls => (ls, none)
  | k + 1, ls =>
    match ls[k]? with
    | none => go k ls
    | some l =>
      if l.act ∧ pc = l.en then
        if l.lc - 1 ≠ 0 then (ls.set k { l with lc := l.lc - 1 }, some l.st)
        else go k (ls.set k { l with lc := 0, act := false })
      else go k ls

/-- Is the word at `pc` the last body word of an active level: a control transfer (spec/02 R33)? -/
def Thread.atLoopEnd (th : Thread) (pc : DWord) : Bool := th.loops.any fun l => l.act && l.en == pc

/-- The forwarded writes a fence of a thread waits for, once its release has begun. -/
def Thread.fenceIds (th : Thread) : Option (List Nat) := (th.tkSnap.find? (·.1 == 1)).map (·.2)

/-- Drop the leading issued words of a window; the pc moves past them (spec/02 R55). -/
def popIssued (pc : DWord) : List WinEnt → DWord × List WinEnt
  | [] => (pc, [])
  | w :: t => if w.issued then popIssued (pc + 8) t else (pc, w :: t)

/-- Mark the k-th word of the window as issued, padding a window that does not reach it. -/
def markIssued : Nat → List WinEnt → List WinEnt
  | 0, [] => [{ issued := true }]
  | 0, w :: t => { w with issued := true, elig := none } :: t
  | k + 1, [] => {} :: markIssued k []
  | k + 1, w :: t => w :: markIssued k t

/-- Place of the word at `pc` in a thread's window: 0 for the oldest unissued word. -/
def Thread.winIx (th : Thread) (pc : DWord) : Nat := (pc - th.pc).toNat / 8

/-- The clock, from `now` on, at which a word that becomes the oldest of its thread can first be ready: behind every earlier
issue and the fetch of a transfer's target (spec/03 R78, R84). -/
def Thread.oldestAt (now : Nat) (th : Thread) : Nat :=
  th.qlast.foldl (fun m p => Nat.max m (p.2 + 1)) (Nat.max (Nat.max now th.start) th.readyAt)

/-- A thread whose word at the pc has just become its oldest: where it is fetched, the clock at which that is so is kept
(spec/03 R84). -/
def Thread.head (now : Nat) (th : Thread) : Thread :=
  { th with since := match th.win with
      | { word := some _, issued := false, .. } :: _ => some (th.oldestAt now)
      | _ => none }

/-- The loop buffer keeps its words while the outermost level that captured them is active (spec/03 R76). -/
def Thread.trimBuf (th : Thread) : Thread := if th.loops.any (·.act) then th else { th with lbuf := [] }

/-- A control transfer issues: fetches from now on see the changes the thread has acquired (spec/02 R56). -/
def Thread.syncCode (th : Thread) : Thread := { th with iseen := Nat.max th.iseen th.iacq }

/-- A thread after its word at `pc` issued at clock `now` in queue `q`, falling through: window, pc and back edges
(spec/02 R33, R55; spec/03 R75, R76). -/
def Thread.retire (pc : DWord) (q now fp : Nat) (th : Thread) : Thread :=
  let atHead := th.winIx pc = 0
  let th := { th with qlast := th.qlast.put q now, aged := none, urgent := false, fpAt := Nat.max th.fpAt (now + fp)
                      tkSnap := th.tkSnap.filter fun p => if p.1 = 1 then q != 6 && q != 11 else decide (¬ atHead) }
  if th.atLoopEnd pc then
    let th := th.syncCode
    match backEdge pc th.loops with
    | (ls, some st) => Thread.head now { th with loops := ls, pc := st, win := [], readyAt := now + 1 }
    | (ls, none) => Thread.head now (Thread.trimBuf { th with loops := ls, pc := pc + 8, win := [], readyAt := now + 2 })
  else
    match popIssued th.pc (markIssued (th.winIx pc) th.win) with
    | (p, w) => if atHead then Thread.head now { th with pc := p, win := w } else { th with pc := p, win := w }

/-- A thread after a taken control transfer at `now` to a target (spec/03 R75, R78): no back edge is checked; the next
word waits 2 clocks when it lies at pc + 8 or in the loop buffer, 8 otherwise. -/
def Thread.jump (pc tgt : DWord) (q now : Nat) (th : Thread) : Thread :=
  { th.syncCode with
    pc := tgt, win := [], qlast := th.qlast.put q now, since := none, tkSnap := [], aged := none, urgent := false
    readyAt := now + (if tgt = pc + 8 ∨ (Tab.find th.lbuf tgt.toNat).isSome then 2 else 8) }

/-- The clock of the issuing core. -/
def State.clk (s : State) : Nat := s.now s.cur.core

/-- A group of a class has issued on the core at this clock (spec/03 R65, spec/18 R394). -/
def State.issued (s : State) (q : Nat) : State :=
  s.modCore s.cur.core fun k => { k with classAt := k.classAt.put q k.clk, vclk := k.vclk + 1 }

/-- The word of the issue group has issued for every thread of it: each thread falls through, and its later words issue
`fp` clocks later at the earliest, behind the word's fault point (spec/02 R34, R35; DEDUCED, log 46). -/
def State.retireFp (s : State) (q fp : Nat) : State :=
  let s := s.issued q
  s.cur.tids.foldl (fun s t => s.modThread t (Thread.retire s.cur.pc q s.clk fp)) s

/-- The fault point of the word just retired lies `fp` − 1 clocks behind its issue: later words wait for the clock after it. -/
def State.fpUntil (s : State) (fp : Nat) : State :=
  s.modThreads s.cur.tids fun th => { th with fpAt := Nat.max th.fpAt (s.clk + fp) }

/-- As `retireFp`, for a word whose faults are all decided at decode. -/
def State.retire (s : State) (q : Nat) : State := s.retireFp q 0

/-- Some threads of the group jump, the others fall through (spec/03 R78). -/
def State.retireJump (s : State) (q : Nat) (tgts : List (Tid × DWord)) : State :=
  let s := s.issued q
  s.cur.tids.foldl (fun s t => match tgts.find? (·.1 == t) with
    | some p => s.modThread t (Thread.jump s.cur.pc p.2 q s.clk)
    | none => s.modThread t fun th =>
        { (Thread.retire s.cur.pc q s.clk 0 th).syncCode with readyAt := Nat.max (Thread.retire s.cur.pc q s.clk 0 th).readyAt (s.clk + 2) }) s

/-- The word does not issue now: its condition does not hold. It is not tried again at this clock before an event (spec/03 R63). -/
def State.hold (s : State) : State :=
  s.cur.tids.foldl (fun s t => s.modThread t fun th => { th with
    since := some (th.since.getD (th.oldestAt s.clk)), heldAt := some (s.cur.pc, s.clk) }) s

/-! ### Faults and exceptions -/

/-- Fault codes (spec/18 R368). -/
inductive FCode where
  | illegalClass | illegalOp | illegalReg | priv | tokenStale | cvMismatch | misalign | access | xlate
  | partViolation | scheduleViolation | tagWait | trap | poison | barBroken | mtxFault | copyFault | accOverflow
  | linkEvent | heartbeatLost | svcreq | clkcmp
  deriving DecidableEq, Repr

/-- The number of a fault code (spec/18 R368). -/
def FCode.num : FCode → Nat
  | .illegalClass => 0x01 | .illegalOp => 0x02 | .illegalReg => 0x03 | .priv => 0x04 | .tokenStale => 0x05
  | .cvMismatch => 0x06 | .misalign => 0x07 | .access => 0x08 | .xlate => 0x09 | .partViolation => 0x0A
  | .scheduleViolation => 0x0B | .tagWait => 0x0C | .trap => 0x0D | .poison => 0x0E | .barBroken => 0x0F
  | .mtxFault => 0x10 | .copyFault => 0x11 | .accOverflow => 0x12 | .linkEvent => 0x18 | .heartbeatLost => 0x19
  | .svcreq => 0x1A | .clkcmp => 0x1B

/-- A fault an active lane raises: code, SUB, VAL (spec/18 R368, R371). -/
structure Flt where
  code : FCode
  val : DWord := 0
  sub : Nat := 0
  deriving DecidableEq, Repr

/-- The lanes of threads as a 64-bit mask (spec/18 R371). -/
def laneMask (ts : List Tid) : DWord := ts.foldl (fun m t => m ||| BitVec.ofNat 64 (2 ^ t.lane)) 0

/-- The skip mask of a thread: bit k set when the word at pc + 8 (k + 1) has issued (spec/02 R55). -/
def Thread.skipMask (th : Thread) : BitVec 15 :=
  (((th.win.drop 1).map (·.issued)).zip (List.range 15)).foldl
    (fun (m : BitVec 15) (p : Bool × Nat) => if p.1 then m ||| BitVec.ofNat 15 (2 ^ p.2) else m) 0

/-- A window with nothing held but the marks of a skip mask (spec/02 R55): its words are fetched again. -/
def winOfMask (m : BitVec 15) : List WinEnt :=
  if m = 0 then []
  else {} :: ((List.range 15).map fun k => { issued := m.getLsbD k })

/-- Has the thread words held but not to be used before they are fetched? The loop buffer and window are emptied, and
every queue restarts at a clock (spec/02 R55, spec/03 R76). -/
def Thread.restart (now : Nat) (th : Thread) : Thread :=
  { th with qlast := [], start := now, since := none, tkSnap := [], lbuf := [], owed := now, accAt := 0, tabAt := none }

/-- Append a fault record to a block's queue if it has room (spec/18 R370, R371); LOST marks records discarded
before it. -/
def Block.addRec (b : Block) (r : FRec) : Option Block :=
  if b.faultq.length < Config.faultRecords then
    some { b with faultq := b.faultq ++ [{ r with lost := b.lostMark }], lostMark := false }
  else none

/-- Queue an imprecise record; a full queue discards it and marks LOST (spec/18 R370). -/
def State.impRec (s : State) (b : Nat) (r : FRec) : State :=
  { s.modBlock b fun blk =>
      match blk.addRec { r with id := s.nextId, imp := true, blkid := blk.blkid } with
      | some blk' => blk'
      | none => { blk with lostMark := true }
    with nextId := s.nextId + 1 }

/-- One fault event of a compute block: the threads of one row that raise one code at one word (spec/18 R370). With
room in the queue they are suspended on a record; otherwise they stay at the word until a record frees. -/
def State.faultEvent (s : State) (b row : Nat) (pc : DWord) (ts : List Tid) (f : Flt) : State :=
  let blk := s.block b
  let ln := minD 0 (ts.map Tid.lane)
  let r : FRec :=
    { id := s.nextId, susp := true, code := f.code.num, slot := (blk.slots[row]?).getD 0, lane := ln, sub := f.sub,
      blkid := blk.blkid, pc := pc, val := f.val, lmask := laneMask ts, row := row }
  match blk.addRec r with
  | some blk' =>
    { (s.modBlock b fun _ => blk').modThreads ts (fun th => { th with susp := some r.id, since := none })
      with nextId := s.nextId + 1 }
  | none => s.modBlock b fun x => { x with held := x.held ++ [(r, ts)] }

/-- The level of a trap on a service core (spec/18 R374). -/
def trapLevel (v : Svc) (cur : Level) (code : FCode) : Level :=
  if code = .linkEvent ∨ code = .heartbeatLost ∨ cur = .fw ∨ v.sstat.getLsbD 0 = false ∨ v.stvec = 0 then .fw
  else .sup

/-- The number of a level (spec/04 R98). -/
def Level.num : Level → Nat
  | .user => 0 | .sup => 1 | .fw => 2
/-- The status word after a trap: PLV the old level, PIE the old IE, IE 0; the other bits kept (spec/18 R374). -/
def trapStat (st : Word) (lv : Level) : Word :=
  (st &&& 0xFFFFFFF0) ||| BitVec.ofNat 32 (lv.num * 4 + (if st.getLsbD 0 then 2 else 0))

/-- The cause word: INT, code, skip mask (spec/18 R374). -/
def causeWord (int : Bool) (code : FCode) (skip : BitVec 15) : Word :=
  BitVec.ofNat 32 ((if int then 2 ^ 31 else 0) + code.num * 2 ^ 16 + skip.toNat)

/-- A thread whose fixed-latency writes in flight have all landed: earlier words complete before a trap (spec/02 R35). -/
def Thread.landPend (th : Thread) : Thread := th.land (th.pend.foldl (fun m p => Nat.max m p.due) 0)
/-- The same of a block's g registers. -/
def Block.landG (b : Block) : Block :=
  { b with g := b.gpend.foldl (fun g p => g.put (p.dst - 192) p.val) b.g, gpend := [] }

/-- TAKING A TRAP ON A SERVICE CORE (spec/18 R374): the position goes to xEPC and xCAUSE, VAL to xTVAL, the level and
IE to xSTAT; the level rises and the pc goes to xTVEC; the writes of earlier words have landed (spec/02 R35). A trap to firmware from firmware with FSTAT.IE = 0 stops the
pair as HALT does. `epc` and `skip` are the saved position. -/
def State.svcTrap (s : State) (k : Nat) (int : Bool) (code : FCode) (val epc : DWord) (skip : BitVec 15) : State :=
  let t : Tid := ⟨svcHandle k, 0⟩
  let cur := (s.thread t).level
  let v := s.svc k
  let h := trapLevel v cur code
  if h = .fw ∧ cur = .fw ∧ v.fstat.getLsbD 0 = false then s.modSvc k fun v => { v with halted := true }
  else
    let s := s.modSvc k fun v =>
      let v := { v with depth := v.depth + 1 }
      if h = .fw then
        { v with fepc := epc, fcause := causeWord int code skip, ftval := val, fstat := trapStat v.fstat cur }
      else
        { v with sepc := epc, scause := causeWord int code skip, stval := val,
                 sstat := (trapStat v.sstat cur &&& 0xFFFFFFF3) ||| 4 }
    (s.modBlock t.blk Block.landG).modThread t fun th =>
      { th.landPend.restart (s.now (320 + k)) with
        level := h, pc := if h = .fw then v.ftvec else v.stvec, win := [], susp := none, trap := none }

/-- THE RETURN FROM A TRAP (spec/18 R375): level, at least the supervisor's (spec/02 R54; DEDUCED, log 23), and IE from xSTAT, the position from xEPC with mask SKIP; every queue
restarts (spec/02 R55). -/
def State.svcReturn (s : State) (k : Nat) : State :=
  let t : Tid := ⟨svcHandle k, 0⟩
  let v := s.svc k
  let fw := (s.thread t).level = .fw
  let st := if fw then v.fstat else v.sstat
  let st' : Word := (st &&& 0xFFFFFFFE) ||| (if st.getLsbD 1 then 1 else 0)
  let epc := if fw then v.fepc else v.sepc
  let cause := if fw then v.fcause else v.scause
  let s := s.modSvc k fun v =>
    let v := { v with depth := v.depth - 1 }
    if fw then { v with fstat := st' } else { v with sstat := st' }
  s.modThread t fun th =>
    { th.syncCode.restart (s.now (320 + k)) with
      level := if fld st 2 2 ≤ 1 then .sup else .fw, pc := epc, win := winOfMask (BitVec.ofNat 15 (fld cause 0 15)) }

/-- TAKING A PRECISE FAULT (spec/00 R10, spec/02 R53, spec/18 R370, R374): nothing of the word takes effect; on a
compute core each row's faulting lanes of one code are one fault event; on a service core the trap is entered. A
fault is taken only once every earlier word of the faulting threads has issued (spec/02 R35): until then the word
stays. -/
def State.raise (s : State) (fs : List (Tid × Flt)) : State :=
  if fs.any (fun p => (s.thread p.1).winIx s.cur.pc != 0) then s.hold
  else if isSvc s.cur.core then
    match fs.head? with
    | none => s
    | some p =>
      s.svcTrap (svcSlot s.cur.core) false p.2.code p.2.val s.cur.pc (s.thread p.1).skipMask
  else
    (blksOf (fs.map (·.1))).foldl (fun s b =>
      (sortNat ((fs.filter (·.1.blk == b)).map (·.1.row))).foldl (fun s row =>
        let mine := fs.filter fun p => p.1.blk == b && p.1.row == row
        (sortNat (mine.map (·.2.code.num))).foldl (fun s c =>
          let ev := mine.filter (·.2.code.num == c)
          match lowLane (ev.map (·.1)) b with
          | none => s
          | some t => match ev.find? (·.1 == t) with
            | none => s
            | some p => s.faultEvent b row s.cur.pc (ev.map (·.1)) p.2) s) s) s

/-! ### Events -/

/-- An event: the state after it, or, where its condition does not hold, no step of the part. -/
def ofStep (what : String) : Option State → Out State
  | some s => .next s
  | none => .refused (.notEnabled what)

/-- An event with a condition. -/
def State.whenDo (s : State) (ok : Bool) (what : String) (f : State → State) : Out State :=
  ofStep what (if ok then some (f s) else none)

/-! ### Fixed-latency words -/

/-- Give registers their values `lat` clocks after issue, and retire: the shape of every INT, VFP and SFU word. Each
active lane computes from the state before any write (spec/00 R8, spec/02 R36, R49). -/
def State.fixed (s : State) (q : Nat) (h : Hdr) (lat : Nat) (f : Tid → List (Reg × Word)) : State :=
  let ts := s.act h
  let due := s.clk + lat
  (ts.foldl (fun s' t => (f t).foldl (fun s' p => if writesReg ts t p.1 then s'.wrAt t p.1 p.2 due q else s') s') s).retire q
    |>.useFree

/-- As `fixed`, for a word that writes a predicate. -/
def State.fixedP (s : State) (q : Nat) (h : Hdr) (lat : Nat) (p : Pred) (f : Tid → Bool) : State :=
  let due := s.clk + lat
  ((s.act h).foldl (fun s' t => s'.wrPAt t p (f t) due q) s).retire q |>.useFree

end Sys2Proof.Machine
end

