-- ==== Sys2Proof/Machine/Bars.lean ====
section
/-!
DEFINITION. Machine/Bars.lean: barriers: their state, members and arrivals, the opening of a phase and the kill of a member
(spec/11 R232, R233), the forming of waves (spec/16 R338).
-/

namespace Sys2Proof

/-- The bound of R235 on a level's release. -/
def BLevel.bound : BLevel → Nat
  | .core => 64 | .quad => 128 | _ => 1024
/-- The grid and group number of a barrier above core level. -/
def BarId.grid (b : BarId) : Nat := b.holder % 2 ^ 32
/-- The group number of a barrier above core level. -/
def BarId.group (b : BarId) : Nat := b.holder / 2 ^ 32
end Sys2Proof

namespace Sys2Proof.Machine

/-- A barrier's state. -/
def State.bar (s : State) (b : BarId) : Bar := match b.level with
  | .core => (s.block b.holder).bars.getD b.id {}
  | .quad => ((s.grid b.grid).qgroups.getD b.group {}).bars.getD b.id {}
  | .die => (s.grid b.grid).dbars.getD (b.group * 4 + b.id) {}
  | .pkg => (s.grid b.grid).bars.getD b.id {}
  | .pod => (s.grid b.grid).bars.getD 2 {}
/-- Change a barrier. -/
def State.modBar (s : State) (b : BarId) (f : Bar → Bar) : State :=
  let v := f (s.bar b)
  match b.level with
  | .core => s.modBlock b.holder fun k => { k with bars := k.bars.put b.id v }
  | .quad => s.modGrid b.grid fun g =>
      let q := g.qgroups.getD b.group {}
      { g with qgroups := g.qgroups.put b.group { q with bars := q.bars.put b.id v } }
  | .die => s.modGrid b.grid fun g => { g with dbars := g.dbars.put (b.group * 4 + b.id) v }
  | .pkg => s.modGrid b.grid fun g => { g with bars := g.bars.put b.id v }
  | .pod => s.modGrid b.grid fun g => { g with bars := g.bars.put 2 v }

/-- The units a barrier counts: thread indexes at core level, block indexes above (spec/11 R232). -/
def State.members (s : State) (b : BarId) : List Nat :=
  let r := (s.grid b.grid).lrec
  match b.level with
  | .core => (s.block b.holder).threads.map (·.1)
  | .quad => (List.range 4).map (4 * b.group + ·)
  | .die => ((List.range r.dgn).map (r.dgn * b.group + ·)).filter (· < r.nblk)
  | .pkg | .pod => List.range r.nblk

/-- The handle of a block of a grid. -/
def handle (grid blkid : Nat) : Nat := grid + blkid * 2 ^ 32

/-- The live threads of a block. -/
def State.liveThreads (s : State) (b : Nat) : List Nat :=
  ((s.block b).threads.filter fun p => p.2.status == .live).map (·.1)

/-- Has a member exited: a thread that is not live, killed ones included in later phases (DESIGN CHOICE, log 54), a block that has
completed (spec/11 R232)? -/
def State.memberGone (s : State) (b : BarId) (u : Nat) : Bool := match b.level with
  | .core => !(s.liveThreads b.holder).contains u
  | _ => (s.grid b.grid).doneBlks.contains u
/-- Has a unit arrived in the phase: the thread, or the block, once its last live thread has (spec/11 R232, R233)? -/
def State.memberHere (s : State) (b : BarId) (u : Nat) : Bool := match b.level with
  | .core => (s.bar b).part.contains ⟨b.holder, u⟩
  | _ => (s.bar b).here.contains u

/-- The units arrived in the phase. -/
def State.arrivals (s : State) (b : BarId) : List Nat := (s.members b).filter (s.memberHere b)
/-- The arrived value: arrivals and exited members (spec/11 R233). -/
def State.arrivedVal (s : State) (b : BarId) : Nat :=
  ((s.members b).filter fun u => s.memberHere b u || s.memberGone b u).length

/-- The result with which the phase opens now, if it does: true normal, false BROKEN (spec/11 R233). -/
def State.opening (s : State) (b : BarId) : Option Bool :=
  let r := s.bar b
  if r.killMark && !(s.arrivals b).isEmpty then some false
  else if r.c0.isNone then none
  else if r.e ≤ s.arrivedVal b then some (!r.broken)
  else if (s.members b).all fun u => s.memberHere b u || s.memberGone b u then some false
  else none

/-- The member blocks that exist. -/
def State.memberBlocks (s : State) (b : BarId) : List Nat := match b.level with
  | .core => [b.holder]
  | _ => ((s.members b).map (handle b.grid)).filter fun x => (s.block? x).isSome


/-- The operations that wait for a phase in the order in which their threads arrived (spec/11 R235). -/
def State.byArrival (s : State) (r : Bar) : List Nat :=
  r.part.filterMap fun t => r.waiting.find? fun i => (s.op? i).any fun o => o.tids.contains t

/-- Open the phase with a result (spec/11 R233): BROKEN sets FAULTST.BROKEN in every member block; the waiters form waves
from now on (spec/16 R338). -/
def State.openPhase (s : State) (b : BarId) (ok : Bool) : State :=
  let r := s.bar b
  let cores := sortNat (r.waiting.filterMap fun i => (s.op? i).map (·.core))
  let s := if ok then s else (s.memberBlocks b).foldl (fun s x => s.setFaultst x 1) s
  s.modBar b fun r => { r with
    phase := r.phase + 1, c0 := none, e := 0, part := [], here := [], broken := false, killMark := false, lastOk := ok
    waves := r.waves ++ s.byArrival r, waiting := []
    results := r.results ++ [(r.phase, ok)]
    waveAt := cores.foldl (fun w c => match w.find c with
      | some _ => w
      | none => w.put c (s.now c, s.now c + b.level.bound)) r.waveAt }

/-- Open the phase if it opens now. -/
def State.openNow (s : State) (b : BarId) : State := match s.opening b with
  | some ok => s.openPhase b ok
  | none => s

/-- A member is killed (spec/11 R233): a phase with an arrival opens BROKEN, one without is marked. -/
def State.barKill (s : State) (b : BarId) : State :=
  if (s.arrivals b).isEmpty then s.modBar b fun r => { r with killMark := true } else s.openPhase b false

/-- The barriers above core level of which a block of a grid is a member, be it placed or not (spec/11 R232). -/
def State.gridBars (s : State) (grid blkid : Nat) : List BarId :=
  let r := (s.grid grid).lrec
  (if r.qg then (List.range 4).map fun i => ⟨.quad, handle grid (blkid / 4), i⟩ else [])
    ++ (if r.dgn = 0 then [] else (List.range 4).map fun i => ⟨.die, handle grid (blkid / r.dgn), i⟩)
    ++ (if r.cores then (List.range 2).map fun i => ⟨.pkg, grid, i⟩ else [])
    ++ (if r.pod then [⟨.pod, grid, 0⟩] else [])
/-- The barriers a thread of a block (core level) or the whole block (above) is a member of. -/
def State.barsOf (s : State) (blk : Nat) (whole : Bool) : List BarId :=
  (List.range 16).map (fun i => ⟨.core, blk, i⟩) ++
    (if whole && !isSvc (s.block blk).core then s.gridBars (s.block blk).grid (s.block blk).blkid else [])
/-- Every barrier that has been used. -/
def State.usedBars (s : State) : List BarId :=
  (s.blocks.flatMap fun p => p.2.bars.map fun e => (⟨.core, p.1, e.1⟩ : BarId))
    ++ s.grids.flatMap fun p =>
      (p.2.qgroups.flatMap fun q => q.2.bars.map fun e => (⟨.quad, handle p.1 q.1, e.1⟩ : BarId))
        ++ (p.2.dbars.map fun e => ⟨.die, handle p.1 (e.1 / 4), e.1 % 4⟩)
        ++ p.2.bars.map fun e => if e.1 = 2 then ⟨.pod, p.1, 0⟩ else ⟨.pkg, p.1, e.1⟩
/-- A block whose live threads have all arrived in a phase above core level arrives in it, once (spec/11 R232, R233): when its last
live thread arrives, or when the others end. -/
def State.settleBars (s : State) (blk : Nat) : State :=
  let b := s.block blk
  let live := s.liveThreads blk
  if live.isEmpty || isSvc b.core then s
  else (s.gridBars b.grid b.blkid).foldl (fun s x =>
    if !(s.bar x).here.contains b.blkid && live.all fun i => (s.bar x).part.contains ⟨blk, i⟩ then
      s.modBar x fun r => { r with here := r.here ++ [b.blkid] }
    else s) s
/-- The phases that open before a kill do so first. -/
def State.openAll (s : State) (blk : Nat) : State := (s.barsOf blk true).foldl State.openNow s
/-- The kill marks after threads of a block were killed, or all of it. -/
def State.barKills (s : State) (blk : Nat) (whole : Bool) : State := (s.barsOf blk whole).foldl State.barKill s

end Sys2Proof.Machine
end

