-- ==== Sys2Proof/Machine/Memory.lean ====
section
/-!
DEFINITION. Machine/Memory.lean: the byte stores and their canonical form, the path from a core to the devices (L1,
RDC, home L2, spec/09 R174, spec/10 R420), poison (spec/09 R180), scratchpads and tags (R171, R192), translation
(spec/18 R377, R378), the checks of an access in the order of spec/18 R369, and the cache actions of releases and
acquires (spec/10, the table of scopes and R420).
-/

namespace Sys2Proof.Machine

/-! ### Byte stores -/

/-- What a byte that nothing has written reads as (DESIGN CHOICE, log 3). -/
def emptyByte : Byte := 0

/-- Read one byte of a store. -/
def cellRead : List Host.Cell → Nat → Byte
  | [], _ => emptyByte
  | (k, v) :: t, a => if k = a then v else cellRead t a

/-- Write one byte: the address stays listed only while its byte differs from an empty one. -/
def cellWrite : List Host.Cell → Nat → Byte → List Host.Cell
  | [], a, v => if v = emptyByte then [] else [(a, v)]
  | (k, u) :: t, a, v =>
    if a < k then (if v = emptyByte then (k, u) :: t else (a, v) :: (k, u) :: t)
    else if a = k then (if v = emptyByte then t else (a, v) :: t)
    else (k, u) :: cellWrite t a v

/-- The canonical form: addresses strictly rising from a bound, no empty byte listed. -/
def cellsWfFrom : Nat → List Host.Cell → Bool
  | _, [] => true
  | lo, (k, v) :: t => decide (lo ≤ k) && decide (v ≠ emptyByte) && cellsWfFrom (k + 1) t

/-- The canonical form of a byte store. -/
def cellsWf (m : List Host.Cell) : Bool := cellsWfFrom 0 m

/-- Write a list of bytes. -/
def cellsPut (m : List Host.Cell) (cs : List Host.Cell) : List Host.Cell := cs.foldl (fun m c => cellWrite m c.1 c.2) m

/-- The memory of the package is in canonical form: the devices and every scratchpad. -/
def Mem.wf (m : Mem) : Bool := cellsWf m.dev

/-- n bytes at an address as cells. -/
def cellsAt (a n v : Nat) : List Host.Cell := (bytesOf n v).zipIdx.map fun p => (a + p.2, p.1)

/-- The 64-byte sector of an address (spec/09 R174). -/
def secOf (a : Nat) : Nat := a / 64
/-- The addresses of a sector. -/
def secAddrs (sec : Nat) : List Nat := (List.range 64).map (sec * 64 + ·)
/-- The sectors n bytes at an address touch. -/
def secsOf (a n : Nat) : List Nat :=
  if n = 0 then [] else (List.range (secOf (a + n - 1) - secOf a + 1)).map (secOf a + ·)

/-- The memory die of a physical address (spec/01 R14). -/
def dieCode (pa : Nat) : Nat := pa / 2 ^ 40 % 8
/-- The package of a physical address (spec/01 R14). -/
def pkgOf (pa : Nat) : Nat := pa / 2 ^ 43 % 1024
/-- The offset within the die. -/
def dieOfs (pa : Nat) : Nat := pa % 2 ^ 40
/-- Does the address lie in installed memory of a memory die (spec/01 R14, spec/19 R401)? -/
def installed (pa : Nat) : Bool :=
  if dieCode pa < 4 then dieOfs pa < Config.nmdBytes else dieCode pa < 6 && dieOfs pa < Config.fmdBytes
/-- Does the address lie in a link aperture (spec/19 R401)? -/
def isAperture (pa : Nat) : Bool := dieCode pa == 0 && 0xFFFF000000 ≤ dieOfs pa && dieOfs pa < 0xFFFF001800
/-- Is the home's memory plane off (spec/09 R181)? Only homes of this package have a state here. -/
def State.planeOff (s : State) (pa : Nat) : Bool := pkgOf pa == s.pkg.pkgNo && (s.mdie (dieCode pa)).planeOff

/-! ### The home -/

/-- The established accumulation line that holds an address (spec/14 R293), by its line number. -/
def State.lineAt (s : State) (pa : Nat) : Option AccLine := s.mem.lines.find (pa / 256)

/-- One byte as the home holds it: its L2, else the device. -/
def State.homeByte (s : State) (a : Nat) : Byte := match s.mem.l2.find a with
  | some c => c.v
  | none => cellRead s.mem.dev a
/-- n bytes as the home holds them. -/
def State.homeRead (s : State) (a n : Nat) : Nat := ofBytes ((List.range n).map fun i => s.homeByte (a + i))
/-- Does the home L2 hold all of a sector? -/
def State.l2Holds (s : State) (sec : Nat) : Bool := (secAddrs sec).all fun a => (s.mem.l2.find a).isSome
/-- Is the sector poisoned at its home, or its plane off (spec/09 R180, R181)? The device's poison counts where the L2 does not
hold the sector. A poisoned accumulation line poisons its sectors (spec/14 R293). -/
def State.homePoison (s : State) (sec : Nat) : Bool :=
  s.planeOff (sec * 64) || (s.mem.lines.find (sec / 4)).any (·.poison) || s.mem.l2Poison.contains sec
    || (s.mem.devPoison.contains sec && !s.l2Holds sec)

/-- The 72-bit value an EXACT element takes when plain bytes are written over it (spec/14 R294). -/
def exactOf (bytes : Nat) : Int := sext 64 bytes

/-- An access wakes the channel or rank that holds its address (spec/09 R181). -/
def State.wake (s : State) (pa : Nat) : State :=
  if pkgOf pa = s.pkg.pkgNo ∧ (s.mdie (dieCode pa)).asleep.contains (Config.channelOf pa) = true then
    s.modMDie (dieCode pa) fun m => { m with asleep := m.asleep.filter (· != Config.channelOf pa) }
  else s

/-- The home bytes of some addresses change: what they were is kept for fetches that may not see the change yet (spec/02 R56). -/
def State.keepOld (s : State) (was : List Host.Cell) : State :=
  if was.isEmpty then s
  else { s with mem := { s.mem with ver := s.mem.ver + 1
                                    old := s.mem.old ++ was.map fun c => (s.mem.ver + 1, c.1, c.2) } }
/-- A byte of an instruction as a fetch sees it that sees the home's changes up to a version (spec/02 R56). -/
def State.codeByte (s : State) (ver a : Nat) : Byte := match s.mem.old.find? fun e => decide (ver < e.1) && e.2.1 == a with
  | some e => e.2.2
  | none => s.homeByte a

/-- Write a home L2's dirty bytes of a sector to the device; its poison goes along, and a sector written whole takes the
device's poison away (spec/09 R180, R198). -/
def State.l2Flush (s : State) (sec : Nat) : State :=
  if s.planeOff (sec * 64) then s
  else
    let dirty := (secAddrs sec).filterMap fun a => match s.mem.l2.find a with
      | some b => if b.dirty then some (a, b.v) else none
      | none => none
    { s with mem := { s.mem with
      dev := cellsPut s.mem.dev dirty
      l2 := (secAddrs sec).foldl (fun (l : Tab CByte) (a : Nat) => l.upd (fun b => { b with dirty := false }) a) s.mem.l2
      devPoison := if s.mem.l2Poison.contains sec then insNat sec s.mem.devPoison
        else if dirty.length == 64 then s.mem.devPoison.filter (· != sec) else s.mem.devPoison } }
/-- Discard a sector from its home L2 (spec/09 R198). -/
def State.l2Drop (s : State) (sec : Nat) : State :=
  let was := (secAddrs sec).filterMap fun a => match s.mem.l2.find a with
    | some b => if b.v = cellRead s.mem.dev a then none else some (a, b.v)
    | none => none
  let s := s.keepOld was
  { s with mem := { s.mem with
    l2 := (secAddrs sec).foldl (fun (l : Tab CByte) (a : Nat) => l.del a) s.mem.l2
    l2Poison := s.mem.l2Poison.filter (· != sec) } }

/-- The XOR of the w-bit fields of a number from bit 0 on, at most n of them. -/
def xorFields (w : Nat) : Nat → Nat → Nat
  | 0, _ => 0
  | n + 1, v => Nat.xor (v % 2 ^ w) (xorFields w n (v / 2 ^ w))
/-- The slice of a memory die's L2 that caches an address (spec/09 R175). -/
def l2Slice (pa : Nat) : Nat := xorFields (if dieCode pa < 4 then 6 else 5) 7 (dieOfs pa / 256)
/-- The slice of an RDC that caches an address (spec/09 R175). -/
def rdcSlice (pa : Nat) : Nat := Nat.xor (xorFields 5 7 (dieOfs pa / 256)) (dieCode pa)
/-- The lines of n bytes, among those a condition picks, of which a cache holds bytes. -/
def heldLines {α : Type} (n : Nat) (p : Nat → Bool) (t : Tab α) : List Nat :=
  t.foldr (fun e a => if p (e.1 / n) && a.head? != some (e.1 / n) then (e.1 / n) :: a else a) []
/-- The line that leaves a full cache for want of room, a free choice (DESIGN CHOICE, log 49). -/
def State.victim (s : State) (line : Nat) (held : List Nat) (cap : Nat) : Option Nat :=
  if held.contains line || decide (held.length < cap) then none else held[Config.pick s.free line % held.length]?

/-- Room for a line in the home L2 (spec/01 R13, spec/09 R174): a line of a full slice is written back and leaves. -/
def State.roomL2 (s : State) (line : Nat) : State :=
  if s.mem.l2.length < Config.l2Lines 4 then s
  else
    let pa := line * 256
    let held := heldLines 256 (fun x => pkgOf (x * 256) == pkgOf pa && dieCode (x * 256) == dieCode pa
      && l2Slice (x * 256) == l2Slice pa) s.mem.l2
    match s.victim line held (Config.l2Lines (dieCode pa)) with
    | none => s
    | some v => (List.range 4).foldl (fun (s : State) i => (s.l2Flush (4 * v + i)).l2Drop (4 * v + i)) s

/-- The mark of an element of a FAST line under capture that plain bytes were stored over: its sum starts from its bytes (spec/14
R300, spec/18 R394). -/
def capStored : Nat := 8
/-- Write bytes at the home: into its L2, dirty. A plane that is off discards them and logs the address (spec/09 R181);
an EXACT element written becomes the sign extension of its new int64 (spec/14 R294). -/
def State.homePut (s : State) (cs : List Host.Cell) : State :=
  let off := cs.filter fun c => s.planeOff c.1
  let on_ := cs.filter fun c => !s.planeOff c.1
  let s := off.foldl (fun s c => s.modMDie (dieCode c.1) fun m => { m with log := insNat (c.1 / 64 * 64) m.log }) s
  let bad := s.mem.devPoison.filter fun x => (on_.any fun c => secOf c.1 == x) && !s.l2Holds x
  let s := s.keepOld ((on_.filter fun c => s.homeByte c.1 != c.2).map fun c => (c.1, s.homeByte c.1))
  let s := on_.foldl (fun (s : State) c =>
    let s := (s.wake c.1).roomL2 (c.1 / 256)
    { s with mem := { s.mem with l2 := s.mem.l2.put c.1 { v := c.2, dirty := true } } }) s
  let s := bad.foldl (fun (s : State) x => { s with mem := { s.mem with l2Poison := insNat x s.mem.l2Poison } }) s
  let els := sortNat ((on_.filter fun c => (s.lineAt c.1).any (·.exact)).map fun c => c.1 / 8)
  let s := els.foldl (fun (s : State) e => { s with mem := { s.mem with lines := s.mem.lines.upd (fun l =>
    { l with vals := l.vals.set (e % 32) (exactOf (s.homeRead (e * 8) 8)) }) (e / 32) } }) s
  on_.foldl (fun (s : State) c => if (s.lineAt c.1).all fun l => l.cap.isEmpty then s
    else { s with mem := { s.mem with lines := s.mem.lines.upd (fun l =>
      { l with cap := l.cap.set (c.1 % 256 / 4) (0, capStored) }) (c.1 / 256) } }) s

/-- A sector written whole at the home loses its poison there. -/
def State.homeClean (s : State) (sec : Nat) : State :=
  { s with mem := { s.mem with l2Poison := s.mem.l2Poison.filter (· != sec) } }
/-- Clear the poison of a sector at the home: in its L2 and in the device. -/
def State.homeUntaint (s : State) (sec : Nat) : State :=
  { s with mem := { s.mem with
    l2Poison := s.mem.l2Poison.filter (· != sec)
    devPoison := s.mem.devPoison.filter (· != sec) } }
/-- Poison a sector at the home. -/
def State.homeTaint (s : State) (sec : Nat) : State :=
  { s with mem := { s.mem with l2Poison := insNat sec s.mem.l2Poison } }

/-- Bring a sector into the home L2 (spec/09 R174): bytes not held come from the device, clean, with its poison. -/
def State.l2Fill (s : State) (sec : Nat) : State :=
  let s := (s.wake (sec * 64)).roomL2 (sec / 4)
  { s with mem := { s.mem with
    l2Poison := if s.mem.devPoison.contains sec && !s.l2Holds sec then insNat sec s.mem.l2Poison else s.mem.l2Poison
    l2 := (secAddrs sec).foldl (fun l a => match l.find a with
      | some _ => l
      | none => l.put a { v := cellRead s.mem.dev a }) s.mem.l2 } }

/-! ### Paths (spec/01 R16, spec/19 R399) -/

/-- Is the end of a module ACTIVE (spec/19 R399)? Ends are keyed by service slot × 256 + module. -/
def State.linkUp (s : State) (slot m : Nat) : Bool := (s.links.getD (slot * 256 + m) {}).state == .active
/-- Has a CD an ACTIVE module to a memory die (spec/19 R398)? -/
def State.dieUp (s : State) (cd md : Nat) : Bool :=
  if md < 4 then s.linkUp cd (2 * md) || s.linkUp cd (2 * md + 1) else s.linkUp cd (8 + (md - 4))
/-- Is a memory die reached from a CD directly or round the ring, one way (spec/19 R399)? -/
def State.reaches (s : State) (md : Nat) (up : Bool) : Nat → Nat → Bool
  | _, 0 => false
  | cd, n + 1 => s.dieUp cd md ||
    (if up then s.linkUp cd 10 && s.reaches md up ((cd + 1) % 8) n else s.linkUp cd 11 && s.reaches md up ((cd + 7) % 8) n)
/-- Does a path lead from a CD to a memory die? -/
def State.cdPath (s : State) (cd md : Nat) : Bool := s.reaches md true cd 8 || s.reaches md false cd 8
/-- Does a path lead from one memory die to another: through a CD (spec/01 R16)? -/
def State.mdPath (s : State) (a b : Nat) : Bool :=
  a == b || (List.range 8).any fun cd => s.dieUp cd a && s.cdPath cd b
/-- Does no path to the home of an address remain for a CD (spec/19 R399)? -/
def State.noPath (s : State) (cd pa : Nat) : Bool :=
  pkgOf pa == s.pkg.pkgNo && decide (dieCode pa < 6) && !s.cdPath cd (dieCode pa)
/-- Does no path to the home of an address remain for a core: of its CD, or of its memory die (spec/19 R399)? -/
def State.cut (s : State) (c pa : Nat) : Bool :=
  if c < 328 then s.noPath (if isSvc c then c - 320 else dieOf c) pa
  else pkgOf pa == s.pkg.pkgNo && decide (dieCode pa < 6) && !s.mdPath (c - 328) (dieCode pa)

/-! ### L1 and RDC -/

/-- The bytes of forwarded writes of a die not yet acknowledged, oldest first (spec/10 R420). -/
def Die.fwdCells (d : Die) : List Host.Cell := d.fwd.flatMap (·.bytes)
/-- Does the die's RDC hold all of a sector? -/
def Die.holds (d : Die) (sec : Nat) : Bool := (secAddrs sec).all fun a => (d.rdc.find a).isSome
/-- Does the core's L1 hold all of a sector? -/
def Core.holds (k : Core) (sec : Nat) : Bool := (secAddrs sec).all fun a => (k.l1.find a).isSome

/-- One byte at its home, behind the writes a die has forwarded to it. -/
def State.sentByte (s : State) (d a : Nat) : Byte := match (s.die d).fwdCells.reverse.find? (·.1 == a) with
  | some c => c.2
  | none => s.homeByte a
/-- Is the sector poisoned at its home, behind the writes a die has forwarded to it (spec/09 R180)? -/
def State.sentPoison (s : State) (d sec : Nat) : Bool :=
  (s.die d).fwd.foldl (fun p f => if f.poison.contains sec then true else if f.whole.contains sec then false else p) (s.homePoison sec)

/-- One byte below a core's L1: in the RDC of its die, or at the home for a service core (spec/10 R215). -/
def State.lowByte (s : State) (c a : Nat) : Byte :=
  if isSvc c then s.homeByte a else match (s.die (dieOf c)).rdc.find a with
    | some v => v
    | none => s.sentByte (dieOf c) a
/-- Is the sector poisoned below a core's L1, as the RDC holds it or would fetch it (spec/09 R180)? -/
def State.lowPoison (s : State) (c sec : Nat) : Bool :=
  if isSvc c then s.homePoison sec
  else if (s.die (dieOf c)).holds sec then (s.die (dieOf c)).rpoison.contains sec
  else s.sentPoison (dieOf c) sec
/-- Can a core read no current copy of a sector: it is neither in its L1 nor its RDC, and no path to its home remains (spec/19
R399)? -/
def State.lost (s : State) (c sec : Nat) : Bool :=
  !(s.core c).holds sec && !(!isSvc c && (s.die (dieOf c)).holds sec) && s.cut c (sec * 64)

/-- Room for a line in a die's RDC (spec/01 R13, spec/09 R174): it writes through, so a line of a full slice just leaves. -/
def State.roomRdc (s : State) (d line : Nat) : State :=
  if (s.die d).rdc.length < Config.rdcLines then s
  else match s.victim line (heldLines 256 (fun x => rdcSlice (x * 256) == rdcSlice (line * 256)) (s.die d).rdc) Config.rdcLines with
    | none => s
    | some v => s.modDie d fun k => { k with
        rdc := k.rdc.filter fun e => e.1 / 256 != v
        rpoison := k.rpoison.filter fun x => x / 4 != v }

/-- The RDC of a die takes bytes: sectors written whole lose their poison there, tainted ones gain it. -/
def State.rdcTake (s : State) (d : Nat) (cs : List Host.Cell) (taint whole : List Nat) : State :=
  (cs.foldl (fun (s : State) x => (s.roomRdc d (x.1 / 256)).modDie d fun k => { k with rdc := k.rdc.put x.1 x.2 }) s).modDie d fun k =>
    { k with rpoison := taint.foldl (fun r x => insNat x r) (k.rpoison.filter fun x => !whole.contains x) }

/-- Fetch a sector into the RDC of a core's die where it does not hold all of it: every byte is fetched, behind the die's own
writes (spec/09 R174, R176). -/
def State.fillRdc (s : State) (c sec : Nat) : State :=
  if isSvc c then s.l2Fill sec
  else if (s.die (dieOf c)).holds sec then s
  else
    let s := (s.l2Fill sec).roomRdc (dieOf c) (sec / 4)
    let bs := (secAddrs sec).map fun a => (a, s.sentByte (dieOf c) a)
    s.rdcTake (dieOf c) bs (if s.sentPoison (dieOf c) sec then [sec] else []) [sec]

/-- The dirty bytes of a core's L1 that a condition picks. -/
def Core.dirtyCells (k : Core) (p : Nat → Bool) : List Host.Cell :=
  k.l1.filterMap fun e => if e.2.dirty && p e.1 then some (e.1, e.2.v) else none

/-- The next number for forwarded writes. -/
def State.fresh (s : State) : Nat × State := (s.nextId, { s with nextId := s.nextId + 1 })

/-- A core's dirty bytes of a sector are written back to its home, and to the RDC of its die (spec/11 R224); the copy stays, clean,
and poison goes along (spec/09 R180). -/
def State.writeBack (s : State) (c sec : Nat) : State :=
  let k := s.core c
  let cs := k.dirtyCells fun a => secOf a == sec
  let taint := if !cs.isEmpty && k.l1poison.contains sec then [sec] else []
  let whole := if k.l1whole.contains sec then [sec] else []
  if cs.isEmpty then s
  else
    let s := s.homePut cs
    let s := taint.foldl State.homeTaint (whole.foldl State.homeClean s)
    let s := if isSvc c then s else s.rdcTake (dieOf c) cs taint whole
    s.modCore c fun k => { k with
      l1 := (secAddrs sec).foldl (fun l a => l.upd (fun b => { b with dirty := false }) a) k.l1
      l1whole := k.l1whole.filter (· != sec) }

/-- Exclusive ownership of a sector is recalled: every L1 that owns it writes its dirty bytes back and gives it up (spec/11
R224). -/
def State.recall (s : State) (sec : Nat) : State :=
  (s.cores.filter fun p => p.2.owned.contains sec).foldl (fun s p =>
    (s.writeBack p.1 sec).modCore p.1 fun k => { k with owned := k.owned.filter (· != sec) }) s

/-- The home performs a forwarded or direct write, where ownership has been recalled: sectors written whole lose their poison,
tainted ones gain it. -/
def State.homeWrite (s : State) (cs : List Host.Cell) (taint whole : List Nat) : State :=
  let secs := sortNat (cs.map fun c => secOf c.1)
  let s := secs.foldl State.recall s
  let s := s.homePut cs
  let s := whole.foldl State.homeClean s
  taint.foldl State.homeTaint s

/-- Bytes leave a core's L1 for the RDC of its die, which writes them through: they are forwarded to their home under
a number (spec/10 R420); those of sectors the L1 owns are performed at the home at once, since the L1 is their one
current place (spec/11 R224), and a sector another L1 owns is recalled from it. A service core's L1 writes to the home. -/
def State.writeThrough (s : State) (c : Nat) (cs : List Host.Cell) (taint whole : List Nat) : Option Nat × State :=
  if cs.isEmpty && taint.isEmpty then (none, s)
  else if isSvc c then (none, s.homeWrite (cs.filter fun x => !s.cut c x.1) (taint.filter fun x => !s.cut c (x * 64)) whole)
  else
    let own := (s.core c).owned
    let rest := cs.filter fun x => !own.contains (secOf x.1)
    let s := (sortNat (rest.map fun x => secOf x.1)).foldl State.recall s
    let s := s.rdcTake (dieOf c) cs taint whole
    let s := s.homePut (cs.filter fun x => own.contains (secOf x.1) && !s.noPath (dieOf c) x.1)
    let s := (whole.filter own.contains).foldl State.homeClean s
    let s := (taint.filter own.contains).foldl State.homeTaint s
    let taint := taint.filter fun x => !own.contains x
    if rest.isEmpty && taint.isEmpty then (none, s)
    else
      let (id, s) := s.fresh
      (some id, s.modDie (dieOf c) fun d => { d with
        fwd := d.fwd ++ [{ id := id, bytes := rest, poison := taint, whole := whole.filter fun x => !own.contains x }] })

/-- Clean the picked dirty bytes of a core's L1 into the RDC; the copies stay, clean (spec/10, table of scopes). -/
def State.cleanL1 (s : State) (c : Nat) (p : Nat → Bool) : State :=
  let k := s.core c
  let cs := k.dirtyCells p
  let touched := fun (sec : Nat) => cs.any fun x => secOf x.1 == sec
  let s := (s.writeThrough c cs (k.l1poison.filter touched) (k.l1whole.filter touched)).2
  s.modCore c fun k => { k with
    l1 := k.l1.map fun e => if p e.1 then (e.1, { e.2 with dirty := false }) else e
    l1whole := k.l1whole.filter fun x => !touched x }

/-- Drop the picked bytes of a core's L1, with the poison of sectors none of whose bytes remain. -/
def State.dropL1 (s : State) (c : Nat) (p : Nat → Bool) : State :=
  s.modCore c fun k =>
    let l := k.l1.filter fun e => !p e.1
    let left := fun (sec : Nat) => l.any fun e => secOf e.1 == sec
    { k with l1 := l, l1poison := k.l1poison.filter left, l1whole := k.l1whole.filter left }

/-- Room for a sector in a core's L1 (spec/01 R17, spec/09 R174): a sector of a full L1 is cleaned and leaves, with its ownership
(spec/11 R224). -/
def State.roomL1 (s : State) (c sec : Nat) : State :=
  if (s.core c).l1.length < Config.l1Sectors then s
  else match s.victim sec (heldLines 64 (fun _ => true) (s.core c).l1) Config.l1Sectors with
    | none => s
    | some v => ((s.cleanL1 c fun a => secOf a == v).dropL1 c fun a => secOf a == v).modCore c fun k =>
        { k with owned := k.owned.filter (· != v) }

/-- A core's L1 takes the bytes of a sector from below, all but those it holds dirty (spec/09 R176), with the poison (R180). -/
def Core.takeSector (k : Core) (sec : Nat) (byte : Nat → Byte) (poison : Bool) : Core :=
  let dirty := fun (a : Nat) => (k.l1.find a).any (·.dirty)
  { k with
    l1 := (secAddrs sec).foldl (fun l a => if dirty a then l else l.put a { v := byte a }) k.l1
    l1poison := if poison || (k.l1poison.contains sec && (secAddrs sec).any dirty) then insNat sec k.l1poison
      else k.l1poison.filter (· != sec) }

/-- Fill a sector into the RDC and L1 of a core on a load that misses (spec/09 R174, R177). -/
def State.fill (s : State) (c sec : Nat) : State :=
  if (s.core c).holds sec then s
  else
    let s := (s.fillRdc c sec).roomL1 c sec
    s.modCore c fun k => k.takeSector sec (s.lowByte c) (s.lowPoison c sec)

/-- One byte as a core's L1 gives it, after any fill. -/
def State.l1Byte (s : State) (c a : Nat) : Byte := match (s.core c).l1.find a with
  | some b => b.v
  | none => s.lowByte c a

/-- Is any byte's sector poisoned for a load of this core? -/
def State.l1Poison (s : State) (c : Nat) (secs : List Nat) : Bool := secs.any (s.core c).l1poison.contains

/-- Does the access go to the home, past L1 and RDC: an established accumulation line (spec/14 R294)? -/
def State.atHome (s : State) (pa : Nat) : Bool := (s.lineAt pa).isSome

/-- Drop the picked bytes of a die's RDC. Bytes of writes not yet acknowledged keep being served (spec/10 R420). -/
def State.dropRdc (s : State) (d : Nat) (p : Nat → Bool) : State :=
  s.modDie d fun k =>
    let l := k.rdc.filter fun e => !p e.1
    { k with rdc := l, rpoison := k.rpoison.filter fun sec => l.any fun e => secOf e.1 == sec }

/-- Scopes as numbers, each containing the smaller ones (spec/00 R7). -/
def Scope.num : Scope → Nat
  | .core => 0 | .quad => 1 | .die => 2 | .pkg => 3 | .pod => 4 | .sys => 5

/-- Is the write of a release at a scope written through past its core's L1 (spec/10 R420, R215)? -/
def throughAt (c : Nat) (sc : Scope) : Bool := if isSvc c then 3 ≤ Scope.num sc else 1 ≤ Scope.num sc

/-- A release at a scope, before its own write (spec/10, table of scopes; R215 on a service core). -/
def State.release (s : State) (c : Nat) (sc : Scope) : State :=
  if throughAt c sc then s.cleanL1 c fun _ => true else s

/-- The writes a release at a scope waits for: from .PKG on every write forwarded by the core's RDC and not acknowledged, those
homed on other packages included (spec/09 R189, spec/10 R206, R420; log 50). -/
def State.relWaits (s : State) (c : Nat) (sc : Scope) : List Nat :=
  if isSvc c || Scope.num sc < 3 then [] else (s.die (dieOf c)).fwd.map (·.id)

/-- Have these forwarded writes been acknowledged? -/
def State.acked (s : State) (c : Nat) (ids : List Nat) : Bool :=
  isSvc c || (s.die (dieOf c)).fwd.all fun f => !ids.contains f.id

/-- An acquire at a scope, after its own read (spec/10, table of scopes; R420: dirty bytes are written back first; from
.QUAD on the settled copies of accumulation lines are dropped, spec/14 R304; from .PKG on every line of the RDC that no L1 of the
die owns, whatever its home: R206, log 50). -/
def State.acquire (s : State) (c : Nat) (sc : Scope) : State :=
  let owned := (s.core c).owned
  let mine : Nat → Bool := fun a => !owned.contains (secOf a)
  if isSvc c then (if 3 ≤ Scope.num sc then (s.cleanL1 c mine).dropL1 c mine else s)
  else if Scope.num sc = 0 then s
  else
    let s := ((s.cleanL1 c mine).dropL1 c mine).modCore c fun k => { k with acc := k.acc.filter fun p => !p.2.settled }
    if Scope.num sc < 3 then s
    else
      let d := dieOf c
      let own : Nat → Bool := fun a => (s.cores.any fun p => dieOf p.1 == d && !isSvc p.1 && p.2.owned.contains (secOf a))
      s.dropRdc d fun a => !own a
/-- Threads have acquired: instruction words the home holds by now are seen from their next control transfer on (spec/02 R56). -/
def State.sees (s : State) (ts : List Tid) : State := s.modThreads ts fun th => { th with iacq := s.mem.ver }
/-- An acquire at a scope by threads of a core. -/
def State.acquireBy (s : State) (c : Nat) (sc : Scope) (ts : List Tid) : State := (s.acquire c sc).sees ts

/-- A plain store performed in the core's L1: dirty bytes, no fetch (spec/09 R187, R189); on an accumulation line at the
home (spec/14 R294). Sectors one store word writes whole lose their poison (spec/09 R180). -/
def State.l1Put (s : State) (c : Nat) (cs : List Host.Cell) (whole : List Nat) : State :=
  let home := cs.filter fun x => s.atHome x.1
  let l1 := cs.filter fun x => !s.atHome x.1
  let s := if home.isEmpty then s else s.homeWrite (home.filter fun x => !s.cut c x.1) [] (whole.filter fun x => s.atHome (x * 64))
  let mine := whole.filter fun x => !s.atHome (x * 64)
  (l1.foldl (fun (s : State) x => (s.roomL1 c (secOf x.1)).modCore c fun k =>
      { k with l1 := k.l1.put x.1 { v := x.2, dirty := true } }) s).modCore c fun k => { k with
    l1poison := k.l1poison.filter fun sec => !mine.contains sec
    l1whole := mine.foldl (fun l x => insNat x l) k.l1whole }

/-- A GLOBAL read through a core's L1: fills the sectors it misses; the value and whether poison was read (spec/09 R174,
R180; spec/14 R294 for accumulation lines), or, where no path to the home remains, poison (spec/19 R399). -/
def State.readG (s : State) (c pa n : Nat) : Nat × Bool × State :=
  if s.atHome pa then (s.homeRead pa n, (secsOf pa n).any s.homePoison || s.cut c pa, s)
  else if (secsOf pa n).any (s.lost c) then (0, true, s)
  else
    let s := (secsOf pa n).foldl (fun s sec => s.fill c sec) s
    (ofBytes ((List.range n).map fun i => s.l1Byte c (pa + i)), s.l1Poison c (secsOf pa n), s)

/-- The home performs a die's forwarded writes of a sector, in their order (spec/10 R204). -/
def State.performFwd (s : State) (d sec : Nat) : State :=
  let inSec : Host.Cell → Bool := fun x => secOf x.1 == sec
  ((s.die d).fwd.foldl (fun s f =>
    let s := s.homePut (f.bytes.filter inSec)
    let s := if f.whole.contains sec then s.homeClean sec else s
    if f.poison.contains sec then s.homeTaint sec else s) s).modDie d fun k => { k with
      fwd := k.fwd.map fun f => { f with
        bytes := f.bytes.filter fun x => !inSec x, poison := f.poison.filter (· != sec), whole := f.whole.filter (· != sec) } }

/-- Bring a sector's coherence order together at its home before an agent of a core writes there: owners give it up, the
die's forwarded writes of it and the core's own dirty bytes are performed, in their order (spec/10 R204, spec/11 R224). -/
def State.gather (s : State) (c sec : Nat) : State :=
  let s := s.recall sec
  (if isSvc c then s else s.performFwd (dieOf c) sec).writeBack c sec

/-- Obtain exclusive ownership of a sector for a core's L1 (spec/11 R224): L1 and RDC take the home's bytes and poison. -/
def State.own (s : State) (c sec : Nat) : State :=
  if (s.core c).owned.contains sec then s
  else
    let s := ((s.gather c sec).l2Fill sec).roomL1 c sec
    let p := s.homePoison sec
    let s := if isSvc c then s else
      s.rdcTake (dieOf c) ((secAddrs sec).map fun a => (a, s.homeByte a)) (if p then [sec] else []) [sec]
    s.modCore c fun k => { k.takeSector sec s.homeByte p with owned := insNat sec k.owned }

/-- The copies of a sector in a core's L1 and its die's RDC, where they hold some of it, are updated from the home (spec/10
R213). -/
def State.refresh (s : State) (c sec : Nat) : State :=
  let p := s.homePoison sec
  let held {α : Type} (t : Tab α) : Bool := (secAddrs sec).any fun a => (t.find a).isSome
  let s := if held (s.core c).l1 then s.modCore c fun k => k.takeSector sec s.homeByte p else s
  if isSvc c || !held (s.die (dieOf c)).rdc then s
  else s.rdcTake (dieOf c) ((secAddrs sec).map fun a => (a, s.homeByte a)) (if p then [sec] else []) [sec]

/-- A write of a core's agent performed at the home, behind the core's earlier writes: the issuing core's L1 and its die's RDC
copies of the written sectors are updated (spec/10 R213, spec/11 R224); without a path to the home it is discarded (spec/19
R399). -/
def State.putHome (s : State) (c : Nat) (cs : List Host.Cell) (taint whole : List Nat) : State :=
  let cs := cs.filter fun x => !s.cut c x.1
  let taint := taint.filter fun x => !s.cut c (x * 64)
  let secs := sortNat (cs.map (fun x => secOf x.1) ++ taint)
  let s := secs.foldl (fun s x => s.gather c x) s
  let s := s.homeWrite cs taint whole
  secs.foldl (fun s x => s.refresh c x) s

/-- An engine's write to GLOBAL bytes (spec/10 R213): poison comes with the data and is cleared by no engine's write
(spec/09 R180). -/
def State.engineWrite (s : State) (c : Nat) (cs : List Host.Cell) (taint : List Nat) : State := s.putHome c cs taint []

/-- Every copy of the picked bytes in L1s and RDCs, and every forwarded write of them, is replaced by a write of their
home (spec/14 R294, spec/15 R329). -/
def State.purge (s : State) (p : Nat → Bool) : State :=
  { s with
    cores := s.cores.map fun (q : Nat × Core) => (q.1, { q.2 with
      l1 := q.2.l1.filter fun e => !p e.1
      l1poison := q.2.l1poison.filter fun x => !p (x * 64)
      l1whole := q.2.l1whole.filter fun x => !p (x * 64)
      owned := q.2.owned.filter fun x => !p (x * 64) })
    dies := s.dies.map fun (q : Nat × Die) => (q.1, { q.2 with
      rdc := q.2.rdc.filter fun e => !p e.1
      rpoison := q.2.rpoison.filter fun x => !p (x * 64)
      fwd := q.2.fwd.map fun f => { f with
        bytes := f.bytes.filter fun x => !p x.1, poison := f.poison.filter fun x => !p (x * 64)
        whole := f.whole.filter fun x => !p (x * 64) } }) }

/-! ### Scratchpads -/

/-- n bytes of a scratchpad (spec/00 R9). -/
def State.spadRead (s : State) (c off n : Nat) : Nat :=
  ofBytes ((List.range n).map fun i => cellRead (s.core c).spad (off + i))
/-- Is a byte's sector of the scratchpad poisoned (spec/09 R180)? -/
def State.spadPoison (s : State) (c off n : Nat) : Bool := (secsOf off n).any (s.core c).spoison.contains
/-- Write scratchpad bytes; sectors written whole lose their poison, tainted ones gain it (spec/09 R180). -/
def State.spadPut (s : State) (c : Nat) (cs : List Host.Cell) (taint whole : List Nat) : State :=
  s.modCore c fun k => { k with
    spad := cellsPut k.spad cs
    spoison := taint.foldl (fun l x => insNat x l) (k.spoison.filter fun x => !whole.contains x) }
/-- The full/empty tag of a word (spec/00 R9). -/
def State.tag (s : State) (c w : Nat) : Bool := (s.core c).tags.contains w
/-- Set or clear the tag of a word. -/
def State.setTag (s : State) (c w : Nat) (v : Bool) : State :=
  s.modCore c fun k => { k with tags := if v then insNat w k.tags else k.tags.filter (· != w) }

/-- The core of a quad group's member at a QPOS: the block placed on it (spec/09 R172). -/
def State.qmember (s : State) (b : Block) (qpos : Nat) : Option (Nat × Block) :=
  match b.qgid with
  | none => none
  | some q => s.blocks.find? fun p => p.2.grid == b.grid && p.2.qgid == some q && p.2.core % 4 == qpos

/-- A SPAD offset of n bytes: the core and its byte offset, or none where invalid (spec/09 R171). -/
def spadLoc (b : Block) (o n : Nat) : Option (Nat × Nat) :=
  if o + n ≤ b.spadSize ∧ 0 < b.spadSize then some (b.core, b.spadBase + o) else none

/-- A QSPAD offset of n bytes (spec/09 R172). -/
def State.qspadLoc (s : State) (b : Block) (o n : Nat) : Option (Nat × Nat) :=
  if o / 2 ^ 24 ≠ 0 ∨ b.spadSize < o % 2 ^ 22 + n ∨ b.spadSize = 0 then none
  else match s.qmember b (o / 2 ^ 22 % 4) with
    | none => none
    | some (_, m) => some (m.core, m.spadBase + o % 2 ^ 22)

/-! ### Translation (spec/18 R377, R378) -/

/-- Do bits [63:57] copy bit 56 (spec/02 R44)? -/
def form57 (a : DWord) : Bool := fld a 57 7 == (if bitOf a 56 then 127 else 0)

/-- The protection context of a block: its launch's CID, 0xFFFF for a service core (spec/18 R377). -/
def Block.ctx (b : Block) : Nat := if isSvc b.core then 0xFFFF else b.cid

/-- The root table of a context, or none for an invalid entry (spec/18 R377). -/
def State.ctxRoot (s : State) (cid : Nat) : Option Nat :=
  let e := s.homeRead (s.pkg.ctxtab.toNat + 8 * cid) 8
  let root := e / 2 ^ 12 % 2 ^ 41 * 2 ^ 12
  if e % 2 = 1 ∧ e / 2 % 2 ^ 11 = 0 ∧ e / 2 ^ 53 = 0 ∧ root % 2 ^ 17 = 0 then some root else none

/-- Index bits, index width and leaf size of a table level (spec/18 R378). -/
def walkLevel : Nat → Nat × Nat × Nat
  | 0 => (43, 14, 0)
  | 1 => (30, 13, 2 ^ 30)
  | 2 => (21, 9, 2 ^ 21)
  | _ => (12, 9, 2 ^ 12)

/-- A walk over the levels from `lv` on (spec/18 R378): a translation, XLATE (`error true`) or ACCESS (`error false`). -/
def State.walk (s : State) (cid va : Nat) : Nat → Nat → Nat → Except Bool TlbEnt
  | 0, _, _ => .error false
  | fuel + 1, lv, base =>
    let (sh, w, leafSz) := walkLevel lv
    let e := s.homeRead (base + 8 * (va / 2 ^ sh % 2 ^ w)) 8
    let pa := e / 2 ^ 12 % 2 ^ 41 * 2 ^ 12
    let leaf := e / 2 % 2 == 1
    let s64 := e / 2 ^ 7 % 2 == 1
    if e % 2 = 0 then .error true
    else if e / 2 ^ 53 ≠ 0 ∨ e / 2 ^ 8 % 16 ≠ 0 ∨ (s64 ∧ lv ≠ 3) ∨ (leaf ∧ lv = 0) ∨ (¬ leaf ∧ lv = 3) then .error false
    else if leaf then
      let sz := if s64 then 2 ^ 16 else leafSz
      if pa % sz ≠ 0 then .error false
      else .ok { cid := cid, va := va / sz * sz, size := sz, pa := pa, r := e / 2 ^ 2 % 2 == 1, w := e / 2 ^ 3 % 2 == 1,
                 x := e / 2 ^ 4 % 2 == 1, u := e / 2 ^ 5 % 2 == 1, nodir := e / 2 ^ 6 % 2 == 1 }
    else if pa % 2 ^ (if lv = 0 then 16 else 12) ≠ 0 then .error false
    else s.walk cid va fuel (lv + 1) pa

/-- The cached translation of a core for an address. -/
def State.tlbFind (s : State) (c cid va : Nat) : Option TlbEnt :=
  (s.core c).tlb.find? fun e => e.cid == cid && e.va ≤ va && va < e.va + e.size

/-- The 57-bit virtual address as a number. -/
def va57 (a : DWord) : Nat := a.toNat % 2 ^ 57

/-- Translate: a cached translation, else a walk; an invalid context entry is ACCESS (spec/18 R377, R378). -/
def State.translate (s : State) (c cid va : Nat) : Except Bool TlbEnt :=
  match s.tlbFind c cid va with
  | some e => .ok e
  | none => match s.ctxRoot cid with
    | none => .error false
    | some r => s.walk cid va 4 0 r

/-- Keep the translations of addresses a word or engine uses in the core's TLB until a TLBINV (spec/18 R378). -/
def State.keepTlb (s : State) (c cid : Nat) (vas : List Nat) : State :=
  vas.foldl (fun s va => match s.tlbFind c cid va with
    | some _ => s
    | none => match s.translate c cid va with
      | .ok e => s.modCore c fun k => { k with tlb := k.tlb ++ [e] }
      | .error _ => s) s

/-- What an access needs of its page. -/
inductive Perm where
  | r | w | x | rw
  deriving DecidableEq, Repr

/-- SUB of an XLATE record: 0 read, 1 write, 2 fetch (spec/18 R371). -/
def Perm.sub : Perm → Nat
  | .r => 0 | .w => 1 | .x => 2 | .rw => 1

/-- Does an entry permit an access at a level (spec/18 R378)? -/
def TlbEnt.allows (e : TlbEnt) (p : Perm) (lv : Level) : Bool :=
  (e.u || lv != .user) && (match p with | .r => e.r | .w => e.w | .x => e.x | .rw => e.r && e.w)

/-- Does an owner admit writes of a partition (spec/15 R320)? -/
def ownerAdmits (o : Owner) (part : Nat) : Bool :=
  match o with
  | .none => false | .p => part == 0 | .t => part == 1 | .shared => true

/-- The owner of a page (spec/15 R320): SHARED at power-up. -/
def State.ownerOf (s : State) (pa : Nat) : Owner := s.mem.owner.getD (pa / 2 ^ 16) .shared

/-- Is a write to a page admitted: the owner admits the block's partition, or the writer is not checked (spec/15
R320, R321)? -/
def State.ownerOk (s : State) (pa part : Nat) : Bool := 2 ≤ part || ownerAdmits (s.ownerOf pa) part

/-- Check and translate one GLOBAL access of n bytes of a thread, in the order of spec/18 R369: alignment, form,
translation, permission and place, owner. `atomic` refuses pages outside the directory (spec/11 R229); `link` admits a service core to the link aperture of
its own die, on a page outside the directory (spec/19 R401). -/
def State.gAccessIn (link : Bool) (s : State) (c : Nat) (b : Block) (lv : Level) (va : DWord) (n : Nat) (p : Perm)
    (atomic : Bool) : Except Flt Nat :=
  if va.toNat % n ≠ 0 then .error ⟨.misalign, va, 0⟩
  else if !form57 va then .error ⟨.access, va, 0⟩
  else match s.translate c b.ctx (va57 va) with
    | .error true => .error ⟨.xlate, va, p.sub⟩
    | .error false => .error ⟨.access, va, 0⟩
    | .ok e =>
      let pa := e.pa + (va57 va - e.va)
      if !e.allows p lv || (atomic && e.nodir) then .error ⟨.access, va, 0⟩
      else if isAperture pa then
        if link && isSvc c && e.nodir && pkgOf pa == s.pkg.pkgNo then .ok pa else .error ⟨.access, va, 0⟩
      else if !installed pa then .error ⟨.access, va, 0⟩
      else if (p == .w || p == .rw) && !s.ownerOk pa b.part then .error ⟨.partViolation, va, 0⟩
      else .ok pa

/-- The access of a word or engine that does not reach the link aperture (spec/19 R401). -/
def State.gAccess (s : State) (c : Nat) (b : Block) (lv : Level) (va : DWord) (n : Nat) (p : Perm) (atomic : Bool) :
    Except Flt Nat := s.gAccessIn false c b lv va n p atomic

/-- Check one scratchpad access of n bytes (spec/09 R171, R172, R176), in the order of spec/18 R369. -/
def State.spAccess (s : State) (b : Block) (q : Bool) (o n : Nat) : Except Flt (Nat × Nat) :=
  if o % n ≠ 0 then .error ⟨.misalign, BitVec.ofNat 64 o, 0⟩
  else match (if q then s.qspadLoc b o n else spadLoc b o n) with
    | none => .error ⟨.access, BitVec.ofNat 64 o, 0⟩
    | some l => .ok l

/-- The faults of a list of checks. -/
def faultsOf {α : Type} (l : List (Except Flt α)) : List Flt := l.filterMap fun q => match q with
  | .error f => some f
  | .ok _ => none
/-- The results of the checks that pass. -/
def oksOf {α : Type} (l : List (Except Flt α)) : List α := l.filterMap fun q => match q with
  | .error _ => none
  | .ok v => some v
/-- The faults among the lanes of a group, and the results of the others. -/
def splitFaults {α : Type} (l : List (Tid × Except Flt α)) : List (Tid × Flt) × List (Tid × α) :=
  l.foldr (fun p a => match p.2 with
    | .error f => ((p.1, f) :: a.1, a.2)
    | .ok v => (a.1, (p.1, v) :: a.2)) ([], [])

/-! ### The capture log (spec/18 R393 to R395) -/

/-- Capture mode (spec/18 R393). -/
def State.capturing (s : State) : Bool := bitOf s.pkg.capctl 31
/-- The clock by which the arbiters of a core decide: its virtual clock in capture mode (spec/18 R394). -/
def State.stamp (s : State) (c : Nat) : Nat := if s.capturing && !isSvc c then (s.core c).vclk else s.now c
/-- The place of an operation's word in capture mode, by virtual clock and capture index (spec/18 R394); 0 outside it. -/
def State.capRank (s : State) (o : Op) : Nat := if s.capturing then o.vclk * 512 + o.core else 0
/-- The age of a matrix request that enters now: its place in the order of entries, in capture mode after virtual clock and capture
index (spec/13 R271, spec/18 R394). -/
def State.entryAge (s : State) (c : Nat) : Nat :=
  (if s.capturing then ((s.core c).vclk * 512 + c) * 2 ^ 64 else 0) + s.order
/-- REPLAY mode: inputs come from the log. -/
def State.replaying (s : State) : Bool := bitOf s.pkg.capctl 30
/-- Append an entry of whole 16-byte units to the log (spec/18 R394); a full log sets OVF and drops it. Under replay the
same entry of the log taken is passed. -/
def State.capLog (s : State) (ws : List Word) : State :=
  let used := fld s.pkg.capctl 0 29
  let n := (ws.length + 3) / 4
  if !s.capturing then s
  else if s.replaying then { s with pkg := { s.pkg with replay := s.pkg.replay.erase ws } }
  else if bitOf s.pkg.capctl 29 || decide (256 * s.pkg.capsize.toNat < used + n) then
    { s with pkg := { s.pkg with capctl := s.pkg.capctl ||| 0x20000000 } }
  else
    let cs := cellsAt (s.pkg.capbase.toNat + 16 * used) (4 * ws.length)
      (ws.foldr (fun (w : Word) (a : Nat) => w.toNat + 2 ^ 32 * a) 0)
    let s := s.homeWrite cs [] []
    { s with pkg := { s.pkg with capctl := s.pkg.capctl + BitVec.ofNat 32 n, caplog := s.pkg.caplog ++ [ws] } }
/-- A mailbox write's entry (spec/18 R394): the mailbox, and, since no value is derived from the die (spec/01 R15), the grid and block
that name the core: the writer's own, or one resident there (DESIGN CHOICE, log 21). -/
def State.mbEntry (s : State) (blk k : Nat) (v : Word) : List Word :=
  let b := s.block blk
  [BitVec.ofNat 32 (0xC0000010 + k), BitVec.ofNat 32 (s.grid b.grid).lrec.gridid, BitVec.ofNat 32 b.blkid, v]
/-- An input: logged under capture. Under replay it must be the next of its source in the log (spec/18 R393, R395); an
entry's source is its length and first word (DESIGN CHOICE, log 21). -/
def State.input (s : State) (ws : List Word) : Option State :=
  if !s.replaying then some (s.capLog ws)
  else if (s.pkg.replay.find? fun e => e.length == ws.length && e.head? == ws.head?) = some ws then
    some { s with pkg := { s.pkg with replay := s.pkg.replay.erase ws } }
  else none

end Sys2Proof.Machine
end

