-- ==== Sys2Proof/Machine/Links.lean ====
section
/-!
DEFINITION. Machine/Links.lean: the ends of the links (spec/19 R398), their registers behind the link aperture
(R401, R402), and the raising of link events.
-/

namespace Sys2Proof.Machine

/-- Modules of the die of a service slot (spec/19 R398). -/
def linkModules (slot : Nat) : Nat := if slot < 8 then 12 else if slot < 12 then 16 else 8

/-- The peer of a module (spec/19 R398). Service slots: 0 to 7 the CDs, 8 to 11 the NMDs, 12 and 13 the FMDs. -/
def linkPeer (slot m : Nat) : Nat × Nat :=
  if slot < 8 then
    if m < 8 then (8 + m / 2, 2 * slot + m % 2)
    else if m < 10 then (12 + (m - 8), slot)
    else if m = 10 then ((slot + 1) % 8, 11) else ((slot + 7) % 8, 10)
  else if slot < 12 then (m / 2, 2 * (slot - 8) + m % 2)
  else (m, 8 + (slot - 12))

/-- The key of an end: slot × 256 + module. -/
def linkKey (slot m : Nat) : Nat := slot * 256 + m
/-- Does the key name an end? -/
def isLinkEnd (k : Nat) : Bool := k / 256 < 14 && k % 256 < linkModules (k / 256)
/-- The key of the other end. -/
def linkOther (k : Nat) : Nat := let p := linkPeer (k / 256) (k % 256); linkKey p.1 p.2
/-- An end of a link. -/
def State.link? (s : State) (k : Nat) : Link := s.links.getD k {}
/-- Change one end. -/
def State.modLink (s : State) (k : Nat) (f : Link → Link) : State := { s with links := s.links.put k (f (s.link? k)) }
/-- Change both ends of a link. -/
def State.modEnds (s : State) (k : Nat) (f : Link → Link) : State := (s.modLink k f).modLink (linkOther k) f

/-- The code of a link state (spec/19 R402). -/
def LState.num : LState → Nat
  | .down => 0 | .train => 1 | .active => 2 | .drain => 3 | .paused => 4 | .failed => 5

/-- The enable bits of a map. -/
def mapEns (w : Word) : List Nat := (List.range 4).filter fun k => bitOf w (8 * k + 7)
/-- Redundant lanes not enabled in the map in force (spec/19 R402). -/
def Link.freeLanes (l : Link) : Nat := 4 - (mapEns l.map).length
/-- LKSTAT (spec/19 R402). -/
def Link.stat (l : Link) : Nat :=
  let w := match l.state with | .down | .train | .failed => 3 | _ => l.width
  l.state.num * 2 ^ 29 + w * 2 ^ 27 + l.freeLanes * 2 ^ 24 + l.lasterr * 2 ^ 8

/-- The registers of a module: offset to width in bytes (spec/19 R402). -/
def linkRegWidth (r : Nat) : Option Nat :=
  if r ∈ [0x00, 0x08, 0x10, 0x18, 0x20, 0x30, 0x38] then some 4 else if r = 0x28 then some 8 else none

/-- Read a register of an end (spec/19 R402). -/
def Link.read (l : Link) (r : Nat) : Nat :=
  if r = 0x00 then l.stat
  else if r = 0x08 then (if l.pause then 2 ^ 31 else 0) + (if l.retrain then 2 ^ 30 else 0) + l.twidth * 2 ^ 28
  else if r = 0x10 then l.remap.toNat
  else if r = 0x18 then l.retry.toNat
  else if r = 0x20 then l.thr.toNat
  else if r = 0x28 then l.derr.toNat
  else if r = 0x30 then l.serr.toNat
  else l.evt.toNat

/-- Does a value break a rule of its register (spec/19 R402): TWIDTH 3, two enabled entries naming one lane? -/
def linkBadValue (r v : Nat) : Bool :=
  if r = 0x08 then v / 2 ^ 28 % 4 == 3
  else if r = 0x10 then
    let w : Word := BitVec.ofNat 32 v
    let lanes := (mapEns w).map fun k => fld w (8 * k) 6
    !decide lanes.Nodup
  else false

/-- Raise an event bit of LKEVT: 0 RETRY, 1 LANE, 2 FAIL. A change from 0 to 1 makes LINK_EVENT pending on the die's
service pair (spec/19 R402). -/
def State.linkEvt (s : State) (k bit : Nat) : State :=
  if (s.link? k).evt.getLsbD bit then s
  else (s.modLink k fun l => { l with evt := l.evt ||| BitVec.ofNat 3 (2 ^ bit) }).modSvc (k / 256)
    fun v => { v with linkPend := true }

/-- The lowest module of a CD to a memory die (spec/19 R398). -/
def linkTo (cd md : Nat) : Nat := linkKey cd (if md < 4 then 2 * md else 4 + md)
/-- Has a CD no path to a memory die (spec/19 R399)? -/
def State.cutOff (s : State) (cd md : Nat) : Bool := !s.reaches md true cd 8 && !s.reaches md false cd 8
/-- FAIL is raised where a CD has lost its last path to a memory die since `old` (spec/19 R399). -/
def State.pathEvents (s old : State) : State :=
  ((List.range 8).flatMap fun cd => (List.range 6).map fun md => (cd, md)).foldl (fun (s : State) (p : Nat × Nat) =>
    if s.cutOff p.1 p.2 && !old.cutOff p.1 p.2 then s.linkEvt (linkTo p.1 p.2) 2 else s) s
/-- Both ends of a link change their state or registers; paths may be lost by it. -/
def State.linkGo (s : State) (k : Nat) (f : Link → Link) : State :=
  (s.modEnds k fun l => { f l with since := l.clk }).pathEvents s
/-- The link enters FAILED, with the FAIL event at both ends; RETRAIN is cleared where a training has ended (spec/19 R399, R400,
R402). -/
def State.linkFail (s : State) (k : Nat) : State :=
  ((s.linkGo k fun l => { l with state := .failed, retrain := l.retrain && l.state != .train, fails := 0 }).linkEvt k 2).linkEvt (linkOther k) 2

/-- Setting PAUSE from 0 takes an ACTIVE link into DRAIN; setting RETRAIN goes there or into TRAIN; clearing PAUSE at
the last end brings a PAUSED link back to ACTIVE (spec/19 R400). `k` is the end written. -/
def State.linkCtl (s : State) (k v : Nat) : State :=
  let was := (s.link? k).state
  let s := s.modLink k fun l => { l with
    pause := v / 2 ^ 31 % 2 == 1, retrain := l.retrain || v / 2 ^ 30 % 2 == 1, twidth := v / 2 ^ 28 % 4 }
  let pause := v / 2 ^ 31 % 2 == 1
  let retrain := v / 2 ^ 30 % 2 == 1
  let other := s.link? (linkOther k)
  match was with
  | .active => if pause || retrain then s.linkGo k fun l => { l with state := .drain } else s
  | .paused =>
    if retrain then s.linkGo k fun l => { l with state := .train }
    else if !pause && !other.pause then s.linkGo k fun l => { l with state := .active } else s
  | .failed => if retrain then s.linkGo k fun l => { l with state := .train } else s
  | _ => s

/-- Write a register of an end (spec/19 R402). -/
def State.linkWrite (s : State) (k r v : Nat) : State :=
  if r = 0x08 then s.linkCtl k v
  else s.modLink k fun l =>
    if r = 0x10 then { l with remap := BitVec.ofNat 32 v &&& 0xBFBFBFBF }
    else if r = 0x18 then { l with retry := BitVec.ofNat 32 v }
    else if r = 0x20 then { l with thr := BitVec.ofNat 32 v }
    else if r = 0x28 then { l with derr := l.derr &&& ~~~ (BitVec.ofNat 64 v) }
    else if r = 0x30 then { l with serr := l.serr &&& ~~~ (BitVec.ofNat 4 v) }
    else if r = 0x38 then { l with evt := l.evt &&& ~~~ (BitVec.ofNat 3 v) }
    else l

/-- The end a service core's aperture address names on its own die, and the register offset. -/
def apEnd (c pa : Nat) : Nat × Nat :=
  let o := dieOfs pa - 0xFFFF000000
  (linkKey (svcSlot c) (o / 256), o % 256)

/-- Is an access of n bytes at an aperture address one to a listed register of its width (spec/19 R401)? -/
def apOk (c pa n : Nat) : Bool := isLinkEnd (apEnd c pa).1 && linkRegWidth (apEnd c pa).2 == some n

end Sys2Proof.Machine
end

