-- ==== Sys2Proof/Machine/Operands.lean ====
section
/-!
DEFINITION. Machine/Operands.lean: every operand form of the words: immediates (spec/04 R93, R96, R97), branch targets
and addresses (spec/02 R44), offsets of the MEM and SYNC words (spec/09 R186, R191; spec/10 R220), and the resolution
of a lane's access to a place in memory or a scratchpad (spec/09 R187).
-/

namespace Sys2Proof.Machine

/-- A 22-bit immediate, sign-extended (spec/04 R97). -/
def imm22s (i : BitVec 22) : Word := i.signExtend 32
/-- A 22-bit immediate, zero-extended (spec/04 R93). -/
def imm22u (i : BitVec 22) : Word := i.zeroExtend 32
/-- MOVI's immediate (spec/04 R96). -/
def imm30s (i : BitVec 30) : Word := i.signExtend 32

/-- A branch target: the word's address + 8 × the signed word offset (spec/02 R44). -/
def brTarget {w : Nat} (pc : DWord) (ofs : BitVec w) : DWord := pc + 8 * ofs.signExtend 64

/-- The fault of a transfer target: misaligned, or outside the 57-bit form (spec/03 R78). -/
def targetFault (tgt : DWord) : Option Flt :=
  if fld tgt 0 3 ≠ 0 then some ⟨.misalign, tgt, 0⟩
  else if !form57 tgt then some ⟨.access, tgt, 0⟩
  else none

/-- A GLOBAL address: base pair + signed byte offset (spec/02 R44). -/
def State.gAddr {w : Nat} (s : State) (t : Tid) (base : Reg) (ofs : BitVec w) : DWord :=
  s.rd64 t base + ofs.signExtend 64

/-- A scratchpad offset: base register + signed byte offset modulo 2^32 (spec/02 R44). -/
def State.sOfs {w : Nat} (s : State) (t : Tid) (base : Reg) (ofs : BitVec w) : Nat :=
  (s.rd t base + ofs.signExtend 32).toNat

/-- The byte offset of LDSF: ofs<15:1> with a zero bit below (spec/09 R191). -/
def ofs15 (o : BitVec 15) : BitVec 16 := o ++ (0 : BitVec 1)
/-- The byte offset of LDA and STL: ofs<15:3> with three zero bits below (spec/10 R220). -/
def ofs13 (o : BitVec 13) : BitVec 16 := o ++ (0 : BitVec 3)

/-- Resolve a lane's GLOBAL access (spec/09 R187). -/
def State.gAcc (s : State) (t : Tid) (va : DWord) (n : Nat) (p : Perm) (atomic : Bool) : Except Flt Acc :=
  let b := s.block t.blk
  match s.gAccess b.core b (s.thread t).level va n p atomic with
  | .error f => .error f
  | .ok pa => .ok { t := t, loc := .mem pa, va := va }

/-- Resolve a lane's LDG or STG, which on a service core may name a link register of the access's width; a store of a
value that breaks the register's rule faults (spec/19 R401, R402). -/
def State.gAccLink (s : State) (t : Tid) (va : DWord) (n : Nat) (p : Perm) (data : Option Nat) : Except Flt Acc :=
  let b := s.block t.blk
  match s.gAccessIn true b.core b (s.thread t).level va n p false with
  | .error f => .error f
  | .ok pa =>
    if isAperture pa && (!apOk b.core pa n || data.any (linkBadValue (apEnd b.core pa).2)) then .error ⟨.access, va, 0⟩
    else .ok { t := t, loc := .mem pa, va := va }

/-- Resolve a lane's scratchpad access (spec/09 R187). -/
def State.sAcc (s : State) (t : Tid) (q : Bool) (o n : Nat) : Except Flt Acc :=
  match s.spAccess (s.block t.blk) q o n with
  | .error f => .error f
  | .ok (c, off) => .ok { t := t, loc := .spad c off, va := BitVec.ofNat 64 o }

/-- Resolve a lane's access in any space (spec/10 R221). -/
def State.anyAcc (s : State) (t : Tid) (sp : Space) (base : Reg) (ofs : BitVec 16) (n : Nat) (p : Perm) :
    Except Flt Acc :=
  match sp with
  | .global => s.gAcc t (s.gAddr t base ofs) n p false
  | .spad => s.sAcc t false (s.sOfs t base ofs) n
  | .qspad => s.sAcc t true (s.sOfs t base ofs) n

/-- The source data of a store of n bytes: the low bytes of its registers (spec/09 R187). -/
def State.stData (s : State) (t : Tid) (d : Reg) (sz : Size) : Nat := s.rdN t d sz.regs % 2 ^ (8 * sz.bytes)

/-- The threads of a group kept in its core's TLB for the addresses they use (spec/18 R378). -/
def State.warm (s : State) (vas : List (Tid × DWord)) : State :=
  vas.foldl (fun s p => let b := s.block p.1.blk
    if form57 p.2 then s.keepTlb b.core b.ctx [va57 p.2] else s) s

/-- The rows of a list of threads: (block, row), without repeats. -/
def rowsOf (ts : List Tid) : List (Nat × Nat) :=
  (blksOf ts).flatMap fun b => (sortNat ((ts.filter (·.blk == b)).map Tid.row)).map fun r => (b, r)

end Sys2Proof.Machine
end

