-- ==== Sys2Proof/Machine/Flags.lean ====
section
/-!
DEFINITION. Machine/Flags.lean: the predicate computations the integer words share: compares (spec/04 R92), the
combining predicate, and PLOP's table (R94).
-/

namespace Sys2Proof.Machine

/-- Compare two 32-bit values as int32, or as uint32 (spec/04 R92). -/
def compareInt (a b : Word) (c : Cmp) (u : Bool) : Bool :=
  let x : Int := if u then a.toNat else a.toInt
  let y : Int := if u then b.toNat else b.toInt
  match c with
  | .eq => x == y | .ne => x != y | .lt => decide (x < y) | .le => decide (x ≤ y) | .gt => decide (y < x)
  | .ge => decide (y ≤ x)

/-- Combine a compare's result with another predicate (spec/04 R92). -/
def State.combine (s : State) (t : Tid) (r : Bool) : PComb → Bool
  | .none => r
  | .and q n => r && (s.rdP t q != n)
  | .or q n => r || (s.rdP t q != n)
  | .xor q n => r != (s.rdP t q != n)

/-- PLOP: the bit of the table that three predicates select, pa the highest (spec/04 R94). -/
def lutBit (lut : BitVec 8) (a b c : Bool) : Bool :=
  lut.getLsbD ((if a then 4 else 0) + (if b then 2 else 0) + (if c then 1 else 0))

end Sys2Proof.Machine
end

