-- ==== Sys2Proof/Machine/Conv.lean ====
section
/-!
DEFINITION. Machine/Conv.lean: convergence registers (spec/03 R71 to R73, R82): who is a member, the checks of a sign,
the sign, the fire; the layout of a matrix descriptor and command block (spec/13 R273, R275), which the fire and the
interlock of a sign need; and the latches (R281).
-/

namespace Sys2Proof.Machine

/-! ### Matrix descriptors -/

/-- Format slot fields of a command block (spec/13 R275): EX, FA, FB, KCH − 1, NSH. -/
def MReq.ex (r : MReq) : Bool := bitOf (r.cmd.getD 0 0) 29
/-- The format slot word of A. -/
def MReq.fa (r : MReq) : Word := r.fs.getD (fld (r.cmd.getD 0 0) 26 3) 0
/-- The format slot word of B. -/
def MReq.fb (r : MReq) : Word := r.fs.getD (fld (r.cmd.getD 0 0) 23 3) 0
/-- KCH, the passes of a request (spec/13 R275). -/
def MReq.kch (r : MReq) : Nat := fld (r.cmd.getD 0 0) 21 2 + 1
/-- N, the columns (spec/13 R275). -/
def MReq.n (r : MReq) : Nat := 64 * 2 ^ fld (r.cmd.getD 0 0) 19 2
/-- M, the rows (spec/13 R272). -/
def MReq.m (r : MReq) : Nat := 64 * r.rowIds.length
/-- Destination lines (spec/13 R280). -/
def MReq.nl (r : MReq) : Nat := r.m * r.n / (if r.ex then 32 else 64)
/-- The virtual address of the first destination line. -/
def MReq.d (r : MReq) : DWord := r.desc.getD 3 0 ++ r.desc.getD 2 0

/-- The element format of a slot word: bits [3:0] (spec/05 R115). -/
def slotFmt (w : Word) : Nat := fld w 0 4
/-- Elements a register holds (spec/13 R273): 2 for 16-bit formats, 4 for 8-bit, 5 for T6. -/
def perReg (f : Nat) : Nat := match f with
  | 1 | 2 => 2
  | 3 | 4 | 7 | 8 => 4
  | _ => 5
/-- K of a dense pass (spec/13 R273). -/
def kDense (f : Nat) : Nat := match f with
  | 1 | 2 => 16
  | 3 | 4 | 7 | 8 => 32
  | _ => 64
/-- Logical K of a pass (spec/13 R273). -/
def kLogical (f : Nat) (sparse : Bool) : Nat := if sparse then 2 * kDense f else kDense f
/-- Registers of a fragment: ceil(K_L × KCH / e) (spec/13 R273). -/
def fragRegs (f : Nat) (sparse : Bool) (kch : Nat) : Nat := (kLogical f sparse * kch + perReg f - 1) / perReg f
/-- Scale registers behind it, when A's slot has SCALE = 2 (spec/13 R273). -/
def scaleRegs (fa : Word) (sparse : Bool) (kch : Nat) : Nat :=
  if fld fa 4 2 = 2 then (kLogical (slotFmt fa) sparse * kch + 127) / 128 else 0

/-- Registers a sign reads: the fragment and its scales (spec/13 R422). -/
def spanRegs (fa : Word) (sparse : Bool) (kch : Nat) : Nat :=
  fragRegs (slotFmt fa) sparse kch + scaleRegs fa sparse kch

/-- The command block a descriptor names: eight words of the block's scratchpad window, none outside it (spec/13
R275). -/
def State.cmdBlock (s : State) (b : Block) (ofs : Nat) : Option (List Word) :=
  (spadLoc b ofs 32).map fun l => (List.range 8).map fun k => BitVec.ofNat 32 (s.spadRead l.1 (l.2 + 4 * k) 4)

/-- The command block a sign uses: the epoch's, once fixed, else the one its descriptor registers name (spec/13 R272). -/
def State.signCmd (s : State) (t : Tid) (n : Nat) (g0 : Word) : Option (List Word) :=
  let fixed := match ((s.block t.blk).cvs.getD n {}).op with
    | .mtx _ req => match (s.op? req) with
      | some { kind := .mtx r, .. } => some r.cmd
      | _ => none
    | _ => none
  fixed.orElse fun _ => s.cmdBlock (s.block t.blk) g0.toNat

/-- The registers of the span a sign reads, by code (spec/13 R422). -/
def State.spanCodes (s : State) (t : Tid) : Instr → List Nat
  | .mma _ a n j _ _ => go false a n.val j.val
  | .mmas _ a n j _ _ => go true a n.val j.val
  | _ => []
where
  go (sparse : Bool) (a : Reg) (n j : Nat) : List Nat :=
    match s.signCmd t n ((s.block t.blk).g.getD (4 * j) 0) with
    | none => []
    | some cmd =>
      let fa := (s.block t.blk).fs.getD (fld (cmd.getD 0 0) 26 3) 0
      (List.range (spanRegs fa sparse (fld (cmd.getD 0 0) 21 2 + 1))).map (a.code + ·)

/-! ### Members and fires -/

/-- A convergence register of a block. -/
def State.cv (s : State) (b n : Nat) : CvSt := (s.block b).cvs.getD n {}
/-- Change a convergence register. -/
def State.modCv (s : State) (b n : Nat) (f : CvSt → CvSt) : State :=
  s.modBlock b fun blk => { blk with cvs := blk.cvs.put n (f (blk.cvs.getD n {})) }
/-- The live members of a register, by thread index (spec/03 R71). -/
def State.liveMembers (s : State) (b n : Nat) : List Nat :=
  ((s.block b).threads.filter fun p => p.2.status == .live && (s.cv b n).members.getLsbD (p.1 / 64)).map (·.1)
/-- Has every live member signed, and some thread at all (spec/03 R72)? -/
def State.epochFull (s : State) (b n : Nat) : Bool :=
  !(s.cv b n).signed.isEmpty && (s.liveMembers b n).all (s.cv b n).signed.contains

/-- The requests in a quad's reservation table (spec/13 R270). -/
def State.inTable (s : State) (q : Nat) : List Op := s.ops.filter fun o => match o.kind with
  | .mtx r => r.entered && quadOf o.core == q
  | _ => false
/-- May what arrived as number k for the reservation table of a quad take an entry (spec/13 R270): is one left when the full epochs
and the signing words that wait and arrived before it have theirs? -/
def State.entryFor (s : State) (q k : Nat) : Bool :=
  let fires := s.ops.filter fun o => match o.kind with
    | .mtx r => quadOf o.core == q && !r.entered && r.full.any fun f => decide (f < k)
    | _ => false
  let words := (s.blocks.flatMap fun p => if p.2.bstate != .resident || quadOf p.2.core != q then [] else
    p.2.threads.filterMap fun t => if t.2.status == .live && t.2.susp.isNone then t.2.tabAt else none).filter fun f => decide (f < k)
  decide ((s.inTable q).length + fires.length + (words.foldl (fun l x => insNat x l) []).length < Config.tableEntries)
/-- The full epochs of a block's register that have not entered (spec/13 R270). -/
def State.fullReqs (s : State) (b n : Nat) : List MReq := s.ops.filterMap fun o => match o.kind with
  | .mtx r => if o.blk == b && r.cv == n && r.full.isSome && !r.entered then some r else none
  | _ => none
/-- Is a block's register between the last sign of an epoch and its fire (spec/13 R274)? -/
def State.firing (s : State) (b n : Nat) : Bool := (s.fullReqs b n).any fun r => decide (s.now (s.block b).core < r.ready)
/-- Does a sign of a thread wait: it has signed the epoch, or the epoch before has not entered (spec/03 R72, spec/13 R270)? -/
def State.signWaits (s : State) (t : Tid) (n : Nat) : Bool :=
  (s.cv t.blk n).signed.contains t.idx || ((s.cv t.blk n).members.getLsbD t.row && !(s.fullReqs t.blk n).isEmpty)

/-- The latch of a block's register. -/
def Block.latch? (b : Block) (n : Nat) : Option Latch := b.latches.find? (·.key == n)
/-- The latches held on a core, of every block (spec/13 R281). -/
def State.latchCount (s : State) (c : Nat) : Nat :=
  (s.blocks.filter fun p => p.2.core == c && (p.2.bstate == .resident || p.2.bstate == .preempting)).foldl (fun n p => n + p.2.latches.length) 0

/-- The request's A operand and latch at its fire (spec/13 R281). -/
def State.latchFire (s : State) (b : Nat) (r : MReq) : MReq × State :=
  let blk := s.block b
  let (r, held) : MReq × Bool := match blk.latch? r.cv with
    | some l =>
      ({ r with frag := l.frag
                fail := if l.rows = r.rowIds.length ∧ slotFmt l.fa = slotFmt r.fa ∧ l.sparse = r.sparse ∧ l.kch = r.kch
                  then r.fail else some (6, 0) }, true)
    | none => (r, false)
  if r.ru then
    if held then (r, s)
    else if Config.coreLatches ≤ s.latchCount blk.core then ({ r with fail := some (7, 0) }, s)
    else (r, s.modBlock b fun k => { k with latches := k.latches ++
      [{ key := r.cv, rows := r.rowIds.length, fa := r.fa, sparse := r.sparse, kch := r.kch, frag := r.frag }] })
  else (r, s.modBlock b fun k => { k with latches := k.latches.filter (·.key != r.cv) })

/-- The fire of a full matrix epoch is its entry into the table (spec/13 R274), not before its last sign has passed its fault point
(R285) nor before an entry is its own (R270): the format slots and g63 are read (R278), the latch acts (R281), the register's
own token operation completes. -/
def State.enter (s : State) (id : Nat) : Option State := match s.op? id with
  | none => none
  | some o => match o.kind with
    | .mtx r =>
      let b := s.block o.blk
      if r.entered || decide (s.now b.core < r.ready) || !(r.full.any fun k => s.entryFor (quadOf b.core) k) then none
      else
        let (r', s') := s.latchFire o.blk { r with fs := b.fs }
        let s' := s'.useOrder.modOp id fun o => { o with
          kind := .mtx { r' with entered := true, age := s.entryAge b.core, g63 := b.g.getD 63 0 }, clk := s.now b.core }
        some (match r.tokOp with
          | some i => s'.finish i
          | none => s')
    | _ => none

/-- A full epoch of a block's register ends (spec/03 R72): the register is ready for the next one. A plain one fires: its own token
operation completes. A matrix request arrives at the table as number `ord`, the next where none is given, and enters as
soon as it may. -/
def State.fireAs (ord : Option Nat) (s : State) (b n : Nat) : State :=
  if !s.epochFull b n then s
  else
    let cv := s.cv b n
    let s := s.modCv b n fun c => { c with signed := [], op := .none, tokOp := none }
    match cv.op with
    | .mtx _ req =>
      let s' := s.useOrder.modOp req fun o => { o with kind := match o.kind with
        | .mtx r => .mtx { r with full := some (ord.getD s.order), tokOp := cv.tokOp }
        | x => x }
      (s'.enter req).getD s'
    | _ => match cv.tokOp with
      | some id => s.finish id
      | none => s
/-- Fire the epoch of a block's register if it is full (spec/03 R72). -/
def State.fireFull (s : State) (b n : Nat) : State := s.fireAs none b n

/-- Threads of a block have exited or been killed: the epochs that are now full fire (spec/03 R72). -/
def State.leaveCvs (s : State) (b : Nat) : State := (List.range 16).foldl (fun s n => s.fireFull b n) s

/-- A pending CVSET that a SIGN acts on early lands now (spec/03 R82). -/
def Block.landCv (n : Nat) (b : Block) : Block :=
  { b with
    cvs := (b.cvpend.filter (·.1 == n)).foldl (fun c p => c.put n { c.getD n {} with
      members := p.2.1.members, tok := p.2.1.tok, op := .none }) b.cvs
    cvpend := b.cvpend.filter (·.1 != n) }

/-- May thread t not sign register n (spec/03 R73): unarmed, not a member, or another descriptor fixed? -/
def State.badSign (s : State) (t : Tid) (n : Nat) (same : CvOp → Bool) : Bool :=
  let cv := s.cv t.blk n
  cv.members == 0 || !cv.members.getLsbD t.row || !(cv.op == .none || same cv.op)

/-- Add signers of a block to the epoch; the first sign adds the register's own token operation (spec/03 R72). -/
def State.addSigns (s : State) (b n : Nat) (ts : List Tid) (op : CvOp) : State :=
  let cv := s.cv b n
  let mine := (ts.filter (·.blk == b)).map (·.idx)
  let s := match cv.signed.isEmpty, cv.tok with
    | true, some k =>
      let id := s.nextId
      let s := s.addOp { id := id, core := (s.block b).core, blk := b, kind := .epoch n,
                         tids := ts.filter (·.blk == b), clk := s.now (s.block b).core }
      let s := s.modBlock b fun blk => { blk with toks := blk.toks.put k.val { blk.tok k with ops := (blk.tok k).ops ++ [id] } }
      s.modCv b n fun c => { c with tokOp := some id }
    | _, _ => s
  s.modCv b n fun c => { c with signed := c.signed ++ mine, op := op }

end Sys2Proof.Machine
end

