-- ==== Sys2Proof/Machine/Issue.lean ====
section
/-!
DEFINITION. Machine/Issue.lean: how a word reaches `exec`: fetch (spec/02 R32, R33), decoding under the context of the
thread (R51, R52, R54; spec/18 R366), and the conditions under which it issues (R34 to R39; spec/10 R202; spec/03 R68 to
R70, R84).
-/

namespace Sys2Proof

open Sys2Proof.Machine

/-! ### Decoding under a context -/

/-- Is the core a service pair of a compute die? -/
def isCdPair (c : Nat) : Bool := 320 ≤ c && c < 328
/-- Is the core a service pair of a memory die? -/
def isMdPair (c : Nat) : Bool := 328 ≤ c && c < 334
/-- Is the core the service pair of an FMD? -/
def isFmdPair (c : Nat) : Bool := 332 ≤ c && c < 334

/-- The instance kinds of CSRs that a core reaches (spec/18 R366). -/
def Csr.reached (c : Nat) : Csr → Bool
  | .stvec | .sepc | .scause | .stval | .sstat | .sie | .sip | .clkcmp | .ftvec | .fepc | .fcause | .ftval | .fstat
  | .hbper | .leader | .leadslot => isSvc c
  | .coresel => isCdPair c
  | .copylim | .prelim | .strcfg | .cslimq | .cslimd => !isMdPair c
  | .qoscls _ => isMdPair c
  | .migsrc | .migdst | .migctl => isFmdPair c
  | _ => true

/-- The level a CSR requires (spec/18 R367). -/
def Csr.level : Csr → Level
  | .ftvec | .fepc | .fcause | .ftval | .fstat | .coresel | .qoscls _ | .migsrc | .migdst | .migctl | .hbper
  | .leadslot => .fw
  | _ => .sup

/-- The level MOVSW requires for a special register (spec/04 R98). -/
def SReg.wrLevel : SReg → Level
  | .mb _ => .sup
  | _ => .user

/-- The level an instruction requires (spec/02 R51). -/
def Instr.level : Instr → Level
  | .eret _ | .tlbinv .. | .wfi _ | .ctxsave .. | .ctxload .. | .pzero .. => .sup
  | .halt _ => .fw
  | .csrr _ _ c | .csrw _ c _ | .csrset _ _ c _ | .csrclr _ _ c _ => c.level
  | .movsw _ r _ => r.wrLevel
  | _ => .user

/-- Special registers that are reserved on a service core (spec/04 R98). -/
def SReg.svcReserved : SReg → Bool
  | .mb _ | .fs _ | .xlwin | .taglim | .faultst => true
  | _ => false

/-- Is the word reserved on this core though its fields are legal: an unreachable CSR, a special register a service
core lacks, ERET on a compute core (spec/18 R366, R375; spec/04 R98)? -/
def Instr.reservedOn (core : Nat) : Instr → Bool
  | .csrr _ _ c | .csrw _ c _ | .csrset _ _ c _ | .csrclr _ _ c _ => !c.reached core
  | .movs _ _ r | .movsw _ r _ => isSvc core && r.svcReserved
  | .eret _ => !isSvc core
  | _ => false

/-- Classes the service profile lacks (spec/02 R54): XLN, MTX, ACC, GFX. -/
def svcNoClass (cls : Nat) : Bool := cls == 4 || cls == 8 || cls == 9 || cls == 0xA
/-- Opcodes the service profile lacks (spec/02 R54): CPR, CPSTAGE, CPADV. -/
def svcNoOp (cls op : Nat) : Bool := cls == 7 && (op == 2 || op == 3 || op == 4)

/-- Decode a word for a thread at a level, on a core, under an allocation: the checks of spec/02 R52 in their order. -/
def decodeFor (core regs : Nat) (lv : Level) (w : DWord) : Except Reject Instr :=
  let cls := wordClass w.toNat
  if isSvc core && svcNoClass cls then .error .illegalClass
  else if isSvc core && svcNoOp cls (wordOp w.toNat) then .error .illegalOp
  else match parse w.toNat with
    | .error e => .error e
    | .ok i =>
      if i.reservedOn core then .error .illegalOp
      else if lv.num < (i.level).num then .error .priv
      else if i.opds.all (Opd.ok regs) then .ok i
      else .error .illegalReg

/-- The fault code of a rejected word (spec/02 R52). -/
def rejectCode : Reject → FCode
  | .illegalClass => .illegalClass | .illegalOp => .illegalOp | .illegalReg => .illegalReg | .priv => .priv

/-! ### What a word does to its neighbours -/

/-- Control transfers (spec/02 R33). -/
def Instr.isCtl : Instr → Bool
  | .bra .. | .brx .. | .call .. | .ret .. | .loop .. | .loopi .. | .brkl .. | .exit _ | .trap .. | .eret _ | .wfi _
  | .halt _ => true
  | _ => false

/-- Serialising words (spec/03 R84; spec/18 R375, R376, R380). -/
def Instr.isSerial : Instr → Bool
  | .start _ | .waitc .. | .tkw .. | .sleep .. | .wfi _ | .cpstage .. | .cpstageOff .. | .cpadv .. | .csrr .. | .csrw .. | .csrset .. | .csrclr .. | .tlbinv .. => true
  | _ => false

/-- Serialising words that become ready only when every earlier word has completed (spec/18 R376, R380). -/
def Instr.waitsDone : Instr → Bool
  | .csrr .. | .csrw .. | .csrset .. | .csrclr .. | .tlbinv .. => true
  | _ => false

/-- Words that raise no operand-value fault (spec/02 R35 and the entries). -/
def Instr.neverFaults : Instr → Bool
  | .nop _ | .yield _ | .start _ | .waitc .. | .exit _ | .sleep .. | .loop .. | .loopi .. | .brkl .. | .fence ..
  | .cpstageOff .. | .semrd .. | .pref .. | .mfq .. | .mqry .. | .mrel .. | .strq .. | .pwrh .. | .fill .. | .rmark .. | .wfi _
  | .rast .. => true
  | i => 1 ≤ i.cls && i.cls ≤ 4

/-- Access words (spec/10 R202). -/
def Instr.isAccess (i : Instr) : Bool :=
  match i with
  | .launch .. => true
  | _ => (5 ≤ i.cls && i.cls ≤ 0xA) || i.cls == 0xD

/-- Acquire words (spec/10 R202). -/
def Instr.isAcqWord : Instr → Bool
  | .lda .. | .fence .. | .bar .. | .barw .. | .semacq .. | .semtry .. | .ptake .. | .winacq .. | .tfence .. => true
  | .atom _ _ _ _ _ o _ _ | .atoms _ _ _ _ _ o _ _ _ => o == .acq || o == .ar
  | _ => false

/-- The counters a word raises (spec/03 R68). -/
def Instr.counter : Instr → Option Cnt
  | .lds .. | .ldsf .. | .tagr .. | .ldg .. | .ldu .. | .lda .. | .atom .. | .atoms .. | .accrd .. | .semtry ..
  | .rast .. | .trav .. | .sample .. | .pqry _ _ (.own _) => some .ld
  | .sts .. | .stse .. | .tags .. | .stg .. | .cmaint .. | .stl .. | .red .. | .semrel .. | .pzero .. | .pgive .. | .omrg .. | .ctxsave ..
  | .ctxload .. => some .st
  | .cpl .. | .cpt .. | .cpr .. | .cpremPut .. | .cpremPost .. | .cpfill .. | .launch .. | .ordt .. => some .cp
  | .mma .. | .mmas .. | .accz .. | .accadd .. | .accset .. | .accfl .. | .accout .. | .accpoi .. => some .mt
  | _ => none

/-- The token a word produces. -/
def Instr.tko? : Instr → Option Tok
  | .cpl _ _ _ k _ | .cpt _ _ _ k _ | .cpr _ _ _ k | .cpremPut _ _ _ k | .cpremPost _ _ _ k | .tkj _ k | .cpfill _ _ _ k _
  | .mma _ _ _ _ k _ | .mmas _ _ _ _ k _ | .accz _ _ _ k | .accadd _ _ _ k | .accset _ _ _ k _ | .accfl _ _ _ k
  | .accout _ _ _ k | .accpoi _ _ _ k | .trav _ _ _ k | .sample _ _ _ k | .ordt _ _ _ k _ | .ttask _ _ _ k
  | .tfence _ _ _ k | .omrg _ _ _ k | .launch _ _ _ k | .pgive _ _ _ k _ _ | .ptake _ _ _ k _ => some k.tko
  | .rast _ _ _ k _ => some k
  | .cvset _ _ _ o _ => o
  | _ => none

/-- The tokens a word consumes (spec/02 R45). -/
def Instr.toksIn : Instr → List Tok
  | .tkw _ k _ | .cpl _ _ _ k _ | .cpt _ _ _ k _ | .cpr _ _ _ k | .cpremPut _ _ _ k | .cpremPost _ _ _ k | .tkj _ k
  | .cpfill _ _ _ k _ | .mma _ _ _ _ k _ | .mmas _ _ _ _ k _ | .accz _ _ _ k | .accadd _ _ _ k | .accset _ _ _ k _
  | .accfl _ _ _ k | .accout _ _ _ k | .accpoi _ _ _ k | .trav _ _ _ k | .sample _ _ _ k | .ordt _ _ _ k _
  | .ttask _ _ _ k | .tfence _ _ _ k | .omrg _ _ _ k | .launch _ _ _ k | .pgive _ _ _ k _ _ | .ptake _ _ _ k _ => k.ins
  | _ => []

/-- The predicates a combining field reads. -/
def PComb.preds : PComb → List Pred
  | .none => []
  | .and q _ | .or q _ | .xor q _ => [q]

/-- The predicates a word reads beside its guard. -/
def Instr.predsRead : Instr → List Pred
  | .isetp _ _ _ _ _ _ q => q.preds
  | .fsetp _ _ _ _ _ q => q.preds
  | .plop _ _ a b c _ => [a, b, c]
  | .sel _ _ _ _ p _ => [p]
  | .pget _ _ => [0, 1, 2, 3, 4, 5, 6]
  | .xvote _ _ p _ _ | .xpred _ _ p _ _ | .xcmp _ _ _ _ p _ | .xexp _ _ _ _ p _ => [p]
  | _ => []

/-- The predicates a word writes (spec/02 R37; spec/11 R235, R237, R241). -/
def Instr.predsWritten : Instr → List Pred
  | .isetp _ p .. | .fsetp _ p .. | .isetpi _ p .. | .dropm _ p .. => [p]
  | .plop _ p .. => [p]
  | .xpred _ p .. => [p]
  | .bar _ p .. | .barw _ p .. | .semtry _ p .. => [p]
  | .pput _ _ m => ([0, 1, 2, 3, 4, 5, 6] : List Pred).filter fun p => m.getLsbD p.val
  | _ => []

/-- The codes of the registers of an operand. -/
def Opd.codes (o : Opd) : List Nat := match o.r with
  | .xz => []
  | r => (List.range o.n).map (r.code + ·)

/-- The registers and predicates a word reads at issue, by code (spec/02 R36). -/
def Instr.reads (i : Instr) : List Nat :=
  (i.opds.filter (·.rd)).flatMap Opd.codes ++ ((i.hdr?.map (·.guard)).toList ++ i.predsRead).map (256 + ·.val)

/-- The registers and predicates a word writes, by code. -/
def Instr.writes (i : Instr) : List Nat :=
  (i.opds.filter (·.wr)).flatMap Opd.codes ++ (i.predsWritten).map (256 + ·.val)

/-- Fixed-latency words with a destination: INT, VFP, SFU, XLN, and the queries of other classes (spec/04 R104, spec/06
R136, spec/07 R138, spec/08 R167, spec/13 R288, R289); BAR and BARW name no counter and no token (spec/02 R38). -/
def Instr.isFixed (i : Instr) : Bool :=
  match i with
  | .mfq .. | .mqry .. | .barn .. | .semrd .. | .bar .. | .barw .. | .cpadv .. | .strq .. | .pqry _ _ .dies => true
  | _ => 1 ≤ i.cls && i.cls ≤ 4

/-- Words that gather their row: XLN words and CSAMP (spec/07 R151, spec/08 R155). -/
def Instr.gathers (i : Instr) : Bool :=
  match i with
  | .csamp .. => true
  | _ => i.cls == 4

/-- Words that write scratchpad bytes and that TLU and a matrix sign wait for (spec/07 R147, spec/13 R272). -/
def Instr.storesPad : Instr → Bool
  | .sts .. | .stse .. | .atoms .. => true
  | .stl _ _ _ _ _ _ sp => sp != .global
  | _ => false

/-- TLU and the matrix signs read the scratchpad at issue. -/
def Instr.readsPad : Instr → Bool
  | .tlu .. | .mma .. | .mmas .. => true
  | _ => false

/-- Do two lists of codes meet? -/
def meet (a b : List Nat) : Bool := a.any b.contains

end Sys2Proof

namespace Sys2Proof.Machine

/-- Operations whose word is an acquire word (spec/10 R202). -/
def OpKind.isAcq : OpKind → Bool
  | .load _ _ _ (some _) | .semtry .. | .semacq .. | .barWait .. | .ptake .. | .winacq .. | .tfence .. => true
  | .barArr _ _ _ _ (some _) => true
  | .atom _ _ _ o _ _ => o == .acq || o == .ar
  | _ => false

/-- Decode a word for a thread. -/
def State.decodeWord (s : State) (t : Tid) (w : DWord) : Except Reject Instr :=
  decodeFor (s.block t.blk).core (s.block t.blk).regs (s.thread t).level w

/-! ### Fetch -/

/-- The word at an address for a thread: from its loop buffer, else translated like a load and read at its home, with the changes
the thread sees (spec/02 R32, R56; spec/03 R76). -/
def State.fetchWord (s : State) (t : Tid) (pc : DWord) : Except Flt DWord :=
  match Tab.find (s.thread t).lbuf pc.toNat with
  | some w => .ok w
  | none =>
    let b := s.block t.blk
    match s.gAccess b.core b (s.thread t).level pc 8 .x false with
    | .error f => .error f
    | .ok pa =>
      if s.homePoison (secOf pa) || s.cut b.core pa then .error ⟨.poison, pc, 0⟩
      else .ok (BitVec.ofNat 64 (ofBytes ((List.range 8).map fun i => s.codeByte (s.thread t).iseen (pa + i))))

/-- The body of the outermost active loop, by addresses (spec/03 R74, R76). -/
def Thread.body (th : Thread) : Option (Nat × Nat) :=
  (th.loops.find? (·.act)).map fun l => (l.st.toNat, l.en.toNat)

/-- Place of the next word to fetch: the first place of the window that waits for its word, else the place behind the
window. -/
def Thread.fetchIx (th : Thread) : Nat := (th.win.takeWhile fun e => e.issued || e.word.isSome).length

/-- The address of the next word to fetch. -/
def Thread.fetchPc (th : Thread) : DWord := th.pc + BitVec.ofNat 64 (8 * th.fetchIx)

/-- A thread with a fetched word in its window and, inside the outermost active body, kept in the loop buffer (spec/02
R33, spec/03 R76). -/
def Thread.take (pc w : DWord) (th : Thread) : Thread :=
  { th with
    win := if th.fetchIx < th.win.length then th.win.set th.fetchIx { word := some w } else th.win ++ [{ word := some w }]
    lbuf := match th.body with
      | some (a, b) => if a ≤ pc.toNat ∧ pc.toNat ≤ b then th.lbuf.put pc.toNat w else th.lbuf
      | none => th.lbuf }

/-- Is a word held in the window a control transfer, or no instruction (spec/02 R33, R52)? -/
def State.stopsFetch (s : State) (t : Tid) (pc w : DWord) : Bool :=
  (s.thread t).atLoopEnd pc || match s.decodeWord t w with
    | .ok i => i.isCtl
    | .error _ => true

/-- The unissued words of the window's first n places, with their addresses. -/
def Thread.held (th : Thread) (n : Nat) : List (DWord × Option DWord) :=
  ((th.win.take n).zipIdx.filter fun p => !p.1.issued).map fun p => (th.pc + BitVec.ofNat 64 (8 * p.2), p.1.word)

/-- May the thread's next word be fetched: the window has room, and no unissued control transfer is held before it
(spec/02 R33)? -/
def State.mayFetch (s : State) (t : Tid) : Bool :=
  let th := s.thread t
  th.fetchIx < 16 && (th.held th.fetchIx).all fun p => match p.2 with
    | some w => !s.stopsFetch t p.1 w
    | none => false

/-- Fetch a thread's next word, where one may be fetched and its fetch does not fault (spec/02 R33). -/
def State.fetchNext (s : State) (t : Tid) : State :=
  let th := s.thread t
  if !s.mayFetch t then s
  else match s.fetchWord t th.fetchPc with
    | .error _ => s
    | .ok w =>
      let b := s.block t.blk
      (s.keepTlb b.core b.ctx [va57 th.fetchPc]).modThread t (Thread.take th.fetchPc w)

/-- Fetch until the window reaches the word at `pc`. -/
def State.fetchTo (s : State) (t : Tid) (pc : DWord) : Nat → State
  | 0 => s
  | n + 1 => if (s.thread t).winIx pc < (s.thread t).fetchIx then s else (s.fetchNext t).fetchTo t pc n

/-! ### Issue -/

/-- Has the thread an operation of an acquire word in flight (spec/10 R202)? -/
def State.acqPending (s : State) (t : Tid) : Bool := s.ops.any fun o => o.kind.isAcq && o.tids.contains t

/-- Has every earlier word of the thread completed: no operation in flight, no write in flight (spec/18 R376)? -/
def State.allDone (s : State) (t : Tid) : Bool :=
  (s.thread t).pend.isEmpty && !s.ops.any fun o => o.tids.contains t

/-- What a word reads at its issue: its operands, and the span of a matrix sign (spec/02 R36, spec/13 R422). -/
def State.readsOf (s : State) (t : Tid) (i : Instr) : List Nat := i.reads ++ s.spanCodes t i

/-- Is word i held behind an earlier, unissued word e of the thread (spec/02 R33, R34, R37; spec/03 R70, R84; spec/10
R202)? -/
def State.heldBack (s : State) (t : Tid) (i e : Instr) : Bool :=
  i.cls == e.cls || i.isCtl || i.isSerial || e.isSerial || !e.neverFaults
    || ((i.cls == 5 || i.cls == 6) && (e.cls == 5 || e.cls == 6))
    || (i.isAccess && e.isAcqWord)
    || (i.readsPad && e.storesPad)
    || ((i.cls == 5 || i.cls == 6) && (match e with | .tlu .. => true | _ => false))
    || (match e.tko? with | some k => i.toksIn.contains k | none => false)
    || (e.isFixed && meet e.writes (s.readsOf t i ++ i.writes))
    || (i.isFixed && meet i.writes (s.readsOf t e))

/-- A write in flight of another queue that the word reads or writes (spec/02 R37); a matrix sign waits for a CVSET of its
register (spec/03 R82). -/
def State.interlocked (s : State) (t : Tid) (i : Instr) : Bool :=
  let b := s.block t.blk
  (((s.thread t).pend ++ b.gpend.filter (·.ths.contains t.idx)).any fun p =>
    s.now b.core < p.due && p.q != i.cls && (s.readsOf t i ++ i.writes).contains p.dst)
    || (match i with
      | .mma _ _ n .. | .mmas _ _ n .. => b.cvpend.any (·.1 == n.val)
      | _ => false)

/-- The clock before which a word's idle count keeps it (spec/02 R34, condition 2). -/
def Thread.idleAt (th : Thread) (cls n : Nat) : Nat := match Tab.find th.qlast cls with
  | some last => last + Nat.max 1 n
  | none => th.start + n

/-- Did the words that must issue before this one do so at earlier clocks: all of them before a control transfer or a
serialising word, MEM and SYNC words before one of these (spec/02 R33, R39; spec/03 R84; spec/10 R202; DEDUCED, log 48)? -/
def Thread.afterIssued (th : Thread) (now : Nat) (all ms : Bool) : Bool :=
  th.qlast.all fun p => decide (p.2 < now) || !(all || (ms && (p.1 == 5 || p.1 == 6)))

/-- The operations a sign of the word adds to a token: one each to its register's token and to tko where it is its epoch's first
(spec/03 R72, spec/13 R274). -/
def State.signAdds (s : State) (t : Tid) (n : Nat) (own : Option Tok) (k : Tok) : Nat :=
  let cv := s.cv t.blk n
  if cv.signed.isEmpty then (if cv.tok = some k then 1 else 0) + (if own = some k then 1 else 0) else 0

/-- The operations the word adds to each token it may add to, with the token, where it issues for the thread as an active lane
(spec/03 R69). CVSET adds none. -/
def State.tokAdds (s : State) (t : Tid) (i : Instr) : List (Tok × Nat) := match i with
  | .sign _ n => ((s.cv t.blk n.val).tok.toList).map fun k => (k, s.signAdds t n.val none k)
  | .mma _ _ n _ k _ | .mmas _ _ n _ k _ =>
    (k.tko :: ((s.cv t.blk n.val).tok.toList)).map fun x => (x, s.signAdds t n.val (some k.tko) x)
  | .cvset .. => []
  | _ => (i.tko?.toList).map fun k => (k, 1)

/-- May the thread's counter of the word rise, and its tokens take what the word adds (spec/03 R68, R69)? A thread that is no
active lane adds nothing; a later sign of an epoch raises mt of its own thread and adds to no token (spec/13 R274). -/
def State.roomFor (s : State) (t : Tid) (i : Instr) : Bool :=
  (match i.hdr? with | some h => !s.isActive h t | none => false)
    || ((match i.counter with | some c => decide ((s.thread t).cnt c < 63) | none => true)
      && (s.tokAdds t i).all fun p => p.2 == 0 || decide ((s.tokOps t.blk p.1).length + p.2 ≤ 63))

/-- Is the thread's unit stopped by a pre-emption past its deferral (spec/18 R382)? -/
def State.unitStopped (s : State) (b : Nat) : Bool := s.pkg.preempts.any fun p => 1 ≤ p.phase && p.unit.contains b

/-- Throttle value t of a quad suppresses issue on the last t of every 8 clocks (spec/16 R336). -/
def State.throttled (s : State) (c : Nat) : Bool :=
  !isSvc c && decide (8 ≤ (s.now c) % 8 + (s.quad (quadOf c)).thr)

/-- Does the core issue words at this clock: no string throttle or frequency change suppresses it (spec/16 R336, R340)? -/
def State.coreIssues (s : State) (c : Nat) : Bool := decide ((s.core c).suppress ≤ s.now c) && !s.throttled c

/-- Is a block on its core: neither saved nor complete (spec/01 R21, R27)? -/
def Block.onCore (b : Block) : Bool := b.bstate == .resident || b.bstate == .preempting

/-- Is a thread dispatched (in a stopped unit only one whose FENCE has begun its release: spec/10 R218): live, on its core, neither suspended nor waiting for an operation of its word, a rejection or room
for its record? Clocks that a throttle suppresses do not count against it. -/
def State.runs (s : State) (t : Tid) : Bool :=
  let b := s.block t.blk
  let th := s.thread t
  b.threads.any (·.1 == t.idx) && b.onCore && th.status == .live && th.susp.isNone && th.waitOp.isNone && th.rejected.isNone
    && (!s.unitStopped t.blk || th.fenceIds.isSome) && !s.fw.pkgSusp && (isSvc b.core || !s.pkg.suspended)
    && !(b.held.any fun h => h.2.contains t)
    && (!isSvc b.core || (let v := s.svc (svcSlot b.core); v.started && !v.halted && !v.inReset))

/-- The completed gather a thread is present in at a word (spec/08 R155). -/
def State.gatherOf (s : State) (t : Tid) (pc : DWord) : Option Gather :=
  (s.core (s.block t.blk).core).gathers.find? fun g => g.blk == t.blk && g.row == t.row && g.pc == pc &&
    match g.done with
    | some who => who.contains t.idx
    | none => false

/-- The gathers whose present threads issue in the group end (spec/08 R155, R156). -/
def State.ungather (s : State) : State :=
  s.modCore s.cur.core fun k => { k with gathers := k.gathers.filter fun g =>
    !(g.pc == s.cur.pc && match g.done with
      | some who => who.any fun i => s.cur.tids.contains ⟨g.blk, i⟩
      | none => false) }

/-- What a thread can do at a word now. -/
inductive Ready where
  /-- The word does not issue now. -/
  | wait
  /-- A trap its earlier words left is taken. -/
  | trap (tr : Trap)
  /-- The word faults at fetch or decode. -/
  | fault (f : Flt)
  /-- The word issues. -/
  | go (w : DWord) (i : Instr)
  deriving DecidableEq, Repr

/-- Is a decoded word eligible: conditions 1 to 4 of spec/02 R34 and the rules that hold it back (spec/03 R63)? -/
def State.eligible (s : State) (t : Tid) (pc : DWord) (i : Instr) : Bool :=
  let b := s.block t.blk
  let th := s.thread t
  let now := s.now b.core
  let n := (i.hdr?.map (·.idle.toNat)).getD 0
  let before := th.held (th.winIx pc)
  decide (th.idleAt i.cls n ≤ now) && decide (th.readyAt ≤ now) && decide (th.fpAt ≤ now)
    && before.all (fun p => match p.2.map (s.decodeWord t) with | some (.ok e) => !s.heldBack t i e | _ => false)
    && !((th.atLoopEnd pc || i.isCtl) && !before.isEmpty)
    && th.afterIssued now (th.atLoopEnd pc || i.isCtl || i.isSerial) (i.cls == 5 || i.cls == 6)
    && !s.interlocked t i
    && !(i.isAccess && (s.acqPending t || decide (now < th.accAt)))
    && !(i.waitsDone && !s.allDone t)
    && s.roomFor t i

/-! ### Placing one word where the machine fetches -/

/-- The address at which `withFetchWord` places its word. -/
def probePc : DWord := 0x1000
/-- The grid of the thread that runs a placed word on a compute core. -/
def probeGrid : Nat := 0x7FFFFFFF
/-- The service slot whose pair reaches the CSR a placed SYS word names. -/
def probeSlot (w : Nat) : Nat :=
  let csr := bitsAt w 0 12
  if 0x300 ≤ csr ∧ csr < 0x310 then 8 else if 0x310 ≤ csr ∧ csr < 0x320 then 12 else 0
/-- Words only a service pair runs: ERET, HALT, and the CSR words on service-core CSRs. -/
def probeOnSvc (w : Nat) : Bool :=
  wordClass w == 0xB && (wordOp w == 1 || wordOp w == 9 || (2 ≤ wordOp w && wordOp w ≤ 5))

/-- Put the bytes of a word at the home of a physical address of NMD0 and let a core translate its probe address to
it. -/
def State.plant (s : State) (c cid w : Nat) : State :=
  let s := { s with mem := { s.mem with
    l2 := (cellsAt probePc.toNat 8 w).foldl (fun (l : Tab CByte) (p : Host.Cell) => l.put p.1 { v := p.2, dirty := true }) s.mem.l2
    l2Poison := s.mem.l2Poison.filter (· != secOf probePc.toNat)
    devPoison := s.mem.devPoison.filter (· != secOf probePc.toNat) } }
  s.modCore c fun k => { k with
    clk := k.clk + 2048
    classAt := []
    tlb := { cid := cid, va := 0, size := 2 ^ 21, pa := 0, r := true, w := true, x := true, u := true } ::
      k.tlb.filter fun e => e.cid != cid
    gathers := { blk := probeGrid, row := 0, pc := probePc, since := k.clk, win := 256, done := some [0] } :: k.gathers }

/-- A thread about to run the placed word as its first. -/
def probeThread (ver : Nat) (lv : Level) : Thread := { pc := probePc, level := lv, iseen := ver }

/-- The state with a word placed where its next step fetches, and that step chosen (DESIGN CHOICE, log 2). -/
def State.probe (s : State) (w : Nat) : State :=
  if probeOnSvc w then
    let k := probeSlot w
    let s := s.plant (320 + k) 0xFFFF w
    let s := s.modSvc k fun v => { v with started := true, halted := false, inReset := false }
    let s := { s with blocks := s.blocks.put (svcHandle k) { svcBlock k with threads := [(0, probeThread s.mem.ver .fw)] } }
    { s with agenda := .issue { core := 320 + k, pc := probePc, tids := [⟨svcHandle k, 0⟩] } :: s.agenda }
  else
    let s := s.plant 0 0xFFFE w
    let s := { s with
      blocks := s.blocks.put probeGrid
        { core := 0, grid := probeGrid, blkid := 0, regs := 191, spadSize := 4096, cid := 0xFFFE,
          threads := [(0, probeThread s.mem.ver .sup)] }
      grids := s.grids.put probeGrid { lrec := { gridid := probeGrid, cid := 0xFFFE, sup := true }, status := .running } }
    { s with agenda := .issue { core := 0, pc := probePc, tids := [⟨probeGrid, 0⟩] } :: s.agenda }

end Sys2Proof.Machine
end

