-- ==== Sys2Proof/Machine/Ctrl.lean ====
section
/-!
DEFINITION. Machine/Ctrl.lean: the CTRL class (spec/03): branches of R78, loops of R80, convergence words of R82,
serialising words of R84, YIELD and NOP of R85, EXIT of R86.
-/

namespace Sys2Proof.Machine

/-- The CTRL queue (spec/02 R50). -/
def qCtrl : Nat := 0

/-- The issue group with only some of its threads: the others do not issue now. -/
def State.narrow (s : State) (ts : List Tid) : State := { s with cur := { s.cur with tids := ts } }

/-- Threads of the issue group that a condition holds back stay at the word; the rest go on as `go` says. -/
def State.waitFor (s : State) (ok : Tid → Bool) (go : State → Out State) : Out State :=
  let ready := s.cur.tids.filter ok
  let s := ((s.narrow (s.cur.tids.filter fun t => !ok t)).hold).narrow ready
  if ready.isEmpty then .next s else go s

/-- A serialising word has issued: later words issue from the next clock on (spec/03 R84). -/
def State.retireSerial (s : State) (q : Nat) : State :=
  (s.retire q).modThreads s.cur.tids fun th => { th with readyAt := Nat.max th.readyAt (s.clk + 1) }

/-- NOP (spec/03 R85). -/
def execNop (_ : Hdr) (s : State) : Out State := .next (s.retire qCtrl)

/-- Branch the active lanes to their targets, or fault where a target is illegal (spec/03 R78). -/
def State.branch (s : State) (h : Hdr) (tgt : Tid → DWord) (before : State → State) : State :=
  let ts := s.act h
  let fs := ts.filterMap fun t => (targetFault (tgt t)).map fun f => (t, f)
  if fs.isEmpty then ((before s).retireJump qCtrl (ts.map fun t => (t, tgt t))).useFree else s.raise fs

/-- BRA (spec/03 R78). -/
def execBra (h : Hdr) (ofs : BitVec 26) (s : State) : Out State :=
  .next (s.branch h (fun _ => brTarget s.cur.pc ofs) id)
/-- BRX (spec/03 R78). -/
def execBrx (h : Hdr) (a : Reg) (imm : BitVec 22) (s : State) : Out State :=
  .next (s.branch h (fun t => brTarget (s.rd64 t a) imm) id)
/-- The link pair x(2k), x(2k+1) takes PC + 8 two clocks after issue (spec/03 R78). -/
def State.link (s : State) (ts : List Tid) (k : Nat) : State :=
  ts.foldl (fun s' t =>
    let v := s.cur.pc + 8
    (s'.wrAt t (xReg (2 * k)) (BitVec.truncate 32 v) (s.clk + 2) qCtrl).wrAt t (xReg (2 * k + 1))
      (BitVec.truncate 32 (v >>> 32)) (s.clk + 2) qCtrl) s
/-- CALL (spec/03 R78). -/
def execCall (h : Hdr) (ofs : BitVec 26) (k : Fin 64) (s : State) : Out State :=
  .next (s.branch h (fun _ => brTarget s.cur.pc ofs) fun s' => s'.link (s.act h) k.val)
/-- RET (spec/03 R78). -/
def execRet (h : Hdr) (a : Reg) (s : State) : Out State := .next (s.branch h (fun t => s.rd64 t a) id)

/-- The loop levels after LOOP or LOOPI at level k starts n passes of a body of len words (spec/03 R80). -/
def startLoop (pc : DWord) (k len : Nat) (n : Word) (ls : List LoopLv) : List LoopLv :=
  let ls := ls.mapIdx fun j l => if k ≤ j then { l with act := false } else l
  let en : DWord := (ls.take k).foldl (fun e l => if l.act ∧ l.en < e then l.en else e) (pc + BitVec.ofNat 64 (8 * len))
  ls.set k { act := true, st := pc + 8, en := en, lc := n }

/-- A thread that starts a loop: the loop buffer follows the outermost active body (spec/03 R76, R80). -/
def Thread.loopStart (pc : DWord) (k len : Nat) (n : Word) (th : Thread) : Thread :=
  { th with loops := startLoop pc k len n th.loops
            lbuf := if (th.loops.take k).any (·.act) then th.lbuf else [] }

/-- LOOP and LOOPI: a lane with count 0 skips the body, another starts the loop; an inactive lane falls through
(spec/03 R80). -/
def State.loopWord (s : State) (h : Hdr) (k len : Nat) (cnt : Tid → Word) : State :=
  let ts := s.act h
  let skip := ts.filter fun t => cnt t == 0
  let go := ts.filter fun t => cnt t != 0
  let s' := go.foldl (fun s' t => s'.modThread t (Thread.loopStart s.cur.pc k len (cnt t))) s
  let fall := s.cur.tids.filter fun t => !skip.contains t
  let s' := ((s'.narrow fall).retireSerial qCtrl).narrow skip
  ((s'.retireJump qCtrl (skip.map fun t => (t, s.cur.pc + BitVec.ofNat 64 (8 * (len + 1))))).narrow s.cur.tids).useFree

/-- LOOP (spec/03 R80). -/
def execLoop (h : Hdr) (k : Fin 3) (a : Reg) (len : Fin 512) (s : State) : Out State :=
  .next (s.loopWord h k.val len.val fun t => s.rd t a)
/-- LOOPI (spec/03 R80). -/
def execLoopi (h : Hdr) (k : Fin 3) (count : BitVec 21) (len : Fin 512) (s : State) : Out State :=
  .next (s.loopWord h k.val len.val fun _ => count.zeroExtend 32)
/-- A thread whose levels k to 2 end (spec/03 R80). -/
def Thread.loopEnd (k : Nat) (th : Thread) : Thread :=
  Thread.trimBuf { th with loops := th.loops.mapIdx fun j l => if k ≤ j then { l with act := false } else l }
/-- BRKL (spec/03 R80). -/
def execBrkl (h : Hdr) (k : Fin 3) (ofs : BitVec 26) (s : State) : Out State :=
  let ts := s.act h
  .next ((s.modThreads ts (Thread.loopEnd k.val)).retireJump qCtrl (ts.map fun t => (t, brTarget s.cur.pc ofs)))

/-- YIELD: 64 issue opportunities at the lowest priority, from the next clock on; a YIELD while it is demoted starts the count
anew (spec/03 R85). -/
def execYield (h : Hdr) (s : State) : Out State :=
  .next ((s.retire qCtrl).modThreads (s.act h) fun th =>
    { th with yield := if 2 ≤ th.yield ∧ th.yield ≠ 66 then 67 else 66 })

/-- CVSET: each block with an active lane arms register n two clocks after issue, from its lowest active lane's mask
(spec/03 R82). -/
def execCvset (h : Hdr) (n : Fin 16) (a : Reg) (tok : Option Tok) (mask : BitVec 16) (s : State) : Out State :=
  let ts := s.act h
  let bad := ts.filter fun t => !(s.cv t.blk n.val).signed.isEmpty || s.firing t.blk n.val
  if !bad.isEmpty then .next (s.raise (bad.map fun t => (t, ⟨.cvMismatch, BitVec.ofNat 64 n.val, 0⟩)))
  else
    let s' := (blksOf ts).foldl (fun s' b => match lowLane ts b with
      | none => s'
      | some t =>
        let rows : BitVec 16 := BitVec.ofNat 16 (2 ^ (s.block b).nrow - 1)
        let m : BitVec 16 := (BitVec.truncate 16 (s.rd t a) ||| mask) &&& rows
        let s' := s'.modBlock b fun k => { k with cvpend := k.cvpend ++ [(n.val, { members := m, tok := tok }, s.clk + 2)] }
        match tok with
        | some k => s'.produce b k []
        | none => s') s
    .next ((s'.retireFp qCtrl 1).useFree)

/-- A SIGN that issues before a CVSET of its register takes effect acts on the old or on the new register: a free value
(spec/03 R82, DESIGN CHOICE, log 16). -/
def State.settleCv (s : State) (b n : Nat) : State :=
  if (s.block b).cvpend.any (·.1 == n) && Config.uncovered s.free (512 + n) b s.clk then s.modBlock b (Block.landCv n) else s

/-- SIGN (spec/03 R72, R73, R82). A thread that has signed the epoch waits for its
fire, whatever the epoch's descriptor. -/
def execSign (h : Hdr) (n : Fin 16) (s : State) : Out State :=
  let s := ((blksOf (s.act h)).foldl (fun s b => s.settleCv b n.val) s).useFree
  s.waitFor (fun t => !(s.isActive h t) || !s.signWaits t n.val) fun s =>
    let ts := s.act h
    let bad := ts.filter fun t => s.badSign t n.val (· == .plain)
    if !bad.isEmpty then .next (s.raise (bad.map fun t => (t, ⟨.cvMismatch, BitVec.ofNat 64 n.val, 0⟩)))
    else .next ((((blksOf ts).foldl (fun s b => (s.addSigns b n.val ts .plain).fireFull b n.val) s).retireFp qCtrl 1).useFree)

/-- START: the common cycle of every queue of an active thread is the next clock (spec/02 R39, spec/03 R84). -/
def execStart (h : Hdr) (s : State) : Out State :=
  .next ((s.retireSerial qCtrl).modThreads (s.act h) fun th => { th with qlast := [], start := s.clk + 1 })

/-- WAITC: each thread waits until its counters are at or below the limits (spec/03 R84). -/
def execWaitc (h : Hdr) (ld st cp mt : Fin 64) (s : State) : Out State :=
  s.waitFor (fun t => !(s.isActive h t) || (let th := s.thread t
    th.ld ≤ ld.val && th.st ≤ st.val && th.cp ≤ cp.val && th.mt ≤ mt.val)) fun s => .next (s.retireSerial qCtrl)

/-- The faults of consumed tokens that were never produced: the first such token of each active lane (spec/03 R70). -/
def State.staleOf (s : State) (t : Tid) (ks : List Tok) : Option Flt :=
  (ks.find? fun k => !((s.block t.blk).tok k).prod).map fun k => ⟨.tokenStale, BitVec.ofNat 64 k.val, 0⟩

/-- What a TKW keeps of the clock at which it becomes the oldest word: its tokens' operations, and a token that was never
produced (spec/03 R70, R84). -/
def State.tkSnapOf (s : State) (t : Tid) (ks : List Tok) : List (Nat × List Nat) :=
  match ks.find? fun k => !((s.block t.blk).tok k).prod with
  | some k => [(3, [k.val])]
  | none => ks.map fun k => (0, s.tokOps t.blk k)
/-- The operations a TKW still waits for, token by token (spec/03 R84). -/
def State.tkSets (s : State) (t : Tid) (ks : List Tok) : List (List Nat) :=
  let th := s.thread t
  (if th.tkSnap.isEmpty then s.tkSnapOf t ks else th.tkSnap).map fun p => p.2.filter s.pending
/-- The TOKEN_STALE a TKW takes, of that clock (spec/03 R70, R84). -/
def State.staleAt (s : State) (t : Tid) (ks : List Tok) : Option Flt :=
  let th := s.thread t
  ((if th.tkSnap.isEmpty then s.tkSnapOf t ks else th.tkSnap).find? fun p => p.1 == 3).map fun p =>
    ⟨.tokenStale, BitVec.ofNat 64 (p.2.headD 0), 0⟩
/-- Does TKW's condition hold (spec/03 R84)? -/
def tkwDone (any : Bool) (sets : List (List Nat)) : Bool :=
  sets.isEmpty || (if any then sets.any List.isEmpty else sets.all List.isEmpty)

/-- TKW: TOKEN_STALE is decided when it becomes the oldest word (spec/03 R70, R84). -/
def execTkw (h : Hdr) (k : Toks) (any : Bool) (s : State) : Out State :=
  let bad := (s.act h).filterMap fun t => (s.staleAt t k.ins).map fun f => (t, f)
  if !bad.isEmpty then .next (s.raise bad)
  else
    let s := (s.act h).foldl (fun s' t => s'.modThread t fun th =>
      { th with tkSnap := if th.tkSnap.isEmpty then s.tkSnapOf t k.ins else th.tkSnap }) s
    s.waitFor (fun t => !(s.isActive h t) || tkwDone any (s.tkSets t k.ins)) fun s => .next (s.retireSerial qCtrl)

/-- Has a sleep of D clocks ended, or with .MB a mailbox been written since it began (spec/03 R84)? -/
def State.slept (s : State) (t : Tid) (c d : Nat) (mb : Bool) : Bool :=
  let since := ((s.thread t).since).getD ((s.thread t).oldestAt (s.now c))
  decide (since + d ≤ s.now c) || (mb && match (s.core c).mbAt with
    | some w => decide (since ≤ w) && decide (w < s.now c)
    | none => false)
/-- D of a SLEEP (spec/03 R84). -/
def sleepFor (v : Word) (clocks : BitVec 21) : Nat := Nat.min (2 ^ 32 - 1) (v.toNat + clocks.toNat)
/-- SLEEP (spec/03 R84). -/
def execSleep (h : Hdr) (a : Reg) (mb : Bool) (clocks : BitVec 21) (s : State) : Out State :=
  s.waitFor (fun t => !(s.isActive h t)
      || s.slept t s.cur.core (sleepFor (s.rd t a) clocks) mb) fun s =>
    .next (s.retireSerial qCtrl)

/-- A thread that has exited: it dispatches nothing further (spec/03 R86). -/
def Thread.leave (st : TStatus) (th : Thread) : Thread :=
  { th with status := st, win := [], lbuf := [], loops := th.loops.map fun l => { l with act := false }
            susp := none, trap := none, since := none, tkSnap := [], waitOp := none, tabAt := none }
/-- A word issued earlier raises a fault of its thread: the thread takes it before its next word; once the thread has exited a record
is queued (spec/03 R86, spec/09 R180, spec/18 R373). -/
def State.lateTrap (s : State) (t : Tid) (tr : Trap) : State :=
  if (s.thread t).status == .live then s.modThread t fun th => { th with trap := th.trap.orElse fun _ => some tr }
  else
    s.impRec t.blk { id := 0, code := tr.code, slot := s.slot t, lane := t.lane, pc := tr.pc, val := tr.val, lmask := laneMask [t],
                     row := t.row }
/-- A thread that has ended leaves nothing to be taken: faults of its TLU words still in flight are queued, and what is
left of its barrier words ends with it, since it counts as arrived (spec/03 R86) or has been killed. -/
def State.dropLate (s : State) (t : Tid) : State :=
  let s' := (s.thread t).later.foldl (fun s' p => s'.lateTrap t p.2) s
  { s'.modThread t fun th => { th with later := [] } with ops := s'.ops.filter fun o => match o.kind with
    | .barArr u .. | .barWait u .. => u != t
    | _ => true }
/-- EXIT: the active threads end; full epochs fire; inactive lanes go on (spec/03 R86). -/
def execExit (h : Hdr) (s : State) : Out State :=
  let ts := s.act h
  let s' := s.modThreads ts (Thread.leave .exited)
  let s' := ts.foldl State.dropLate s'
  let s' := (blksOf ts).foldl (fun s' b => (s'.leaveCvs b).settleBars b) s'
  .next (((s'.narrow (s.cur.tids.filter fun t => !ts.contains t)).retireJump qCtrl []).narrow s.cur.tids)

end Sys2Proof.Machine
end

