-- ==== Sys2Proof/Machine/Mem.lean ====
section
/-!
DEFINITION. Machine/Mem.lean: the MEM class (spec/09 R186 to R200). A word checks its lanes, puts its accesses in
flight and issues; the events of EvMem perform them. Here also: the row store queues and the forwarding from them
(spec/10 R203), the performing of loads, plain stores, tag steps and CMAINT.
-/

namespace Sys2Proof.Machine

/-- The MEM queue (spec/02 R50). -/
def qMem : Nat := 5

/-! ### Locations -/

/-- A space number (0 memory, core + 1) and an offset in it. -/
def Loc.key : Loc → Nat × Nat
  | .mem p => (0, p)
  | .spad c o => (c + 1, o)
/-- Do n bytes at one place and m at another meet? -/
def Loc.meets (a : Loc) (n : Nat) (b : Loc) (m : Nat) : Bool :=
  a.key.1 == b.key.1 && decide (a.key.2 < b.key.2 + m) && decide (b.key.2 < a.key.2 + n)
/-- The sector of a place, by the place of its first byte. -/
def Loc.sector : Loc → Loc
  | .mem p => .mem (p / 64 * 64)
  | .spad c o => .spad c (o / 64 * 64)
/-- Is the place a link register (spec/19 R401)? -/
def Loc.isLink : Loc → Bool
  | .mem p => isAperture p
  | .spad .. => false
/-- The sector number of a memory place. -/
def Loc.memSec? : Loc → Option Nat
  | .mem p => some (secOf p)
  | .spad .. => none
/-- A list without repeats, in order. -/
def dedup {α : Type} [BEq α] (l : List α) : List α := l.foldl (fun a x => if a.contains x then a else a ++ [x]) []

/-! ### The row store queues (spec/10 R203) -/

/-- Operations that enter the row's store queue (spec/09 R187, R192, R195, R198; spec/11 R228, R243). -/
def OpKind.isStore : OpKind → Bool
  | .store .. | .stse .. | .tags .. | .cmaint .. | .red .. | .semrel .. => true
  | _ => false
/-- Is the operation still in the queue? A store leaves it once its release actions are done, a tag step when it
arrives at the scratchpad, CMAINT once its caches are processed. -/
def Op.queued (o : Op) : Bool := o.kind.isStore && (match o.kind with
  | .store .. => o.stage < 2
  | .stse .. | .cmaint .. => o.stage = 0
  | _ => true)
/-- Accesses a FENCE of their thread waits for (spec/10 R217). -/
def OpKind.fenced : OpKind → Bool
  | .load .. | .loadU .. | .tagr .. | .atom .. | .ldsf .. | .semtry .. => true
  | k => k.isStore

/-- The cores within a scope of a core (spec/00 R7; spec/10 R215 on a service core). -/
def inScope (c : Nat) (sc : Scope) (x : Nat) : Bool :=
  if 3 ≤ Scope.num sc then true
  else if isSvc c || Scope.num sc = 0 then x == c
  else if Scope.num sc = 1 then !isSvc x && quadOf x == quadOf c
  else (!isSvc x && dieOf x == dieOf c) || x == 320 + dieOf c

/-- Operations that reach memory by places translated before they began (spec/18 R380). -/
def OpKind.placed : OpKind → Bool
  | .load .. | .loadU .. | .store .. | .cmaint .. | .atom .. | .red .. | .cpr .. | .accadd .. | .accz .. | .accset ..
  | .accfl .. | .accpoi .. | .accout .. | .accrd .. | .pqry .. | .launch .. | .ttask .. => true
  | .mtx r => 0 < r.passes
  | _ => false
/-- The operations of a scope that use translations now. -/
def State.placedOps (s : State) (c : Nat) (sc : Scope) : List Nat :=
  (s.ops.filter fun o => inScope c sc o.core && o.kind.placed && s.startable o).map (·.id)
/-- The operations before one, in the order they began. -/
def State.opsBefore (s : State) (id : Nat) : List Op := s.ops.takeWhile (·.id != id)
/-- Is the operation at the head of its row's store queue? -/
def State.isHead (s : State) (o : Op) : Bool :=
  !(s.opsBefore o.id).any fun p => p.blk == o.blk && p.row == o.row && p.queued
/-- Are the thread's stores before an operation out of the queue? -/
def State.storesOut (s : State) (t : Tid) (id : Nat) : Bool :=
  !(s.opsBefore id).any fun p => p.queued && p.tids.contains t
/-- Has every access of the threads that began before an operation completed (spec/10 R217)? -/
def State.earlierDone (s : State) (ts : List Tid) (id : Nat) : Bool :=
  !(s.opsBefore id).any fun p => p.kind.fenced && ts.any p.tids.contains
/-- Has every access of a thread completed? -/
def State.fencedDone (s : State) (t : Tid) : Bool := !s.ops.any fun p => p.kind.fenced && p.tids.contains t

/-! ### Performing loads -/

/-- Read n bytes of a place by a core: value, poison, state after fills. -/
def State.readLoc (s : State) (c : Nat) (l : Loc) (n : Nat) : Nat × Bool × State :=
  match l with
  | .mem pa =>
    if isAperture pa then ((s.link? (apEnd c pa).1).read (apEnd c pa).2, false, s)
    else
      let (v, p, s') := s.readG c pa n
      (v, p || s.planeOff pa, s')
  | .spad k off => (s.spadRead k off n, s.spadPoison k off n, s)

/-- A byte forwarded to a load from the thread's own queued stores, the latest first (spec/10 R203). -/
def fwdByte (own : List (Acc × Nat)) (l : Loc) (i : Nat) : Option Byte :=
  (own.reverse.find? fun p => p.1.loc.key.1 == l.key.1 && decide (p.1.loc.key.2 ≤ l.key.2 + i)
      && decide (l.key.2 + i < p.1.loc.key.2 + p.2)).map fun p =>
    BitVec.ofNat 8 (p.1.data / 2 ^ (8 * (l.key.2 + i - p.1.loc.key.2)))

/-- The thread's own stores before an operation that are still queued, with their sizes. -/
def State.ownStores (s : State) (t : Tid) (id : Nat) : List (Acc × Nat) :=
  (s.opsBefore id).flatMap fun o => match o.kind with
    | .store accs n _ _ => if o.queued then (accs.filter (·.t == t)).map fun a => (a, n) else []
    | _ => []

/-- Is the load held by an earlier read-modify-write of its thread that is not performed (spec/11 R228), tag changes
among them (spec/10 R212)? -/
def State.rmwBefore (s : State) (a : Acc) (n id : Nat) : Bool :=
  (s.opsBefore id).any fun o => match o.kind with
    | .red accs m _ _ => accs.any fun b => b.t == a.t && b.loc.meets m a.loc n
    | .atom accs .. => o.stage < 2 && accs.any (·.t == a.t)
    | .tags t .. => t == a.t
    | _ => false

/-- The access and size of a load in flight. -/
def OpKind.loadAcc : OpKind → Option (Acc × Nat)
  | .load a n _ _ => some (a, n)
  | .loadU a n _ => some (a, n)
  | _ => none
/-- A load with its performed access. -/
def OpKind.withAcc (a : Acc) : OpKind → OpKind
  | .load _ n d q => .load a n d q
  | .loadU _ n d => .loadU a n d
  | .tagr _ d => .tagr a d
  | k => k

/-- PERFORM A LOAD: take its value where it stands in core order; none while an earlier access holds it (spec/10
R203). -/
def State.perform (s : State) (o : Op) : Option State :=
  if o.stage ≠ 0 then some s
  else match o.kind with
    | .tagr a _ => match a.loc with
      | .spad c off =>
        if s.rmwBefore a 4 o.id then none else
        let v := ofBytes ((List.range 4).map fun k => BitVec.ofNat 8 ((List.range 8).foldl (fun x j =>
          if s.tag c (off / 4 + 8 * k + j) then x + 2 ^ j else x) 0))
        some (s.modOp o.id fun p => { p with stage := 1, kind := p.kind.withAcc { a with data := v } })
      | .mem _ => none
    | k => match k.loadAcc with
      | none => none
      | some (a, n) =>
        if s.rmwBefore a n o.id || (a.loc.isLink && !s.storesOut a.t o.id) then none
        else
          let own := s.ownStores a.t o.id
          let fw := (List.range n).map (fwdByte own a.loc)
          let whole := fw.all Option.isSome
          let (v, p, s') : Nat × Bool × State := if whole then (0, false, s) else s.readLoc o.core a.loc n
          let bytes := (bytesOf n v).zip fw |>.map fun q => q.2.getD q.1
          some (s'.modOp o.id fun q => { q with stage := 1, kind := k.withAcc { a with data := ofBytes bytes, bad := p } })

/-- Perform every load of the threads that began before an operation; none while one is held. -/
def State.performBefore (s : State) (ts : List Tid) (id : Nat) : Option State :=
  (s.opsBefore id).foldl (fun r o => r.bind fun s =>
    if ts.any o.tids.contains then match o.kind with
      | .load .. | .loadU .. | .tagr .. => s.perform o
      | .atom .. => if o.stage < 2 then none else some s
      | _ => some s
    else some s) (some s)

/-- A load consumed poison: its thread takes POISON before its next word, or, when it has ended, a record is queued
(spec/09 R180, spec/18 R373). -/
def State.consume (s : State) (t : Tid) (pc va : DWord) : State :=
  s.lateTrap t { code := FCode.poison.num, pc := pc, val := va }

/-! ### Plain stores -/

/-- The element each written place takes: where lanes name one place, one of them supplies it, a free choice (spec/09
R179, DESIGN CHOICE, log 17). -/
def pickAccs (free : Nat) (accs : List Acc) : List Acc :=
  (dedup (accs.map (·.loc))).filterMap fun l =>
    let mine := accs.filter (·.loc == l)
    mine[Config.pick free l.key.2 % mine.length]?

/-- The memory cells accesses of n bytes write. -/
def memCells (accs : List Acc) (n : Nat) : List Host.Cell :=
  accs.flatMap fun a => match a.loc with
    | .mem pa => if isAperture pa then [] else cellsAt pa n a.data
    | .spad .. => []
/-- The cells they write in one core's scratchpad. -/
def spadCells (c : Nat) (accs : List Acc) (n : Nat) : List Host.Cell :=
  accs.flatMap fun a => match a.loc with
    | .spad k off => if k = c then cellsAt off n a.data else []
    | .mem _ => []
/-- The cores whose scratchpads they write. -/
def spadCores (accs : List Acc) : List Nat :=
  sortNat (accs.filterMap fun a => match a.loc with
    | .spad k _ => some k
    | .mem _ => none)

/-- Perform a plain store of a core: scratchpad bytes in the target, GLOBAL bytes in the L1, link registers in their
module; a home whose plane is off discards them (spec/09 R181, R187; spec/19 R401). -/
def State.putAccs (s : State) (c : Nat) (accs : List Acc) (n : Nat) (whole : List Loc) : State :=
  let cells := memCells accs n
  let off := cells.filter fun x => s.planeOff x.1
  let s := s.homePut off
  let s := s.l1Put c (cells.filter fun x => !s.planeOff x.1) (whole.filterMap Loc.memSec?)
  let s := (spadCores accs).foldl (fun s k => s.spadPut k (spadCells k accs n) []
    (whole.filterMap fun l => match l with
      | .spad k' o => if k' = k then some (o / 64) else none
      | .mem _ => none)) s
  accs.foldl (fun s a => match a.loc with
    | .mem pa => if isAperture pa then s.linkWrite (apEnd c pa).1 (apEnd c pa).2 a.data else s
    | .spad .. => s) s

/-- Write the performed bytes of a release through past the L1 (spec/10 R420): the number of the forwarded write. -/
def State.putThrough (s : State) (c : Nat) (cells : List Host.Cell) : Option Nat × State :=
  let mine := cells.filter fun x => !s.atHome x.1 && !s.planeOff x.1
  let k := s.core c
  let secs := sortNat (mine.map fun x => secOf x.1)
  let (id, s) := s.writeThrough c mine (secs.filter k.l1poison.contains) []
  (id, s.modCore c fun k => { k with l1 := mine.foldl (fun l x => l.upd (fun b => { b with dirty := false }) x.1) k.l1 })

/-- The other rows of a store's word that are still to be performed (spec/09 R180). -/
def State.mates (s : State) (o : Op) : Bool := s.ops.any fun p =>
  p.id != o.id && p.core == o.core && p.pc == o.pc && p.clk == o.clk && p.queued
    && (match p.kind with | .store .. => true | _ => false)

/-- STORE_PERFORMED for STG, STS, STL (spec/09 R187, spec/10 R221): a plain store is performed at the head of its queue;
an STL first releases, then, once the release's forwarded writes are acknowledged, writes, through past the L1 at .QUAD
or wider, and at .PKG or wider completes when its own write is acknowledged. -/
def State.performStore (s : State) (o : Op) (accs : List Acc) (n : Nat) (rel : Option Scope) (full : List Loc) :
    Option State :=
  let write (s : State) : List Host.Cell × State :=
    let picked := pickAccs s.free accs
    (memCells picked n, (s.putAccs o.core picked n (if s.mates o then [] else full)).useFree)
  match rel with
  | none => if s.isHead o then (s.performBefore o.tids o.id).map fun s => (write s).2.finish o.id else none
  | some sc =>
    match o.stage with
    | 0 =>
      if s.isHead o && s.earlierDone o.tids o.id then
        let s := s.release o.core sc
        some (s.modOp o.id fun p => { p with stage := 1, after := s.relWaits o.core sc })
      else none
    | 1 =>
      if !s.acked o.core o.after then none
      else
        let (cells, s) := write s
        if !throughAt o.core sc then some (s.finish o.id)
        else
          let (id, s) := s.putThrough o.core cells
          if 3 ≤ Scope.num sc then
            some (s.modOp o.id fun p => { p with stage := 2, after := id.toList })
          else some (s.finish o.id)
    | _ => if s.acked o.core o.after then some (s.finish o.id) else none

/-! ### Tag steps (spec/09 R192 to R195, spec/10 R212) -/

/-- The scope of a tag step: .QUAD where the block was placed in a quad group (spec/10 R212). -/
def Block.tagScope (b : Block) : Scope := if b.qgid.isSome then .quad else .core

/-- The words of a tag step: target core, first word, count. -/
def OpKind.tagWords : OpKind → Option (Nat × Nat × Nat)
  | .ldsf a n _ _ => go a n
  | .stse a n => go a n
  | _ => none
where
  go (a : Acc) (n : Nat) : Option (Nat × Nat × Nat) := match a.loc with
    | .spad c off => some (c, off / 4, n / 4)
    | .mem _ => none
/-- Do two tag steps name a common word? -/
def OpKind.tagMeets (k l : OpKind) : Bool := match k.tagWords, l.tagWords with
  | some (c, w, n), some (c', w', n') => c == c' && decide (w < w' + n') && decide (w' < w + n)
  | _, _ => false

/-- Does a step's condition hold: every word full for LDSF, empty for STSE (spec/09 R192)? -/
def State.tagsReady (s : State) (k : OpKind) : Bool :=
  match k.tagWords with
  | none => false
  | some (c, w, n) => (List.range n).all fun i => s.tag c (w + i) == (match k with | .stse .. => false | _ => true)

/-- Has the wait of an arrived step lasted longer than the TAGLIM in force when it began (spec/04 R102, spec/09 R194)? -/
def State.tagExpired (s : State) (o : Op) : Bool := o.lim != 0 && decide (o.pageAt + o.lim < s.now o.core)

/-- The place of a waiting step in the order of service: a KEEP first, then by the beginning of the wait, QPOS, lane,
slot (spec/09 R193). -/
def State.tagRank (s : State) (o : Op) : Nat :=
  let t := (o.tids.head?).getD ⟨0, 0⟩
  let keep := match o.kind with | .ldsf _ _ _ true => 0 | _ => 1
  (((keep * 2 ^ 64 + (if s.capturing then s.capRank o else o.pageAt)) * 4 + qposOf o.core) * 64 + t.lane) * 64 + s.slot t

/-- May a step be served now: it has arrived, its limit has not passed, its condition holds, and no lower lane of its own group that
names one of its words is still to arrive (spec/09 R192, R194)? -/
def State.tagServable (s : State) (o : Op) : Bool :=
  o.stage == 1 && !s.tagExpired o && s.tagsReady o.kind
    && !(s.opsBefore o.id).any fun p => p.core == o.core && p.pc == o.pc && p.clk == o.clk && p.stage == 0 && p.kind.tagMeets o.kind

/-- The step that is served next among those that may be (spec/09 R193). -/
def State.nextServed (s : State) : Option Op :=
  (s.ops.filter fun o => o.kind.tagWords.isSome && s.tagServable o).foldl (fun b o => match b with
    | none => some o
    | some p => if s.tagRank o < s.tagRank p then some o else some p) none

/-- The blocked word of an operation issues for its threads at last. -/
def State.unblock (s : State) (o : Op) (q : Nat) : State :=
  s.modThreads o.tids fun th => Thread.retire o.pc q o.clk 0 { th with waitOp := none }

/-- One step on tags (spec/09 R192): the whole of it, between a release and an acquire of its scope (spec/10 R212). -/
def State.tagDo (s : State) (o : Op) : State :=
  match o.kind.tagWords with
  | none => s
  | some (c, w, n) =>
    let sc := (s.block o.blk).tagScope
    let s := s.release o.core sc
    let set (v : Bool) (s : State) : State := (List.range n).foldl (fun s i => s.setTag c (w + i) v) s
    let s := match o.kind with
      | .stse a m => set true (s.spadPut c (cellsAt (4 * w) m a.data) [] [])
      | .ldsf a m d keep =>
        let v := s.spadRead c (4 * w) m
        let bad := s.spadPoison c (4 * w) m
        let s := if keep then s else set false s
        if bad then s.consume a.t o.pc a.va else s.wrN a.t d (Nat.max 1 (m / 4)) v
      | _ => s
    ((s.acquireBy o.core sc o.tids).unblock o qMem).finish o.id
/-- A tag has changed: the steps that wait on it are served in their order, and those that their changes let go on (spec/09
R193). -/
def State.serveTags (s : State) : Nat → State
  | 0 => s
  | n + 1 => match s.nextServed with
    | none => s
    | some o => (s.tagDo o).serveTags n
/-- One tag changes and its waiters are served (spec/09 R193, spec/10 R212). -/
def State.changeTag (s : State) (c w : Nat) (v : Bool) : State :=
  if s.tag c w == v then s else (s.setTag c w v).serveTags s.ops.length

/-- A step arrives at the scratchpad, behind its thread's earlier accesses, at a clock that the agenda picks (DESIGN CHOICE, log 53); its
wait begins, with the TAGLIM in force, and it is served at once where it may be (spec/04 R102; spec/09 R192, R194). -/
def State.tagArrive (s : State) (o : Op) : Option State :=
  (s.performBefore o.tids o.id).map fun s =>
    (s.modOp o.id fun p => { p with stage := 1, pageAt := s.now o.core, lim := (s.block o.blk).taglim.toNat }).serveTags s.ops.length

/-- TAG_STEP (spec/09 R192): an LDSF step arrives once its thread's earlier stores have left the queue; a step that may be served is. -/
def State.tagStep (s : State) (o : Op) : Option State :=
  match o.kind, o.stage with
  | .ldsf .., 0 => if o.tids.all fun t => s.storesOut t o.id then s.tagArrive o else none
  | _, 1 => if s.tagServable o then some (s.serveTags s.ops.length) else none
  | _, _ => none

/-- STORE_PERFORMED for STSE: it leaves the queue and arrives at the scratchpad (spec/09 R192). -/
def State.arriveStse (s : State) (o : Op) : Option State :=
  if s.isHead o && o.stage = 0 then s.tagArrive o else none

/-- STORE_PERFORMED for TAGS: one tag of the range changes, as a release and an acquire (spec/09 R195, spec/10 R212). -/
def State.performTags (s : State) (o : Op) (c w k : Nat) (v : Bool) : Option State :=
  if !s.isHead o then none
  else (s.performBefore o.tids o.id).map fun s =>
    if k ≤ o.prog then s.finish o.id
    else
      let sc := (s.block o.blk).tagScope
      let s := ((s.release o.core sc).changeTag c (w + o.prog) v).acquireBy o.core sc o.tids
      if o.prog + 1 = k then s.finish o.id else s.modOp o.id fun p => { p with prog := p.prog + 1 }

/-- TAG_WAIT: the step is abandoned and its thread faults at the word, TAGLIM clocks after its arrival (spec/09 R194; log 53). -/
def State.tagWait (s : State) (o : Op) (a : Acc) : Option State :=
  if o.stage != 1 || !s.tagExpired o then none
  else
    let s := (s.finish o.id).modThreads o.tids fun th => { th with waitOp := none }
    let f : Flt := ⟨.tagWait, a.va, 0⟩
    some (({ s with cur := { core := o.core, pc := o.pc, tids := o.tids } } : State).raise (o.tids.map fun t => (t, f)))

/-! ### CMAINT (spec/09 R198) -/

/-- The levels of CMAINT as numbers. -/
def CLevel.num : CLevel → Nat
  | .l1 => 0 | .rdc => 1 | .l2 => 2 | .far => 3

/-- STORE_PERFORMED for CMAINT: the L1 and RDC act at once; the home L2 acts once every forwarded byte of the range is
acknowledged, and copies fetched meanwhile are discarded with it. Accumulation lines are not affected. -/
def State.performCmaint (s : State) (o : Op) (secs : List Nat) (lvl : CLevel) (op : COp) : Option State :=
  let secs := secs.filter fun x => !s.atHome (x * 64)
  let inR : Nat → Bool := fun a => secs.contains (secOf a)
  let drop (s : State) : State :=
    let s := (s.dropL1 o.core inR).modCore o.core fun k => { k with owned := k.owned.filter fun x => !secs.contains x }
    if 1 ≤ CLevel.num lvl && !isSvc o.core then s.dropRdc (dieOf o.core) inR else s
  let low (s : State) : State := secs.foldl (fun s x => match op with
    | .cln => if lvl = .far then s.l2Flush x else s
    | .ci => (s.l2Flush x).l2Drop x
    | .inv => s.l2Drop x) s
  match o.stage with
  | 0 =>
    if !s.isHead o then none
    else (s.performBefore o.tids o.id).map fun s =>
      let s := if op = .inv then s else s.cleanL1 o.core inR
      let s := if op = .cln then s else drop s
      if CLevel.num lvl < 2 then s.finish o.id
      else
        let ids := if isSvc o.core then [] else
          ((s.die (dieOf o.core)).fwd.filter fun f => f.bytes.any fun x => inR x.1).map (·.id)
        s.modOp o.id fun p => { p with stage := 1, after := ids }
  | _ => if s.acked o.core o.after then some ((low (if op = .inv then drop s else s)).finish o.id) else none

/-! ### Issue: occupancy, rejection, and putting accesses in flight -/

/-- Clocks an issue group occupies the MEM pipe (spec/09 R177). -/
def occupancy (accs : List Acc) (n : Nat) : Nat :=
  let secs := dedup (accs.filterMap (·.loc.memSec?))
  let words := dedup (accs.flatMap fun a => match a.loc with
    | .spad c o => (List.range ((o % 4 + n + 3) / 4)).map fun i => (c, o / 4 + i)
    | .mem _ => [])
  let banks := words.map fun w => (words.filter fun v => v.2 % 64 == w.2 % 64).length
  Nat.max 1 (Nat.max ((secs.length + 3) / 4) (banks.foldl Nat.max 0))

/-- The MEM pipe of the core is occupied (spec/09 R177). -/
def State.occupy (s : State) (clocks : Nat) : State := s.modCore s.cur.core fun k => { k with memFree := s.clk + clocks }

/-- The sectors a core's loads in flight wait for: its miss-status entries in use (spec/09 R178). -/
def State.missing (s : State) (c : Nat) : List Nat :=
  dedup ((s.ops.filter fun o => o.core == c && o.stage == 0).flatMap fun o =>
    (match o.kind with
      | .atom accs .. => accs.filterMap fun (a : Acc) => a.loc.memSec?
      | k => (k.loadAcc.bind fun a => a.1.loc.memSec?).toList).filter fun x => !(s.core c).holds x)

/-- The sectors accesses miss that have no entry yet. -/
def State.newMisses (s : State) (accs : List Acc) : List Nat :=
  let c := s.cur.core
  (dedup (accs.filterMap fun (a : Acc) => a.loc.memSec?)).filter fun x => !(s.core c).holds x && !(s.missing c).contains x
/-- The free miss-status entries of a core. -/
def State.mshrFree (s : State) (c : Nat) : Nat := 256 - (s.missing c).length
/-- The clock of the first rejection of a core's oldest ageing word. -/
def State.oldestAged (s : State) (c : Nat) : Option Nat :=
  (s.blocks.flatMap fun p => if p.2.core != c then [] else p.2.threads.filterMap fun q =>
    if q.2.status == .live then q.2.aged else none).foldl (fun m a => some (Nat.min a (m.getD a))) none
/-- The entries the issue group may take: all free ones, but for those reserved for an older ageing word (spec/09 R178). -/
def State.mshrRoom (s : State) : Nat :=
  let c := s.cur.core
  match s.oldestAged c with
  | none => s.mshrFree c
  | some o => if s.cur.tids.any fun t => (s.thread t).aged == some o then s.mshrFree c else Nat.min (s.core c).spare (s.mshrFree c)

/-- Is the group rejected for lack of miss-status entries (spec/09 R178)? -/
def State.rejects (s : State) (accs : List Acc) : Bool :=
  let new := s.newMisses accs
  !new.isEmpty && decide (s.mshrRoom < new.length)

/-- A rejected group: its threads are stalled at the word, which ages from its first rejection on; the entries free then are those not
reserved for it (spec/09 R178). A rejected issue counts as one (spec/03 R67). -/
def State.reject (s : State) (q : Nat) : State :=
  let c := s.cur.core
  let s := (s.issued q).modCore c fun k =>
    { k with spare := if (s.oldestAged c).isNone then s.mshrFree c else k.spare }
  s.modThreads s.cur.tids fun th => { th with rejected := some s.clk, aged := some (th.aged.getD s.clk), owed := s.clk + 1 }

/-- An accepted group takes its entries; those of a word that is not the oldest ageing one come from the unreserved ones. -/
def State.takeMshr (s : State) (accs : List Acc) : State :=
  let c := s.cur.core
  if (s.oldestAged c).isNone || s.cur.tids.any fun t => (s.thread t).aged == s.oldestAged c then s
  else s.modCore c fun k => { k with spare := k.spare - (s.newMisses accs).length }

/-- An operation of the issue group: its core, the address of its word, the clock. -/
def State.opOf (s : State) (t : Tid) (k : OpKind) : Op :=
  { id := 0, core := s.cur.core, blk := t.blk, row := t.row, kind := k, tids := [t], pc := s.cur.pc, clk := s.clk }

/-- The register a lane's load writes: a g register is written by the lowest active lane of its block only (spec/02
R49). -/
def lanesReg (ts : List Tid) (t : Tid) (d : Reg) : Reg := if writesReg ts t d then d else .xz

/-- A load word: where the lanes' misses find no entries it is rejected; else its lanes are checked, and each lane's load goes in flight
(spec/09 R178, R187, spec/10 R221). -/
def State.loadWord (s : State) (q fp : Nat) (lanes : List (Tid × Except Flt Acc)) (n : Nat) (d : Reg)
    (acq : Option Scope) : Out State :=
  let r := splitFaults lanes
  let accs := r.2.map (·.2)
  if s.rejects accs then .next (s.reject q)
  else match r with
  | ([], ok) =>
    let ts := ok.map (·.1)
    let s' := ((s.takeMshr accs).warm (accs.filterMap fun a => match a.loc with | .mem _ => some (a.t, a.va) | _ => none)).occupy
      (occupancy accs n)
    let s' := ok.foldl (fun s' p => s'.addOp { s.opOf p.1 (.load p.2 n (lanesReg ts p.1 d) acq) with cnts := [(p.1, .ld)] }) s'
    .next (s'.retireFp q (fp + 1)).useFree
  | (bad, _) => .next (s.raise bad)

/-- The sectors a word's lanes write whole (spec/09 R180). -/
def fullSectors (accs : List Acc) (n : Nat) : List Loc :=
  (dedup (accs.map (·.loc.sector))).filter fun l => (List.range 64).all fun i =>
    accs.any fun a => a.loc.key.1 == l.key.1 && decide (a.loc.key.2 ≤ l.key.2 + i) && decide (l.key.2 + i < a.loc.key.2 + n)

/-- A store word: its lanes are checked, and each row's stores enter its queue (spec/09 R187, spec/10 R221). -/
def State.storeWord (s : State) (q fp : Nat) (lanes : List (Tid × Except Flt Acc)) (n : Nat) (data : Tid → Nat)
    (rel : Option Scope) : Out State :=
  match splitFaults lanes with
  | ([], ok) =>
    let accs := ok.map fun p => { p.2 with data := data p.1 }
    let full := fullSectors accs n
    let s' := (s.warm (accs.filterMap fun a => match a.loc with | .mem _ => some (a.t, a.va) | _ => none)).occupy
      (occupancy accs n)
    let s' := (rowsOf (ok.map (·.1))).foldl (fun s' r =>
      let mine := accs.filter fun a => a.t.blk == r.1 && a.t.row == r.2
      s'.addOp { s.opOf ⟨r.1, 64 * r.2⟩ (.store mine n rel full) with
        tids := mine.map (·.t), cnts := mine.map fun a => (a.t, .st) }) s'
    .next (s'.retireFp q (fp + 1)).useFree
  | (bad, _) => .next (s.raise bad)

/-- LDS (spec/09 R187). -/
def execLds (h : Hdr) (d base : Reg) (ofs : BitVec 16) (sz : Size) (q : Bool) (s : State) : Out State :=
  s.loadWord qMem 1 ((s.act h).map fun t => (t, s.sAcc t q (s.sOfs t base ofs) sz.bytes)) sz.bytes d none
/-- STS (spec/09 R187). -/
def execSts (h : Hdr) (d base : Reg) (ofs : BitVec 16) (sz : Size) (q : Bool) (s : State) : Out State :=
  s.storeWord qMem 1 ((s.act h).map fun t => (t, s.sAcc t q (s.sOfs t base ofs) sz.bytes)) sz.bytes
    (fun t => s.stData t d sz) none
/-- LDG (spec/09 R187); on a service core also a link register (spec/19 R401). -/
def execLdg (h : Hdr) (d base : Reg) (ofs : BitVec 16) (sz : Size) (s : State) : Out State :=
  s.loadWord qMem 3 ((s.act h).map fun t => (t, s.gAccLink t (s.gAddr t base ofs) sz.bytes .r none)) sz.bytes d none
/-- STG (spec/09 R187); on a service core also a link register (spec/19 R401, R402). -/
def execStg (h : Hdr) (d base : Reg) (ofs : BitVec 16) (sz : Size) (s : State) : Out State :=
  s.storeWord qMem 3 ((s.act h).map fun t =>
    (t, s.gAccLink t (s.gAddr t base ofs) sz.bytes .w (some (s.stData t d sz)))) sz.bytes (fun t => s.stData t d sz) none

/-- LDU: one load for each block, at its lowest lane's address; a fault there is every active thread's (spec/09
R188). -/
def execLdu (h : Hdr) (d base : Reg) (ofs : BitVec 16) (sz : Size) (s : State) : Out State :=
  let ts := s.act h
  let lanes := (blksOf ts).filterMap fun b => (lowLane ts b).map fun t =>
    (t, s.gAcc t (s.gAddr t base ofs) sz.bytes .r false)
  let r := splitFaults lanes
  let accs := r.2.map (·.2)
  if s.rejects accs then .next (s.reject qMem)
  else match r with
  | ([], ok) =>
    let s' := ((s.takeMshr accs).warm (accs.map fun a => (a.t, a.va))).occupy (occupancy accs sz.bytes)
    let s' := ok.foldl (fun s' p =>
      let mine := ts.filter (·.blk == p.1.blk)
      s'.addOp { s.opOf p.1 (.loadU p.2 sz.bytes d) with tids := mine, cnts := mine.map fun t => (t, .ld) }) s'
    .next (s'.retireFp qMem 4).useFree
  | (bad, _) => .next (s.raise (ts.filterMap fun t => (bad.find? (·.1.blk == t.blk)).map fun p => (t, p.2)))

/-- A tag word that waits: each active lane's step goes in flight and its thread blocks at the word; the others fall
through (spec/09 R192). -/
def State.tagWord (s : State) (h : Hdr) (lanes : List (Tid × Except Flt Acc)) (n : Nat) (c : Cnt) (kind : Acc → OpKind) :
    Out State :=
  match splitFaults lanes with
  | ([], ok) =>
    let s' := s.occupy (occupancy (ok.map (·.2)) n)
    let s' := (byLane (ok.map (·.1))).foldl (fun s' t => match ok.find? (·.1 == t) with
      | some p =>
        let id := s'.nextId
        (s'.addOp { s.opOf t (kind p.2) with cnts := [(t, c)] }).modThread t fun th => { th with waitOp := some id, since := none }
      | none => s') s'
    let rest := s.cur.tids.filter fun t => !s.isActive h t
    .next (((s'.narrow rest).retireFp qMem 2).narrow s.cur.tids).useFree
  | (bad, _) => .next (s.raise bad)

/-- LDSF (spec/09 R192). -/
def execLdsf (h : Hdr) (d base : Reg) (ofs : BitVec 15) (sz : Size) (q keep : Bool) (s : State) : Out State :=
  s.tagWord h ((s.act h).map fun t => (t, s.sAcc t q (s.sOfs t base (ofs15 ofs)) sz.bytes)) sz.bytes .ld
    fun a => .ldsf a sz.bytes (lanesReg (s.act h) a.t d) keep
/-- STSE (spec/09 R192). -/
def execStse (h : Hdr) (d base : Reg) (ofs : BitVec 15) (sz : Size) (q : Bool) (s : State) : Out State :=
  s.tagWord h ((s.act h).map fun t => (t, s.sAcc t q (s.sOfs t base (ofs15 ofs)) sz.bytes)) sz.bytes .st
    fun a => .stse { a with data := s.stData a.t d sz } sz.bytes

/-- The range of n bytes of tags at a word-aligned offset (spec/09 R195). -/
def State.tagAcc (s : State) (t : Tid) (q : Bool) (o n : Nat) : Except Flt Acc :=
  let b := s.block t.blk
  if o % 4 ≠ 0 then .error ⟨.misalign, BitVec.ofNat 64 o, 0⟩
  else match (if q then s.qspadLoc b o n else spadLoc b o n) with
    | none => .error ⟨.access, BitVec.ofNat 64 o, 0⟩
    | some l => .ok { t := t, loc := .spad l.1 l.2, va := BitVec.ofNat 64 o }

/-- TAGS (spec/09 R195). -/
def execTags (h : Hdr) (a b : Reg) (q set : Bool) (s : State) : Out State :=
  match splitFaults ((s.act h).map fun t => (t, s.tagAcc t q (s.rd t a).toNat (4 * (s.rd t b).toNat))) with
  | ([], ok) =>
    .next ((ok.foldl (fun s' p => match p.2.loc with
      | .spad c off => s'.addOp { s.opOf p.1 (.tags p.1 c (off / 4) (s.rd p.1 b).toNat set) with cnts := [(p.1, .st)] }
      | .mem _ => s') s).retireFp qMem 2).useFree
  | (bad, _) => .next (s.raise bad)
/-- TAGR (spec/09 R195). -/
def execTagr (h : Hdr) (d a : Reg) (q : Bool) (s : State) : Out State :=
  match splitFaults ((s.act h).map fun t => (t, s.tagAcc t q (s.rd t a).toNat 128)) with
  | ([], ok) =>
    .next ((ok.foldl (fun s' p => s'.addOp
      { s.opOf p.1 (.tagr p.2 (lanesReg (ok.map (·.1)) p.1 d)) with cnts := [(p.1, .ld)] }) s).retireFp qMem 2).useFree
  | (bad, _) => .next (s.raise bad)

/-- PREF: a hint, taken or dropped as a free choice; a fault drops it (spec/09 R197). -/
def execPref (h : Hdr) (lvl : PrefLevel) (base : Reg) (ofs : BitVec 16) (s : State) : Out State :=
  let ts := s.act h
  let s' := ts.foldl (fun s' t =>
    let b := s.block t.blk
    match s.gAccess b.core b (s.thread t).level (s.gAddr t base ofs) 1 .r false with
    | .error _ => s'
    | .ok pa =>
      if Config.pick s.free pa % 2 = 0 || s.atHome pa || s'.cut b.core pa then s'
      else
        let line := (List.range 4).map (pa / 256 * 4 + ·)
        match lvl with
        | .l1 => s'.fill b.core (secOf pa)
        | .rdc => line.foldl (fun s'' x => s''.fillRdc b.core x) s'
        | .l2 => line.foldl State.l2Fill s') s
  let secs := dedup (ts.map fun t => (s.gAddr t base ofs).toNat / 64)
  .next ((s'.occupy (Nat.max 1 ((secs.length + 3) / 4))).retire qMem).useFree

/-- The fault a lane raises among several of one rank order (spec/18 R369): XLATE, then ACCESS, then the rest. -/
def firstFault (fs : List Flt) : Option Flt :=
  (fs.find? (·.code == .xlate)).orElse fun _ => (fs.find? (·.code == .access)).orElse fun _ => fs.head?

/-- The parts of a virtual range that lie in one 4 KiB page each: address and length. -/
def pageParts (va len : Nat) : List (Nat × Nat) :=
  if len = 0 then []
  else (List.range ((va + len - 1) / 4096 - va / 4096 + 1)).map fun k =>
    let lo := Nat.max va ((va / 4096 + k) * 4096)
    (lo, Nat.min (va + len) ((va / 4096 + k + 1) * 4096) - lo)

/-- Check a GLOBAL range of a thread page by page; its parts by physical address and length (spec/09 R198). The end that is to be in the
57-bit form is its last byte (DESIGN CHOICE, log 52). -/
def State.gRange (s : State) (link : Bool) (t : Tid) (va : DWord) (len : Nat) (p : Perm) : Except Flt (List (Nat × Nat)) :=
  let b := s.block t.blk
  if len = 0 then .ok []
  else if !form57 va || !form57 (va + BitVec.ofNat 64 (len - 1)) then .error ⟨.access, va, 0⟩
  else
    let parts := (pageParts va.toNat len).map fun q =>
      (q.2, s.gAccessIn link b.core b (s.thread t).level (BitVec.ofNat 64 q.1) 1 p false)
    match firstFault (faultsOf (parts.map (·.2))) with
    | some f => .error f
    | none => .ok (parts.filterMap fun q => match q.2 with | .ok pa => some (pa, q.1) | .error _ => none)

/-- CMAINT (spec/09 R198). -/
def execCmaint (h : Hdr) (a b : Reg) (lvl : CLevel) (op : COp) (s : State) : Out State :=
  let perm : Perm := if op = .inv then .w else .r
  match splitFaults ((s.act h).map fun t => (t, s.gRange true t (s.rd64 t a) (s.rd t b).toNat perm)) with
  | ([], ok) =>
    let s' := s.warm (ok.flatMap fun p => (pageParts (s.rd64 p.1 a).toNat (s.rd p.1 b).toNat).map fun q =>
      (p.1, BitVec.ofNat 64 q.1))
    .next ((ok.foldl (fun s' p =>
      let secs := dedup ((p.2.filter fun q => !isAperture q.1).flatMap fun q => secsOf q.1 q.2)
      s'.addOp { s.opOf p.1 (.cmaint secs lvl op) with cnts := [(p.1, .st)] }) s').retireFp qMem 4).useFree
  | (bad, _) => .next (s.raise bad)

end Sys2Proof.Machine
end

