-- ==== Sys2Proof/Machine/Numbers.lean ====
section
/-!
DEFINITION. Machine/Numbers.lean: the number formats (spec/05): IEEE formats as exact values (R106), tapered formats
(R109, R110), packing (R113), format slots (R115), rounding (R117, R118), the exact sums and products of R125, and the
counter hash CMIX (spec/07 R148).
-/

namespace Sys2Proof.Machine

/-! ### Exact values -/

/-- An exact value: NaN (NaR decodes as NaN, spec/13 R279), an infinity, or ± m × 2^e, zero with its sign. -/
inductive FV where
  | nan
  | inf (neg : Bool)
  | fin (neg : Bool) (m : Nat) (e : Int)
  deriving DecidableEq, Repr

/-- A floating format: fraction bits, bias, width (spec/05 R106). -/
structure FFmt where
  p : Nat
  bias : Nat
  w : Nat
  deriving DecidableEq, Repr

/-- binary32. -/
def f32 : FFmt := ⟨23, 127, 32⟩
/-- binary16. -/
def f16 : FFmt := ⟨10, 15, 16⟩
/-- BF16. -/
def bf16 : FFmt := ⟨7, 127, 16⟩

/-- The all-ones exponent field. -/
def FFmt.emax (f : FFmt) : Nat := 2 * f.bias + 1
/-- The pattern of +∞. -/
def FFmt.infBits (f : FFmt) : Nat := f.emax * 2 ^ f.p
/-- The canonical NaN (spec/05 R106). -/
def FFmt.nanBits (f : FFmt) : Nat := f.infBits + 2 ^ (f.p - 1)
/-- A sign bit on top of a magnitude pattern. -/
def FFmt.signed (f : FFmt) (neg : Bool) (mag : Nat) : Nat := if neg then 2 ^ (f.w - 1) + mag else mag

/-- The value of a pattern (spec/05 R106). -/
def FFmt.dec (f : FFmt) (x : Nat) : FV :=
  let neg := x / 2 ^ (f.w - 1) % 2 == 1
  let e := x / 2 ^ f.p % (f.emax + 1)
  let m := x % 2 ^ f.p
  if e = f.emax then (if m = 0 then .inf neg else .nan)
  else if e = 0 then .fin neg m (1 - (f.bias : Int) - f.p)
  else .fin neg (2 ^ f.p + m) ((e : Int) - f.bias - f.p)

/-- Rounding modes of conversion (spec/05 R117). -/
inductive Rnd where
  | rn | rz | rm | rp | sr
  deriving DecidableEq, Repr

/-- A word's rounding modifier as a mode. -/
def rndOf : RMode → Rnd
  | .rn => .rn | .rz => .rz | .rm => .rm | .rp => .rp

/-- Scale a quotient num / den by 2^-q. -/
def scaleQ (num den : Nat) (q : Int) : Nat × Nat :=
  match q with
  | .ofNat k => (num, den * 2 ^ k)
  | .negSucc k => (num * 2 ^ (k + 1), den)

/-- Does rounding a magnitude with floor lo and remainder rem / den go up (spec/05 R117)? -/
def roundsUp (md : Rnd) (u : Nat) (neg : Bool) (lo rem den : Nat) : Bool :=
  match md with
  | .rn => den < 2 * rem || (2 * rem == den && lo % 2 == 1)
  | .rz => false
  | .rm => neg && 0 < rem
  | .rp => !neg && 0 < rem
  | .sr => 65536 ≤ rem * 65536 / den + u

/-- floor(log2 (num / den)) of a positive quotient. -/
def log2Q (num den : Nat) : Int :=
  let l : Int := (Nat.log2 num : Int) - Nat.log2 den
  let (a, b) := scaleQ num den l
  if a < b then l - 1 else l

/-- The magnitude pattern of the largest finite value. -/
def FFmt.maxBits (f : FFmt) : Nat := f.infBits - 1

/-- RoundF of ± num / den (spec/05 R117): the pattern. -/
def roundRat (f : FFmt) (md : Rnd) (sat : Bool) (u : Nat) (neg : Bool) (num den : Nat) : Nat :=
  if num = 0 then f.signed neg 0
  else
    let qe : Int := max (log2Q num den) (1 - (f.bias : Int)) - f.p
    let (a, b) := scaleQ num den qe
    let lo := a / b
    let mag := if roundsUp md u neg lo (a % b) b then lo + 1 else lo
    let bits := if mag < 2 ^ f.p then mag else (qe + f.p + f.bias).toNat * 2 ^ f.p + (mag - 2 ^ f.p)
    if f.infBits ≤ bits then
      f.signed neg (if sat || md == .rz || (md == .rm && !neg) || (md == .rp && neg) then f.maxBits else f.infBits)
    else f.signed neg bits

/-- A finite magnitude m × 2^e as a quotient. -/
def quot (m : Nat) (e : Int) : Nat × Nat := match e with
  | .ofNat k => (m * 2 ^ k, 1)
  | .negSucc k => (m, 2 ^ (k + 1))

/-- RoundF of an exact value with the special inputs of spec/05 R118: the pattern. -/
def roundFV (f : FFmt) (md : Rnd) (sat : Bool) (u : Nat) (v : FV) : Nat :=
  match v with
  | .nan => f.nanBits
  | .inf neg => f.signed neg (if sat then f.maxBits else f.infBits)
  | .fin neg m e => roundRat f md sat u neg (quot m e).1 (quot m e).2

/-- An FP32 register's value. -/
def v32 (w : Word) : FV := f32.dec w.toNat
/-- The FP32 word of an exact value, rounded once. -/
def r32 (md : Rnd) (v : FV) : Word := BitVec.ofNat 32 (roundFV f32 md false 0 v)
/-- The canonical NaN of FP32. -/
def nan32 : Word := 0x7FC00000

/-! ### Exact sums and products (spec/06 R125) -/

/-- The signed integer of a finite value over 2^e, for e not above its exponent. -/
def alignTo (neg : Bool) (m : Nat) (e0 e : Int) : Int :=
  let k := (e0 - e).toNat
  if neg then -((m * 2 ^ k : Nat) : Int) else (m * 2 ^ k : Nat)

/-- Flip the sign, of a zero too (spec/06 R128). -/
def FV.flip : FV → FV
  | .nan => .nan
  | .inf n => .inf (!n)
  | .fin n m e => .fin (!n) m e
/-- Flip the sign under a flag. -/
def FV.flipIf (b : Bool) (v : FV) : FV := if b then v.flip else v
/-- Is the value a zero of a sign? -/
def FV.isZero (v : FV) (neg : Bool) : Bool := match v with
  | .fin n 0 _ => n == neg
  | _ => false

/-- Exact product; 0 × ∞ is invalid. -/
def FV.mul : FV → FV → FV
  | .nan, _ => .nan
  | _, .nan => .nan
  | .inf a, .inf b => .inf (a != b)
  | .inf a, .fin b m _ => if m = 0 then .nan else .inf (a != b)
  | .fin a m _, .inf b => if m = 0 then .nan else .inf (a != b)
  | .fin a m e, .fin b n f => .fin (a != b) (m * n) (e + f)

/-- The smallest exponent of the finite values of a list. -/
def minExp (l : List FV) : Int := l.foldl (fun e v => match v with
  | .fin _ _ f => min e f
  | _ => e) 0

/-- Exact sum (spec/06 R125): infinities of both signs are invalid; an exact zero has the sign of its terms when they
agree, else it is +0, or −0 under .RM. `dot`: the rule of spec/06 R135, where terms of +0 alone also give −0 under
.RM. -/
def sumFV (md : Rnd) (dot : Bool) (l : List FV) : FV :=
  if l.contains .nan then .nan
  else
    let ps := l.contains (.inf false)
    let ns := l.contains (.inf true)
    if ps && ns then .nan
    else if ps then .inf false
    else if ns then .inf true
    else
      let e := minExp l
      let s : Int := l.foldl (fun a v => match v with
        | .fin n m f => a + alignTo n m f e
        | _ => a) 0
      if s = 0 then
        .fin (if l.all (·.isZero true) then true
              else if l.all (·.isZero false) && !dot then false
              else md == .rm) 0 0
      else .fin (s < 0) s.natAbs e

/-- Is a ≤ b as numbers? −0 and +0 are equal here. -/
def FV.le (a b : FV) : Bool := match a, b with
  | .nan, _ => false
  | _, .nan => false
  | .inf true, _ => true
  | _, .inf false => true
  | .inf false, _ => false
  | _, .inf true => false
  | .fin n m e, .fin k l f => let x := min e f; decide (alignTo n m e x ≤ alignTo k l f x)
/-- Is a < b as numbers? -/
def FV.lt (a b : FV) : Bool := a.le b && !b.le a
/-- Is it a NaN? -/
def FV.isNan (a : FV) : Bool := a == .nan
/-- Is the sign set? -/
def FV.neg : FV → Bool
  | .nan => false | .inf n => n | .fin n _ _ => n
/-- Is a below b, −0 below +0 (spec/06 R129)? -/
def FV.below (a b : FV) : Bool := a.lt b || (a.isZero true && b.isZero false)

/-! ### Integers -/

/-- RoundI of a finite value (spec/05 R117): the integer, before the limits. -/
def roundInt (md : Rnd) (u : Nat) (neg : Bool) (m : Nat) (e : Int) : Int :=
  let (a, b) := quot m e
  let x : Int := if neg then -(a : Int) else a
  let lo := x / (b : Int)
  let rem := (x % (b : Int)).toNat
  let up := match md with
    | .rn => b < 2 * rem || (2 * rem == b && lo % 2 == 1)
    | .rz => neg && 0 < rem
    | .rm => false
    | .rp => 0 < rem
    | .sr => decide (65536 ≤ rem * 65536 / b + u)
  if up then lo + 1 else lo

/-- Limit an integer to a range. -/
def clampI (lo hi x : Int) : Int := min (max x lo) hi

/-- RoundI with the special inputs of spec/05 R118. -/
def roundIFV (md : Rnd) (u : Nat) (lo hi : Int) : FV → Int
  | .nan => 0
  | .inf n => if n then lo else hi
  | .fin n m e => clampI lo hi (roundInt md u n m e)

/-! ### Tapered formats -/

/-- The run of bits equal to r from bit k − 1 downwards. -/
def runLen (q : Nat) (r : Bool) : Nat → Nat
  | 0 => 0
  | k + 1 => if (q / 2 ^ k % 2 == 1) == r then runLen q r k + 1 else 0

/-- DecodeT (spec/05 R109). -/
def decT (n es p : Nat) : FV :=
  if p = 0 then .fin false 0 0
  else if p = 2 ^ (n - 1) then .nan
  else
    let s := 2 ^ (n - 1) ≤ p
    let q := if s then 2 ^ n - p else p
    let r := q / 2 ^ (n - 2) % 2 == 1
    let m := runLen q r (n - 1)
    let k : Int := if r then (m : Int) - 1 else -(m : Int)
    let rl := n - 2 - m
    let rest := q % 2 ^ rl
    let e := if es = 0 then 0 else if rl = 0 then 0 else rest / 2 ^ (rl - 1)
    let fl := rl - es
    let f := rest % 2 ^ fl
    .fin s (2 ^ fl + f) (k * (2 ^ es : Nat) + e - fl)

/-- The exponent of maxpos: (n − 2) × 2^es; minpos is its negation (spec/05 R109). -/
def maxposExp (n es : Nat) : Nat := (n - 2) * 2 ^ es

/-- EncodeT of ± num / den (spec/05 R110). -/
def encT (n es : Nat) (md : Rnd) (u : Nat) (neg : Bool) (num den : Nat) : Nat :=
  if num = 0 then 0
  else
    let mx := maxposExp n es
    let (num, den) :=
      if den * 2 ^ mx < num then (2 ^ mx, 1) else if num * 2 ^ mx < den then (1, 2 ^ mx) else (num, den)
    let E := log2Q num den
    let k := E / ((2 ^ es : Nat) : Int)
    let e := (E - k * ((2 ^ es : Nat) : Int)).toNat
    let (a, b) := scaleQ num den E
    let pre := if 0 ≤ k then (2 ^ (k.toNat + 1) - 1) * 2 else 1
    let pl := if 0 ≤ k then k.toNat + 2 else (-k).toNat + 1
    -- B as the number (pre ∥ e) + f, with pl + es digits before the point
    let whole := pre * 2 ^ es + e
    let (x, y) := scaleQ (whole * b + (a - b)) b ((pl + es : Nat) - ((n - 1 : Nat) : Int))
    let q := x / y
    let up := match md with
      | .rz => false
      | .sr => decide (65536 ≤ x % y * 65536 / y + u)
      | _ => y < 2 * (x % y) || (2 * (x % y) == y && q % 2 == 1)
    let q := if up then q + 1 else q
    if neg then (2 ^ n - q) % 2 ^ n else q

/-- A value into a tapered format with the special inputs of spec/05 R118. -/
def encTFV (n es : Nat) (md : Rnd) (sat : Bool) (u : Nat) : FV → Nat
  | .nan => 2 ^ (n - 1)
  | .inf neg =>
    if sat then (if neg then 2 ^ n - (2 ^ (n - 1) - 1) else 2 ^ (n - 1) - 1) else 2 ^ (n - 1)
  | .fin neg m e => encT n es md u neg (quot m e).1 (quot m e).2

/-! ### Format slots -/

/-- Elements a register word holds (spec/05 R113). -/
def slotCount (f : Nat) : Nat := match f with
  | 0 => 1 | 1 | 2 => 2 | 3 | 4 | 7 | 8 => 4 | _ => 5
/-- Bits of an element (spec/05 R113). -/
def slotBits (f : Nat) : Nat := match f with
  | 0 => 32 | 1 | 2 => 16 | 3 | 4 | 7 | 8 => 8 | _ => 6
/-- Decode an element of a format (spec/05 R106, R108, R109). -/
def decSlot (f p : Nat) : FV := match f with
  | 0 => f32.dec p
  | 1 => bf16.dec p
  | 2 => f16.dec p
  | 3 => decT 8 0 p
  | 4 => decT 8 1 p
  | 5 => decT 6 0 p
  | 6 => decT 6 1 p
  | 7 => let i := sext 8 p; .fin (i < 0) i.natAbs 0
  | _ => .fin false p 0
/-- The rounding of a slot word (spec/05 R115). -/
def slotRnd (w : Word) : Rnd := match fld w 9 2 with
  | 1 => .rz | 2 => .sr | _ => .rn
/-- Encode a value under a slot word (spec/05 R117, R118). -/
def encSlot (w : Word) (v : FV) (u : Nat) : Nat :=
  let md := slotRnd w
  let sat := bitOf w 8
  match fld w 0 4 with
  | 0 => roundFV f32 md sat u v
  | 1 => roundFV bf16 md sat u v
  | 2 => roundFV f16 md sat u v
  | 3 => encTFV 8 0 md sat u v
  | 4 => encTFV 8 1 md sat u v
  | 5 => encTFV 6 0 md sat u v
  | 6 => encTFV 6 1 md sat u v
  | 7 => (roundIFV md u (-128) 127 v % 256).toNat
  | _ => (roundIFV md u 0 255 v).toNat
/-- Is a slot word valid (spec/05 R116)? -/
def slotValid (w : Word) : Bool :=
  fld w 11 21 == 0 && fld w 0 4 ≤ 8 && fld w 4 2 != 3 && fld w 9 2 != 3 && !(fld w 4 2 == 2 && fld w 0 4 == 0)

/-- Element i of a packed register word (spec/05 R113). -/
def regElem (f : Nat) (w : Word) (i : Nat) : Nat := fld w (slotBits f * i) (slotBits f)
/-- Element i of an array in memory packing, from its bytes read as a number per group (spec/05 R114): the bit offset
of the element from the array's base. -/
def memElemBit (f i : Nat) : Nat := if slotBits f = 6 then 24 * (i / 4) + 6 * (i % 4) else slotBits f * i
/-- Bytes of n elements in memory packing (spec/05 R114). -/
def memBytes (f n : Nat) : Nat := if slotBits f = 6 then 3 * n / 4 else n * slotBits f / 8
/-- Element i of an array held in a number of bytes, lowest address first. -/
def memElem (f bytes i : Nat) : Nat := bytes / 2 ^ memElemBit f i % 2 ^ slotBits f

/-! ### CMIX (spec/07 R148) -/

/-- The constants of the four rounds: A, M, S. -/
def cmixRounds : List (DWord × DWord × Nat) :=
  [(0x5B1D7E42A903C6F1, 0xD1B54A32D192ED03, 23), (0x2E87C3B51D4A90E6, 0xA5CB9243C7E61F35, 41),
   (0x94F02A6DB73C5E18, 0x8F6A31D75B2E4C8B, 13), (0x07C9E5A148B2F37D, 0xC3A95E1709D4B6E5, 37)]

/-- CMIX of a seed, a counter and a lane (spec/07 R148). -/
def cmix (seed : DWord) (ctr : Word) (lane : Nat) : Word :=
  let h0 := seed ^^^ ((BitVec.ofNat 64 lane <<< 32) ||| ctr.zeroExtend 64)
  let h : DWord := cmixRounds.foldl (fun (h : DWord) r =>
    let h := (h ^^^ r.1) * r.2.1
    let h := h ^^^ (h >>> 31)
    h.rotateLeft r.2.2) h0
  BitVec.truncate 32 (h >>> 32) ^^^ BitVec.truncate 32 h

/-- The random bits of stochastic rounding: the top 16 bits of CMIX at a counter (spec/05 R117). -/
def srBits (seed : DWord) (ctr : Word) (lane : Nat) : Nat := fld (cmix seed ctr lane) 16 16

/-- The seed a thread's random values use: its grid's, 0 on a service core (spec/04 R98, spec/07 R148). -/
def State.seedOf (s : State) (t : Tid) : DWord :=
  if isSvc (s.block t.blk).core then 0 else (s.grid (s.block t.blk).grid).lrec.seed

end Sys2Proof.Machine
end

