-- ==== Sys2Proof/Machine/Vfp.lean ====
section
/-!
DEFINITION. Machine/Vfp.lean: the VFP class: arithmetic, compares, clamps, packed words and dot products of spec/06, and
the six conversions of spec/05. Every word is fixed-latency (spec/06 R124, spec/05 R121).
-/

namespace Sys2Proof.Machine

/-- The VFP queue (spec/02 R50). -/
def qVfp : Nat := 2

/-- .SAT: a rounded result clamped to [+0, +1.0]; NaN, −0 and negative values give +0 (spec/06 R125). -/
def clamp01 (f : FFmt) (bits : Nat) : Nat :=
  match f.dec bits with
  | .nan => 0
  | v => if v.neg then 0 else if (FV.fin false 1 0).lt v then f.bias * 2 ^ f.p else bits

/-- One rounded FP32 result, clamped under .SAT (spec/06 R128). -/
def fpRes (md : RMode) (sat : Bool) (v : FV) : Word :=
  let bits := roundFV f32 (rndOf md) false 0 v
  BitVec.ofNat 32 (if sat then clamp01 f32 bits else bits)

/-- The halves a word works on: one, or two with .X2 (spec/06 R128). -/
def halves (x2 : Bool) : List Nat := if x2 then [0, 1] else [0]

/-- A word of up to three FP32 sources, on each half of the pair with .X2. -/
def State.fp3 (s : State) (h : Hdr) (lat : Nat) (d a b c : Reg) (x2 : Bool) (f : Word → Word → Word → Word) : State :=
  s.fixed qVfp h lat fun t => (halves x2).map fun k =>
    (d.plus k, f (s.rd t (a.plus k)) (s.rd t (b.plus k)) (s.rd t (c.plus k)))

/-- FADD: the exact sum, rounded once (spec/06 R125, R128). -/
def faddW (md : RMode) (sat : Bool) (x y : Word) : Word := fpRes md sat (sumFV (rndOf md) false [v32 x, v32 y])
/-- FSUB (spec/06 R128). -/
def fsubW (md : RMode) (sat : Bool) (x y : Word) : Word := fpRes md sat (sumFV (rndOf md) false [v32 x, (v32 y).flip])
/-- FMUL (spec/06 R128). -/
def fmulW (md : RMode) (sat : Bool) (x y : Word) : Word := fpRes md sat ((v32 x).mul (v32 y))
/-- FFMA: one rounding of ± A × B ± C (spec/06 R128). -/
def ffmaW (md : RMode) (sat na nc : Bool) (x y z : Word) : Word :=
  fpRes md sat (sumFV (rndOf md) false [((v32 x).mul (v32 y)).flipIf na, (v32 z).flipIf nc])

/-- FADD (spec/06 R128). -/
def execFadd (h : Hdr) (d a b : Reg) (md : RMode) (x2 sat : Bool) (s : State) : Out State :=
  .next (s.fp3 h 4 d a b .xz x2 fun x y _ => faddW md sat x y)
/-- FSUB (spec/06 R128). -/
def execFsub (h : Hdr) (d a b : Reg) (md : RMode) (x2 sat : Bool) (s : State) : Out State :=
  .next (s.fp3 h 4 d a b .xz x2 fun x y _ => fsubW md sat x y)
/-- FMUL (spec/06 R128). -/
def execFmul (h : Hdr) (d a b : Reg) (md : RMode) (x2 sat : Bool) (s : State) : Out State :=
  .next (s.fp3 h 4 d a b .xz x2 fun x y _ => fmulW md sat x y)
/-- FFMA (spec/06 R128). -/
def execFfma (h : Hdr) (d a b c : Reg) (md : RMode) (x2 sat na nc : Bool) (s : State) : Out State :=
  .next (s.fp3 h 4 d a b c x2 (ffmaW md sat na nc))

/-- The lesser or greater of two FP32 values (spec/06 R129). -/
def fpick (greater nanOut : Bool) (x y : Word) : Word :=
  let a := v32 x
  let b := v32 y
  if a.isNan && b.isNan then nan32
  else if a.isNan then (if nanOut then nan32 else y)
  else if b.isNan then (if nanOut then nan32 else x)
  else if greater then (if a.below b then y else x)
  else (if b.below a then y else x)
/-- FMIN (spec/06 R129). -/
def execFmin (h : Hdr) (d a b : Reg) (x2 nan : Bool) (s : State) : Out State :=
  .next (s.fp3 h 2 d a b .xz x2 fun x y _ => fpick false nan x y)
/-- FMAX (spec/06 R129). -/
def execFmax (h : Hdr) (d a b : Reg) (x2 nan : Bool) (s : State) : Out State :=
  .next (s.fp3 h 2 d a b .xz x2 fun x y _ => fpick true nan x y)
/-- FCLAMP (spec/06 R129). -/
def execFclamp (h : Hdr) (d a b c : Reg) (x2 : Bool) (s : State) : Out State :=
  .next (s.fp3 h 2 d a b c x2 fun x y z => fpick false false (fpick true false x y) z)
/-- FABS (spec/06 R130). -/
def execFabs (h : Hdr) (d a : Reg) (x2 : Bool) (s : State) : Out State :=
  .next (s.fp3 h 2 d a .xz .xz x2 fun x _ _ => x &&& 0x7FFFFFFF)
/-- FNEG (spec/06 R130). -/
def execFneg (h : Hdr) (d a : Reg) (x2 : Bool) (s : State) : Out State :=
  .next (s.fp3 h 2 d a .xz .xz x2 fun x _ _ => x ^^^ 0x80000000)

/-- The FP compares (spec/06 R131). -/
def compareFp (a b : Word) (c : FCmp) : Bool :=
  let x := v32 a
  let y := v32 b
  match c with
  | .eq => x.le y && y.le x
  | .ne => !(x.le y && y.le x)
  | .lt => x.lt y
  | .le => x.le y
  | .gt => y.lt x
  | .ge => y.le x
  | .num => !x.isNan && !y.isNan
  | .nan => x.isNan || y.isNan
/-- FSETP (spec/06 R131). -/
def execFsetp (h : Hdr) (p : Pred) (a b : Reg) (c : FCmp) (q : PComb) (s : State) : Out State :=
  .next (s.fixedP qVfp h 2 p fun t => s.combine t (compareFp (s.rd t a) (s.rd t b) c) q)

/-- A × 2^n, rounded once; beyond ± 1000 a larger |n| changes no result (spec/06 R132). -/
def fsclW (md : RMode) (x n : Word) : Word :=
  match v32 x with
  | .nan => nan32
  | .inf _ => x
  | .fin g m e => if m = 0 then x else r32 (rndOf md) (.fin g m (e + clampI (-1000) 1000 n.toInt))
/-- FSCL (spec/06 R132). -/
def execFscl (h : Hdr) (d a b : Reg) (md : RMode) (s : State) : Out State :=
  .next (s.fp3 h 4 d a b .xz false fun x y _ => fsclW md x y)

/-- The class mask of a pattern (spec/06 R133). -/
def fclassBit (f : FFmt) (bits : Nat) : Nat :=
  let neg := bits / 2 ^ (f.w - 1) % 2 == 1
  let e := bits / 2 ^ f.p % (f.emax + 1)
  let m := bits % 2 ^ f.p
  if e = f.emax then
    if m = 0 then (if neg then 0 else 7) else if m / 2 ^ (f.p - 1) = 0 then 8 else 9
  else if e = 0 then
    if m = 0 then (if neg then 3 else 4) else (if neg then 2 else 5)
  else (if neg then 1 else 6)
/-- FCLASS (spec/06 R133). -/
def fclassW (k : FSrc) (x : Word) : Word :=
  BitVec.ofNat 32 (2 ^ (match k with
    | .fp32 => fclassBit f32 x.toNat
    | .fp16 => fclassBit f16 (fld x 0 16)
    | .bf16 => fclassBit bf16 (fld x 0 16)))
/-- FCLASS (spec/06 R133). -/
def execFclass (h : Hdr) (d a : Reg) (k : FSrc) (s : State) : Out State :=
  .next (s.fp3 h 2 d a .xz .xz false fun x _ _ => fclassW k x)

/-- The packed format of a 16-bit word (spec/06 R134). -/
def halfFmt (bf : Bool) : FFmt := if bf then bf16 else f16
/-- Element i of a packed 16-bit word. -/
def half (f : FFmt) (x : Word) (i : Nat) : FV := f.dec (fld x (16 * i) 16)
/-- Two elements computed alike and packed (spec/06 R134). -/
def packed (md : RMode) (sat bf : Bool) (g : Nat → FV) : Word :=
  let f := halfFmt bf
  let e := fun i => let r := roundFV f (rndOf md) false 0 (g i); if sat then clamp01 f r else r
  BitVec.ofNat 32 (e 0 + 65536 * e 1)
/-- HADD2 (spec/06 R134). -/
def execHadd2 (h : Hdr) (d a b : Reg) (md : RMode) (sat bf : Bool) (s : State) : Out State :=
  .next (s.fp3 h 4 d a b .xz false fun x y _ => packed md sat bf fun i =>
    sumFV (rndOf md) false [half (halfFmt bf) x i, half (halfFmt bf) y i])
/-- HMUL2 (spec/06 R134). -/
def execHmul2 (h : Hdr) (d a b : Reg) (md : RMode) (sat bf : Bool) (s : State) : Out State :=
  .next (s.fp3 h 4 d a b .xz false fun x y _ => packed md sat bf fun i =>
    (half (halfFmt bf) x i).mul (half (halfFmt bf) y i))
/-- HFMA2 (spec/06 R134). -/
def execHfma2 (h : Hdr) (d a b c : Reg) (md : RMode) (sat bf : Bool) (s : State) : Out State :=
  .next (s.fp3 h 4 d a b c false fun x y z => packed md sat bf fun i =>
    sumFV (rndOf md) false [(half (halfFmt bf) x i).mul (half (halfFmt bf) y i), half (halfFmt bf) z i])
/-- DOT2 (spec/06 R135). -/
def dot2W (md : RMode) (bf : Bool) (x y z : Word) : Word :=
  let f := halfFmt bf
  fpRes md false (sumFV (rndOf md) true [v32 z, (half f x 0).mul (half f y 0), (half f x 1).mul (half f y 1)])
/-- DOT2 (spec/06 R135). -/
def execDot2 (h : Hdr) (d a b c : Reg) (md : RMode) (bf : Bool) (s : State) : Out State :=
  .next (s.fp3 h 4 d a b c false (dot2W md bf))
/-- DOT4 (spec/06 R136). -/
def dot4W (sat : Bool) (sg : DotSign) (x y z : Word) : Word :=
  let el := fun (w : Word) (signed : Bool) (i : Nat) =>
    if signed then sext 8 (fld w (8 * i) 8) else ((fld w (8 * i) 8 : Nat) : Int)
  let v : Int := z.toInt + (List.range 4).foldl (fun a i => a + el x (sg != .uu) i * el y (sg == .ss) i) 0
  if sat then clampInt32 v else BitVec.ofInt 32 v
where
  /-- Clamp to int32. -/
  clampInt32 (v : Int) : Word := BitVec.ofInt 32 (clampI (-2 ^ 31) (2 ^ 31 - 1) v)
/-- DOT4 (spec/06 R136). -/
def execDot4 (h : Hdr) (d a b c : Reg) (sat : Bool) (sg : DotSign) (s : State) : Out State :=
  .next (s.fp3 h 4 d a b c false (dot4W sat sg))

/-! ### Conversions (spec/05 R120) -/

/-- FRND: an integral value, with the sign of A on a zero. -/
def frndW (md : RMode) (x : Word) : Word :=
  match v32 x with
  | .nan => nan32
  | .inf _ => x
  | .fin g m e =>
    let i := roundInt (rndOf md) 0 g m e
    r32 .rn (.fin (if i = 0 then g else decide (i < 0)) i.natAbs 0)
/-- FRND (spec/05 R120). -/
def execFrnd (h : Hdr) (d a : Reg) (md : RMode) (s : State) : Out State :=
  .next (s.fp3 h 4 d a .xz .xz false fun x _ _ => frndW md x)
/-- F2I (spec/05 R118, R120). -/
def f2iW (u : Bool) (md : RMode) (x : Word) : Word :=
  BitVec.ofInt 32 (roundIFV (rndOf md) 0 (if u then 0 else -2 ^ 31) (if u then 2 ^ 32 - 1 else 2 ^ 31 - 1) (v32 x))
/-- F2I (spec/05 R120). -/
def execF2i (h : Hdr) (d a : Reg) (u : Bool) (md : RMode) (s : State) : Out State :=
  .next (s.fp3 h 4 d a .xz .xz false fun x _ _ => f2iW u md x)
/-- I2F (spec/05 R120). -/
def i2fW (u : Bool) (md : RMode) (x : Word) : Word :=
  let i : Int := if u then x.toNat else x.toInt
  r32 (rndOf md) (.fin (i < 0) i.natAbs 0)
/-- I2F (spec/05 R120). -/
def execI2f (h : Hdr) (d a : Reg) (u : Bool) (md : RMode) (s : State) : Out State :=
  .next (s.fp3 h 4 d a .xz .xz false fun x _ _ => i2fW u md x)

/-- The slot word a thread's conversion names; 0 on a service core (spec/05 R116). -/
def State.slotWord (s : State) (t : Tid) (k : Nat) : Word :=
  if isSvc (s.block t.blk).core then 0 else (s.block t.blk).fs.getD k 0
/-- CVT: element by element from one slot format to another (spec/05 R120); an infinity goes through R118 with SAT also where both slots
are FP32 (DESIGN CHOICE, log 52). -/
def cvtW (dw sw : Word) (seed : DWord) (lane : Nat) (x c : Word) : Word :=
  let df := fld dw 0 4
  let sf := fld sw 0 4
  BitVec.ofNat 32 ((List.range (Nat.min (slotCount sf) (slotCount df))).foldl (fun a i =>
    a + encSlot dw (decSlot sf (regElem sf x i)) (srBits seed (c + BitVec.ofNat 32 i) lane) * 2 ^ (slotBits df * i)) 0)
/-- CVT (spec/05 R120). -/
def execCvt (h : Hdr) (d a c : Reg) (dst src : Fin 8) (s : State) : Out State :=
  .next (s.fixed qVfp h 4 fun t =>
    [(d, cvtW (s.slotWord t dst.val) (s.slotWord t src.val) (s.seedOf t) t.lane (s.rd t a) (s.rd t c))])
/-- CVTPK: one element of the packed word replaced, unused bits cleared (spec/05 R120). -/
def cvtpkW (dw : Word) (seed : DWord) (lane : Nat) (old x i c : Word) : Word :=
  let f := fld dw 0 4
  let w := slotBits f
  BitVec.ofNat 32 ((List.range (slotCount f)).foldl (fun a k =>
    a + (if k = i.toNat then encSlot dw (v32 x) (srBits seed (c + i) lane) else regElem f old k) * 2 ^ (w * k)) 0)
/-- CVTPK (spec/05 R120). -/
def execCvtpk (h : Hdr) (d a b c : Reg) (dst : Fin 8) (s : State) : Out State :=
  .next (s.fixed qVfp h 4 fun t =>
    [(d, cvtpkW (s.slotWord t dst.val) (s.seedOf t) t.lane (s.rd t d) (s.rd t a) (s.rd t b) (s.rd t c))])
/-- CVTUP: one element as FP32, exact (spec/05 R120). -/
def cvtupW (sw : Word) (x i : Word) : Word :=
  let f := fld sw 0 4
  if i.toNat < slotCount f then r32 .rn (decSlot f (regElem f x i.toNat)) else nan32
/-- CVTUP (spec/05 R120). -/
def execCvtup (h : Hdr) (d a b : Reg) (src : Fin 8) (s : State) : Out State :=
  .next (s.fixed qVfp h 4 fun t => [(d, cvtupW (s.slotWord t src.val) (s.rd t a) (s.rd t b))])

end Sys2Proof.Machine
end

