-- ==== Sys2Proof/Machine/Sync.lean ====
section
/-!
DEFINITION. Machine/Sync.lean: the SYNC class: FENCE, LDA, STL (spec/10 R216 to R223), the atomics (spec/11 R224 to
R231), barriers (R232 to R238) and semaphores (R239 to R244).
-/

namespace Sys2Proof

/-- Does the fence release, acquire (spec/10 R217)? -/
def FenceKind.rels : FenceKind → Bool
  | .acq => false
  | _ => true
/-- Does the fence acquire? -/
def FenceKind.acqs : FenceKind → Bool
  | .rel => false
  | _ => true
/-- The scope of a level (spec/11 R234). -/
def BLevel.scope : BLevel → Scope
  | .core => .core | .quad => .quad | .die => .die | .pkg => .pkg | .pod => .pod
/-- The code of a level (spec/11 R232). -/
def BLevel.num : BLevel → Nat
  | .core => 0 | .quad => 1 | .die => 2 | .pkg => 3 | .pod => 4
/-- The clocks before issue from which BARN may take its value (spec/11 R237). -/
def BLevel.recent : BLevel → Nat
  | .pkg | .pod => 1024
  | _ => 64
/-- The current estimate of a class, for each thread (spec/16 R337). -/
def ActClass.cu : ActClass → Nat
  | .idle => 0 | .int => 1 | .mem => 2 | .vec => 3 | .sfu => 2 | .mtx => 4

end Sys2Proof

namespace Sys2Proof.Machine

/-- The SYNC queue (spec/02 R50). -/
def qSync : Nat := 6

/-! ### FENCE, LDA, STL -/

/-- FENCE (spec/10 R217): each active thread waits for its accesses, releases, waits for the writes its release waits
for, acquires, and goes on. -/
def execFence (h : Hdr) (kind : FenceKind) (sc : Scope) (s : State) : Out State :=
  let c := s.cur.core
  let begin_ := (s.act h).filter fun t => kind.rels && s.fencedDone t && (s.thread t).fenceIds.isNone
  let s := if begin_.isEmpty then s
    else
      let s := s.release c sc
      s.modThreads begin_ fun th => { th with tkSnap := [(1, s.relWaits c sc)] }
  s.waitFor (fun t => !(s.isActive h t) || (s.fencedDone t && (!kind.rels || (match (s.thread t).fenceIds with
      | some ids => s.acked c ids
      | none => false)))) fun s =>
    let s := if kind.acqs && !(s.act h).isEmpty then s.acquireBy c sc (s.act h) else s
    .next (s.retire qSync)

/-- The clocks to the fault point of an access in a space (spec/09 R189). -/
def Space.fp : Space → Nat
  | .global => 3
  | _ => 1
/-- LDA (spec/10 R221). -/
def execLda (h : Hdr) (d base : Reg) (ofs : BitVec 13) (sc : Scope) (sz : Size) (sp : Space) (s : State) : Out State :=
  s.loadWord qSync (Space.fp sp) ((s.act h).map fun t => (t, s.anyAcc t sp base (ofs13 ofs) sz.bytes .r)) sz.bytes d (some sc)
/-- STL (spec/10 R221). -/
def execStl (h : Hdr) (d base : Reg) (ofs : BitVec 13) (sc : Scope) (sz : Size) (sp : Space) (s : State) : Out State :=
  s.storeWord qSync (Space.fp sp) ((s.act h).map fun t => (t, s.anyAcc t sp base (ofs13 ofs) sz.bytes .w)) sz.bytes
    (fun t => s.stData t d sz) (some sc)

/-! ### Atomics (spec/11 R224 to R231) -/

/-- The new value of an n-byte location (spec/11 R226). -/
def atomNew (n : Nat) (op : AOp) (old b cmp : Nat) : Nat :=
  let m := 2 ^ (8 * n)
  let sg (x : Nat) : Int := sext (8 * n) x
  match op with
  | .add => (old + b) % m
  | .min => if sg b < sg old then b else old
  | .max => if sg old < sg b then b else old
  | .umin => Nat.min old b
  | .umax => Nat.max old b
  | .and => Nat.land old b
  | .or => Nat.lor old b
  | .xor => Nat.xor old b
  | .xchg => b
  | .cas => if old = cmp then b else old
  | .inc => if b ≤ old then 0 else old + 1
  | .dec => if old = 0 ∨ b < old then b else old - 1
  | .fadd => (faddW .rn false (BitVec.ofNat 32 old) (BitVec.ofNat 32 b)).toNat

/-- Does a read-modify-write change bytes: not a CAS whose compare fails (spec/11 R227)? -/
def atomWrites (op : AOp) (old cmp : Nat) : Bool := op != .cas || old == cmp

/-- One indivisible read-modify-write by a core: the old value, poison, the state. Where no path leads to the home it reads poison
and writes nothing (spec/19 R399); a RED at a home whose plane is off is discarded and recorded there (spec/09 R181). With `gain` the L1 obtains ownership
of the sector; without, a core that does not own it has its home perform it (spec/11 R224, R229). -/
def State.rmw (s : State) (c : Nat) (gain : Bool) (a : Acc) (n : Nat) (op : AOp) : Nat × Bool × State :=
  match a.loc with
  | .spad k off =>
    let old := s.spadRead k off n
    if s.spadPoison k off n then (old, true, s)
    else (old, false, if atomWrites op old a.cmp then s.spadPut k (cellsAt off n (atomNew n op old a.data a.cmp)) [] [] else s)
  | .mem pa =>
    let sec := secOf pa
    if (s.atHome pa || !(s.core c).owned.contains sec) && s.cut c pa then (0, true, s)
    else if s.planeOff pa then (0, true, if gain then s else s.homePut (cellsAt pa n 0))
    else if s.atHome pa || (!gain && !(s.core c).owned.contains sec) then
      let s := s.gather c sec
      let old := s.homeRead pa n
      if s.homePoison sec then (old, true, s)
      else (old, false, if atomWrites op old a.cmp then s.putHome c (cellsAt pa n (atomNew n op old a.data a.cmp)) [] [] else s)
    else
      let s := s.own c sec
      let old := ofBytes ((List.range n).map fun i => s.l1Byte c (pa + i))
      if (s.core c).l1poison.contains sec then (old, true, s)
      else (old, false, if atomWrites op old a.cmp then s.l1Put c (cellsAt pa n (atomNew n op old a.data a.cmp)) [] else s)

/-- Perform the lanes of an atomic in ascending lane order (spec/11 R227): each access takes its old value and poison. -/
def State.rmws (s : State) (c : Nat) (gain : Bool) (accs : List Acc) (n : Nat) (op : AOp) : List Acc × State :=
  accs.foldl (fun (r : List Acc × State) a =>
    let (old, bad, s) := r.2.rmw c gain a n op
    (r.1 ++ [{ a with data := old, bad := bad }], s)) ([], s)

/-- Are the stores of every row of an atomic's lanes that began before it out of their queues (spec/11 R228)? -/
def State.rowsOut (s : State) (o : Op) : Bool :=
  !(s.opsBefore o.id).any fun p => p.queued && o.tids.any fun t => t.blk == p.blk && t.row == p.row

/-- The bytes of memory an atomic's accesses hold now in sectors its core's L1 owns. -/
def State.accBytes (s : State) (c : Nat) (accs : List Acc) (n : Nat) : List Host.Cell :=
  accs.flatMap fun a => match a.loc with
    | .mem pa => if a.bad || !(s.core c).owned.contains (secOf pa) then [] else (List.range n).map fun i => (pa + i, s.l1Byte c (pa + i))
    | .spad .. => []

/-- LOAD_COMPLETE for ATOM and ATOMS: release where named, the read-modify-writes, the write through of a release at
.QUAD or wider, the acquire, the destinations (spec/11 R227, R228; spec/10 R420). -/
def State.stepAtom (s : State) (o : Op) (accs : List Acc) (n : Nat) (op : AOp) (ord : AOrder) (sc : Scope) (d : Reg) :
    Option State :=
  let rel := ord == .rel || ord == .ar
  let finish (s : State) (accs : List Acc) : State :=
    let s := accs.foldl (fun s a =>
      if a.bad then s.consume a.t o.pc a.va else s.wrN a.t (lanesReg o.tids a.t d) (Nat.max 1 (n / 4)) a.data) s
    (if ord == .acq || ord == .ar then s.acquireBy o.core sc o.tids else s).finish o.id
  let perform (s : State) : State :=
    let (accs, s) := s.rmws o.core true accs n op
    if rel && throughAt o.core sc then
      let (id, s) := s.putThrough o.core (s.accBytes o.core accs n)
      if 3 ≤ Scope.num sc then s.modOp o.id fun p =>
        { p with stage := 2, after := id.toList, kind := .atom accs n op ord sc d }
      else finish s accs
    else finish s accs
  match o.stage with
  | 0 =>
    if !s.rowsOut o || (rel && !s.earlierDone o.tids o.id) then none
    else (s.performBefore o.tids o.id).map fun s =>
      if rel then
        let s := s.release o.core sc
        s.modOp o.id fun p => { p with stage := 1, after := s.relWaits o.core sc }
      else perform s
  | 1 => if s.acked o.core o.after then some (perform s) else none
  | _ => if s.acked o.core o.after then some (finish s accs) else none

/-- The operations of one RED word, one for each row. -/
def State.redMates (s : State) (o : Op) : List Op := s.ops.filter fun p =>
  p.core == o.core && p.pc == o.pc && p.clk == o.clk && (match p.kind with | .red .. => true | _ => false)

/-- STORE_PERFORMED for RED: the rows of one word are performed together, lanes ascending (spec/11 R227, R228); one into
a poisoned sector is discarded (R229); what a release leaves in a sector its L1 owns is written through (spec/10 R420). -/
def State.stepRed (s : State) (o : Op) (n : Nat) (op : AOp) (rel : Option Scope) : Option State :=
  let ms := s.redMates o
  let accs := ms.flatMap fun p => match p.kind with | .red a _ _ _ => a | _ => []
  let lanes := byLane (accs.map (·.t))
  let sorted := lanes.filterMap fun t => accs.find? (·.t == t)
  let act (s : State) : State :=
    let (accs, s) := s.rmws o.core false sorted n op
    let s := match rel with
      | some sc => if throughAt o.core sc then (s.putThrough o.core (s.accBytes o.core accs n)).2 else s
      | none => s
    ms.foldl (fun s p => s.finish p.id) s
  if !ms.all s.isHead then none
  else match rel, o.stage with
    | none, _ => (s.performBefore (accs.map (·.t)) o.id).map act
    | some sc, 0 =>
      if !ms.all (fun p => s.earlierDone p.tids p.id) then none
      else
        let s := s.release o.core sc
        some (ms.foldl (fun s' p => s'.modOp p.id fun q => { q with stage := 1, after := s.relWaits o.core sc }) s)
    | some _, _ => if s.acked o.core o.after then some (act s) else none

/-- The lanes of an atomic word with their operand and compare value, all read at issue (spec/11 R227). -/
def State.atomOps (s : State) (ts : List Tid) (b d : Reg) (n : Nat) (acc : Tid → Except Flt Acc) :
    List (Tid × Except Flt Acc) :=
  (byLane ts).map fun t => (t, (acc t).map fun a => { a with data := s.rdN t b (n / 4), cmp := s.rdN t d (n / 4) })

/-- The bytes of an atomic. -/
def atomBytes (s64 : Bool) : Nat := if s64 then 8 else 4

/-- Lanes that share their location with a lower lane (spec/11 R230). -/
def sharers (accs : List Acc) : Nat := accs.length - (dedup (accs.map (·.loc))).length

/-- An ATOM or ATOMS word: one operation for the group (spec/11 R227, R230). -/
def State.atomWord (s : State) (fp : Nat) (lanes : List (Tid × Except Flt Acc)) (n : Nat) (op : AOp) (ord : AOrder)
    (sc : Scope) (d : Reg) : Out State :=
  match splitFaults lanes with
  | ([], ok) =>
    let accs : List Acc := ok.map (·.2)
    let s' := (s.warm (accs.filterMap fun a => match a.loc with | .mem _ => some (a.t, a.va) | _ => none)).occupy
      (occupancy accs n + sharers accs)
    let ts : List Tid := accs.map Acc.t
    let s' := match ts with
      | [] => s'
      | t :: _ => s'.addOp { s.opOf t (.atom accs n op ord sc d) with tids := ts, cnts := ts.map fun t => (t, .ld) }
    .next (s'.retireFp qSync (fp + 1)).useFree
  | (bad, _) => .next (s.raise bad)

/-- ATOM (spec/11 R227). -/
def execAtom (h : Hdr) (d a b : Reg) (sc : Scope) (ord : AOrder) (s64 : Bool) (op : AOp) (s : State) : Out State :=
  let n := atomBytes s64
  s.atomWord 3 (s.atomOps (s.act h) b d n fun t => s.gAcc t (s.rd64 t a) n .rw true) n op ord sc d
/-- ATOMS (spec/11 R227). -/
def execAtoms (h : Hdr) (d a b : Reg) (sc : Scope) (ord : AOrder) (s64 q : Bool) (op : AOp) (s : State) : Out State :=
  let n := atomBytes s64
  s.atomWord 1 (s.atomOps (s.act h) b d n fun t => s.sAcc t q (s.rd t a).toNat n) n op ord sc d
/-- RED (spec/11 R227): each row's lanes enter its store queue. -/
def execRed (h : Hdr) (a b : Reg) (sc : Scope) (rel s64 : Bool) (op : AOp) (s : State) : Out State :=
  let n := atomBytes s64
  match splitFaults (s.atomOps (s.act h) b .xz n fun t => s.gAcc t (s.rd64 t a) n .rw true) with
  | ([], ok) =>
    let accs := ok.map (·.2)
    let s' := (s.warm (accs.map fun x => (x.t, x.va))).occupy (occupancy accs n + sharers accs)
    let s' := (rowsOf (ok.map (·.1))).foldl (fun s' r =>
      let mine := accs.filter fun x => x.t.blk == r.1 && x.t.row == r.2
      s'.addOp { s.opOf ⟨r.1, 64 * r.2⟩ (.red mine n op (if rel then some sc else none)) with
        tids := mine.map (·.t), cnts := mine.map fun x => (x.t, .st) }) s'
    .next (s'.retireFp qSync 4).useFree
  | (bad, _) => .next (s.raise bad)

/-! ### Barriers (spec/11 R232 to R238) -/


/-- The barrier a thread's block uses at a level, where the level's requirement is met (spec/11 R232). The holder is the
block handle, or the grid with the group's number above bit 32. -/
def State.barOf (s : State) (t : Tid) (lvl : BLevel) (id : Nat) : Option BarId :=
  let b := s.block t.blk
  let g := s.grid b.grid
  match lvl with
  | .core => some ⟨lvl, t.blk, id⟩
  | .quad => b.qgid.map fun q => ⟨lvl, b.grid + q * 2 ^ 32, id⟩
  | .die => b.dgid.map fun q => ⟨lvl, b.grid + q * 2 ^ 32, id⟩
  | .pkg => if isSvc b.core || !g.lrec.cores then none else some ⟨lvl, b.grid, id⟩
  | .pod => if isSvc b.core || !g.lrec.pod then none else some ⟨lvl, b.grid, id⟩


/-- Is the arrival's release complete (spec/11 R234)? With .EX it counts from the clock after issue. -/
def State.arrivalReady (s : State) (o : Op) : Bool := match o.kind with
  | .barArr _ _ _ true _ => decide (o.clk + 1 ≤ s.now o.core)
  | .barArr _ _ _ false _ => o.stage == 1 && s.acked o.core o.after
  | _ => false

/-- The order of arrivals that count in one clock: QPOS, lane, slot (spec/11 R233). -/
def State.arrRank (s : State) (o : Op) (t : Tid) : Nat :=
  ((s.capRank o * 4 + qposOf o.core) * 64 + t.lane) * 64 + s.slot t

/-- Is the arrival the next to count: its release is complete, its thread has not arrived in the phase, no phase is about to open, and
no arrival that is ready too ranks before it (spec/11 R233, R234)? -/
def State.countsNow (s : State) (o : Op) (t : Tid) (b : BarId) : Bool :=
  let part := (s.bar b).part
  s.arrivalReady o && !part.contains t && (s.opening b).isNone && s.ops.all fun q => match q.kind with
    | .barArr u b' _ _ _ => q.id == o.id || b' != b || !s.arrivalReady q || part.contains u || decide (s.arrRank o t ≤ s.arrRank q u)
    | _ => true

/-- BARRIER_ARRIVAL (spec/11 R233, R234, R237): first the release of the level's scope; then the arrival counts, in the
order of R233, unless its thread has arrived in the phase already or the phase is about to open. BAR then waits; BARA
records the phase, in place of one recorded for the barrier before (DESIGN CHOICE, log 54). -/
def State.arrive (s : State) (o : Op) (t : Tid) (b : BarId) (c : Nat) (ex : Bool) (p : Option Pred) : Option State :=
  if !ex && o.stage = 0 then
    if !s.earlierDone o.tids o.id then none
    else
      let s := s.release o.core b.level.scope
      some (s.modOp o.id fun q => { q with stage := 1, after := s.relWaits o.core b.level.scope })
  else
    let r := s.bar b
    if !s.countsNow o t b then none
    else
      let s := s.modBar b fun r => { r with
        c0 := some (r.c0.getD c)
        e := if r.c0.isNone then (if c = 0 then (s.members b).length else c) else r.e
        broken := r.broken || (match r.c0 with | some x => x != c | none => false)
        part := r.part ++ [t] }
      let s := if b.level = .core then s else s.settleBars t.blk
      match p with
      | some p =>
        let s := s.modBar b fun r => { r with waiting := r.waiting ++ [o.id] }
        some (s.modOp o.id fun q => { q with kind := .barWait t b r.phase ex p, stage := 0, after := [] })
      | none =>
        let s := s.modThread t fun th => { th with bara := th.bara.filter (fun x => x.bar != b) ++ [⟨b, r.phase⟩] }
        some (s.finish o.id)

/-- The further threads of a wave whose sum of estimates is `sum` (spec/16 R338): in order, while it stays within SLOPE. -/
def waveMore (slope : Nat) : Nat → List (Nat × Nat) → List Nat
  | _, [] => []
  | sum, (i, cu) :: t => if slope = 0 ∨ sum + cu ≤ slope ∨ cu = 0 then i :: waveMore slope (sum + cu) t else []
/-- The threads of one wave (spec/16 R338): at least one; SLOPE 0 takes all. -/
def waveTake (slope : Nat) : List (Nat × Nat) → List Nat
  | [] => []
  | (i, cu) :: t => i :: waveMore slope cu t

/-- SLOPE for a barrier level at a core (spec/16 R338). -/
def State.slope (s : State) (c : Nat) (lvl : BLevel) : Nat := match lvl with
  | .core | .quad => (s.quad (quadOf c)).cslim
  | _ => (s.die (dieOf c)).cslim

/-- Release one thread from a phase (spec/11 R233, R234, R237): acquire, predicate, and BAR_BROKEN where enabled. -/
def State.releaseWait (s : State) (o : Op) : State := match o.kind with
  | .barWait t b phase ex p =>
    let ok := (((s.bar b).results.find? (·.1 == phase)).map (·.2)).getD true
    let s := if ex then s else s.acquireBy o.core b.level.scope [t]
    let s := s.wrP t p ok
    let trap := !ok && (s.grid (s.block t.blk).grid).lrec.trapen.getLsbD 0
    let s := s.modThread t fun th => { th with
      waitOp := none
      bara := th.bara.filter fun x => !(x.bar == b && x.phase == phase)
      lastRes := th.lastRes.filter (fun x => x.1 != b) ++ [(b, ok)]
      trap := if trap then th.trap.orElse fun _ => some
          { code := FCode.barBroken.num, pc := o.pc, val := BitVec.ofNat 64 (b.level.num * 16 + b.id) }
        else th.trap }
    s.finish o.id
  | _ => s

/-- BARRIER_WAVE (spec/16 R338): every core whose next wave is due releases it. -/
def State.wave (s : State) (b : BarId) : Option State :=
  let r := s.bar b
  let due := r.waveAt.filter fun p => p.2.1 ≤ s.now p.1
  if due.isEmpty then none
  else some (due.foldl (fun s p =>
    let c := p.1
    let mine := (s.bar b).waves.filterMap fun i => match s.op? i with
      | some o => if o.core = c then some (i, (s.block o.blk).actclass.cu) else none
      | none => none
    let take := if p.2.2 ≤ s.now c then mine.map (·.1) else waveTake (s.slope c b.level) mine
    let left := mine.length != take.length
    let s := s.modBar b fun r => { r with
      waves := r.waves.filter fun i => !take.contains i
      waveAt := if left then r.waveAt.put c (Nat.min (p.2.1 + 4) p.2.2, p.2.2) else r.waveAt.del c }
    take.foldl (fun s i => match s.op? i with
      | some o => s.releaseWait o
      | none => s) s) s)

/-- The faults of a barrier word: the level's requirement (spec/11 R232). -/
def State.barFaults (s : State) (ts : List Tid) (lvl : BLevel) (id : Nat) : List (Tid × Flt) :=
  ts.filterMap fun t => if (s.barOf t lvl id).isNone then some (t, ⟨.access, 0, 0⟩) else none

/-- BAR and BARA: each active thread's arrival begins, in lane order; a BAR blocks its thread (spec/11 R237). -/
def State.barWord (s : State) (h : Hdr) (p : Option Pred) (a : Reg) (cnt : BitVec 14) (ex : Bool) (lvl : BLevel)
    (id : Nat) : Out State :=
  let ts := byLane (s.act h)
  match s.barFaults ts lvl id with
  | [] =>
    let s' := ts.foldl (fun s' t => match s.barOf t lvl id with
      | none => s'
      | some b =>
        let i := s'.nextId
        let s' := s'.addOp (s.opOf t (.barArr t b (s.rd t a + cnt.zeroExtend 32).toNat ex p))
        if p.isSome then s'.modThread t fun th => { th with waitOp := some i } else s') s
    .next (s'.retireFp qSync 2).useFree
  | bad => .next (s.raise bad)

/-- BAR (spec/11 R237). -/
def execBar (h : Hdr) (p : Pred) (a : Reg) (cnt : BitVec 14) (ex : Bool) (lvl : BLevel) (id : Fin 16) (s : State) :
    Out State := s.barWord h (some p) a cnt ex lvl id.val
/-- BARA (spec/11 R237). -/
def execBara (h : Hdr) (a : Reg) (cnt : BitVec 14) (ex : Bool) (lvl : BLevel) (id : Fin 16) (s : State) : Out State :=
  s.barWord h none a cnt ex lvl id.val

/-- Has the thread an arrival at the barrier that does not count yet? -/
def State.arriving (s : State) (t : Tid) (b : BarId) : Bool := s.ops.any fun o => match o.kind with
  | .barArr u b' _ _ _ => u == t && b' == b
  | _ => false

/-- BARW (spec/11 R237): a recorded phase that has not opened is waited for; otherwise the predicate is written 4 clocks
after issue, after the acquire of a recorded phase, and no access word issues before (spec/10 R202). A thread that finds its phase
opened BROKEN has not been released from a wait and takes no trap (R233; DESIGN CHOICE, log 54). -/
def execBarw (h : Hdr) (p : Pred) (ex : Bool) (lvl : BLevel) (id : Fin 16) (s : State) : Out State :=
  match s.barFaults (s.act h) lvl id.val with
  | [] => s.waitFor (fun t => !(s.isActive h t) || (match s.barOf t lvl id.val with
      | some b => !s.arriving t b
      | none => true)) fun s =>
    let s' := (byLane (s.act h)).foldl (fun s' t => match s.barOf t lvl id.val with
      | none => s'
      | some b => match (s.thread t).bara.find? (·.bar == b) with
        | none => s'.wrPAt t p ((((s.thread t).lastRes.find? (·.1 == b)).map (·.2)).getD true) (s.clk + 4) qSync
        | some r => match (s'.bar b).results.find? (·.1 == r.phase) with
          | some q =>
            let s' := if ex then s' else s'.acquireBy s.cur.core lvl.scope [t]
            (s'.wrPAt t p q.2 (s.clk + 4) qSync).modThread t fun th => { th with
              bara := th.bara.filter fun x => x.bar != b
              lastRes := th.lastRes.filter (fun x => x.1 != b) ++ [(b, q.2)] }
          | none =>
            let i := s'.nextId
            let s' := s'.addOp (s.opOf t (.barWait t b r.phase ex p))
            (s'.modThread t fun th => { th with waitOp := some i }).modBar b fun k => { k with waiting := k.waiting ++ [i] }) s
    .next ((s'.retireFp qSync 2).modThreads (s.act h) fun th => { th with accAt := Nat.max th.accAt (s.clk + 4) }).useFree
  | bad => .next (s.raise bad)

/-- BARN's state word (spec/11 R237) as it is now. -/
def State.barWordOf (s : State) (b : BarId) : Word :=
  let r := s.bar b
  BitVec.ofNat 32 ((if r.lastOk then 0 else 2 ^ 31) + r.phase % 128 * 2 ^ 24 + Nat.min (2 ^ 24 - 1) (s.arrivals b).length)
/-- A state word that a barrier held of late. -/
def State.barWordSeen (s : State) (t : Tid) (b : BarId) : Word :=
  s.oneOf t.idx (s.recent b.level.recent (s.barWordOf b) fun p => (p.bars.find? (·.1 == b)).map (·.2))
/-- BARN (spec/11 R237): a word the barrier held at some clock of the last 64, or 1,024. -/
def execBarn (h : Hdr) (d : Reg) (lvl : BLevel) (id : Fin 16) (s : State) : Out State :=
  match s.barFaults (s.act h) lvl id.val with
  | [] => .next ((s.fixed qSync h 4 fun t => match s.barOf t lvl id.val with
    | some b => [(d, s.barWordSeen t b)]
    | none => []).fpUntil 2)
  | bad => .next (s.raise bad)

/-! ### Semaphores (spec/11 R239 to R244) -/

/-- The greatest count (spec/11 R239). -/
def semMax : Nat := 1048575
/-- A semaphore of a core. -/
def State.sem (s : State) (c k : Nat) : Sem := (s.core c).sems.getD k {}
/-- Change a semaphore. -/
def State.modSem (s : State) (c k : Nat) (f : Sem → Sem) : State :=
  s.modCore c fun x => { x with sems := x.sems.put k (f (x.sems.getD k {})) }
/-- Add units, clipped, and status bits (spec/11 R239). -/
def State.semAdd (s : State) (c k n : Nat) (err timeout : Bool) : State :=
  s.modSem c k fun m => { m with
    count := Nat.min (m.count + n) semMax, ovf := m.ovf || decide (semMax < m.count + n)
    err := m.err || err, timeout := m.timeout || timeout }
/-- The state word (spec/11 R239). -/
def Sem.word (m : Sem) : Word :=
  BitVec.ofNat 32 (m.count + (if m.err then 2 ^ 20 else 0) + (if m.timeout then 2 ^ 21 else 0) + (if m.ovf then 2 ^ 22 else 0))

/-- The units a word names, and its fault where they exceed the greatest count (spec/11 R241). -/
def State.semUnits (s : State) (t : Tid) (a : Reg) (cnt : BitVec 16) : Nat := (s.rd t a + cnt.zeroExtend 32).toNat
/-- Lanes whose units are too many. -/
def State.semFaults (s : State) (ts : List Tid) (a : Reg) (cnt : BitVec 16) : List (Tid × Flt) :=
  ts.filterMap fun t => if semMax < s.semUnits t a cnt then some (t, ⟨.access, 0, 0⟩) else none

/-- Are steps of lower lanes of a semaphore operation's group still to be taken (spec/11 R241)? -/
def State.lowerLanes (s : State) (o : Op) : Bool :=
  (s.opsBefore o.id).any fun q => q.core == o.core && q.pc == o.pc && q.clk == o.clk && (match q.kind with
    | .semrel .. | .semtry .. => true
    | _ => false)
/-- Has the thread of an operation an earlier SEMREL on a semaphore whose step is still to be taken (spec/10 R204)? -/
def State.ownSemrel (s : State) (o : Op) (c k : Nat) : Bool :=
  (s.opsBefore o.id).any fun q => match q.kind with
    | .semrel t c' k' _ _ => o.tids.contains t && c' == c && k' == k
    | _ => false

/-- SEMACQ: each active lane joins the queue and blocks at the word (spec/11 R241). -/
def execSemacq (h : Hdr) (sc : Scope) (a : Reg) (cnt : BitVec 16) (k : Fin 64) (s : State) : Out State :=
  match s.semFaults (s.act h) a cnt with
  | [] =>
    let s' := (byLane (s.act h)).foldl (fun s' t =>
      let i := s'.nextId
      ((s'.addOp (s.opOf t (.semacq t k.val (s.semUnits t a cnt) sc))).modSem s.cur.core k.val fun m =>
        { m with queue := m.queue ++ [i] }).modThread t fun th => { th with waitOp := some i, since := none }) s
    let rest := s.cur.tids.filter fun t => !s.isActive h t
    .next (((s'.narrow rest).retireFp qSync 2).narrow s.cur.tids).useFree
  | bad => .next (s.raise bad)

/-- SEMAPHORE_SERVE: the head takes its units and acquires (spec/11 R241). -/
def State.semServe (s : State) (c k : Nat) : Option State :=
  match (s.sem c k).queue with
  | [] => none
  | i :: rest => match s.op? i with
    | none => some (s.modSem c k fun m => { m with queue := rest })
    | some o => match o.kind with
      | .semacq _ _ n sc =>
        if decide ((s.sem c k).count < n) || s.ownSemrel o c k then none
        else
          let s := s.modSem c k fun m => { m with count := m.count - n, queue := rest }
          some (((s.acquireBy c sc o.tids).unblock o qSync).finish i)
      | _ => none

/-- SEMREL: each lane's release enters its row's store queue (spec/11 R241, R243). -/
def execSemrel (h : Hdr) (sc : Scope) (q : Option (Fin 4)) (a : Reg) (cnt : BitVec 16) (k : Fin 64) (s : State) :
    Out State :=
  let target (t : Tid) : Option Nat := match q with
    | none => some s.cur.core
    | some p => (s.qmember (s.block t.blk) p.val).map fun m => m.2.core
  let bad := (s.act h).filterMap fun t =>
    if semMax < s.semUnits t a cnt || (target t).isNone then some (t, (⟨.access, 0, 0⟩ : Flt)) else none
  if bad.isEmpty then
    .next (((byLane (s.act h)).foldl (fun s' t => match target t with
      | some c => s'.addOp { s.opOf t (.semrel t c k.val (s.semUnits t a cnt) sc) with cnts := [(t, .st)] }
      | none => s') s).retireFp qSync 2).useFree
  else .next (s.raise bad)

/-- STORE_PERFORMED for SEMREL: release, then the addition as one step (spec/11 R241, R242). -/
def State.stepSemrel (s : State) (o : Op) (c k n : Nat) (sc : Scope) : Option State :=
  if !s.isHead o then none
  else match o.stage with
    | 0 =>
      if !s.earlierDone o.tids o.id then none
      else
        let s := s.release o.core sc
        some (s.modOp o.id fun p => { p with stage := 1, after := s.relWaits o.core sc })
    | _ => if s.acked o.core o.after && !s.lowerLanes o then some ((s.semAdd c k n false false).finish o.id) else none

/-- SEMTRY: each lane's step goes in flight (spec/11 R241, R243). -/
def execSemtry (h : Hdr) (p : Pred) (sc : Scope) (a : Reg) (cnt : BitVec 16) (k : Fin 64) (s : State) : Out State :=
  match s.semFaults (s.act h) a cnt with
  | [] =>
    .next (((byLane (s.act h)).foldl (fun s' t =>
      s'.addOp { s.opOf t (.semtry t k.val (s.semUnits t a cnt) p sc) with cnts := [(t, .ld)] }) s).retireFp qSync 2).useFree
  | bad => .next (s.raise bad)

/-- LOAD_COMPLETE for SEMTRY: one step; lanes of one group ascending (spec/11 R241). -/
def State.stepSemtry (s : State) (o : Op) (t : Tid) (k n : Nat) (p : Pred) (sc : Scope) : Option State :=
  if s.lowerLanes o || s.ownSemrel o o.core k then none
  else
    let m := s.sem o.core k
    if m.queue.isEmpty && n ≤ m.count then
      let s := (s.modSem o.core k fun m => { m with count := m.count - n }).wrP t p true
      some ((s.acquireBy o.core sc o.tids).finish o.id)
    else some ((s.wrP t p false).finish o.id)

/-- Has the thread a semaphore word in flight (spec/11 R243)? -/
def State.semBusy (s : State) (t : Tid) : Bool := s.ops.any fun o => o.tids.contains t && (match o.kind with
  | .semrel .. | .semtry .. | .semacq .. => true
  | _ => false)

/-- SEMRD: it issues after the thread's earlier semaphore words; lanes ascending, .CLR clears the status bits in the
same step (spec/11 R241, R243). -/
def execSemrd (h : Hdr) (d : Reg) (clr : Bool) (k : Fin 64) (s : State) : Out State :=
  s.waitFor (fun t => !(s.isActive h t) || !s.semBusy t) fun s =>
    let ts := byLane (s.act h)
    let m := s.sem s.cur.core k.val
    let later := if clr then { m with err := false, timeout := false, ovf := false } else m
    let s' := s.fixed qSync h 4 fun t => [(d, if ts.head? == some t then m.word else later.word)]
    .next (if ts.isEmpty || !clr then s' else s'.modSem s.cur.core k.val fun _ => later)

end Sys2Proof.Machine
end

