-- ==== Sys2Proof/Machine/Engine.lean ====
section
/-!
DEFINITION. Machine/Engine.lean: what the words that start engine operations share: the consumed and produced tokens
(spec/03 R69, R70), the start conditions (spec/10 R213), one operation for each block or each lane (spec/12 R246), the
records of operations that end with error (spec/12 R251), tags set by an engine (R250).
-/

namespace Sys2Proof.Machine

/-- What an operation of these threads starts after: their accesses in flight and the operations of the consumed tokens
(spec/10 R213, spec/03 R70). -/
def State.startAfter (s : State) (b : Nat) (ts : List Tid) (ins : List Tok) : List Nat :=
  (s.ops.filter fun o => o.kind.fenced && ts.any o.tids.contains).map (·.id) ++ ins.flatMap (s.tokOps b)

/-- Add an operation to a token of a block. -/
def State.addTok (s : State) (b : Nat) (k : Tok) (id : Nat) : State :=
  s.modBlock b fun blk => { blk with toks := blk.toks.put k.val { prod := true, ops := (blk.tok k).ops ++ [id] } }

/-- Every block with a thread in the group has produced a token, whose completed operations leave its set (spec/03
R69). -/
def State.produceAll (s : State) (k : Tok) : State :=
  (blksOf s.cur.tids).foldl (fun s b => s.produce b k []) s

/-- The TOKEN_STALE faults of the active lanes (spec/03 R70). -/
def State.staleFaults (s : State) (ts : List Tid) (ins : List Tok) : List (Tid × Flt) :=
  ts.filterMap fun t => (s.staleOf t ins).map fun f => (t, f)

/-- A word that starts one operation for each block with an active lane. `check` decides the block's fault, taken by
each of its active lanes, or its operation, from the lowest active lane (spec/12 R246, spec/14 R308). -/
def State.blockWord (s : State) (q fp : Nat) (h : Hdr) (ins : List Tok) (tko : Option Tok) (cnt : Option Cnt)
    (check : Tid → Except Flt OpKind) : Out State :=
  let ts := s.act h
  match s.staleFaults ts ins with
  | [] => match splitFaults ((blksOf ts).filterMap fun b => (lowLane ts b).map fun t => (t, check t)) with
    | ([], ok) =>
      let s0 := match tko with
        | some k => s.produceAll k
        | none => s
      let s' := ok.foldl (fun s' p =>
        let b := p.1.blk
        let mine := ts.filter (·.blk == b)
        let id := s'.nextId
        let s' := s'.addOp { s.opOf p.1 p.2 with
          tids := mine, cnts := mine.filterMap (fun t => cnt.map fun c => (t, c)), after := if p.2 == .join then ins.flatMap (s.tokOps b) else s.startAfter b mine ins }
        match tko with
        | some k => s'.addTok b k id
        | none => s') s0
      .next (s'.retireFp q (fp + 1)).useFree
    | (bad, _) => .next (s.raise (ts.filterMap fun t => (bad.find? (·.1.blk == t.blk)).map fun p => (t, p.2)))
  | bad => .next (s.raise bad)

/-- A word that starts one operation for each active lane, and for each block one operation of its token that completes
with them (spec/12 R246, spec/14 R309). -/
def State.laneWord (s : State) (q fp : Nat) (h : Hdr) (ins : List Tok) (tko : Tok) (cnt : Cnt)
    (check : Tid → Except Flt OpKind) : Out State :=
  let ts := byLane (s.act h)
  match s.staleFaults ts ins with
  | [] => match splitFaults (ts.map fun t => (t, check t)) with
    | ([], ok) =>
      let s' := (blksOf ts).foldl (fun s' b =>
        let mine := ok.filter (·.1.blk == b)
        let first := s'.nextId
        let s' := mine.foldl (fun s' p => s'.addOp { s.opOf p.1 p.2 with
          cnts := [(p.1, cnt)], acts := mine.map (·.1), after := s.startAfter b [p.1] ins }) s'
        let id := s'.nextId
        match mine.head? with
        | none => s'
        | some p => (s'.addOp { s.opOf p.1 .group with
            tids := mine.map (·.1), after := (List.range mine.length).map (first + ·) }).addTok b tko id) (s.produceAll tko)
      .next (s'.retireFp q (fp + 1)).useFree
    | (bad, _) => .next (s.raise bad)
  | bad => .next (s.raise bad)

/-- Complete a lane's operation, and the block's with the last lane (spec/03 R69). -/
def State.finishLane (s : State) (id : Nat) : State :=
  let s := s.finish id
  (s.ops.filter fun o => o.kind == .group && o.after.contains id && s.startable o).foldl (fun s o => s.finish o.id) s

/-- Take the produced bit back from the tokens of an operation whose word did not take effect (spec/00 R10): `lim` 1 marks
that the word set it. -/
def State.unproduce (s : State) (o : Op) : State :=
  if o.lim = 0 then s
  else
    let back (p : Nat × TokSt) : Nat × TokSt := if p.2.ops.contains o.id then (p.1, { p.2 with prod := false }) else p
    s.modBlock o.blk fun b => { b with toks := b.toks.map back }

/-- A waiting word is abandoned: its operation ends without effect and its threads are at the word again (spec/18
R382). -/
def State.abandon (s : State) (o : Op) : State :=
  ((s.unproduce o).finishLane o.id).modThreads o.tids fun th => { th with waitOp := none }

/-- Start conditions hold (spec/10 R213, spec/03 R70). -/
def State.canRun (s : State) (o : Op) : Bool := s.startable o

/-- The lowest active thread an operation acts for. -/
def Op.low (o : Op) : Tid := (lowLane o.tids o.blk).getD ⟨o.blk, 0⟩
/-- The active threads of an operation's word in its block. -/
def Op.active (o : Op) : List Tid := if o.acts.isEmpty then o.tids else o.acts

/-- An imprecise record of an operation: the address of its word, the lowest active thread's LANE and SLOT, the issuing active
lanes of its row (spec/12 R251, R421; spec/18 R371). -/
def State.engineRec (s : State) (o : Op) (code : FCode) (sub : Nat) (val : DWord) : FRec :=
  let t := (lowLane o.active o.blk).getD ⟨o.blk, 0⟩
  { id := 0, code := code.num, sub := sub, slot := s.slot t, lane := t.lane, pc := o.pc, val := val, row := t.row,
    lmask := laneMask (o.active.filter fun u => u.row == t.row), op := if sub = 3 then some o.id else none }

/-- An operation ends with error (spec/12 R251): FAULTST.COPYERR, a COPY_FAULT record, and its grid will be FAULTED
(spec/18 R373). -/
def State.copyFault (s : State) (o : Op) (val : DWord) : State :=
  ((s.setFaultst o.blk 2).impRec o.blk (s.engineRec o .copyFault 0 val)).modGrid (s.block o.blk).grid
    fun g => { g with faulted := true }

/-- An engine's write of bytes at a place: to memory, or to a scratchpad, where each word's tag is set as the word is written, not after all
writes of the operation (spec/12 R250 against spec/10 R213; DESIGN CHOICE, log 17). -/
def State.engPut (s : State) (c : Nat) (l : Loc) (bs : List Byte) (bad setf : Bool) : State :=
  match l with
  | .mem pa => s.engineWrite c (bs.zipIdx.map fun p => (pa + p.2, p.1)) (if bad then secsOf pa bs.length else [])
  | .spad k off =>
    let cs : List Host.Cell := bs.zipIdx.map fun p => (off + p.2, p.1)
    let s := s.spadPut k cs (if bad then secsOf off bs.length else []) []
    if setf then (sortNat (cs.map fun p => p.1 / 4)).foldl (fun s w => s.changeTag k w true) s else s

/-- An engine's read of bytes at a place, through the issuing core's L1 (spec/10 R213): bytes, poison, state. -/
def State.engGet (s : State) (c : Nat) (l : Loc) (n : Nat) : List Byte × Bool × State :=
  let (v, p, s) := s.readLoc c l n
  (bytesOf n v, p, s)

end Sys2Proof.Machine
end

