-- ==== Sys2Proof/Machine/Acc.lean ====
section
/-!
DEFINITION. Machine/Acc.lean: accumulation lines (spec/14): the copies of an accumulation store (R295, R296), the
contributions (R298) and write-backs (R297), settled reads (R303), and the seven ACC words (R306 to R317).
-/

namespace Sys2Proof.Machine

/-- The ACC queue (spec/02 R50). -/
def qAcc : Nat := 9

/-! ### Values -/

/-- Sat72: the clipped value and whether it was clipped (spec/14 R297). -/
def sat72 (x : Int) : Int × Bool :=
  let y := clampI (-(2 ^ 71)) (2 ^ 71 - 1) x
  (y, x != y)
/-- Saturate to int64 (spec/14 R293). -/
def sat64 (x : Int) : Int := clampI (-(2 ^ 63)) (2 ^ 63 - 1) x
/-- An int64 as its 8 bytes' number. -/
def u64 (x : Int) : Nat := (x % 2 ^ 64).toNat

/-- Apply one contribution to element e of an R copy (spec/14 R298); none is a poison mark. One to an element the mode does not
have is lost: its line was established anew under it (spec/14 R310). -/
def AccCopy.apply (k : AccCopy) (e : Nat) (x : Option FV) : AccCopy :=
  if k.estab = 0 || (k.exact && decide (32 ≤ e)) then k
  else match x with
    | none => { k with poison := true }
    | some v =>
      let was := k.touched.getD e false
      let d := k.vals.getD e 0
      let k := { k with touched := k.touched.set e true }
      if !k.exact then
        let w := if was then (r32 .rn (sumFV .rn false [v32 (wordOf d), v])) else r32 .rn v
        { k with vals := k.vals.set e (w.toNat : Int) }
      else match v with
        | .fin n m x =>
          let q := roundInt .rn 0 n m (x + 40 - k.e)
          let q' := sat64 q
          let (y, o) := sat72 (d + q')
          { k with vals := k.vals.set e y, ovf := k.ovf || q != q' || o }
        | _ => { k with nan := k.nan.set e true }

/-! ### Copies -/

/-- The copy a core holds of a line. -/
def State.accCopy (s : State) (c ln : Nat) : Option AccCopy := (s.core c).acc.find ln
/-- Put a copy. -/
def State.putCopy (s : State) (c ln : Nat) (k : AccCopy) : State := s.modCore c fun x => { x with acc := x.acc.put ln k }
/-- Drop a copy. -/
def State.dropCopy (s : State) (c ln : Nat) : State := s.modCore c fun x => { x with acc := x.acc.del ln }

/-- Write the elements of an EXACT line at its home: values and their saturated int64 bytes (spec/14 R293). -/
def State.putExact (s : State) (ln : Nat) (els : List (Nat × Int)) : State :=
  let s := s.homePut (els.flatMap fun p => cellsAt (ln * 256 + 8 * p.1) 8 (u64 (sat64 p.2)))
  { s with mem := { s.mem with lines := s.mem.lines.upd (fun l =>
    { l with vals := els.foldl (fun v p => v.set p.1 p.2) l.vals }) ln } }

/-- Poison the four sectors of a line at its home (spec/14 R297). -/
def State.taintLine (s : State) (ln : Nat) : State := (List.range 4).foldl (fun s i => s.homeTaint (ln * 4 + i)) s

/-- Add an FP32 value to an exact sum with marks (spec/18 R394). -/
def capAdd (p : Int × Nat) (v : FV) : Int × Nat := match v with
  | .nan => (p.1, Nat.lor p.2 1)
  | .inf n => (p.1, Nat.lor p.2 (if n then 4 else 2))
  | .fin n m e => (p.1 + alignTo n m e (-149), p.2)
/-- The FP32 word of an exact sum, rounded once (spec/18 R394). -/
def capWord (p : Int × Nat) : Word :=
  if p.2 % 2 = 1 ∨ (p.2 / 2 % 2 = 1 ∧ p.2 / 4 % 2 = 1) then nan32
  else if p.2 / 2 % 2 = 1 then r32 .rn (.inf false)
  else if p.2 / 4 % 2 = 1 then r32 .rn (.inf true)
  else r32 .rn (.fin (p.1 < 0) p.1.natAbs (-149))

/-- The exact sum a FAST home element holds under capture: from its bytes where a plain store was the last (spec/14 R300). -/
def State.capStart (s : State) (ln e : Nat) (p : Int × Nat) : Int × Nat :=
  if p.2 = capStored then capAdd (0, 0) (v32 (BitVec.ofNat 32 (s.homeRead (ln * 256 + 4 * e) 4))) else p
/-- The exact sums of a line after a delta (spec/18 R394). -/
def State.capSum (s : State) (ln : Nat) (k : AccCopy) (es : List Nat) (cap : List (Int × Nat)) : List (Int × Nat) :=
  es.foldl (fun l e => match l.drop e with
    | p :: _ => l.set e (capAdd (s.capStart ln e p) (v32 (wordOf (k.vals.getD e 0))))
    | [] => l) cap
/-- The FP32 word a FAST home element takes when a delta is added (spec/14 R297), or, under capture, from its new exact sum
(spec/18 R394). -/
def State.fastSum (s : State) (cap : List (Int × Nat)) (ln e : Nat) (d : Word) : Word := match cap[e]? with
  | some p => capWord p
  | none => faddW .rn false (BitVec.ofNat 32 (s.homeRead (ln * 256 + 4 * e) 4)) d

/-- Is a write to a line's home discarded: the memory plane is off, or no path from the core remains (spec/09 R181, spec/19
R399)? -/
def State.noHome (s : State) (c ln : Nat) : Bool := s.cut c (ln * 256) || s.planeOff (ln * 256)
/-- A discarded write to a line's home: a plane that is off logs the address (spec/09 R181). -/
def State.discardLine (s : State) (c ln : Nat) : State :=
  if s.cut c (ln * 256) then s else s.homePut (cellsAt (ln * 256) 256 0)

/-- WRITE-BACK of a core's R copy of a line (spec/14 R297), one indivisible step at the home; the copy becomes I. -/
def State.accWriteBack (s : State) (c ln : Nat) : State :=
  match s.accCopy c ln with
  | none => s
  | some k =>
    if k.settled then s
    else
      let s := s.dropCopy c ln
      if s.noHome c ln then s.discardLine c ln
      else match s.mem.lines.find ln with
        | none => if k.estab = 0 then s.taintLine ln else s
        | some l =>
          if l.estab ≠ k.estab then s
          else
            let es := (List.range k.touched.length).filter fun e => k.touched.getD e false
            let s := if l.exact then
                let new := es.map fun e => (e, sat72 (l.vals.getD e 0 + k.vals.getD e 0))
                let s := s.putExact ln (new.map fun p => (p.1, p.2.1))
                { s with mem := { s.mem with lines := s.mem.lines.upd (fun l =>
                  { l with ovf := l.ovf || k.ovf || new.any fun p => p.2.2 || p.2.1 != sat64 p.2.1
                           nan := (l.nan.zip k.nan).map fun p => p.1 || p.2 }) ln } }
              else
                let cap := s.capSum ln k es l.cap
                let s := s.homePut (es.flatMap fun e => cellsAt (ln * 256 + 4 * e) 4
                  (s.fastSum cap ln e (wordOf (k.vals.getD e 0))).toNat)
                { s with mem := { s.mem with lines := s.mem.lines.upd (fun l => { l with cap := cap }) ln } }
            { s with mem := { s.mem with lines := s.mem.lines.upd (fun l => { l with poison := l.poison || k.poison }) ln } }

/-- The lines whose copies a block opened on its core. -/
def State.accHeld (s : State) (c b : Nat) : List (Nat × AccCopy) := (s.core c).acc.filter (·.2.blk == b)

/-- Make room for one more line of a block: its least recently used one is evicted (spec/14 R296). -/
def State.accRoom (s : State) (c b : Nat) : State :=
  let held := s.accHeld c b
  let cap := (s.block b).accLines
  if cap = 0 || decide (held.length < cap) then s
  else match held.find? fun p => held.all fun q => p.2.age ≤ q.2.age with
    | none => s
    | some p => if p.2.settled then s.dropCopy c p.1 else s.accWriteBack c p.1

/-- Open an R copy: mode and window as read from home; an S copy is dropped; a line not established gives the mark, held
as establishment number 0 (spec/14 R295). -/
def State.openR (s : State) (c b ln : Nat) : State :=
  let s := (s.dropCopy c ln).accRoom c b
  let l := s.mem.lines.find ln
  s.putCopy c ln {
    settled := false
    exact := (l.map (·.exact)).getD false
    e := (l.map (·.e)).getD 0
    estab := (l.map (·.estab)).getD 0
    vals := List.replicate 64 0
    touched := List.replicate 64 false
    nan := List.replicate 32 false
    blk := b
    age := s.order }

/-- A core's R copy of a line, opened if there is none. -/
def State.withR (s : State) (c b ln : Nat) : State := match s.accCopy c ln with
  | some k => if k.settled then s.openR c b ln else s
  | none => s.openR c b ln

/-- Does a contribution of a block to a line go back at once, as a batch of its own: without a reservation (spec/14 R296), or on
a FAST line under capture (spec/18 R394)? -/
def State.alone (s : State) (b ln : Nat) : Bool :=
  (s.block b).accLines == 0 || (s.mem.lines.find ln).any fun l => !l.cap.isEmpty
/-- The mode a block's next contribution to a line finds in a core's store: its R copy's, else the line's own (spec/14 R298). -/
def State.modeR (s : State) (c b ln : Nat) : Bool :=
  let home := (s.mem.lines.find ln).any fun l => l.exact
  match s.accCopy c ln with
  | some k => if k.settled || s.alone b ln then home else k.exact
  | none => home
/-- Apply one contribution in the R copy a core holds (spec/14 R298). -/
def State.applyTo (s : State) (c ln : Nat) (x : (Bool → Nat) × Option FV) : State := match s.accCopy c ln with
  | none => s
  | some k => (s.putCopy c ln { k.apply (x.1 k.exact) x.2 with age := s.order }).useOrder
/-- Apply contributions of a block to a line in a core's store, in order (spec/14 R298); one that goes back at once leaves the
R copy another block has of the line as it is. Each names its element from the copy's mode. -/
def State.contribute (s : State) (c b ln : Nat) (xs : List ((Bool → Nat) × Option FV)) : State :=
  xs.foldl (fun s x =>
    if s.alone b ln then
      let s' := ((s.openR c b ln).applyTo c ln x).accWriteBack c ln
      match s.accCopy c ln with
      | some k => if k.settled then s' else s'.putCopy c ln k
      | none => s'
    else (s.withR c b ln).applyTo c ln x) s

/-- A settled read of a line by a core (spec/14 R303): its own R copy is written back first; then its S copy, else the
home. The view is given as a settled copy with establishment number 0 for a line not established. -/
def State.settledRead (s : State) (c b ln : Nat) : AccCopy × State :=
  let s := s.accWriteBack c ln
  match s.accCopy c ln with
  | some k => (k, (s.putCopy c ln { k with age := s.order }).useOrder)
  | none =>
    let pois := s.cut c (ln * 256) || (List.range 4).any fun i => s.homePoison (ln * 4 + i)
    let l := s.mem.lines.find ln
    let ex := (l.map (·.exact)).getD false
    let k : AccCopy := {
      settled := true
      exact := ex
      e := (l.map (·.e)).getD 0
      estab := (l.map (·.estab)).getD 0
      vals := if ex then (List.range 32).map fun e => sext 64 (s.homeRead (ln * 256 + 8 * e) 8)
              else (List.range 64).map fun e => (s.homeRead (ln * 256 + 4 * e) 4 : Int)
      touched := []
      nan := (l.map (·.nan)).getD []
      ovf := (l.map (·.ovf)).getD false
      poison := pois
      blk := b
      age := s.order }
    if l.isNone || (s.block b).accLines = 0 || s.noHome c ln then (k, s)
    else (k, ((s.accRoom c b).putCopy c ln k).useOrder)

/-- The cores of a settle scope, relative to a core (spec/14 R302). -/
def SetScope.has (sc : SetScope) (c x : Nat) : Bool :=
  !isSvc x && (match sc with
    | .core => x == c | .quad => quadOf x == quadOf c | .die => dieOf x == dieOf c | .pkg => true)

/-- Drop the S copies of a line in the stores of cores a condition picks (spec/14 R304). -/
def State.dropS (s : State) (p : Nat → Bool) (ln : Nat) : State :=
  { s with cores := s.cores.map fun q => if p q.1 then
      (q.1, { q.2 with acc := q.2.acc.filter fun x => !(x.1 == ln && x.2.settled) }) else q }

/-- Write back and drop every copy of a block, on the core it leaves (spec/14 R296). -/
def State.accLeave (s : State) (c b : Nat) : State :=
  let lns := (s.accHeld c b).map (·.1)
  let s := lns.foldl (fun s ln => s.accWriteBack c ln) s
  s.modCore c fun k => { k with acc := k.acc.filter fun p => p.2.blk != b }

/-! ### Checks (spec/14 R308) -/

/-- Is the line's home on a memory die of this package (spec/14 R293)? -/
def State.lineHome (s : State) (pa : Nat) : Bool := pkgOf pa == s.pkg.pkgNo && dieCode pa < 6

/-- Do `nl` lines from an address keep the 57-bit form (spec/14 R308)? -/
def accForm (va : DWord) (nl : Nat) : Bool := form57 va && form57 (va + BitVec.ofNat 64 (256 * nl - 1))
/-- The translation and home of each of `nl` lines from an address (spec/14 R308). `owner` checks the page owner (spec/15
R321). -/
def State.accPages (s : State) (t : Tid) (va : DWord) (nl : Nat) (p : Perm) (owner : Bool) : List (Except Flt Nat) :=
  let b := s.block t.blk
  let b := if owner then b else { b with part := 2 }
  (List.range nl).map fun i =>
    let a := va + BitVec.ofNat 64 (256 * i)
    match s.gAccess b.core b (s.thread t).level a 1 p false with
    | .error f => .error f
    | .ok pa => if s.lineHome pa then .ok pa else .error (⟨.access, a, 0⟩ : Flt)
/-- Check `nl` lines from an address: alignment, form, translation of each, home (spec/14 R308). -/
def State.accLinesAt (s : State) (t : Tid) (va : DWord) (nl : Nat) (p : Perm) (owner : Bool) : Except Flt (List Nat) :=
  if va.toNat % 256 ≠ 0 then .error ⟨.misalign, va, 0⟩
  else if !accForm va nl then .error ⟨.access, va, 0⟩
  else
    let parts := s.accPages t va nl p owner
    match firstFault (faultsOf parts) with
    | some f => .error f
    | none => .ok (oksOf parts)

/-- The lines of a count register (spec/14 R307): none where a reserved bit is set. -/
def accCount (w : Word) : Option Nat := if fld w 8 24 = 0 then some (fld w 0 8 + 1) else none

/-- A word over a range with a count register. -/
def State.accRange (s : State) (t : Tid) (a b : Reg) (owner : Bool) (k : DWord → List Nat → OpKind) : Except Flt OpKind :=
  let va := s.rd64 t a
  if va.toNat % 256 ≠ 0 then .error ⟨.misalign, va, 0⟩
  else match accCount (s.rd t b) with
    | none => .error ⟨.access, 0, 0⟩
    | some nl => (s.accLinesAt t va nl .w owner).map (k va)

/-! ### The words -/

/-- What ACCZ checks of one lane and starts (spec/14 R308, R310). -/
def State.acczCheck (s : State) (a b : Reg) (t : Tid) : Except Flt OpKind :=
  let va := s.rd64 t a
  let w := s.rd t b
  if va.toNat % 256 ≠ 0 then .error ⟨.misalign, va, 0⟩
  else if fld w 8 15 ≠ 0 || (!bitOf w 31 && fld w 23 8 != 0) then .error ⟨.access, 0, 0⟩
  else (s.accLinesAt t va (fld w 0 8 + 1) .w true).map fun pas => .accz pas (bitOf w 31) (sext 8 (fld w 23 8))
/-- ACCZ (spec/14 R308, R310). -/
def execAccz (h : Hdr) (a b : Reg) (k : Toks) (s : State) : Out State :=
  s.blockWord qAcc 3 h k.ins (some k.tko) (some .mt) (s.acczCheck a b)

/-- The place of an element's access, checked (spec/14 R308). -/
def State.accElem (s : State) (t : Tid) (va : DWord) (p : Perm) : Except Flt Acc :=
  match s.gAcc t va 4 p false with
  | .error f => .error f
  | .ok x => match x.loc with
    | .mem pa => if s.lineHome pa then .ok x else .error ⟨.access, va, 0⟩
    | .spad .. => .ok x

/-- What ACCADD checks of one lane and starts (spec/14 R311). -/
def State.accaddCheck (s : State) (a b : Reg) (t : Tid) : Except Flt OpKind :=
  (s.accElem t (s.rd64 t a) .w).map fun x => .accadd x (s.rd t b)
/-- ACCADD (spec/14 R311). -/
def execAccadd (h : Hdr) (a b : Reg) (k : Toks) (s : State) : Out State :=
  s.laneWord qAcc 3 h k.ins k.tko .mt (s.accaddCheck a b)

/-- ACCRD: each lane's settled read goes in flight (spec/14 R309, R312). -/
def execAccrd (h : Hdr) (d a : Reg) (f : RdForm) (s : State) : Out State :=
  let ts := s.act h
  match splitFaults (ts.map fun t => (t, s.accElem t (s.rd64 t a) .r)) with
  | ([], ok) =>
    .next ((ok.foldl (fun s' p => s'.addOp { s.opOf p.1 (.accrd p.2 f (lanesReg ts p.1 d)) with
      cnts := [(p.1, .ld)], after := s.startAfter p.1.blk [p.1] [] }) s).retireFp qAcc 4).useFree
  | (bad, _) => .next (s.raise bad)

/-- ACCSET (spec/14 R313). -/
def execAccset (h : Hdr) (a b : Reg) (k : Toks) (sc : SetScope) (s : State) : Out State :=
  s.blockWord qAcc 3 h k.ins (some k.tko) (some .mt) fun t => s.accRange t a b false fun va pas => .accset va pas sc
/-- ACCFL (spec/14 R313). -/
def execAccfl (h : Hdr) (a b : Reg) (k : Toks) (s : State) : Out State :=
  s.blockWord qAcc 3 h k.ins (some k.tko) (some .mt) fun t => s.accRange t a b false fun _ pas => .accfl pas
/-- ACCPOI (spec/14 R317). -/
def execAccpoi (h : Hdr) (a b : Reg) (k : Toks) (s : State) : Out State :=
  s.blockWord qAcc 3 h k.ins (some k.tko) (some .mt) fun t => s.accRange t a b true fun _ pas => .accpoi pas

/-- Elements of a line as its mode gives them: 32 for EXACT, else 64 (spec/14 R315). -/
def State.lineEls (s : State) (pa : Nat) : Nat := if (s.lineAt pa).any (·.exact) then 32 else 64

/-- The parts of a destination of n bytes in a space: checked places and lengths (spec/14 R308, spec/12 R256). -/
def State.dstParts (s : State) (t : Tid) (dsp : Nat) (dst : DWord) (n : Nat) : Except Flt (List (Loc × Nat)) :=
  let b := s.block t.blk
  if dsp = 0 then (s.gRange false t dst n .w).map fun l => l.map fun p => (.mem p.1, p.2)
  else match (if dsp = 1 then spadLoc b (dst.toNat % 2 ^ 32) n else s.qspadLoc b (dst.toNat % 2 ^ 32) n) with
    | none => .error ⟨.access, dst, 0⟩
    | some l => .ok [(.spad l.1 l.2, n)]

/-- Is a destination of n bytes refused without translation (spec/14 R308, spec/18 R369)? -/
def State.dstBad (s : State) (t : Tid) (dsp : Nat) (dst : DWord) (n : Nat) : Option Flt :=
  if dsp = 0 then (if form57 dst && form57 (dst + BitVec.ofNat 64 (n - 1)) then none else some ⟨.access, dst, 0⟩)
  else (faultsOf [s.dstParts t dsp dst n]).head?

/-- What ACCOUT checks of one lane and starts (spec/14 R308, R314 to R316); the size of a line that has no translation is at
least that of an EXACT one. -/
def State.accoutCheck (s : State) (a b : Reg) (t : Tid) : Except Flt OpKind :=
  let va := s.rd64 t a
  let dst := s.rd64 t b
  let w := s.rd t (b.plus 2)
  let stride := (s.rd t (b.plus 3)).toInt
  let dsp := fld w 27 2
  let fs := (s.block t.blk).fs.getD (fld w 29 3) 0
  let nl := fld w 0 8 + 1
  if va.toNat % 256 ≠ 0 then .error ⟨.misalign, va, 0⟩
  else if dst.toNat % 8 ≠ 0 || stride % 8 != 0 then .error ⟨.misalign, dst, 0⟩
  else if fld w 8 18 ≠ 0 || dsp == 3 || (bitOf w 26 && dsp == 0) then .error ⟨.access, 0, 0⟩
  else if !slotValid fs || fld fs 6 2 ≠ 0 || 2 ≤ fld fs 4 2 then .error ⟨.access, 0, 0⟩
  else
    let lines := s.accPages t va nl .r false
    let outs := lines.zipIdx.map fun (p : Except Flt Nat × Nat) =>
      (dst + BitVec.ofInt 64 (stride * p.2), memBytes (fld fs 0 4) (match p.1 with | .ok pa => s.lineEls pa | .error _ => 32))
    let early := if accForm va nl then outs.filterMap fun p => s.dstBad t dsp p.1 p.2 else [⟨.access, va, 0⟩]
    let ds := outs.map fun p => s.dstParts t dsp p.1 p.2
    match early.head?.orElse fun _ => firstFault (faultsOf lines ++ faultsOf ds) with
    | some f => .error f
    | none => .ok (.accout va (oksOf lines) (oksOf ds) (bitOf w 26) fs (s.rd t (.g 63)) t.lane)
/-- ACCOUT (spec/14 R308, R314 to R316). -/
def execAccout (h : Hdr) (a b : Reg) (k : Toks) (s : State) : Out State :=
  s.blockWord qAcc 3 h k.ins (some k.tko) (some .mt) (s.accoutCheck a b)

/-! ### Performing -/

/-- CONTRIBUTION_APPLY for ACCADD: a lane's contribution, after the lower lanes of its issue group on the same element, on a clock of
phase 2 or 3 (spec/14 R298, R311). -/
def State.applyAdd (s : State) (o : Op) (a : Acc) (v : Word) : Option State :=
  match a.loc with
  | .spad .. => none
  | .mem pa =>
    let lower := s.ops.any fun p => p.core == o.core && p.pc == o.pc && p.clk == o.clk && decide (p.low.lane < o.low.lane)
      && (match p.kind with
        | .accadd x _ => x.loc == .mem (pa / 8 * 8) || x.loc == .mem (pa / 8 * 8 + 4)
        | _ => false)
    if !s.canRun o || lower || decide (s.now o.core % 4 < 2) then none
    else some ((s.contribute o.core o.blk (pa / 256)
      [(fun ex => if ex then pa % 256 / 8 else pa % 256 / 4, some (v32 v))]).finishLane o.id)

/-- LOAD_COMPLETE for ACCRD (spec/14 R312). -/
def State.stepAccrd (s : State) (o : Op) (a : Acc) (f : RdForm) (d : Reg) : Option State :=
  match a.loc with
  | .spad .. => none
  | .mem pa =>
    if !s.canRun o then none
    else
      let (k, s) := s.settledRead o.core o.blk (pa / 256)
      let e := if k.exact then pa % 256 / 8 else pa % 256 / 4
      let v := k.vals.getD e 0
      let s := match f with
        | .st =>
          let st := if k.estab = 0 then (if k.poison then 2 ^ 29 else 0) else
            2 ^ 31 + (if k.exact then 2 ^ 30 else 0) + (if k.poison then 2 ^ 29 else 0)
              + (if k.ovf then 2 ^ 28 else 0) + (k.e % 256).toNat * 2 ^ 16
          let mask := (k.nan.zipIdx).foldl (fun m (p : Bool × Nat) => if p.1 then m + 2 ^ p.2 else m) 0
          s.wrN a.t d 2 (st + 2 ^ 32 * (if k.exact then mask else 0))
        | .f32 =>
          if k.poison then s.consume a.t o.pc a.va
          else s.wr a.t d (if !k.exact then wordOf v
            else if k.nan.getD e false then nan32
            else r32 .rn (.fin (v < 0) v.natAbs (k.e - 40)))
        | .i64 =>
          if k.poison then s.consume a.t o.pc a.va
          else s.wrN a.t d 2 (if k.exact then u64 v else (wordOf v).toNat)
      some (s.finish o.id)

/-- Every copy of a line is invalidated (spec/14 R310). -/
def State.dropLine (s : State) (ln : Nat) : State :=
  { s with cores := s.cores.map fun (p : Nat × Core) => (p.1, { p.2 with acc := p.2.acc.del ln }) }
/-- Establish one line (spec/14 R310): every copy of it is invalidated, its content zero, its poison cleared. -/
def State.establish (s : State) (pa : Nat) (exact : Bool) (e : Int) : State :=
  let ln := pa / 256
  let id := s.nextId
  let s := (s.fresh.2.purge fun a => a / 256 == ln).dropLine ln
  let s := s.homePut (cellsAt pa 256 0)
  let s := (List.range 4).foldl (fun s i => s.homeClean (ln * 4 + i)) s
  { s with mem := { s.mem with lines := s.mem.lines.put ln {
      exact := exact
      e := e
      vals := if exact then List.replicate 32 0 else []
      nan := if exact then List.replicate 32 false else []
      estab := id
      cap := if s.capturing && !exact then List.replicate 64 (0, 0) else [] } } }

/-- After the last line of an ACCSET: the overflow check and record (spec/14 R313, spec/18 R373). -/
def State.accOvfCheck (s : State) (o : Op) (va : DWord) (pas : List Nat) : State :=
  match pas.zipIdx.find? fun (p : Nat × Nat) => (s.lineAt p.1).any fun (l : AccLine) => l.exact && l.ovf with
  | none => s
  | some (_, i) =>
    let s := s.setFaultst o.blk 0
    if (s.grid (s.block o.blk).grid).lrec.trapen.getLsbD 1 then
      s.impRec o.blk (s.engineRec o .accOverflow 0 (va + BitVec.ofNat 64 (256 * i)))
    else s

/-- The output bytes of one line (spec/14 R315). -/
def State.accOutBytes (s : State) (o : Op) (k : AccCopy) (n : Nat) (fs g : Word) (lane : Nat) : List Byte :=
  let seed := s.seedOf o.low
  let els := if k.exact then 32 else 64
  let f := fld fs 0 4
  let num := (List.range els).foldl (fun a e =>
    let x := k.vals.getD e 0
    let v : FV := if k.exact then (if k.nan.getD e false then .nan else .fin (x < 0) x.natAbs (k.e - 40)) else v32 (wordOf x)
    let v := if fld fs 4 2 = 1 then v.mul (v32 g) else v
    a + encSlot fs v (srBits seed (BitVec.ofNat 32 (64 * n + e)) lane) * 2 ^ memElemBit f e) 0
  bytesOf (memBytes f els) num

/-- Put bytes over the parts of a destination. -/
def State.putParts (s : State) (c : Nat) (parts : List (Loc × Nat)) (bs : List Byte) (bad setf : Bool) : State :=
  (parts.foldl (fun (r : State × List Byte) p =>
    let now := r.2.take p.2
    (if now.isEmpty then r.1 else r.1.engPut c p.1 now bad setf, r.2.drop p.2)) (s, bs)).1

/-- One line of an ACCOUT (spec/14 R315); an output larger than the size checked writes nothing and marks the error. -/
def State.accOutLine (s : State) (o : Op) (n pa : Nat) (parts : List (Loc × Nat)) (setf : Bool) (fs g : Word)
    (lane : Nat) : State :=
  let (k, s) := s.settledRead o.core o.blk (pa / 256)
  let bs := s.accOutBytes o k n fs g lane
  if (parts.map (·.2)).foldl (· + ·) 0 < bs.length then
    s.modOp o.id fun p => { p with stage := if p.stage = 0 then n + 1 else p.stage }
  else s.putParts o.core parts bs k.poison setf

/-- The lines of an ACC operation. -/
def OpKind.accPas : OpKind → Option (List Nat)
  | .accz pas _ _ | .accset _ pas _ | .accfl pas | .accpoi pas | .accout _ pas _ _ _ _ _ => some pas
  | _ => none

/-- ENGINE_OPERATION_COMPLETE for the ACC words: one line at a time at its home; with the last line the operation
completes (spec/14 R309 to R317). -/
def State.stepAcc (s : State) (o : Op) : Option State :=
  match o.kind.accPas with
  | none => none
  | some pas =>
    if !s.canRun o then none
    else
      let pa := pas.getD o.prog 0
      let ln := pa / 256
      let s : State := match o.kind with
        | .accz _ ex e => if s.noHome o.core ln then (s.dropLine ln).discardLine o.core ln else s.establish pa ex e
        | .accset _ _ sc =>
          let cs : List Nat := (s.cores.map (·.1)).filter (SetScope.has sc o.core)
          (cs.foldl (fun (s : State) c => s.accWriteBack c ln) s).dropS (SetScope.has sc o.core) ln
        | .accfl _ => s.accWriteBack o.core ln
        | .accpoi _ => if (s.lineAt pa).isNone || s.noHome o.core ln then s else
            let s := (List.range 4).foldl (fun (s : State) i => s.homeUntaint (ln * 4 + i)) (s.dropS (fun _ => true) ln)
            { s with mem := { s.mem with lines := s.mem.lines.upd (fun l => { l with poison := false }) ln } }
        | .accout _ _ ds setf fs g lane => s.accOutLine o o.prog pa (ds.getD o.prog []) setf fs g lane
        | _ => s
      if o.prog + 1 < pas.length then some (s.modOp o.id fun p => { p with prog := p.prog + 1 })
      else
        let s := match o.kind with
          | .accset va _ _ => s.accOvfCheck o va pas
          | .accout va _ _ _ _ _ _ => match s.op? o.id with
            | some p => if p.stage = 0 then s else s.copyFault o (va + BitVec.ofNat 64 (256 * (p.stage - 1)))
            | none => s
          | _ => s
        some (s.finish o.id)

/-- The line an operation opens a copy of next (spec/14 R295). -/
def Op.nextLine (o : Op) : Option Nat := match o.kind with
  | .accadd x _ | .accrd x _ _ => match x.loc with
    | .mem pa => some (pa / 256)
    | .spad .. => none
  | .accout _ pas _ _ _ _ _ => pas[o.prog]?.map (· / 256)
  | .cpr r => r.pas[o.prog]?.map (· / 256)
  | .mtx r => if r.passes = r.kch then r.pas[r.lines]?.map (· / 256) else none
  | _ => none

/-- WRITE_BACK: the eviction of a block's least recently used R copy when its reservation is full and an operation of it
is about to open another line (spec/14 R296, R297). -/
def State.evict (s : State) (c ln : Nat) : Option State :=
  match s.accCopy c ln with
  | none => none
  | some k =>
    let held := s.accHeld c k.blk
    if !k.settled && decide ((s.block k.blk).accLines ≤ held.length) && held.all (fun p => decide (k.age ≤ p.2.age))
        && s.ops.any (fun o => o.blk == k.blk && o.core == c && s.canRun o && o.nextLine.any fun x =>
          (s.accCopy c x).all fun q => q.settled && q.blk != k.blk) then
      some (s.accWriteBack c ln)
    else none

end Sys2Proof.Machine
end

