-- ==== Sys2Proof/Machine/Copy.lean ====
section
/-!
DEFINITION. Machine/Copy.lean: the COPY class (spec/12): copies by lane and by block, add-on-write into accumulation
lines, remote copies, token joins, staging rings; and what the copy engine does (R249 to R252, R421).
-/

namespace Sys2Proof.Machine

/-- The COPY queue (spec/02 R50). -/
def qCopy : Nat := 7

/-! ### Control words and addresses -/

/-- Fields of a copy control word (spec/12 R247). -/
def ctlDsp (w : Word) : Nat := fld w 12 2
/-- The source space. -/
def ctlSsp (w : Word) : Nat := fld w 10 2

/-- Is a copy control word refused (spec/12 R247, R268)? -/
def ctlBad (b : Block) (w : Word) : Bool :=
  fld w 16 16 != 0 || bitOf w 9 || ctlDsp w == 3 || ctlSsp w == 3 || (!bitOf w 8 && fld w 6 2 != 0)
    || (bitOf w 14 && ctlDsp w == 0) || (bitOf w 8 && b.qgid.isNone)
    || (isSvc b.core && (ctlDsp w != 0 || ctlSsp w != 0 || bitOf w 15 || bitOf w 14))

/-- A value as an address or offset of a space (spec/12 R248). -/
def spAddr (sp v : Nat) : Nat := if sp = 0 then v % 2 ^ 64 else v % 2 ^ 32

/-- Check one run of n bytes without translating it: scratchpad validity, or the 57-bit form of both ends (spec/12
R256). -/
def State.runForm (s : State) (t : Tid) (sp v n : Nat) : Option Flt :=
  let b := s.block t.blk
  let va : DWord := BitVec.ofNat 64 v
  if sp = 0 then
    if !form57 va || !form57 (va + BitVec.ofNat 64 (n - 1)) then some ⟨.access, va, 0⟩ else none
  else if (if sp = 1 then spadLoc b v n else s.qspadLoc b v n).isNone then some ⟨.access, va, 0⟩ else none

/-- Check the translation and permission of n bytes at a place of a space (spec/12 R256). -/
def State.runPage (s : State) (t : Tid) (sp v n : Nat) (p : Perm) : Option Flt :=
  if sp ≠ 0 then none
  else
    let b := s.block t.blk
    match s.gAccess b.core b (s.thread t).level (BitVec.ofNat 64 v) n p false with
    | .error f => some f
    | .ok _ => none

/-- The first fault of a list in the order of spec/18 R369. -/
def rankFault (fs : List (Option Flt)) : Option Flt :=
  let l := fs.filterMap id
  (l.find? (·.code == .misalign)).orElse fun _ => firstFault l

/-- A misalignment of an address, offset, length or stride (spec/12 R248). -/
def misFault (e : Nat) (v : Nat) : Option Flt := if v % e ≠ 0 then some ⟨.misalign, BitVec.ofNat 64 v, 0⟩ else none
/-- An ACCESS fault without an address, under a condition. -/
def badField (c : Bool) : Option Flt := if c then some ⟨.access, 0, 0⟩ else none

/-- The first fault of two stages: what is found without translation comes before what needs it (spec/18 R369). -/
def staged (early : List (Option Flt)) (late : List (Option Flt)) : Option Flt :=
  (rankFault early).orElse fun _ => rankFault late

/-- The bytes of an element. -/
def elBytes : CElem → Nat
  | .e4 => 4 | .e8 => 8 | .e16 => 16

/-! ### CPL, CPT, CPFILL -/

/-- What CPL checks of one lane and starts (spec/12 R255, R256). -/
def State.cplCheck (s : State) (a b : Reg) (el : CElem) (t : Tid) : Except Flt OpKind :=
  let e := elBytes el
  let w := s.rd t b
  let dst := spAddr (ctlDsp w) (s.rd64 t a).toNat
  let src := spAddr (ctlSsp w) (s.rd64 t (a.plus 2)).toNat
  match staged [misFault e dst, misFault e src, badField (ctlBad (s.block t.blk) w),
      s.runForm t (ctlDsp w) dst e, s.runForm t (ctlSsp w) src e]
      [s.runPage t (ctlSsp w) src e .r, s.runPage t (ctlDsp w) dst e .w] with
  | some f => .error f
  | none => .ok (.copy [{ dsp := ctlDsp w, dst := dst, ssp := ctlSsp w, src := src, len := e }] w e)
/-- The GLOBAL accesses of the elements of CPL's lanes: of the sources, and of all (spec/12 R256, R267). -/
def State.cplAccs (s : State) (a b : Reg) (el : CElem) (ts : List Tid) : List Acc × List Acc :=
  let at_ (sp : Word → Nat) (r : Reg) (p : Perm) : List Acc := oksOf ((ts.filter fun t => sp (s.rd t b) == 0).map fun t =>
    s.gAcc t (s.rd64 t r) (elBytes el) p false)
  let src := at_ ctlSsp (a.plus 2) .r
  (src, src ++ at_ ctlDsp a .w)
/-- CPL (spec/12 R255, R256): its group is rejected where its sources find no miss-status entries (spec/09 R178), and occupies the port
as a GLOBAL group does the MEM pipe (R267). -/
def execCpl (h : Hdr) (a b : Reg) (k : Toks) (el : CElem) (s : State) : Out State :=
  let accs := s.cplAccs a b el (s.act h)
  if s.rejects accs.1 then .next (s.reject qCopy)
  else
    let fine := (s.staleFaults (byLane (s.act h)) k.ins).isEmpty && (s.act h).all fun t => (s.cplCheck a b el t).isOk
    let s' := if fine then (s.takeMshr accs.1).modCore s.cur.core fun c => { c with copyFree := s.clk + occupancy accs.2 (elBytes el) }
      else s
    s'.laneWord qCopy 3 h k.ins k.tko .cp (s.cplCheck a b el)

/-- The rows of a CPT as runs (spec/12 R255). -/
def cptSegs (w : Word) (dst src : Nat) (dstr sstr : Int) (rows rowb : Nat) : List Seg :=
  (List.range rows).map fun i =>
    let at_ (sp v : Nat) (st : Int) : Nat := spAddr sp (((v : Int) + st * i) % 2 ^ 64).toNat
    { dsp := ctlDsp w, dst := at_ (ctlDsp w) dst dstr, ssp := ctlSsp w, src := at_ (ctlSsp w) src sstr, len := rowb }

/-- What CPT checks of one lane and starts (spec/12 R254 to R256). -/
def State.cptCheck (s : State) (a b : Reg) (el : CElem) (t : Tid) : Except Flt OpKind :=
  let e := elBytes el
  let w := s.rd t (b.plus 5)
  let dst := spAddr (ctlDsp w) (s.rd64 t b).toNat
  let src := spAddr (ctlSsp w) (s.rd64 t a).toNat
  let sstr := (s.rd t (b.plus 2)).toInt
  let dstr := (s.rd t (b.plus 3)).toInt
  let rows := fld (s.rd t (b.plus 4)) 16 16
  let rowb := fld (s.rd t (b.plus 4)) 0 16
  let segs := cptSegs w dst src dstr sstr rows rowb
  let ends := segs.head?.toList ++ segs.getLast?.toList
  let forms (sp : Nat) (f : Seg → Nat) : List (Option Flt) :=
    (if sp = 0 then ends else segs).map fun g => s.runForm t sp (f g) rowb
  match staged ([misFault e dst, misFault e src, misFault e rowb, misFault e sstr.natAbs, misFault e dstr.natAbs,
      badField (ctlBad (s.block t.blk) w || rows == 0 || rowb == 0)]
        ++ forms (ctlDsp w) Seg.dst ++ forms (ctlSsp w) Seg.src)
      [s.runPage t (ctlSsp w) src 1 .r, s.runPage t (ctlDsp w) dst 1 .w] with
  | some f => .error f
  | none => .ok (.copy segs w e)
/-- The GLOBAL accesses of a CPT that its group asks miss-status entries for: the first byte of each block's source (spec/09 R178). -/
def State.cptAccs (s : State) (a b : Reg) (ts : List Tid) : List Acc :=
  oksOf ((((blksOf ts).filterMap fun c => lowLane ts c).filter fun t => ctlSsp (s.rd t (b.plus 5)) == 0).map
    fun t => s.gAcc t (s.rd64 t a) 1 .r false)
/-- CPT (spec/12 R254 to R256): its group is rejected where the first byte of its source finds no miss-status entry (spec/09
R178). -/
def execCpt (h : Hdr) (a b : Reg) (k : Toks) (el : CElem) (s : State) : Out State :=
  let accs := s.cptAccs a b (s.act h)
  if s.rejects accs then .next (s.reject qCopy)
  else (s.takeMshr accs).blockWord qCopy 3 h k.ins (some k.tko) (some .cp) (s.cptCheck a b el)

/-- What CPFILL checks of one lane and starts (spec/12 R254 to R256). -/
def State.cpfillCheck (s : State) (a b : Reg) (el : CElem) (t : Tid) : Except Flt OpKind :=
  let e := elBytes el
  let w := s.rd t b
  let dst := spAddr (ctlDsp w) (s.rd64 t a).toNat
  let len := (s.rd t (a.plus 2)).toNat
  let pat := (s.rd t (a.plus 3)).toNat
  let some_ := decide (0 < len)
  match staged [misFault e dst, misFault e len, badField (ctlBad (s.block t.blk) w || ctlSsp w != 0),
      if some_ then s.runForm t (ctlDsp w) dst len else none]
      [if some_ then s.runPage t (ctlDsp w) dst 1 .w else none] with
  | some f => .error f
  | none => .ok (.copy (if some_ then [{ dsp := ctlDsp w, dst := dst, pat := some pat, len := len }] else []) w e)
/-- CPFILL (spec/12 R254 to R256). -/
def execCpfill (h : Hdr) (a b : Reg) (k : Toks) (el : CElem) (s : State) : Out State :=
  s.blockWord qCopy 3 h k.ins (some k.tko) (some .cp) (s.cpfillCheck a b el)

/-! ### Running a copy (spec/12 R249 to R252, R421) -/

/-- The place of n bytes an operation reaches: an error is (page not present, address) (spec/12 R251). `owner` checks the page owner
of a write (spec/15 R321). -/
def State.opPlace (s : State) (o : Op) (sp v n : Nat) (p : Perm) (owner : Bool := true) : Except (Bool × Nat) Loc :=
  let b := s.block o.blk
  let b := if owner then b else { b with part := 2 }
  if sp = 0 then
    match s.gAccess b.core b (s.thread o.low).level (BitVec.ofNat 64 v) n p false with
    | .error f => .error (f.code == .xlate, v)
    | .ok pa => .ok (.mem pa)
  else match (if sp = 1 then spadLoc b v n else s.qspadLoc b v n) with
    | none => .error (false, v)
    | some l => .ok (.spad l.1 l.2)

/-- Elements of a list of runs. -/
def segEls (segs : List Seg) (e : Nat) : Nat := segs.foldl (fun n g => n + g.len / e) 0
/-- The i-th element of a list of runs: its run and offset. -/
def segAt (e : Nat) : List Seg → Nat → Option (Seg × Nat)
  | [], _ => none
  | g :: t, i => if i < g.len / e then some (g, i * e) else segAt e t (i - g.len / e)

/-- The place of a destination element; the owner of the copy's first page was checked at the fault point, and stays so
(spec/15 R321). -/
def State.dstPlace (s : State) (o : Op) (e : Nat) (g : Seg) (off first : Nat) : Except (Bool × Nat) Loc :=
  let page (l : Except (Bool × Nat) Loc) : Option Nat := match l with
    | .ok (.mem pa) => some (pa / 2 ^ 16)
    | _ => none
  let l := s.opPlace o g.dsp (g.dst + off) e .w false
  if page l == page (s.opPlace o g.dsp first 1 .w false) then l else s.opPlace o g.dsp (g.dst + off) e .w
/-- Move one element (spec/12 R255): poison goes along (R251). `first`: where the destination begins. -/
def State.moveEl (s : State) (o : Op) (e : Nat) (g : Seg) (off first : Nat) (setf : Bool) : Except (Bool × Nat) State :=
  match s.dstPlace o e g off first with
  | .error x => .error x
  | .ok d => match g.pat with
    | some p => .ok (s.engPut o.core d (bytesOf e (p * (if e = 4 then 1 else if e = 8 then 2 ^ 32 + 1 else
        2 ^ 96 + 2 ^ 64 + 2 ^ 32 + 1))) false setf)
    | none => match s.opPlace o g.ssp (g.src + off) e .r with
      | .error x => .error x
      | .ok src =>
        let (bs, bad, s) := s.engGet o.core src e
        .ok (s.engPut o.core d bs bad setf)

/-- Move elements in an order until one meets a page it cannot use: what stopped it, the elements moved, the state. -/
def State.moveEls (s : State) (o : Op) (segs : List Seg) (e : Nat) (setf : Bool) (is : List Nat) :
    Option (Bool × Nat) × List Nat × State :=
  is.foldl (fun (r : Option (Bool × Nat) × List Nat × State) i => match r.1 with
    | some _ => r
    | none => match segAt e segs i with
      | none => (none, r.2.1 ++ [i], r.2.2)
      | some (g, off) => match r.2.2.moveEl o e g off ((segs.head?.map Seg.dst).getD 0) setf with
        | .error x => (some x, r.2.1, r.2.2)
        | .ok s => (none, r.2.1 ++ [i], s)) (none, [], s)

/-- A staging ring after a completed copy of its block, or a CPADV.P: the depth (spec/12 R266). -/
def Ring.depth (cap : Bool) (r : Ring) : Ring :=
  { r with d := if cap then r.mx else Nat.min r.mx (Nat.max r.mn ((r.lavg + Nat.max r.iavg 1 - 1) / Nat.max r.iavg 1 + 1)) }
/-- A running average: + (x − avg) / 8 in int32 arithmetic, truncating, kept as uint32 (spec/12 R265, R266). -/
def avg8 (avg x : Nat) : Nat := (((avg : Int) + Int.tdiv (sext 32 ((x + (2 ^ 32 - avg % 2 ^ 32)) % 2 ^ 32)) 8) % 2 ^ 32).toNat

/-- The core whose semaphore a control word names (spec/12 R247). -/
def State.ctlCore (s : State) (b : Block) (w : Word) : Nat :=
  if bitOf w 8 then ((s.qmember b (fld w 6 2)).map (·.2.core)).getD b.core else b.core

/-- The end of a copy operation (spec/12 R246, R249, R266): semaphore, measured latency, counter and token. -/
def State.endCopy (s : State) (o : Op) (ctl : Option Word) (err timeout : Bool) : State :=
  let b := s.block o.blk
  let s := match ctl with
    | some w => if bitOf w 15 then s.semAdd (s.ctlCore b w) (fld w 0 6) 1 err timeout else s
    | none => s
  let ring := b.ring.map fun r => Ring.depth s.capturing { r with lavg := avg8 r.lavg (s.now o.core - o.clk) }
  let s := s.modBlock o.blk fun b => { b with ring := ring }
  s.finishLane o.id

/-- The control word of an operation that names one. -/
def OpKind.ctl? : OpKind → Option Word
  | .copy _ w _ => some w
  | .put _ _ _ _ _ _ w _ => some w
  | _ => none

/-- An operation ends with error (spec/12 R251). -/
def State.endError (s : State) (o : Op) (va : Nat) : State :=
  (s.copyFault o (BitVec.ofNat 64 va)).endCopy o o.kind.ctl? true false

/-- COPYLIM of the core that holds an operation (spec/12 R252). -/
def State.copyLimit (s : State) (o : Op) : Nat := (s.core o.core).copylim.toNat

/-- An operation met a page it cannot use (spec/12 R251): not present, it waits for service from now on, unless COPYLIM
is 0; otherwise it ends with error. -/
def State.stall (s : State) (o : Op) (x : Bool × Nat) : State :=
  if x.1 && s.copyLimit o != 0 then
    s.modOp o.id fun p => { p with stage := 1, prog := x.2, pageAt := s.now o.core, lim := s.copyLimit o }
  else s.endError o x.2

/-- `n` elements of a list without repeats, in an order of free choices. -/
def freeOrder (free k : Nat) : Nat → List Nat → List Nat
  | 0, _ => []
  | n + 1, l =>
    let e := l.getD (Config.pick free (k + n) % Nat.max 1 l.length) 0
    e :: freeOrder free k n (l.filter (· != e))
/-- The elements left, in an order the engine chooses (spec/12 R249, DESIGN CHOICE, log 17). -/
def State.leftEls (s : State) (o : Op) (n : Nat) : List Nat :=
  let l := (List.range n).filter fun i => !o.done.contains i
  freeOrder s.free (o.id * 2 ^ 32) l.length l

/-- Move the first `n` of the elements left of a started copy. Where one meets a page that it cannot use, every element before it is
moved first: the rows before such a page are written (spec/12 R269). -/
def State.runCopy (s : State) (o : Op) (segs : List Seg) (ctl : Word) (el : Nat) (n : Nat) : State × Bool :=
  let is := (s.leftEls o (segEls segs el)).take n
  let (stop, moved, s) := s.moveEls o segs el (bitOf ctl 14) is
  let (stop, moved', s) := if stop.isNone then (stop, [], s) else
    s.moveEls o segs el (bitOf ctl 14) ((List.range (is.getD moved.length 0 + 1)).filter fun i => !o.done.contains i && !moved.contains i)
  let s := s.useFree.modOp o.id fun p => { p with done := p.done ++ moved ++ moved' }
  match stop with
  | some x => (s.stall o x, false)
  | none => (s, true)

/-! ### CPR (spec/12 R257 to R259) -/

/-- The bank of a line (spec/12 R258). -/
def bankOf (pa : Nat) : Nat := pa / 256 % 32
/-- The first clock at or after c of a phase (spec/12 R259). -/
def phaseFrom (c ph : Nat) : Nat := c + (ph + 4 - c % 4) % 4

/-- The reserved clocks of a scheduled CPR of `nl` lines whose fault point is at clock f (spec/12 R259). -/
def cprSlots (f ph nl : Nat) : List Nat :=
  if ph < 2 then (List.range nl).map fun i => phaseFrom (f + 6) ph + 4 * i else []
/-- What CPR reads at its issue, with the faults found without translation (spec/12 R257). -/
def State.cprRead (s : State) (a b : Reg) (t : Tid) : Except Flt OpKind :=
  let blk := s.block t.blk
  let va := s.rd64 t a
  let src := (s.rd t b).toNat
  let w := s.rd t (b.plus 1)
  let nl := fld w 6 5
  match staged [misFault 256 va.toNat, misFault 256 src, badField (fld w 16 16 != 0 || fld w 13 2 != 0 || nl == 0 || decide (16 < nl)),
      badField (spadLoc blk src (256 * nl)).isNone, if accForm va nl then none else some ⟨.access, va, 0⟩] [] with
  | some f => .error f
  | none => .ok (.cpr { va := va, nl := nl, src := blk.spadBase + src, phase := fld w 11 2,
                        sem := if bitOf w 15 then some (fld w 0 6) else none })
/-- The stage of a CPR between its issue and its fault point. -/
def cprOpen : Nat := 7
/-- Where a thread stands before it issues a word at a clock. -/
def Thread.mark (clk : Nat) (word : DWord) (th : Thread) : Undo :=
  { clk := clk, word := word, pc := th.pc, win := th.win, loops := th.loops, lbuf := th.lbuf, qlast := th.qlast }
/-- CPR: its registers, tokens and counters are those of its issue; it faults at its fault point, two clocks later (spec/12 R257). -/
def execCpr (h : Hdr) (a b : Reg) (k : Toks) (s : State) : Out State :=
  match s.blockWord qCopy 2 h k.ins (some k.tko) (some .cp) (s.cprRead a b) with
  | .next s' =>
    if s'.nextId = s.nextId then .next s'
    else
      let s' := s.cur.tids.foldl (fun s' t => s'.modThread t fun th =>
        { th with undo := some ((s.thread t).mark s.clk s.cur.pc) }) s'
      let n := s.ops.length
      .next { s' with ops := s'.ops.take n ++ (s'.ops.drop n).map fun o =>
        { o with stage := cprOpen, lim := if ((s.block o.blk).tok k.tko).prod then 0 else 1 } }
  | r => r

/-- What the fault point of a CPR decides (spec/12 R257, R259): its lines, the page owners, and of a scheduled one that its start
conditions hold and none of its writes coincides with a booked one. -/
def State.cprDecide (s : State) (book : List (Nat × Nat)) (o : Op) (r : CprReq) : Except Flt CprReq :=
  match s.accLinesAt o.low r.va r.nl .w true with
  | .error f => .error f
  | .ok pas =>
    let slots := cprSlots (s.now o.core) r.phase r.nl
    let clash := ((pas.map bankOf).zip slots).zipIdx.find? fun (x : (Nat × Nat) × Nat) => book.contains x.1
    if r.phase < 2 && !s.canRun o then .error ⟨.scheduleViolation, r.va, 0⟩
    else match clash with
      | some (_, i) => .error ⟨.scheduleViolation, r.va + BitVec.ofNat 64 (256 * i), 0⟩
      | none => .ok { r with pas := pas, slots := slots }
/-- The request of a CPR operation. -/
def OpKind.cpr? : OpKind → Option CprReq
  | .cpr r => some r
  | _ => none
/-- The decisions of the operations of one CPR word, each with the bookings of those before it. -/
def State.cprDecideAll (s : State) (ops : List Op) : List (Op × Except Flt CprReq) :=
  (ops.foldl (fun (x : List (Nat × Nat) × List (Op × Except Flt CprReq)) o => match o.kind.cpr? with
    | none => x
    | some r => match s.cprDecide x.1 o r with
      | .ok q => (x.1 ++ (q.pas.map bankOf).zip q.slots, x.2 ++ [(o, .ok q)])
      | .error f => (x.1, x.2 ++ [(o, .error f)])) ((s.core (ops.head?.elim 0 (·.core))).book, [])).2
/-- The fault point of a CPR word (spec/12 R257, R259): every block's operation is accepted, with its bookings; or none is, and its
threads are at the word again and take the faults. -/
def State.cprPoint (s : State) (o : Op) : Option State :=
  let now := s.now o.core
  let ops := s.ops.filter fun p => p.stage == cprOpen && p.core == o.core && p.pc == o.pc && p.clk == o.clk && p.kind.cpr?.isSome
  let mine := s.blocks.flatMap fun p => if p.2.core != o.core then [] else
    (p.2.threads.filter fun q => q.2.undo.any fun u => u.clk == o.clk && u.word == o.pc).map fun q => (⟨p.1, q.1⟩ : Tid)
  if o.stage ≠ cprOpen ∨ now < o.clk + 2 then none
  else
    let ds := s.cprDecideAll ops
    let bad := ds.filterMap fun d => match d.2 with | .error f => some (d.1, f) | .ok _ => none
    if bad.isEmpty then
      let new := ds.flatMap fun d => match d.2 with | .ok q => (q.pas.map bankOf).zip q.slots | .error _ => []
      let s := ds.foldl (fun (s : State) d => match d.2 with
        | .ok q => s.modOp d.1.id fun p => { p with kind := .cpr q, stage := 0, lim := 0 }
        | .error _ => s) s
      some ((s.modThreads mine fun th => { th with undo := none }).modCore o.core fun c =>
        { c with book := (c.book.filter fun p => now ≤ p.2) ++ new })
    else
      let s := ops.foldl State.abandon s
      let s := s.modThreads mine fun th => match th.undo with
        | some u => { th with pc := u.pc, win := u.win, loops := u.loops, lbuf := u.lbuf, qlast := u.qlast, undo := none }
        | none => th
      let live := mine.filter fun t => (s.thread t).status == .live
      some (({ s with cur := { core := o.core, pc := o.pc, tids := live } } : State).raise
        (bad.flatMap fun x => (x.1.tids.filter live.contains).map fun t => (t, x.2)))

/-- The contributions of a CPR line: its scratchpad elements, or a poison mark for a poisoned sector (spec/12 R258). -/
def State.cprLine (s : State) (c src n : Nat) : List ((Bool → Nat) × Option FV) :=
  (List.range n).map fun e =>
    (fun _ => e, if s.spadPoison c (src + 4 * e) 4 then none
      else some (v32 (BitVec.ofNat 32 (s.spadRead c (src + 4 * e) 4))))

/-- CPR_LINE_WRITE (spec/12 R258, R259): the next line at its booked clock, or, unscheduled, on a clock of phase 2 or 3
in its bank's order, its bank's only write at that clock. -/
def State.writeCprLine (s : State) (o : Op) (r : CprReq) : Option State :=
  match r.pas[o.prog]? with
  | none => none
  | some pa =>
    let now := s.now o.core
    let turn := match r.slots[o.prog]? with
      | some k => k == now
      | none => s.canRun o && decide (o.clk + 8 ≤ now) && decide (2 ≤ now % 4) && !(s.core o.core).book.contains (bankOf pa, now)
          && !(s.opsBefore o.id).any fun p => p.core == o.core && p.kind.cpr?.any fun q =>
            q.slots.isEmpty && (q.pas.drop p.prog).any fun x => bankOf x == bankOf pa
    if o.stage ≠ 0 ∨ turn = false then none
    else
      let n := if s.modeR o.core o.blk (pa / 256) then 32 else 64
      let s := s.contribute o.core o.blk (pa / 256) (s.cprLine o.core (r.src + 256 * o.prog) n)
      let s := s.modCore o.core fun c => { c with book := (c.book.filter fun p => now ≤ p.2) ++ [(bankOf pa, now)] }
      some (s.modOp o.id fun p => { p with prog := p.prog + 1, pageAt := now })

/-! ### CPREM (spec/12 R260 to R262) -/

/-- Is a channel granted to a context (spec/12 R260)? -/
def State.granted (s : State) (chan cid : Nat) : Bool := s.pkg.chcid.find chan == some cid && cid != 0
/-- Does the channel hold a posting, or is one being registered? -/
def State.posted (s : State) (chan : Nat) : Bool :=
  s.fabric.posts.any (·.chan == chan) || s.ops.any fun o => match o.kind with
    | .post p => p.chan == chan
    | _ => false

/-- What CPREMPUT checks of one lane and starts (spec/12 R260). -/
def State.putCheck (s : State) (a b : Reg) (t : Tid) : Except Flt OpKind :=
  let blk := s.block t.blk
  let w := s.rd t b
  let src := spAddr (ctlSsp w) (s.rd64 t a).toNat
  let len := (s.rd t (a.plus 2)).toNat
  let tgt := s.rd t (a.plus 3)
  let pod := s.rd t (b.plus 1)
  let own := bitOf pod 11
  match staged [misFault 4 src, misFault 4 len, badField (ctlBad blk w || ctlDsp w != 0 || bitOf w 14
        || fld tgt 22 10 != 0 || fld pod 12 20 != 0 || (own && fld pod 0 11 != 0) || len == 0 || decide (2 ^ 31 < len)
        || !s.granted (fld tgt 0 12) blk.ctx),
      if 0 < len then s.runForm t (ctlSsp w) src len else none] [] with
  | some f => .error f
  | none => .ok (.put (ctlSsp w) src len (if own then s.pkg.podNo else fld pod 0 11) (fld tgt 12 10) (fld tgt 0 12) w s.order)
/-- CPREM.PUT (spec/12 R260). -/
def execCpremPut (h : Hdr) (a b : Reg) (k : Toks) (s : State) : Out State :=
  s.blockWord qCopy 3 h k.ins (some k.tko) (some .cp) (s.putCheck a b)

/-- What CPREMPOST checks of one lane and starts (spec/12 R260). -/
def State.postCheck (s : State) (a b : Reg) (t : Tid) : Except Flt OpKind :=
  let blk := s.block t.blk
  let w := s.rd t b
  let dst := spAddr (ctlDsp w) (s.rd64 t a).toNat
  let size := (s.rd t (a.plus 2)).toNat
  let chan := s.rd t (a.plus 3)
  match staged [misFault 4 dst, misFault 4 size, badField (ctlBad blk w || ctlSsp w != 0 || fld chan 12 20 != 0
        || s.rd t (b.plus 1) != 0 || !s.granted (fld chan 0 12) blk.ctx || s.posted (fld chan 0 12)),
      if 0 < size then s.runForm t (ctlDsp w) dst size else none] [] with
  | some f => .error f
  | none => .ok (.post { chan := fld chan 0 12, blk := t.blk, dsp := ctlDsp w, dst := dst, size := size, ctl := w })
/-- CPREM.POST (spec/12 R260). -/
def execCpremPost (h : Hdr) (a b : Reg) (k : Toks) (s : State) : Out State :=
  s.blockWord qCopy 3 h k.ins (some k.tko) (some .cp) (s.postCheck a b)

/-- The bytes of a run an operation reads, with its words of 4 bytes that carry poison, or what stopped it. -/
def State.readRun (s : State) (o : Op) (sp v len : Nat) : Except (Bool × Nat) (List Byte × List Nat) × State :=
  (List.range (len / 4)).foldl (fun (r : Except (Bool × Nat) (List Byte × List Nat) × State) i => match r.1 with
    | .error _ => r
    | .ok bs => match r.2.opPlace o sp (v + 4 * i) 4 .r with
      | .error x => (.error x, r.2)
      | .ok l =>
        let (b, bad, s) := r.2.engGet o.core l 4
        (.ok (bs.1 ++ b, if bad then bs.2 ++ [i] else bs.2), s)) (.ok ([], []), s)

/-- A CPREM.PUT sends its bytes, poison with them (spec/12 R251, R262). -/
def State.sendPut (s : State) (o : Op) (ssp src len pod pkg chan seq : Nat) : State :=
  match s.readRun o ssp src len with
  | (.error x, s) => s.stall o x
  | (.ok bs, s) =>
    let s := s.modOp o.id fun p => { p with stage := 3 }
    { s with outs := s.outs ++ [.put pod pkg chan seq bs.1 bs.2] }

/-- An operation as its posting's block holds it. -/
def State.heldBy (s : State) (o : Op) (p : Posting) : Op := { o with blk := p.blk, core := (s.block p.blk).core }
/-- The walk of the whole of a posted buffer before any byte is written (spec/12 R262): what stops it, a page not present (true)
before one not permitted. -/
def State.walkPost (s : State) (o : Op) (p : Posting) : Option (Bool × Nat) :=
  let parts := if p.dsp = 0 then pageParts p.dst p.size else if p.size = 0 then [] else [(p.dst, p.size)]
  let bad := parts.filterMap fun q => match s.opPlace (s.heldBy o p) p.dsp q.1 (if p.dsp = 0 then 1 else q.2) .w with
    | .error e => some e
    | .ok _ => none
  (bad.find? (·.1)).orElse fun _ => bad.head?
/-- The places of the words of a transfer in a posted buffer. -/
def State.postPlaces (s : State) (o : Op) (p : Posting) (len : Nat) : List Loc :=
  (List.range (len / 4)).filterMap fun i => (s.opPlace (s.heldBy o p) p.dsp (p.dst + 4 * i) 4 .w).toOption

/-- Refuse an inbound transfer (spec/12 R262): nothing is written; the posting block, or else a block of the grant
holder, gets FAULTST.COPYERR and the record; an error acknowledgement goes back. -/
def State.refuseIn (s : State) (o : Op) (pod pkg chan seq : Nat) : State :=
  let holder := match s.fabric.posts.find? (·.chan == chan) with
    | some p => some p.blk
    | none => (s.blocks.find? fun q => s.granted chan q.2.cid && !isSvc q.2.core).map (·.1)
  let s := match holder with
    | none => s
    | some b =>
      let val := BitVec.ofNat 64 (chan + pkg * 2 ^ 12 + pod * 2 ^ 22)
      let r : FRec := { id := 0, code := FCode.copyFault.num, pc := 0, val := val }
      ((s.setFaultst b 2).impRec b r).modGrid (s.block b).grid fun g => { g with faulted := true }
  { s.finish o.id with outs := s.outs ++ [.ack chan seq true] }

/-- Place an inbound transfer (spec/12 R262); none while it waits for a posting or a page. -/
def State.placeIn (s : State) (o : Op) (pod pkg chan seq : Nat) (data : List Byte) (bad : List Nat) : Option State :=
  match s.fabric.posts.find? (·.chan == chan) with
  | none => none
  | some p =>
    if p.size < data.length then some (s.refuseIn o pod pkg chan seq)
    else match s.walkPost o p with
      | some (true, va) =>
        if o.stage ≠ 0 then none
        else
          let c := (s.block p.blk).core
          let lim := (s.core c).copylim.toNat
          if lim = 0 then some (s.refuseIn o pod pkg chan seq)
          else some (s.modOp o.id fun q => { q with blk := p.blk, core := c, stage := 1, prog := va, pageAt := s.now c, lim := lim })
      | some (false, _) => some (s.refuseIn o pod pkg chan seq)
      | none =>
        let c := (s.block p.blk).core
        let s := ((s.postPlaces o p data.length).zipIdx).foldl (fun (s : State) (x : Loc × Nat) =>
          s.engPut c x.1 ((data.drop (4 * x.2)).take 4) (bad.contains x.2) (bitOf p.ctl 14)) s
        let s := if bitOf p.ctl 15 then s.semAdd (s.ctlCore (s.block p.blk) p.ctl) (fld p.ctl 0 6) 1 false false else s
        some { s.finish o.id with
          fabric := { s.fabric with posts := s.fabric.posts.filter (·.chan != chan) }
          outs := s.outs ++ [.ack chan seq false] }

/-! ### TKJ, CPSTAGE, CPADV -/

/-- TKJ (spec/12 R263). -/
def execTkj (h : Hdr) (k : Toks) (s : State) : Out State :=
  s.blockWord qCopy 0 h k.ins (some k.tko) none fun _ => .ok .join

/-- CPSTAGE: each block with an active lane gets a new ring (spec/12 R264, R265). -/
def execCpstage (h : Hdr) (a : Reg) (size : BitVec 10) (mn mx : Fin 64) (s : State) : Out State :=
  let ts := s.act h
  let base (b : Nat) : Nat := match lowLane ts b with
    | some t => (s.rd t a).toNat
    | none => 0
  let bad (b : Nat) : Option Flt := rankFault [misFault 256 (base b),
    if (s.block b).spadSize < base b + mx.val * size.toNat * 256 then some ⟨.access, BitVec.ofNat 64 (base b), 0⟩ else none]
  let fs := ts.filterMap fun t => (bad t.blk).map fun f => (t, f)
  let d := if s.capturing then mx.val else mn.val
  let ring (b : Nat) : Ring := { base := base b, size := size.toNat, mn := mn.val, mx := mx.val, d := d }
  if fs.isEmpty then
    .next (((blksOf ts).foldl (fun s' b => s'.modBlock b fun k => { k with ring := some (ring b) }) s).retireSerial qCopy).useFree
  else .next (s.raise fs)
/-- CPSTAGE.OFF (spec/12 R265). -/
def execCpstageOff (h : Hdr) (s : State) : Out State :=
  .next (((blksOf (s.act h)).foldl (fun s' b => s'.modBlock b fun k => { k with ring := none }) s).retireSerial qCopy)

/-- The ring after a CPADV at a clock (spec/12 R265, R266). -/
def Ring.adv (cap : Bool) (now : Nat) (m : AdvMode) (r : Ring) : Ring := match m with
  | .p => Ring.depth cap { r with
      head := (r.head + 1) % 2 ^ 32
      iavg := avg8 r.iavg (match r.lastP with | some c => now - c | none => 0)
      lastP := some now }
  | .c => { r with tail := (r.tail + 1) % 2 ^ 32 }
  | .n => r
/-- Open stages of a ring. -/
def Ring.open_ (r : Ring) : Nat := (r.head + 2 ^ 32 - r.tail) % 2 ^ 32
/-- Does the condition of a CPADV hold (spec/12 R265)? -/
def Ring.ready (m : AdvMode) (r : Ring) : Bool := match m with
  | .p => r.open_ < r.mx
  | .c => 0 < r.open_
  | .n => true
/-- What a CPADV returns (spec/12 R265). -/
def Ring.result (m : AdvMode) (r : Ring) : Word := match m with
  | .p => BitVec.ofNat 32 (r.head % r.mx)
  | .c => BitVec.ofNat 32 (r.tail % r.mx)
  | .n => BitVec.ofNat 32 r.open_

/-- CPADV: once per block when its condition holds (spec/12 R265). -/
def execCpadv (h : Hdr) (d : Reg) (m : AdvMode) (s : State) : Out State :=
  let bad := (s.act h).filter fun t => (s.block t.blk).ring.isNone
  if !bad.isEmpty then .next (s.raise (bad.map fun t => (t, ⟨.access, 0, 0⟩)))
  else s.waitFor (fun t => !(s.isActive h t) || (s.block t.blk).ring.any (Ring.ready m)) fun s =>
    let ts := s.act h
    let s' := s.fixed qCopy h 4 fun t => match (s.block t.blk).ring with
      | some r => [(d, r.result m)]
      | none => []
    let s' := s'.modThreads s.cur.tids fun th => { th with readyAt := Nat.max th.readyAt (s.clk + 1) }
    .next ((blksOf ts).foldl (fun s' b => s'.modBlock b fun k => { k with ring := k.ring.map (Ring.adv s.capturing s.clk m) }) s')

end Sys2Proof.Machine
end

