-- ==== Sys2Proof/Machine/Int.lean ====
section
/-!
DEFINITION. Machine/Int.lean: the INT class (spec/04 R87 to R105): results of R89, shifts and bit fields of R90, pairs
of R91, compares of R92 and R93, predicate moves of R94 and R95, immediates of R96 and R97, special registers of R98
to R103. Every word is fixed-latency: 4 for IMUL, IMULH and IMAD, 2 for the others (R104).
-/

namespace Sys2Proof.Machine

/-- The INT queue (spec/02 R50). -/
def qInt : Nat := 1

/-- Clamp an exact result to int32 or uint32 (spec/04 R89). -/
def clampInt (u : Bool) (v : Int) : Word :=
  if u then (if v < 0 then 0 else if 2 ^ 32 - 1 < v then 0xFFFFFFFF else wordOf v)
  else (if v < -2 ^ 31 then 0x80000000 else if 2 ^ 31 - 1 < v then 0x7FFFFFFF else wordOf v)

/-- An arithmetic result under its modifier: wrapping, or saturated with the sources as int32 or uint32 (spec/04 R89). -/
def arith (m : ArithMod) (f : Int → Int → Int → Int) (a b c : Word) : Word :=
  match m with
  | .wrap => wordOf (f a.toInt b.toInt c.toInt)
  | .sat => clampInt false (f a.toInt b.toInt c.toInt)
  | .satU => clampInt true (f a.toNat b.toNat c.toNat)

/-- A word with one register result from three 32-bit sources. -/
def State.int3 (s : State) (h : Hdr) (lat : Nat) (d a b c : Reg) (f : Word → Word → Word → Word) : State :=
  s.fixed qInt h lat fun t => [(d, f (s.rd t a) (s.rd t b) (s.rd t c))]

/-- IADD (spec/04 R89). -/
def execIadd (h : Hdr) (d a b : Reg) (m : ArithMod) (s : State) : Out State :=
  .next (s.int3 h 2 d a b .xz fun x y _ => arith m (fun x y _ => x + y) x y 0)
/-- ISUB (spec/04 R89). -/
def execIsub (h : Hdr) (d a b : Reg) (m : ArithMod) (s : State) : Out State :=
  .next (s.int3 h 2 d a b .xz fun x y _ => arith m (fun x y _ => x - y) x y 0)
/-- IMUL (spec/04 R89). -/
def execImul (h : Hdr) (d a b : Reg) (s : State) : Out State := .next (s.int3 h 4 d a b .xz fun x y _ => x * y)
/-- Bits [63:32] of the 64-bit product (spec/04 R89). -/
def mulHigh (u : Bool) (x y : Word) : Word :=
  if u then BitVec.ofNat 32 (x.toNat * y.toNat / 2 ^ 32) else BitVec.ofInt 32 (x.toInt * y.toInt / 2 ^ 32)
/-- IMULH (spec/04 R89). -/
def execImulh (h : Hdr) (d a b : Reg) (u : Bool) (s : State) : Out State :=
  .next (s.int3 h 4 d a b .xz fun x y _ => mulHigh u x y)
/-- IMAD (spec/04 R89). -/
def execImad (h : Hdr) (d a b c : Reg) (m : ArithMod) (s : State) : Out State :=
  .next (s.int3 h 4 d a b c (arith m fun x y z => x * y + z))
/-- IMIN (spec/04 R89). -/
def execImin (h : Hdr) (d a b : Reg) (u : Bool) (s : State) : Out State :=
  .next (s.int3 h 2 d a b .xz fun x y _ => if compareInt x y .le u then x else y)
/-- IMAX (spec/04 R89). -/
def execImax (h : Hdr) (d a b : Reg) (u : Bool) (s : State) : Out State :=
  .next (s.int3 h 2 d a b .xz fun x y _ => if compareInt x y .ge u then x else y)
/-- The absolute value as int32; the most negative stays, or saturates (spec/04 R89). -/
def absInt (sat : Bool) (x : Word) : Word :=
  if x = 0x80000000 then (if sat then 0x7FFFFFFF else 0x80000000) else if bitOf x 31 then 0 - x else x
/-- IABS (spec/04 R89). -/
def execIabs (h : Hdr) (d a : Reg) (sat : Bool) (s : State) : Out State :=
  .next (s.int3 h 2 d a .xz .xz fun x _ _ => absInt sat x)
/-- AND (spec/04 R89). -/
def execAnd (h : Hdr) (d a b : Reg) (s : State) : Out State := .next (s.int3 h 2 d a b .xz fun x y _ => x &&& y)
/-- OR (spec/04 R89). -/
def execOr (h : Hdr) (d a b : Reg) (s : State) : Out State := .next (s.int3 h 2 d a b .xz fun x y _ => x ||| y)
/-- XOR (spec/04 R89). -/
def execXor (h : Hdr) (d a b : Reg) (s : State) : Out State := .next (s.int3 h 2 d a b .xz fun x y _ => x ^^^ y)
/-- ANDN: A AND NOT B (spec/04 R89). -/
def execAndn (h : Hdr) (d a b : Reg) (s : State) : Out State := .next (s.int3 h 2 d a b .xz fun x y _ => x &&& ~~~ y)

/-- The shifts of spec/04 R90: a count of 32 or more gives 0, or the sign. -/
def shiftLeft (x n : Word) : Word := if 32 ≤ n.toNat then 0 else x <<< n.toNat
def shiftRight (x n : Word) : Word := if 32 ≤ n.toNat then 0 else x >>> n.toNat
def shiftArith (x n : Word) : Word := x.sshiftRight (Nat.min 32 n.toNat)
/-- Rotate left by the low five bits (spec/04 R90). -/
def rotLeft (x n : Word) : Word := x.rotateLeft (fld n 0 5)
/-- SHL (spec/04 R90). -/
def execShl (h : Hdr) (d a b : Reg) (s : State) : Out State := .next (s.int3 h 2 d a b .xz fun x y _ => shiftLeft x y)
/-- SHR (spec/04 R90). -/
def execShr (h : Hdr) (d a b : Reg) (s : State) : Out State := .next (s.int3 h 2 d a b .xz fun x y _ => shiftRight x y)
/-- SAR (spec/04 R90). -/
def execSar (h : Hdr) (d a b : Reg) (s : State) : Out State := .next (s.int3 h 2 d a b .xz fun x y _ => shiftArith x y)
/-- ROL (spec/04 R90). -/
def execRol (h : Hdr) (d a b : Reg) (s : State) : Out State := .next (s.int3 h 2 d a b .xz fun x y _ => rotLeft x y)

/-- Position and clipped length of a bit field, or none for an empty one (spec/04 R90). -/
def bitField (b : Word) : Option (Nat × Nat) :=
  let pos := fld b 0 8
  let len := fld b 8 8
  if len = 0 ∨ 32 ≤ pos then none else some (pos, Nat.min len (32 - pos))
/-- Extract a bit field (spec/04 R90). -/
def bfx (sg : Bool) (x y : Word) : Word :=
  match bitField y with
  | none => 0
  | some (pos, w) => if sg then wordOf (sext w (fld x pos w)) else BitVec.ofNat 32 (fld x pos w)
/-- Insert a bit field (spec/04 R90). -/
def bfi (x y z : Word) : Word :=
  match bitField y with
  | none => z
  | some (pos, w) =>
    BitVec.ofNat 32 (z.toNat % 2 ^ pos + fld x 0 w * 2 ^ pos + z.toNat / 2 ^ (pos + w) * 2 ^ (pos + w))
/-- BFX (spec/04 R90). -/
def execBfx (h : Hdr) (d a b : Reg) (sg : Bool) (s : State) : Out State :=
  .next (s.int3 h 2 d a b .xz fun x y _ => bfx sg x y)
/-- BFI (spec/04 R90). -/
def execBfi (h : Hdr) (d a b c : Reg) (s : State) : Out State := .next (s.int3 h 2 d a b c bfi)

/-- The number of 1 bits (spec/04 R89). -/
def popcount (x : Word) : Nat := (List.range 32).foldl (fun n i => n + if x.getLsbD i then 1 else 0) 0
/-- The number of leading 0 bits, 32 for 0 (spec/04 R89). -/
def leadZeros (x : Word) : Nat := if x = 0 then 32 else 31 - Nat.log2 x.toNat
/-- The bits in reverse order (spec/04 R89). -/
def bitRev (x : Word) : Word := (List.range 32).foldl (fun r i => if x.getLsbD (31 - i) then r ||| (1 <<< i) else r) 0
/-- POPC (spec/04 R89). -/
def execPopc (h : Hdr) (d a : Reg) (s : State) : Out State :=
  .next (s.int3 h 2 d a .xz .xz fun x _ _ => BitVec.ofNat 32 (popcount x))
/-- CLZ (spec/04 R89). -/
def execClz (h : Hdr) (d a : Reg) (s : State) : Out State :=
  .next (s.int3 h 2 d a .xz .xz fun x _ _ => BitVec.ofNat 32 (leadZeros x))
/-- BREV (spec/04 R89). -/
def execBrev (h : Hdr) (d a : Reg) (s : State) : Out State := .next (s.int3 h 2 d a .xz .xz fun x _ _ => bitRev x)

/-- ISETP (spec/04 R92). -/
def execIsetp (h : Hdr) (p : Pred) (a b : Reg) (c : Cmp) (u : Bool) (q : PComb) (s : State) : Out State :=
  .next (s.fixedP qInt h 2 p fun t => s.combine t (compareInt (s.rd t a) (s.rd t b) c u) q)
/-- PLOP (spec/04 R94). -/
def execPlop (h : Hdr) (pd pa pb pc : Pred) (lut : BitVec 8) (s : State) : Out State :=
  .next (s.fixedP qInt h 2 pd fun t => lutBit lut (s.rdP t pa) (s.rdP t pb) (s.rdP t pc))
/-- SEL (spec/04 R89). -/
def execSel (h : Hdr) (d a b : Reg) (p : Pred) (n : Bool) (s : State) : Out State :=
  .next (s.fixed qInt h 2 fun t => [(d, if s.rdP t p != n then s.rd t a else s.rd t b)])
/-- MOV (spec/04 R89). -/
def execMov (h : Hdr) (d a : Reg) (s : State) : Out State := .next (s.int3 h 2 d a .xz .xz fun x _ _ => x)
/-- MOVI (spec/04 R96). -/
def execMovi (h : Hdr) (d : Reg) (i : BitVec 30) (s : State) : Out State :=
  .next (s.fixed qInt h 2 fun _ => [(d, imm30s i)])
/-- MOVHI: the high half; the low half of d stays (spec/04 R96). -/
def execMovhi (h : Hdr) (d : Reg) (i : BitVec 16) (s : State) : Out State :=
  .next (s.fixed qInt h 2 fun t => [(d, i ++ BitVec.truncate 16 (s.rd t d))])

/-- The counters as CNT shows them (spec/04 R98). -/
def Thread.cntWord (th : Thread) : Nat := th.mt * 2 ^ 18 + th.cp * 2 ^ 12 + th.st * 2 ^ 6 + th.ld
/-- FAULTST as MOVS reads it (spec/04 R103). -/
def State.faultst (s : State) (b : Nat) : Nat :=
  let blk := s.block b
  blk.faultst.toNat * 4
    + (if (s.mRecs b).isEmpty then 0 else 2)
    + (if blk.faultq.isEmpty then 0 else 1)
/-- The value of a special register for a thread (spec/04 R98). On a service core the identity registers read as the
last column of the table shows. -/
def State.sreg (s : State) (t : Tid) (r : SReg) : DWord :=
  let b := s.block t.blk
  let g := s.grid b.grid
  let sv := isSvc b.core
  let ones : Nat := 2 ^ 32 - 1
  match r with
  | .width => if sv then 1 else 64
  | .lane => if sv then 0 else BitVec.ofNat 64 t.lane
  | .slot => if sv then 0 else BitVec.ofNat 64 (s.slot t)
  | .rowid => if sv then 0 else BitVec.ofNat 64 t.row
  | .nrow => if sv then 1 else BitVec.ofNat 64 b.nrow
  | .blkid => if sv then 0 else BitVec.ofNat 64 b.blkid
  | .nblk => if sv then 1 else BitVec.ofNat 64 g.lrec.nblk
  | .qpos => BitVec.ofNat 64 (qposOf b.core)
  | .qgid => BitVec.ofNat 64 (b.qgid.getD ones)
  | .dgid => BitVec.ofNat 64 (b.dgid.getD ones)
  | .dgpos => BitVec.ofNat 64 (if b.dgid.isSome then b.dgpos else ones)
  | .gridid => if sv then 0 else BitVec.ofNat 64 (s.grid b.grid).lrec.gridid
  | .prio => if sv then 0 else BitVec.ofNat 64 b.prio
  | .part => if sv then 2 else BitVec.ofNat 64 b.part
  | .level => BitVec.ofNat 64 (s.thread t).level.num
  | .clk => BitVec.ofNat 64 (s.now b.core)
  | .seed => if sv then 0 else g.lrec.seed
  | .cnt => BitVec.ofNat 64 (s.thread t).cntWord
  | .pdepth => BitVec.ofNat 64 (match b.ring with | some r => r.d | none => 0)
  | .lc k => (((s.thread t).loops[k.val]?).getD {}).lc.zeroExtend 64
  | .mb k => ((s.core b.core).mb.getD k.val 0).zeroExtend 64
  | .fs k => ((b.fs[k.val]?).getD 0).zeroExtend 64
  | .xlwin => b.xlwin.zeroExtend 64
  | .taglim => b.taglim.zeroExtend 64
  | .faultst => BitVec.ofNat 64 (s.faultst t.blk)
/-- MOVS (spec/04 R98, R99): a 64-bit register goes to a pair. -/
def execMovs (h : Hdr) (d : Reg) (r : SReg) (s : State) : Out State :=
  .next (s.fixed qInt h 2 fun t =>
    let v := s.sreg t r
    if r.wide then [(d, BitVec.truncate 32 v), (d.plus 1, BitVec.truncate 32 (v >>> 32))]
    else [(d, BitVec.truncate 32 v)])

/-- The block-scope registers MOVSW writes, as Block.putSp numbers them. -/
def spIndex : SReg → Option Nat
  | .xlwin => some 0 | .taglim => some 1 | .faultst => some 2 | _ => none
/-- MOVSW (spec/04 R99 to R103): a block-scope register takes the value of each block's lowest active lane, a mailbox
every active lane's value in ascending order; the write is seen from issue + 2. -/
def execMovsw (h : Hdr) (r : SReg) (a : Reg) (s : State) : Out State :=
  let ts := s.act h
  let due := s.clk + 2
  let s' := match r with
    | .mb k =>
      let s' := (byLane ts).foldl (fun (s' : State) (t : Tid) =>
        s'.capLog (s.mbEntry t.blk k.val (s.rd t a))) s
      s'.modCore s.cur.core fun c => { c with
        mbPend := c.mbPend ++ (byLane ts).map fun t => (k.val, s.rd t a, due) }
    | _ => match spIndex r with
      | none => s
      | some i => (blksOf ts).foldl (fun s' b => match lowLane ts b with
        | none => s'
        | some t => s'.modBlock b fun blk => { blk with spw := blk.spw ++ [(i, s.rd t a, due)] }) s
  .next (s'.retire qInt).useFree

/-- LEA: pair + extended and shifted register (spec/04 R91). -/
def leaVal (a : DWord) (b : Word) (sh : Nat) (u : Bool) : DWord :=
  a + ((if u then b.zeroExtend 64 else b.signExtend 64) <<< sh)
/-- The two halves of a pair result (spec/02 R48). -/
def pairOf (d : Reg) (v : DWord) : List (Reg × Word) :=
  [(d, BitVec.truncate 32 v), (d.plus 1, BitVec.truncate 32 (v >>> 32))]
/-- LEA (spec/04 R91). -/
def execLea (h : Hdr) (d a b : Reg) (sh : Fin 8) (u : Bool) (s : State) : Out State :=
  .next (s.fixed qInt h 2 fun t => pairOf d (leaVal (s.rd64 t a) (s.rd t b) sh.val u))
/-- IADD64 (spec/04 R91). -/
def execIadd64 (h : Hdr) (d a b : Reg) (s : State) : Out State :=
  .next (s.fixed qInt h 2 fun t => pairOf d (s.rd64 t a + s.rd64 t b))

/-- The predicates as PGET packs them; bit 7 is p7 (spec/04 R95). -/
def State.predWord (s : State) (t : Tid) : Word :=
  (List.range 7).foldl (fun w k => if s.rdP t (fin 8 k) then w ||| BitVec.ofNat 32 (2 ^ k) else w) 0x80
/-- PGET (spec/04 R95). -/
def execPget (h : Hdr) (d : Reg) (s : State) : Out State := .next (s.fixed qInt h 2 fun t => [(d, s.predWord t)])
/-- PPUT (spec/04 R95). -/
def execPput (h : Hdr) (a : Reg) (mask : BitVec 7) (s : State) : Out State :=
  let due := s.clk + 2
  .next (((s.act h).foldl (fun s' t => (List.range 7).foldl (fun s' k =>
    if mask.getLsbD k then s'.wrPAt t (fin 8 k) ((s.rd t a).getLsbD k) due qInt else s') s') s).retire qInt).useFree

/-- IADDI (spec/04 R97). -/
def execIaddi (h : Hdr) (d a : Reg) (i : BitVec 22) (s : State) : Out State :=
  .next (s.int3 h 2 d a .xz .xz fun x _ _ => x + imm22s i)
/-- ANDI (spec/04 R97). -/
def execAndi (h : Hdr) (d a : Reg) (i : BitVec 22) (s : State) : Out State :=
  .next (s.int3 h 2 d a .xz .xz fun x _ _ => x &&& imm22s i)
/-- ORI (spec/04 R97). -/
def execOri (h : Hdr) (d a : Reg) (i : BitVec 22) (s : State) : Out State :=
  .next (s.int3 h 2 d a .xz .xz fun x _ _ => x ||| imm22s i)
/-- XORI (spec/04 R97). -/
def execXori (h : Hdr) (d a : Reg) (i : BitVec 22) (s : State) : Out State :=
  .next (s.int3 h 2 d a .xz .xz fun x _ _ => x ^^^ imm22s i)
/-- ISETPI (spec/04 R93). -/
def execIsetpi (h : Hdr) (p : Pred) (a : Reg) (i : BitVec 22) (c : Cmp) (u : Bool) (s : State) : Out State :=
  .next (s.fixedP qInt h 2 p fun t => compareInt (s.rd t a) (if u then imm22u i else imm22s i) c u)

end Sys2Proof.Machine
end

