-- ==== Sys2Proof/Machine/Sfu.lean ====
section
/-!
DEFINITION. Machine/Sfu.lean: the SFU class (spec/07): exact roots and quotients, approximations free within their bound
(R141, DESIGN CHOICE, log 6), the special cases of R142, table interpolation (R145 to R147), random numbers (R149, R150) and the
row sample of CSAMP (R151).
-/

namespace Sys2Proof.Machine

/-- The SFU queue (spec/02 R50). -/
def qSfu : Nat := 3

/-! ### Real functions in fixed point: integers over 2^320 -/

/-- Fraction bits of the fixed-point values. -/
def fxP : Nat := 320
/-- π over 2^320, rounded down. -/
def fxPi : Int := 0x3243f6a8885a308d313198a2e03707344a4093822299f31d0082efa98ec4e6c89452821e638d01377
/-- ln 2 over 2^320, rounded down. -/
def fxLn2 : Int := 0xb17217f7d1cf79abc9e3b39803f2f6af40f343267298b62d8a0d175b8baafa2be7b876206debac98
/-- One. -/
def fxOne : Int := 2 ^ fxP
/-- Product. -/
def fxMul (a b : Int) : Int := a * b / 2 ^ fxP
/-- A finite value over 2^320; exact for every FP32 value. -/
def fxOf (neg : Bool) (m : Nat) (e : Int) : Int := alignTo neg m e (-(fxP : Int))
/-- Square root of a natural number, rounded down, by its bits from k downwards. -/
def isqrtBits (n r : Nat) : Nat → Nat
  | 0 => r
  | k + 1 => isqrtBits n (if (r + 2 ^ k) * (r + 2 ^ k) ≤ n then r + 2 ^ k else r) k
/-- Square root of a natural number, rounded down. -/
def isqrt (n : Nat) : Nat := isqrtBits n 0 (Nat.log2 n / 2 + 1)
/-- The sum of the series t, t × z / c 1, t × z² / (c 1 × c 2), …, of n terms. -/
def fxSeries (z : Int) (c : Nat → Int) (t : Int) (n : Nat) : Int :=
  ((List.range n).foldl (fun (a : Int × Int) k => (a.1 + a.2, fxMul a.2 z / c (k + 1))) (0, t)).1
/-- e^t for |t| ≤ 1/2. -/
def fxExpSmall (t : Int) : Int := fxSeries t (fun k => k) fxOne 80
/-- Shift a fixed-point value by n binary places. -/
def fxShift (x n : Int) : Int := match n with
  | .ofNat k => x * 2 ^ k
  | .negSucc k => x / 2 ^ (k + 1)
/-- 2^x. -/
def fxExp2 (x : Int) : Int :=
  let n := (x + fxOne / 2) / fxOne
  fxShift (fxExpSmall (fxMul (x - n * fxOne) fxLn2)) n
/-- e^x. -/
def fxExp (x : Int) : Int :=
  let n := (x + fxLn2 / 2) / fxLn2
  fxShift (fxExpSmall (x - n * fxLn2)) n
/-- ln v for v in [1/2, 2]: twice the series of z, z³/3, … at z = (v − 1)/(v + 1). -/
def fxLn (v : Int) : Int :=
  let z := (v - fxOne) * fxOne / (v + fxOne)
  let z2 := fxMul z z
  2 * ((List.range 120).foldl (fun (a : Int × Int) k => (a.1 + a.2 / ((2 * k + 1 : Nat) : Int), fxMul a.2 z2)) (0, z)).1
/-- sin r for |r| ≤ 1. -/
def fxSinSmall (r : Int) : Int := fxSeries (-(fxMul r r)) (fun k => 2 * k * (2 * k + 1)) r 60
/-- cos r for |r| ≤ 1. -/
def fxCosSmall (r : Int) : Int := fxSeries (-(fxMul r r)) (fun k => (2 * k - 1) * (2 * k)) fxOne 60
/-- The quadrant and remainder of an argument (spec/07 R143). -/
def fxReduce (a : Int) : Int × Int :=
  let k := (2 * a + fxPi / 2) / fxPi
  (k % 4, a - k * fxPi / 2)
/-- sin a. -/
def fxSin (a : Int) : Int := match fxReduce a with
  | (0, r) => fxSinSmall r
  | (1, r) => fxCosSmall r
  | (2, r) => -fxSinSmall r
  | (_, r) => -fxCosSmall r
/-- cos a. -/
def fxCos (a : Int) : Int := match fxReduce a with
  | (0, r) => fxCosSmall r
  | (1, r) => -fxSinSmall r
  | (2, r) => -fxCosSmall r
  | (_, r) => fxSinSmall r

/-- The error the fixed-point functions stay below: 2^-180 absolute, 2^-150 relative. -/
def fxSlack (y : Int) : Nat := 2 ^ 140 + y.natAbs / 2 ^ 150

/-- One ulp of a value over 2^320 that is known up to the slack (spec/07 R141); where a power of two lies within the slack, `low`
says that the exact magnitude is below it. -/
def fxUlp (low : Bool) (y : Int) : Nat :=
  let a := if low then y.natAbs - fxSlack y else y.natAbs + fxSlack y
  if a = 0 then 2 ^ (fxP - 149) else 2 ^ (Nat.max (Nat.log2 a) (fxP - 126) - 23)

/-- Is an FP32 word finite and within `halfUlps` halves of an ulp of y (spec/07 R141)? Where y is known too coarsely to decide, its
exact magnitude lies below its approximation where `low`, else above. -/
def withinBound (halfUlps : Nat) (low : Bool) (y : Int) (w : Word) : Bool :=
  match v32 w with
  | .fin n m e =>
    let d := 2 * (fxOf n m e - y).natAbs
    let b := halfUlps * fxUlp low y
    if d + 2 * fxSlack y < b then true
    else if b + 2 * fxSlack y < d then false
    else decide ((fxOf n m e).natAbs < y.natAbs) == low
  | _ => false

/-- The approximation of y a special function returns: any FP32 value within the bound, a free value by function and
operand; the nearest one stands in where the free value is outside (spec/07 R141, DESIGN CHOICE, log 6). -/
def approxOf (fn halfUlps : Nat) (low : Bool) (x : Word) (y : Int) : Word :=
  let w := Config.approx fn x
  if withinBound halfUlps low y w then w else BitVec.ofNat 32 (roundRat f32 .rn false 0 (decide (y < 0)) y.natAbs (2 ^ fxP))

/-! ### The functions -/

/-- Is a finite magnitude m × 2^e a power of two; its exponent. -/
def pow2Exp (m : Nat) (e : Int) : Option Int := if m ≠ 0 ∧ 2 ^ Nat.log2 m = m then some (e + Nat.log2 m) else none
/-- ± 2^k as FP32. -/
def pow2W (neg : Bool) (k : Int) : Word := r32 .rn (.fin neg 1 k)
/-- ± ∞. -/
def infW (neg : Bool) : Word := r32 .rn (.inf neg)
/-- ± 0. -/
def zeroW (neg : Bool) : Word := r32 .rn (.fin neg 0 0)
/-- 1 / (m × 2^e) over 2^320. -/
def fxInv (m : Nat) (e : Int) : Int := let (a, b) := quot m e; ((2 ^ fxP * b / a : Nat) : Int)

/-- RCP (spec/07 R141, R142). -/
def rcpW (x : Word) : Word :=
  match v32 x with
  | .nan => nan32
  | .inf n => zeroW n
  | .fin n m e =>
    if m = 0 then infW n
    else match pow2Exp m e with
      | some k => if k < -127 then infW n else pow2W n (-k)
      | none =>
        let y := fxInv m e
        if (f32.dec f32.maxBits).lt (.fin false y.toNat (-(fxP : Int))) then infW n
        else approxOf 0 2 true x (if n then -y else y)
/-- RSQ (spec/07 R141, R142). -/
def rsqW (x : Word) : Word :=
  match v32 x with
  | .nan => nan32
  | .inf n => if n then nan32 else zeroW false
  | .fin n m e =>
    if m = 0 then infW n
    else if n then nan32
    else match pow2Exp m e with
      | some k => if k % 2 = 0 then pow2W false (-(k / 2)) else approxOf 1 2 true x (rsqFx m e)
      | none => approxOf 1 2 true x (rsqFx m e)
where
  /-- 1 / √(m × 2^e) over 2^320. -/
  rsqFx (m : Nat) (e : Int) : Int := let (a, b) := quot m e; (isqrt (2 ^ (2 * fxP) * b / a) : Nat)
/-- SQRT, correctly rounded (spec/07 R141, R142, R144). -/
def sqrtW (md : RMode) (x : Word) : Word :=
  match v32 x with
  | .nan => nan32
  | .inf n => if n then nan32 else x
  | .fin n m e =>
    if m = 0 then x
    else if n then nan32
    else
      let (a, b) := quot m e
      let l := log2Q a b / 2
      let qe := max l (-126) - 23
      -- the square of √A over 2^qe, as a quotient
      let (c, d) := scaleQ a b (2 * qe)
      let lo := isqrt (c / d)
      let up := match md with
        | .rn => (2 * lo + 1) * (2 * lo + 1) * d < 4 * c || ((2 * lo + 1) * (2 * lo + 1) * d == 4 * c && lo % 2 == 1)
        | .rp => lo * lo * d < c
        | _ => false
      r32 .rn (.fin false (if up then lo + 1 else lo) qe)
/-- EXP2 (spec/07 R141, R142). -/
def exp2W (x : Word) : Word :=
  match v32 x with
  | .nan => nan32
  | .inf n => if n then zeroW false else infW false
  | .fin n m e =>
    let v := fxOf n m e
    if m = 0 then 0x3F800000
    else if 128 * fxOne ≤ v then infW false
    else if v ≤ -150 * fxOne then zeroW false
    else if v % fxOne = 0 then pow2W false (v / fxOne)
    else approxOf 2 4 n x (fxExp2 v)
/-- LOG2 (spec/07 R141, R142). -/
def log2W (x : Word) : Word :=
  match v32 x with
  | .nan => nan32
  | .inf n => if n then nan32 else x
  | .fin n m e =>
    if m = 0 then infW true
    else if n then nan32
    else match pow2Exp m e with
      | some k => r32 .rn (.fin (k < 0) k.natAbs 0)
      | none =>
        let k := e + Nat.log2 m
        let k := if k = -1 then 0 else k
        approxOf 3 4 true x (k * fxOne + fxLn (fxShift (fxOf false m e) (-k)) * fxOne / fxLn2)
/-- The word with its sign bit cleared. -/
def absW (x : Word) : Word := x &&& 0x7FFFFFFF
/-- The word with its sign inverted under a flag. -/
def negIf (b : Bool) (x : Word) : Word := if b then x ^^^ 0x80000000 else x
/-- SIN: odd bit for bit (spec/07 R141 to R143). -/
def sinW (x : Word) : Word :=
  match v32 x with
  | .fin n m e => if fxOf false m e < fxOne / 2 ^ 12 then x else negIf n (approxOf 4 3 true (absW x) (fxSin (fxOf false m e)))
  | _ => nan32
/-- COS: even (spec/07 R141 to R143). -/
def cosW (x : Word) : Word :=
  match v32 x with
  | .fin _ m e => if m = 0 then 0x3F800000 else approxOf 5 3 true (absW x) (fxCos (fxOf false m e))
  | _ => nan32
/-- TANH: odd bit for bit (spec/07 R141, R142). -/
def tanhW (x : Word) : Word :=
  match v32 x with
  | .nan => nan32
  | .inf n => negIf n 0x3F800000
  | .fin n m e =>
    let a := fxOf false m e
    if a < fxOne / 2 ^ 12 then x
    else if 10 * fxOne ≤ a then negIf n 0x3F800000
    else
      let q := fxExp (-2 * a)
      negIf n (approxOf 6 4 true (absW x) ((fxOne - q) * fxOne / (fxOne + q)))
/-- FDIV, correctly rounded (spec/07 R141, R142, R144). -/
def fdivW (md : RMode) (x y : Word) : Word :=
  match v32 x, v32 y with
  | .nan, _ => nan32
  | _, .nan => nan32
  | .inf _, .inf _ => nan32
  | .inf a, .fin b _ _ => infW (a != b)
  | .fin a _ _, .inf b => zeroW (a != b)
  | .fin a m e, .fin b k l =>
    if k = 0 then (if m = 0 then nan32 else infW (a != b))
    else if m = 0 then zeroW (a != b)
    else
      let (p, q) := quot m e
      let (r, t) := quot k l
      BitVec.ofNat 32 (roundRat f32 (rndOf md) false 0 (a != b) (p * t) (q * r))

/-! ### The words -/

/-- An SFU word occupies the unit of its core (spec/07 R138). -/
def State.occupySfu (s : State) (n : Nat) : State := s.modCore s.cur.core fun k => { k with sfuFree := s.clk + n }

/-- A word of one FP32 source and a given latency and occupancy (spec/07 R138). -/
def State.sfu1 (s : State) (h : Hdr) (lat occ : Nat) (d a : Reg) (f : Word → Word) : State :=
  (s.fixed qSfu h lat fun t => [(d, f (s.rd t a))]).occupySfu occ

/-- RCP (spec/07 R144). -/
def execRcp (h : Hdr) (d a : Reg) (s : State) : Out State := .next (s.sfu1 h 12 4 d a rcpW)
/-- RSQ (spec/07 R144). -/
def execRsq (h : Hdr) (d a : Reg) (s : State) : Out State := .next (s.sfu1 h 12 4 d a rsqW)
/-- SQRT (spec/07 R144). -/
def execSqrt (h : Hdr) (d a : Reg) (md : RMode) (s : State) : Out State := .next (s.sfu1 h 16 8 d a (sqrtW md))
/-- EXP2 (spec/07 R144). -/
def execExp2 (h : Hdr) (d a : Reg) (s : State) : Out State := .next (s.sfu1 h 12 4 d a exp2W)
/-- LOG2 (spec/07 R144). -/
def execLog2 (h : Hdr) (d a : Reg) (s : State) : Out State := .next (s.sfu1 h 12 4 d a log2W)
/-- SIN (spec/07 R144). -/
def execSin (h : Hdr) (d a : Reg) (s : State) : Out State := .next (s.sfu1 h 16 4 d a sinW)
/-- COS (spec/07 R144). -/
def execCos (h : Hdr) (d a : Reg) (s : State) : Out State := .next (s.sfu1 h 16 4 d a cosW)
/-- SINCOS: sin into d, cos into d + 1 (spec/07 R144). -/
def execSincos (h : Hdr) (d a : Reg) (s : State) : Out State :=
  .next ((s.fixed qSfu h 18 fun t => [(d, sinW (s.rd t a)), (d.plus 1, cosW (s.rd t a))]).occupySfu 8)
/-- TANH (spec/07 R144). -/
def execTanh (h : Hdr) (d a : Reg) (s : State) : Out State := .next (s.sfu1 h 12 4 d a tanhW)
/-- FDIV (spec/07 R144). -/
def execFdiv (h : Hdr) (d a b : Reg) (md : RMode) (s : State) : Out State :=
  .next ((s.fixed qSfu h 16 fun t => [(d, fdivW md (s.rd t a) (s.rd t b))]).occupySfu 8)

/-- RNG's value (spec/07 R149). -/
def rngW (uf : Bool) (v : Word) : Word := if uf then r32 .rn (.fin false (fld v 8 24) (-24)) else v
/-- RNG (spec/07 R149). -/
def execRng (h : Hdr) (d a : Reg) (uf : Bool) (s : State) : Out State :=
  .next ((s.fixed qSfu h 8 fun t => [(d, rngW uf (cmix (s.seedOf t) (s.rd t a) t.lane))]).occupySfu 4)
/-- DROPM (spec/07 R150). -/
def execDropm (h : Hdr) (p : Pred) (a b : Reg) (s : State) : Out State :=
  .next ((s.fixedP qSfu h 8 p fun t =>
    decide (fld (cmix (s.seedOf t) (s.rd t a) t.lane) 16 16 < Nat.min (s.rd t b).toNat 65536)).occupySfu 4)

/-! ### TLU (spec/07 R145 to R147) -/

/-- A table descriptor. -/
structure TluDesc where
  base : Nat
  lo : Word
  hi : Word
  quad : Bool
  extrap : Bool
  nseg : Nat
  deriving DecidableEq, Repr

/-- The descriptor of registers g(4k) to g(4k+3), or none where it is not valid in a window of `bytes` (spec/07
R145). -/
def tluDesc (g : List Word) (bytes : Nat) : Option TluDesc :=
  let w := g.getD 3 0
  let d : TluDesc := { base := (g.getD 0 0).toNat, lo := g.getD 1 0, hi := g.getD 2 0, quad := bitOf w 11,
                       extrap := bitOf w 12, nseg := fld w 0 11 }
  let stride := if d.quad then 16 else 8
  let isFin : FV → Bool := fun v => match v with | .fin .. => true | _ => false
  if fld w 13 19 = 0 ∧ 1 ≤ d.nseg ∧ d.nseg ≤ 1024 ∧ isFin (v32 d.lo) = true ∧ isFin (v32 d.hi) = true ∧ (v32 d.lo).lt (v32 d.hi)
      ∧ d.base % stride = 0 ∧ d.base + d.nseg * stride ≤ bytes then some d else none

/-- The segment and the position within it of an input that is not a NaN (spec/07 R146). -/
def tluSeg (d : TluDesc) (x : Word) : Nat × Word :=
  let lo := v32 d.lo
  let hi := v32 d.hi
  let v := v32 x
  match v, lo, hi with
  | .fin n m e, .fin ln lm le, .fin hn hm he =>
    let q := min e (min le he)
    let num := (alignTo n m e q - alignTo ln lm le q) * d.nseg
    let den := alignTo hn hm he q - alignTo ln lm le q
    let frac := fun (i : Nat) =>
      let r := num - i * den
      BitVec.ofNat 32 (roundRat f32 .rz false 0 (decide (r < 0)) r.natAbs den.toNat)
    if lo.le v && v.lt hi then ((num / den).toNat, frac (num / den).toNat)
    else if !d.extrap then (if v.lt lo then (0, 0) else (d.nseg - 1, 0x3F800000))
    else if v.lt lo then (0, frac 0) else (d.nseg - 1, frac (d.nseg - 1))
  | .inf n, _, _ =>
    if d.extrap then (if n then 0 else d.nseg - 1, infW n) else if n then (0, 0) else (d.nseg - 1, 0x3F800000)
  | _, _, _ => (0, 0)

/-- The value of a segment at a position: one FMA, or two (spec/07 R146). -/
def tluEval (quad : Bool) (c0 c1 c2 f : Word) : Word :=
  if quad then ffmaW .rn false false false (ffmaW .rn false false false c2 f c1) f c0
  else ffmaW .rn false false false c1 f c0

/-- Does an operation in flight write bytes of a block's scratchpad window (spec/07 R147)? -/
def OpKind.writesWindow (b : Block) : OpKind → Bool
  | .store accs _ _ _ | .atom accs _ _ _ _ _ => accs.any fun a => match a.loc with
    | .spad c o => c == b.core && b.spadBase ≤ o && o < b.spadBase + b.spadSize
    | _ => false
  | .stse a _ => match a.loc with
    | .spad c o => c == b.core && b.spadBase ≤ o && o < b.spadBase + b.spadSize
    | _ => false
  | _ => false

/-- Has every earlier word of the thread that writes its block's window been performed (spec/07 R147)? -/
def State.windowQuiet (s : State) (t : Tid) : Bool :=
  !s.ops.any fun o => o.tids.contains t && o.kind.writesWindow (s.block t.blk)

/-- TLU (spec/07 R146, R147): its reads take place at issue, behind the thread's earlier loads; a lane whose segment lies in a poisoned
sector writes nothing, and its thread takes POISON when the word completes (DESIGN CHOICE, log 51). -/
def execTlu (h : Hdr) (d a b : Reg) (s : State) : Out State :=
  s.waitFor (fun t => !(s.isActive h t) || s.windowQuiet t) fun s =>
    let s := (s.performBefore (s.act h) s.nextId).getD s
    let seg := fun (t : Tid) => (tluDesc (s.rds t b 4) (s.block t.blk).spadSize).bind fun ds =>
      if (v32 (s.rd t a)).isNan then none
      else
        let stride := if ds.quad then 16 else 8
        some (ds, (s.block t.blk).spadBase + ds.base + (tluSeg ds (s.rd t a)).1 * stride, stride)
    let bad := (s.act h).filter fun t => match seg t with
      | some (_, o, n) => s.spadPoison s.cur.core o n
      | none => false
    let s' := s.fixed qSfu h 20 fun t =>
      if bad.contains t then [] else match seg t with
        | none => [(d, nan32)]
        | some (ds, o, _) =>
          let c := fun (k : Nat) => BitVec.ofNat 32 (s.spadRead s.cur.core (o + 4 * k) 4)
          [(d, tluEval ds.quad (c 0) (c 1) (c 2) (tluSeg ds (s.rd t a)).2)]
    .next ((bad.foldl (fun s' t => match seg t with
      | some (_, o, _) =>
        let tr : Trap :=
          { code := FCode.poison.num, pc := s.cur.pc, val := BitVec.ofNat 64 (o - (s.block t.blk).spadBase) }
        s'.modThread t fun th => { th with later := th.later ++ [(s.clk + 20, tr)] }
      | none => s') s').occupySfu 4)

/-! ### CSAMP (spec/07 R151) -/

/-- Prefix sums of weights, each rounded: (lane, weight, sum so far), for lanes in ascending order. -/
def prefixSums (ws : List (Nat × Word)) : List (Nat × Word × Word) :=
  (ws.foldl (fun (a : Word × List (Nat × Word × Word)) p =>
    let s := if (FV.fin false 0 0).lt (v32 p.2) then faddW .rn false a.1 p.2 else a.1
    (s, a.2 ++ [(p.1, p.2, s)])) (0, [])).2

/-- The lane CSAMP chooses from the weights of the active lanes of a row and a random word (spec/07 R151). -/
def csampSel (ws : List (Nat × Word)) (u : Word) : Word :=
  let pos := ws.filter fun p => (FV.fin false 0 0).lt (v32 p.2)
  let sums := prefixSums pos
  match pos.find? fun p => v32 p.2 == .inf false with
  | some p => BitVec.ofNat 32 p.1
  | none => match sums.getLast? with
    | none => 0xFFFFFFFF
    | some last =>
      if v32 last.2.2 == .inf false then
        match sums.find? fun p => v32 p.2.2 == .inf false with
        | some p => BitVec.ofNat 32 p.1
        | none => BitVec.ofNat 32 last.1
      else
        let r := r32 .rn ((FV.fin false (fld u 8 24) (-24)).mul (v32 last.2.2))
        match sums.find? fun p => (v32 r).lt (v32 p.2.2) with
        | some p => BitVec.ofNat 32 p.1
        | none => BitVec.ofNat 32 last.1

/-- CSAMP: row by row (spec/07 R151). -/
def execCsamp (h : Hdr) (d a b : Reg) (s : State) : Out State :=
  let ts := s.act h
  .next ((s.fixed qSfu h 14 fun t =>
    let row := byLane (ts.filter fun u => u.blk == t.blk && u.row == t.row)
    match row with
    | [] => []
    | l :: _ => [(d, csampSel (row.map fun u => (u.lane, s.rd u a)) (s.rd l b))]).occupySfu 4).ungather

end Sys2Proof.Machine
end

