-- ==== Sys2Proof/Machine/Mtx.lean ====
section
/-!
DEFINITION. Machine/Mtx.lean: the MTX class and the quad matrix engine (spec/13): the signs MMA and MMAS (R272 to R274,
R283), entry, grants and passes (R270, R271, R276 to R279), failures (R284), line writes and completion (R285), MREL
(R287), MFQ (R288), MQRY (R289).
-/

namespace Sys2Proof.Machine

/-- The MTX queue (spec/02 R50). -/
def qMtx : Nat := 8

/-! ### The shape of a request -/

/-- K_L of the request (spec/13 R273). -/
def MReq.kl (r : MReq) : Nat := kLogical (slotFmt r.fa) r.sparse
/-- Kept elements of every 32: 8, 16 or 24 (spec/05 R115, spec/13 R277). -/
def MReq.kept (r : MReq) : Nat := 8 * fld r.fb 6 2
/-- Stored rows of B in one pass (spec/13 R276, R277). -/
def MReq.rowsPerPass (r : MReq) : Nat := if r.sparse then r.kl / 32 * r.kept else r.kl
/-- Bytes of a stored row of B (spec/13 R276). -/
def MReq.rowLen (r : MReq) : Nat := memBytes (slotFmt r.fb) r.n
/-- Groups of 32 logical K elements. -/
def MReq.groups (r : MReq) : Nat := (r.kl * r.kch + 31) / 32
/-- BOFF, BSTR, MOFF, SOFF (spec/13 R275). -/
def MReq.boff (r : MReq) : Nat := (r.desc.getD 1 0).toNat
/-- BSTR. -/
def MReq.bstr (r : MReq) : Nat := (r.cmd.getD 1 0).toNat
/-- MOFF. -/
def MReq.moff (r : MReq) : Nat := (r.cmd.getD 2 0).toNat
/-- SOFF. -/
def MReq.soff (r : MReq) : Nat := (r.cmd.getD 3 0).toNat
/-- The command block's offset. -/
def MReq.cmdOff (r : MReq) : Word := r.desc.getD 0 0
/-- Clocks of the array for one pass (spec/13 R285). -/
def MReq.passTime (r : MReq) : Nat :=
  let p := r.m * r.n / 2048
  if r.sparse then p * r.kept / 16 else p

/-! ### Signing -/

/-- The class of formats that share a row of the table of spec/13 R273: 1, 2 or 3; 0 for others. -/
def fmtRow (f : Nat) : Nat := match f with
  | 1 | 2 => 1
  | 3 | 4 | 7 | 8 => 2
  | 5 | 6 => 3
  | _ => 0

/-- The request a sign of an epoch belongs to, once its first sign has begun it. -/
def State.ownReq (s : State) (b n : Nat) : Option MReq := match (s.cv b n).op with
  | .mtx _ req => (s.op? req).bind fun o => match o.kind with
    | .mtx r => some r
    | _ => none
  | _ => none
/-- The descriptor registers a sign uses: those its epoch has fixed, else at this clock (spec/13 R272). -/
def State.signDesc (s : State) (t : Tid) (n j : Nat) : List Word := match s.ownReq t.blk n with
  | some r => r.desc
  | none => (List.range 4).map fun k => s.rd t (Reg.ofCode (192 + 4 * j + k))
/-- The request a sign of thread t belongs to: the epoch's own, with the block's format slots, or a new one from the descriptor
registers and the command block at this clock; none where the command block lies outside the window (spec/13 R272). -/
def State.signReq (s : State) (t : Tid) (n j : Nat) (sparse ru : Bool) : Option MReq :=
  let b := s.block t.blk
  ((s.ownReq t.blk n).map fun r => { r with fs := b.fs }).orElse fun _ =>
    let desc := s.signDesc t n j
    (s.cmdBlock b (desc.getD 0 0).toNat).map fun cmd =>
      { cv := n, sparse := sparse, ru := ru, desc := desc, cmd := cmd, fs := b.fs,
        rowIds := (List.range 16).filter fun q => (s.cv t.blk n).members.getLsbD q }

/-- Fields of the command block and formats that are refused (spec/13 R283). -/
def MReq.badFields (r : MReq) : Bool :=
  let w := r.cmd.getD 0 0
  let fa := fmtRow (slotFmt r.fa)
  fld w 30 2 != 0 || fld w 0 19 != 0 || fld w 19 2 == 3 || (r.cmd.drop 4).any (· != 0)
    || (!r.sparse && r.moff != 0) || r.bstr % 16 != 0 || decide (r.bstr < r.rowLen)
    || fa == 0 || fa != fmtRow (slotFmt r.fb)
    || fld r.fa 6 2 != 0 || (r.sparse == (fld r.fb 6 2 == 0))

/-- Do the rows of B, its metadata and its scales lie wholly in the block's window (spec/13 R283)? -/
def MReq.fits (r : MReq) (b : Block) : Bool :=
  let rows := r.rowsPerPass * r.kch
  (spadLoc b (r.boff + (rows - 1) * r.bstr) r.rowLen).isSome
    && (!r.sparse || (spadLoc b r.moff (rows * r.n)).isSome)
    && (fld r.fb 4 2 != 2 || (spadLoc b r.soff (r.groups * r.n)).isSome)

/-- The fault of one lane's sign, in the order of spec/18 R369 (spec/13 R283). -/
def State.signFault (s : State) (t : Tid) (a : Reg) (n j : Nat) (same : CvOp → Bool) (k : Toks) (sparse ru : Bool) :
    Option Flt :=
  let b := s.block t.blk
  let cv := s.cv t.blk n
  let rows := ((List.range 16).filter fun q => cv.members.getLsbD q).length
  let desc := s.signDesc t n j
  let off : DWord := (desc.getD 0 0).zeroExtend 64
  let boff := (desc.getD 1 0).toNat
  let d : DWord := desc.getD 3 0 ++ desc.getD 2 0
  match s.staleOf t k.ins with
  | some f => some f
  | none =>
    if s.badSign t n same || !(rows == 1 || rows == 2 || rows == 4) then some ⟨.cvMismatch, BitVec.ofNat 64 n, 0⟩
    else if off.toNat % 32 ≠ 0 then some ⟨.misalign, off, 0⟩
    else if boff % 16 ≠ 0 then some ⟨.misalign, BitVec.ofNat 64 boff, 0⟩
    else if d.toNat % 256 ≠ 0 then some ⟨.misalign, d, 0⟩
    else match s.signReq t n j sparse ru with
      | none => some ⟨.access, off, 0⟩
      | some r =>
        if r.badFields then some ⟨.access, off, 0⟩
        else if !r.fits b then some ⟨.access, BitVec.ofNat 64 r.boff, 0⟩
        else if !form57 r.d || !form57 (r.d + BitVec.ofNat 64 (256 * r.nl - 1)) then some ⟨.access, r.d, 0⟩
        else if b.regs < a.code + spanRegs r.fa sparse r.kch then some ⟨.illegalReg, 0, 0⟩
        else if s.spadPoison b.core (b.spadBase + r.cmdOff.toNat) 32 then some ⟨.poison, off, 0⟩
        else none

/-- The descriptor a matrix word fixes: its opcode and bits [37:0] (spec/13 R272). -/
def mtxBits (a : Reg) (n j : Nat) (k : Toks) (sparse ru : Bool) : Nat :=
  [k.tko.val, k.t0.val, k.t1.val, k.t2.val, a.code, n, j, if sparse then 1 else 0, if ru then 1 else 0].foldl
    (fun x y => 256 * x + y) 0

/-- Does an epoch's descriptor equal this word's? -/
def CvOp.isMtx (bits : Nat) : CvOp → Bool
  | .mtx b _ => b == bits
  | _ => false

/-- The sign of the lanes of one block: the first begins the request; each copies its fragment and adds its start
conditions; the full epoch enters the table (spec/13 R272 to R274). -/
def State.signBlock (s : State) (b : Nat) (ts : List Tid) (a : Reg) (n j bits : Nat) (k : Toks) (sparse ru : Bool) : State :=
  match ts.head? with
  | none => s
  | some t0 => match s.signReq t0 n j sparse ru with
    | none => s
    | some r =>
      let own := match (s.cv b n).op with
        | .mtx _ req => some req
        | _ => none
      let id := own.getD s.nextId
      let frag := ts.map fun t =>
        (64 * (r.rowIds.takeWhile (· != t.row)).length + t.lane, s.rds t a (spanRegs r.fa sparse r.kch))
      let after := s.startAfter b ts k.ins
      let s' := if own.isSome then s else (s.addOp { s.opOf t0 (.mtx r) with tids := [] }).addTok b k.tko id
      let s' := s'.modThreads ts fun th => { Thread.up .mt th with tabAt := none }
      let s' := s'.modOp id fun o => { o with
        kind := match o.kind with
          | .mtx r => .mtx { r with frag := r.frag ++ frag, ready := s.clk + 5 }
          | x => x
        tids := o.tids ++ ts
        cnts := o.cnts ++ ts.map fun t => (t, .mt)
        after := o.after ++ after }
      (s'.addSigns b n ts (.mtx bits id)).fireAs (s.thread t0).tabAt b n

/-- The signing lanes of a block that would fill the epoch ask for an entry of the table, in order of arrival (spec/13 R270). -/
def State.askEntry (s : State) (h : Hdr) (n b : Nat) : State :=
  let ts := (s.act h).filter (·.blk == b)
  let fills := (s.liveMembers b n).all fun i => (s.cv b n).signed.contains i || ts.contains ⟨b, i⟩
  let k := ((ts.filterMap fun t => (s.thread t).tabAt).head?).getD s.order
  s.useOrder.modThreads ts fun th => { th with tabAt := if fills then some k else none }

/-- MMA and MMAS (spec/13 R272 to R274, R283): the fault point is 4 clocks after issue. A sign waits while its thread has
signed an epoch that has not fired; the first one until its thread's scratchpad writes are performed (R272); one that would be
the last while the table has no entry for it (R270). -/
def State.mtxWord (s : State) (h : Hdr) (a : Reg) (n j : Nat) (k : Toks) (sparse ru : Bool) : Out State :=
  let s := ((blksOf (s.act h)).foldl (fun s b => s.settleCv b n) s).useFree
  let bits := mtxBits a n j k sparse ru
  s.waitFor (fun t => !(s.isActive h t) || (!s.signWaits t n && ((s.cv t.blk n).op != .none || s.windowQuiet t))) fun s =>
    let bad := (s.act h).filterMap fun t => (s.signFault t a n j (CvOp.isMtx bits) k sparse ru).map fun f => (t, f)
    if !bad.isEmpty then .next (s.raise bad)
    else
      let s := (blksOf (s.act h)).foldl (fun s b => s.askEntry h n b) s
      s.waitFor (fun t => !(s.isActive h t) || (s.thread t).tabAt.all fun k => s.entryFor (quadOf s.cur.core) k) fun s =>
        let ts := s.act h
        let s' := s.produceAll k.tko
        let s' := (blksOf ts).foldl (fun s' b => s'.signBlock b (byLane (ts.filter (·.blk == b))) a n j bits k sparse ru) s'
        .next ((s'.retireFp qMtx 5).useFree)

/-- MMA (spec/13 R282). -/
def execMma (h : Hdr) (a : Reg) (cv j : Fin 16) (k : Toks) (ru : Bool) (s : State) : Out State :=
  s.mtxWord h a cv.val j.val k false ru
/-- MMAS (spec/13 R282). -/
def execMmas (h : Hdr) (a : Reg) (cv j : Fin 16) (k : Toks) (ru : Bool) (s : State) : Out State :=
  s.mtxWord h a cv.val j.val k true ru

/-- REQUEST_ENTRY: a full epoch enters the table (spec/13 R270, R274, R285). -/
def State.enterRequest (s : State) (o : Op) : Option State := s.enter o.id

/-! ### Operands of a pass -/

/-- Element k of a row of A (spec/13 R273); a row nobody signed is zero. -/
def MReq.aElem (r : MReq) (i k : Nat) : FV :=
  let f := slotFmt r.fa
  match r.frag.find? (·.1 == i) with
  | none => .fin false 0 0
  | some p => decSlot f (regElem f (p.2.getD (k / perReg f) 0) (k % perReg f))

/-- An E8 scale as a factor (spec/05 R108); 0xFF is NaN. -/
def e8 (b : Nat) : FV := if b = 255 then .nan else .fin false 1 ((b : Int) - 127)

/-- A's scale for group g in row i (spec/13 R273). -/
def MReq.aScale (r : MReq) (i g : Nat) : FV :=
  if fld r.fa 4 2 ≠ 2 then .fin false 1 0
  else match r.frag.find? (·.1 == i) with
    | none => .fin false 1 0
    | some p => e8 (fld (p.2.getD (fragRegs (slotFmt r.fa) r.sparse r.kch + g / 4) 0) (8 * (g % 4)) 8)

/-- A stored row of B as a number (spec/13 R276). -/
def State.bRow (s : State) (b : Block) (r : MReq) (row : Nat) : Nat :=
  s.spadRead b.core (b.spadBase + r.boff + row * r.bstr) r.rowLen

/-- B's scale for group g and column j (spec/13 R278). -/
def State.bScale (s : State) (b : Block) (r : MReq) (g j : Nat) : FV :=
  if fld r.fb 4 2 ≠ 2 then .fin false 1 0 else e8 (s.spadRead b.core (b.spadBase + r.soff + g * r.n + j) 1)

/-- The metadata byte of a stored row and column (spec/13 R277). -/
def State.metaByte (s : State) (b : Block) (r : MReq) (row j : Nat) : Nat :=
  s.spadRead b.core (b.spadBase + r.moff + row * r.n + j) 1

/-- The stored rows of pass c. -/
def MReq.passRows (r : MReq) (c : Nat) : List Nat := (List.range r.rowsPerPass).map (c * r.rowsPerPass + ·)

/-- The first stored row of pass c that reads poison: B, metadata, or the scales of its group (spec/13 R284). -/
def State.bPoison (s : State) (b : Block) (r : MReq) (c : Nat) : Option Nat :=
  (r.passRows c).find? fun row =>
    s.spadPoison b.core (b.spadBase + r.boff + row * r.bstr) r.rowLen
      || (r.sparse && s.spadPoison b.core (b.spadBase + r.moff + row * r.n) r.n)
      || (fld r.fb 4 2 == 2 && s.spadPoison b.core
          (b.spadBase + r.soff + row / (if r.sparse then r.kept else 32) * r.n) r.n)

/-- The first stored row of pass c whose metadata breaks spec/13 R277. -/
def State.badMeta (s : State) (b : Block) (r : MReq) (c : Nat) : Option Nat :=
  if !r.sparse then none
  else (r.passRows c).find? fun row => (List.range r.n).any fun j =>
    let q := s.metaByte b r row j
    decide (32 ≤ q) || (row % r.kept != 0 && decide (q ≤ s.metaByte b r (row - 1) j))

/-- Column j of pass c, element by logical position: a position no stored row names is zero (spec/13 R277). -/
def State.bCol (s : State) (b : Block) (r : MReq) (rows : List Nat) (c j : Nat) : List FV :=
  let f := slotFmt r.fb
  let el (i : Nat) : FV := decSlot f (memElem f (rows.getD i 0) j)
  if !r.sparse then (List.range r.kl).map el
  else
    let at_ := (List.range r.rowsPerPass).map fun i =>
      (i / r.kept * 32 + s.metaByte b r (c * r.rowsPerPass + i) j, i)
    (List.range r.kl).map fun k => match at_.find? (·.1 == k) with
      | some p => el p.2
      | none => .fin false 0 0

/-- The chunk sum of element (i, j): its terms summed exactly, times the slot factors (spec/13 R278, R279). -/
def State.chunkSum (s : State) (b : Block) (r : MReq) (c i j : Nat) (col : List FV) : FV :=
  let terms := col.zipIdx.map fun (p : FV × Nat) =>
    let k := c * r.kl + p.2
    ((r.aElem i k).mul p.1).mul ((r.aScale i (k / 32)).mul (s.bScale b r (k / 32) j))
  let x := sumFV .rn false terms
  let x := if fld r.fa 4 2 = 1 then x.mul (v32 r.g63) else x
  if fld r.fb 4 2 = 1 then x.mul (v32 r.g63) else x

/-- The chunk sums of pass c, row by row. -/
def State.passSums (s : State) (b : Block) (r : MReq) (c : Nat) : List FV :=
  let rows := (r.passRows c).map (s.bRow b r)
  let cols := (List.range r.n).map (s.bCol b r rows c)
  (List.range r.m).flatMap fun i => cols.zipIdx.map fun (p : List FV × Nat) => s.chunkSum b r c i p.2 p.1

/-! ### Grants -/

/-- The destination line of an element's row and column, and the columns of one line (spec/13 R280). -/
def MReq.perLine (r : MReq) : Nat := if r.ex then 32 else 64
/-- The line of element number e, counted row by row. -/
def MReq.lineOf (r : MReq) (e : Nat) : Nat := e / r.n * (r.n / r.perLine) + e % r.n / r.perLine

/-- The check of destination line i at the first grant (spec/13 R284, spec/15 R321): its physical address if the request
may write it, and the code it fails with. -/
def State.lineCheck (s : State) (o : Op) (r : MReq) (i : Nat) : Option Nat × Option Nat :=
  let b := s.block o.blk
  match s.gAccess b.core b (s.thread o.low).level (r.d + BitVec.ofNat 64 (256 * i)) 1 .w false with
  | .error f => (none, some (if f.code = .xlate then 1 else 2))
  | .ok pa =>
    if !s.lineHome pa then (none, some 2)
    else match s.lineAt pa with
      | none => (some pa, some 3)
      | some l => (some pa, if l.exact == r.ex then none else some 3)

/-- The first grant: every line is translated, its mode and grid read; the first failing line decides (spec/13
R284). -/
def State.firstGrant (s : State) (o : Op) (r : MReq) : MReq :=
  let cs := (List.range r.nl).map (s.lineCheck o r)
  let pas := cs.filterMap (·.1)
  let bad := cs.zipIdx.find? fun (p : (Option Nat × Option Nat) × Nat) => p.1.2.isSome
  let fail := r.fail.orElse fun _ => bad.map fun p => (p.1.2.getD 0, p.2)
  { r with pas := pas, fail := fail, grid := pas.map fun pa => ((s.lineAt pa).map (·.e)).getD 0 }

/-- A pass: P of each element, or its contributions rounded to the grid (spec/13 R279, spec/14 R298). -/
def MReq.addPass (r : MReq) (xs : List FV) : MReq :=
  let es := xs.zipIdx
  if !r.ex then
    { r with sums := es.map fun (p : FV × Nat) =>
        ((r32 .rn (sumFV .rn false [v32 (wordOf (r.sums.getD p.2 0)), p.1])).toNat : Int) }
  else
    { r with
      sums := r.sums ++ es.map fun (p : FV × Nat) => match p.1 with
        | .fin n m x => roundInt .rn 0 n m (x + 40 - r.grid.getD (r.lineOf p.2) 0)
        | _ => 0
      nan := r.nan ++ (es.filter fun (p : FV × Nat) => match p.1 with
        | .fin _ _ _ => false
        | _ => true).map fun p => r.sums.length + p.2 }

/-- The booked writes of a request that starts at t0: bank and clock of each line (spec/13 R285). -/
def MReq.slots (r : MReq) (t0 : Nat) : List (Nat × Nat) :=
  (List.range r.nl).map fun n => ((fld r.d 8 5 + n) % 32, t0 + 4 * (n / 32) + n / 16 % 2)

/-- The first t0 at or after one, 4 clocks apart, whose writes clash with no booking (spec/13 R285). -/
def MReq.place (r : MReq) (book : List (Nat × Nat)) : Nat → Nat → Nat
  | 0, t0 => t0
  | n + 1, t0 => if (r.slots t0).any book.contains then r.place book n (t0 + 4) else t0

/-- Is a request urgent (spec/13 R271)? -/
def State.mUrgent (s : State) (o : Op) (r : MReq) : Bool := decide (Nat.max o.clk r.last + 4096 ≤ s.now o.core)
/-- May a request of the table be granted a pass: passes left, its consumed tokens' operations complete? -/
def State.mReady (s : State) (o : Op) : Bool := match o.kind with
  | .mtx r => r.entered && decide (r.passes < r.kch) && s.canRun o && decide (o.clk + 1 ≤ s.now o.core)
  | _ => false
/-- The place of a request in the order of arbitration (spec/13 R271): urgent before others by age; then PRIO, age. -/
def State.mRank (s : State) (o : Op) : Nat := match o.kind with
  | .mtx r => if s.mUrgent o r then r.age else (8 - (s.block o.blk).prio) * 2 ^ 192 + r.age
  | _ => 0

/-- PASS_GRANT (spec/13 R271, R276, R284, R285; spec/16 R336). -/
def State.grantPass (s : State) (o : Op) : Option State := match o.kind with
  | .mtx r =>
    let q := quadOf o.core
    let now := s.now o.core
    let first := (s.inTable q).all fun p => p.id == o.id || !s.mReady p || decide (s.mRank o < s.mRank p)
    if !s.mReady o || !first || decide (s.now (s.quad q).arrayAt.1 < (s.quad q).arrayAt.2) || s.throttled (4 * q) then none
    else
      let b := s.block o.blk
      let r := if r.passes = 0 then s.firstGrant o r else r
      let r := if r.fail.isSome then r
        else match s.bPoison b r r.passes, s.badMeta b r r.passes with
          | some row, _ => { r with fail := some (4, row) }
          | none, some row => { r with fail := some (5, row) }
          | none, none => r.addPass (s.passSums b r r.passes)
      let s := s.modQuad q fun k => { k with arrayAt := (o.core, now + r.passTime) }
      let r := { r with passes := if r.fail.isSome then r.kch else r.passes + 1, last := now }
      let lastPass := r.passes == r.kch && r.fail.isNone
      let book := (s.core o.core).book.filter fun p => now ≤ p.2
      let t0 := r.place book 4096 (phaseFrom (Nat.max (now + 80) (now + 31 + r.passTime)) 0)
      let r := if lastPass then { r with t0 := t0 } else r
      let s := if lastPass then s.modCore o.core fun k => { k with book := book ++ r.slots t0 } else s
      some (s.modOp o.id fun p => { p with kind := .mtx r })
  | _ => none

/-! ### Line writes and completion -/

/-- The contributions of a request to its line n: for each element P, or each pass's contribution in turn (spec/13
R279). -/
def MReq.lineParts (r : MReq) (n : Nat) : List ((Bool → Nat) × Option FV) :=
  let per := r.n / r.perLine
  let e0 := n / per * r.n + n % per * r.perLine
  let total := r.m * r.n
  (List.range r.perLine).flatMap fun k =>
    if !r.ex then [(fun _ => k, some (v32 (wordOf (r.sums.getD (e0 + k) 0))))]
    else (List.range r.kch).map fun c =>
      let i := c * total + e0 + k
      let q := r.sums.getD i 0
      (fun _ => k, some (if r.nan.contains i then .nan else .fin (q < 0) q.natAbs (r.grid.getD n 0 - 40)))

/-- QME_LINE_WRITE: the next line, at or after its booked clock (spec/13 R285, spec/14 R298). -/
def State.writeMtxLine (s : State) (o : Op) : Option State := match o.kind with
  | .mtx r =>
    let due := ((r.slots r.t0)[r.lines]?).map (·.2)
    match r.pas[r.lines]?, due with
    | some pa, some k =>
      if r.fail.isSome || r.passes != r.kch || decide (s.now o.core < k) then none
      else
        let s := s.contribute o.core o.blk (pa / 256) (r.lineParts r.lines)
        some (s.modOp o.id fun p => { p with kind := .mtx { r with lines := r.lines + 1 } })
    | _, _ => none
  | _ => none

/-- Has a block a live thread? -/
def State.blockLive (s : State) (b : Nat) : Bool := (s.block b).threads.any fun p => p.2.status == .live

/-- The record of a failed request (spec/13 R284, R288; spec/18 R373; spec/03 R86). -/
def State.mtxRecord (s : State) (o : Op) (r : MReq) (code det : Nat) : State :=
  let q := quadOf o.core
  let live := s.blockLive o.blk
  let rec_ : MRec := { seq := s.order, blk := o.blk, blkid := (s.block o.blk).blkid, code := code, cv := r.cv, cmd := r.cmdOff
                       detail := BitVec.ofNat 32 det }
  let s := if !live then s
    else if (s.quad q).mfq.length < Config.faultRecords then s.useOrder.modQuad q fun k => { k with mfq := k.mfq ++ [rec_] }
    else s.modBlock o.blk fun b => { b with mlost := true }
  if !live || (s.grid (s.block o.blk).grid).lrec.trapen.getLsbD 2 then
    s.impRec o.blk (s.engineRec o .mtxFault code (r.cmdOff.zeroExtend 64))
  else s

/-- REQUEST_COMPLETE: after the last line write, or a failure: its lines are marked poisoned, the record queued, then
counters and token follow (spec/13 R284, R285). -/
def State.completeRequest (s : State) (o : Op) : Option State := match o.kind with
  | .mtx r =>
    if !r.entered || r.passes != r.kch then none
    else match r.fail with
      | some (code, det) =>
        let s := r.pas.foldl (fun (s : State) pa => s.contribute o.core o.blk (pa / 256) [(fun _ => 0, none)]) s
        some ((s.mtxRecord o r code det).finish o.id)
      | none =>
        let end_ := ((r.slots r.t0).map (·.2)).foldl Nat.max 0 + 4
        if r.lines = r.nl && decide (end_ ≤ s.now o.core) then some (s.finish o.id) else none
  | _ => none

/-! ### MREL, MFQ, MQRY -/

/-- MREL: each block with an active lane releases a latch, or all; a fire at the same clock takes effect first, so the release lands
with the next clock (spec/13 R287). -/
def execMrel (h : Hdr) (cv : Option (Fin 16)) (s : State) : Out State :=
  .next (((blksOf (s.act h)).foldl (fun s' b => s'.modBlock b fun k => { k with
    mrel := k.mrel ++ (match cv with
      | some n => [n.val]
      | none => List.range 16).map fun n => (n, s.clk + 1) }) s).retire qMtx)

/-- The oldest record of a block. -/
def State.mHead (s : State) (b : Nat) : Option MRec :=
  (s.mRecs b).find? fun r => (s.mRecs b).all fun q => decide (r.seq ≤ q.seq)

/-- The four words of MFQ for a block (spec/13 R288). -/
def State.mfqWords (s : State) (b : Nat) : List Word :=
  let lost : Nat := if (s.block b).mlost then 2 ^ 30 else 0
  match s.mHead b with
  | some r => [BitVec.ofNat 32 (2 ^ 31 + lost + r.cv * 2 ^ 8 + r.code), BitVec.ofNat 32 r.blkid, r.cmd, r.detail]
  | none => [BitVec.ofNat 32 lost, 0, 0, 0]

/-- MFQ (spec/13 R288). -/
def execMfq (h : Hdr) (d : Reg) (peek : Bool) (s : State) : Out State :=
  let s' := s.fixed qMtx h 6 fun t => (s.mfqWords t.blk).zipIdx.map fun (p : Word × Nat) => (d.plus p.2, p.1)
  .next (if peek then s' else (blksOf (s.act h)).foldl (fun s' b =>
    (s'.modBlock b fun k => { k with mlost := false }).dropRecs fun r => s.mHead b == some r) s')

/-- MQRY's .STAT for a block as it is now (spec/13 R289). -/
def State.mqryStat (s : State) (b : Nat) : Word :=
  let tab := s.inTable (quadOf (s.block b).core)
  BitVec.ofNat 32 ((Config.tableEntries - tab.length) * 2 ^ 24 + (tab.filter (·.blk == b)).length * 2 ^ 16
    + (s.mRecs b).length * 2 ^ 8)
/-- MQRY's .LATCH for a block as it is now. -/
def State.mqryLatch (s : State) (b : Nat) : Word := BitVec.ofNat 32 ((s.block b).latches.foldl (fun m l => m + 2 ^ l.key) 0)
/-- What MQRY returns for a thread: a value that held at some clock of the last 16 (spec/13 R289). -/
def State.mqryWord (s : State) (t : Tid) : MqForm → Word
  | .stat => s.oneOf t.idx (s.recent 16 (s.mqryStat t.blk) fun p => (p.blks.find t.blk).map (·.1))
  | .latch => s.oneOf t.idx (s.recent 16 (s.mqryLatch t.blk) fun p => (p.blks.find t.blk).map (·.2))
  | .cfg => BitVec.ofNat 32 (32 * 2 ^ 16 + Config.tableEntries * 2 ^ 8 + Config.coreLatches * 2 ^ 4)

/-- MQRY (spec/13 R289). -/
def execMqry (h : Hdr) (d : Reg) (form : MqForm) (s : State) : Out State :=
  .next (s.fixed qMtx h 4 fun t => [(d, s.mqryWord t form)])

end Sys2Proof.Machine
end

