-- ==== Sys2Proof/Machine/Part.lean ====
section
/-!
DEFINITION. Machine/Part.lean: the PART class (spec/15): PGIVE and PTAKE with their range descriptor (R322 to R327), the
rehoming of pages (R326), PQRY (R328), PZERO (R329); copying of page content below the caches (spec/09 R185).
-/

namespace Sys2Proof.Machine

/-- The PART queue (spec/02 R50). -/
def qPart : Nat := 13

/-! ### Waiting words -/

/-- A waiting word faults after its wait (spec/00 R10). -/
def State.abandonFault (s : State) (o : Op) (f : Flt) : State :=
  ({ s.abandon o with cur := { core := o.core, pc := o.pc, tids := o.tids } } : State).raise (o.tids.map fun t => (t, f))

/-- A word that starts one operation for each block with an active lane and blocks those lanes until it unblocks them;
the other threads fall through. -/
def State.blockWait (s : State) (q : Nat) (h : Hdr) (ins : List Tok) (tko : Option Tok) (cnt : Option Cnt)
    (after : Nat → List Tid → List Nat) (check : Tid → Except Flt OpKind) : Out State :=
  let ts := s.act h
  match s.staleFaults ts ins with
  | [] => match splitFaults ((blksOf ts).filterMap fun b => (lowLane ts b).map fun t => (t, check t)) with
    | ([], ok) =>
      let s0 := match tko with
        | some k => s.produceAll k
        | none => s
      let s' := ok.foldl (fun s' p =>
        let b := p.1.blk
        let mine := ts.filter (·.blk == b)
        let id := s'.nextId
        let mark := tko.any fun k => !((s.block b).tok k).prod && s.cur.tids.all fun t => t.blk != b || ts.contains t
        let s' := s'.addOp { s.opOf p.1 p.2 with
          tids := mine, cnts := mine.filterMap (fun t => cnt.map fun c => (t, c)), after := after b mine
          lim := if mark then 1 else 0 }
        let s' := match tko with
          | some k => s'.addTok b k id
          | none => s'
        s'.modThreads mine fun th => { th with waitOp := some id, since := none }) s0
      let rest := s.cur.tids.filter fun t => !s.isActive h t
      .next (((s'.narrow rest).retire q).narrow s.cur.tids).useFree
    | (bad, _) => .next (s.raise (ts.filterMap fun t => (bad.find? (·.1.blk == t.blk)).map fun p => (t, p.2)))
  | bad => .next (s.raise bad)

/-! ### The range descriptor (spec/15 R322, R324) -/

/-- The descriptor registers of a word: four of the range, two of the flag address. -/
def State.rangeDesc (s : State) (t : Tid) (a b : Reg) : List Word := s.rds t a 4 ++ s.rds t b 2
/-- VA of a range descriptor. -/
def rdVa (d : List Word) : DWord := d.getD 1 0 ++ d.getD 0 0
/-- NPG. -/
def rdPages (d : List Word) : Nat := fld (d.getD 2 0) 0 16
/-- VAL. -/
def rdVal (d : List Word) : Word := d.getD 3 0
/-- The flag address. -/
def rdFlag (d : List Word) : DWord := d.getD 5 0 ++ d.getD 4 0
/-- The partition that gives (spec/15 R323): 0 P, 1 T. -/
def giver (back : Bool) : Nat := if back then 1 else 0
/-- The owner code of a partition. -/
def ownerOfPart (p : Nat) : Owner := if p = 0 then .p else .t

/-- Translate n bytes that must be homed on this package and writable; the owner is not checked here. -/
def State.handAccess (s : State) (t : Tid) (va : DWord) (n : Nat) : Except Flt Nat :=
  let b := s.block t.blk
  match s.gAccess b.core { b with part := 2 } (s.thread t).level va n .w false with
  | .error f => .error f
  | .ok pa => if s.lineHome pa then .ok pa else .error ⟨.access, va, 0⟩

/-- The address checks of a range (spec/15 R324): the physical address of each 4 KiB piece, and of the flag. -/
def State.rangeCheck (s : State) (t : Tid) (d : List Word) (move : Bool) : Except Flt (List Nat × Nat) :=
  let va := rdVa d
  let fl := rdFlag d
  let n := 65536 * rdPages d
  let die := fld (d.getD 2 0) 16 3
  if fl.toNat % 4 ≠ 0 then .error ⟨.misalign, fl, 0⟩
  else if va.toNat % 65536 ≠ 0 then .error ⟨.misalign, va, 0⟩
  else if fld (d.getD 2 0) 19 13 ≠ 0 || rdPages d == 0 || decide (5 < die) || (!move && die != 0)
      || !form57 va || !form57 (va + BitVec.ofNat 64 (n - 1)) || !form57 fl
      || (decide (va.toNat ≤ fl.toNat) && decide (fl.toNat < va.toNat + n)) then .error ⟨.access, va, 0⟩
  else
    let parts := (List.range (n / 4096)).map fun i => s.handAccess t (va + BitVec.ofNat 64 (4096 * i)) 1
    let f := s.handAccess t fl 4
    match firstFault (faultsOf parts ++ faultsOf [f]), f with
    | some x, _ => .error x
    | none, .ok fp => .ok (oksOf parts, fp)
    | none, .error x => .error x

/-- The 64 KiB pages of a list of pieces. -/
def pagesOf (pas : List Nat) : List Nat := dedup (pas.map (· / 65536))
/-- Is the block not in a partition, or a page not owned by it? -/
def State.notOwned (s : State) (b part : Nat) (pas : List Nat) : Bool :=
  (s.block b).part != part || (pagesOf pas).any fun p => s.ownerOf (p * 65536) != ownerOfPart part
/-- Set the owner of pages (spec/15 R320). -/
def State.setOwner (s : State) (pages : List Nat) (w : Owner) : State :=
  { s with mem := { s.mem with owner := pages.foldl (fun (o : Tab Owner) p => o.put p w) s.mem.owner } }

/-! ### Page content below the caches -/

/-- Is an address in a range? -/
def inRange (lo n a : Nat) : Bool := decide (lo ≤ a) && decide (a < lo + n)

/-- Copy n bytes of the memory devices, with their poison, from one 4 KiB-aligned address to another (spec/09 R185);
a source whose plane is off (R181), or to which no path leads, gives poison, a destination of that kind takes nothing (spec/01
R16, spec/19 R399). -/
def State.copyDev (s : State) (src dst n : Nat) (from_ to_ : Bool) : State :=
  let moved := (s.mem.dev.filter fun c => inRange src n c.1).map fun c => (c.1 - src + dst, c.2)
  let secs := (List.range (n / 64)).map (src / 64 + ·)
  let bad := secs.filter fun x => !from_ || s.planeOff src || s.mem.devPoison.contains x
  if s.planeOff dst || !to_ then s
  else
    let changed := sortNat (((s.mem.dev.filter fun c => inRange dst n c.1) ++ moved).map (·.1))
    let s := s.keepOld ((changed.filter fun a => (s.mem.l2.find a).isNone).map fun a => (a, s.homeByte a))
    { s with mem := { s.mem with
    dev := cellsPut (s.mem.dev.filter fun c => !inRange dst n c.1) moved
    devPoison := (bad.map fun x => x - src / 64 + dst / 64).foldl (fun l x => insNat x l)
      (s.mem.devPoison.filter fun x => !inRange (dst / 64) (n / 64) x) } }

/-- The sectors of n bytes that the home L2 holds some of. -/
def State.l2Secs (s : State) (a n : Nat) : List Nat :=
  dedup (((s.mem.l2.filter fun e => inRange a n e.1).map fun e => secOf e.1)
    ++ s.mem.l2Poison.filter fun x => inRange (a / 64) (n / 64) x)
/-- Clean n bytes of the home L2 to the device and drop them from it (spec/15 R326). -/
def State.l2Out (s : State) (a n : Nat) : State := (s.l2Secs a n).foldl (fun s x => (s.l2Flush x).l2Drop x) s
/-- Discard n bytes of the home L2. -/
def State.l2Lose (s : State) (a n : Nat) : State := (s.l2Secs a n).foldl State.l2Drop s

/-- Drop every copy of the picked addresses in L1s, RDCs and accumulation stores (spec/15 R326, R329). -/
def State.purgeAll (s : State) (p : Nat → Bool) : State :=
  let s := s.purge p
  { s with cores := s.cores.map fun (q : Nat × Core) => (q.1, { q.2 with acc := q.2.acc.filter fun k => !p (k.1 * 256) }) }

/-- Move the accumulation lines of a piece with their mode, window and flags (spec/15 R326). -/
def State.moveLines (s : State) (src dst n : Nat) : State :=
  let mine := s.mem.lines.filter fun l => inRange src n (l.1 * 256)
  let rest := s.mem.lines.filter fun l => !inRange src n (l.1 * 256) && !inRange dst n (l.1 * 256)
  { s with mem := { s.mem with lines := mine.foldl (fun (t : Tab AccLine) l => t.put (l.1 - src / 256 + dst / 256) l.2) rest } }

/-! ### Rehoming (spec/15 R326) -/

/-- Pages left in the rehoming pool of a memory die. -/
def MDie.poolSize (m : MDie) : Nat := m.poolnpg.toNat - m.poolTaken + m.poolBack.length
/-- Page k to be taken next from a pool: its own range first, then the pages returned. -/
def MDie.poolPage (m : MDie) (k : Nat) : Nat :=
  let left := m.poolnpg.toNat - m.poolTaken
  if k < left then m.poolbase.toNat / 65536 + m.poolTaken + k else m.poolBack.getD (k - left) 0
/-- A pool after n pages are taken. -/
def MDie.takePool (m : MDie) (n : Nat) : MDie :=
  let left := m.poolnpg.toNat - m.poolTaken
  { m with poolTaken := m.poolTaken + Nat.min n left, poolBack := m.poolBack.drop (n - left) }

/-- The address of the level-3 entry that maps an address, none where no such entry is reached (spec/18 R378). -/
def State.leafEntry (s : State) (va : Nat) : Nat → Nat → Nat → Option Nat
  | 0, _, _ => none
  | fuel + 1, lv, base =>
    let (sh, w, _) := walkLevel lv
    let ea := base + 8 * (va / 2 ^ sh % 2 ^ w)
    let e := s.homeRead ea 8
    if e % 2 = 0 then none
    else if lv = 3 then some ea
    else if e / 2 % 2 = 1 then none
    else s.leafEntry va fuel (lv + 1) (e / 2 ^ 12 % 2 ^ 41 * 2 ^ 12)

/-- Is an address of a context mapped by a 4 KiB or 64 KiB page? -/
def State.smallPage (s : State) (cid va : Nat) : Bool := match s.ctxRoot cid with
  | some r => (s.leafEntry va 4 0 r).isSome
  | none => false

/-- Discard the cached translations of a range of a context in the picked cores (spec/18 R380). -/
def State.tlbDrop (s : State) (p : Nat → Bool) (gone : TlbEnt → Bool) : State :=
  let drop (q : Nat × Core) : Nat × Core := if p q.1 then (q.1, { q.2 with tlb := q.2.tlb.filter fun e => !gone e }) else q
  { s with cores := s.cores.map drop }

/-- Move one 4 KiB piece to its new place, by a path through a compute die (spec/01 R16), and point its translation entry there. -/
def State.rehomePiece (s : State) (cid va old new : Nat) (s64 : Bool) : State :=
  let s := ((s.l2Out old 4096).purgeAll (inRange new 4096)).l2Lose new 4096
  let s := (s.copyDev old new 4096 (s.mdPath (dieCode old) (dieCode new)) true).moveLines old new 4096
  match (s.ctxRoot cid).bind fun r => s.leafEntry va 4 0 r with
  | none => s
  | some ea =>
    let e := s.homeRead ea 8
    let pa := if s64 then new / 65536 * 65536 else new
    let e' := e % 2 ^ 12 + pa + e / 2 ^ 53 * 2 ^ 53
    (s.homeWrite (cellsAt ea 8 e') [] []).purge fun a => inRange ea 8 a

/-- Rehome a range to a die, up to its TLBINV: the new pieces and the state (spec/15 R326, steps 1 to 3). -/
def State.rehome (s : State) (cid va : Nat) (pas : List Nat) (die : Nat) : List Nat × State :=
  let m := s.mdie die
  let n := pas.length / 16
  let new := (List.range pas.length).map fun i => m.poolPage (i / 16) * 65536 + i % 16 * 4096
  let s := (pas.zip new).foldl (fun (s : State) x => s.setOwner [x.2 / 65536] (s.ownerOf x.1)) s
  let s64 (s : State) (v : Nat) : Bool := match (s.ctxRoot cid).bind fun r => s.leafEntry v 4 0 r with
    | some ea => s.homeRead ea 8 / 2 ^ 7 % 2 == 1
    | none => false
  let s := (pas.zip new).zipIdx.foldl (fun (s : State) (x : (Nat × Nat) × Nat) =>
    s.rehomePiece cid (va + 4096 * x.2) x.1.1 x.1.2 (s64 s (va + 4096 * x.2))) s
  let s := s.modMDie die fun m => m.takePool n
  (new, s.tlbDrop (fun _ => true) fun e => e.cid == cid && decide (e.va < va + 65536 * n) && decide (va < e.va + e.size))
/-- The end of a rehoming, once no access that used the old translations is left: every copy of the old pages is discarded, and they
return to the pools of their dies (spec/15 R326, steps 4 and 5). -/
def State.rehomeEnd (s : State) (old : List Nat) : State :=
  let s := old.foldl (fun (s : State) p => s.l2Lose (p * 65536) 65536) (s.purgeAll fun a => old.contains (a / 65536))
  old.foldl (fun (s : State) p => s.modMDie (dieCode (p * 65536)) fun m => { m with poolBack := m.poolBack ++ [p] }) s

/-! ### PGIVE, PTAKE -/

/-- The writes of a block in flight (spec/15 R324). -/
def State.blockWrites (s : State) (b : Nat) : List Nat :=
  (s.ops.filter fun o => o.blk == b && (o.kind.isStore || (match o.kind with | .atom .. => true | _ => false))).map (·.id)

/-- PGIVE (spec/15 R324): one operation for each block; its lanes are blocked until the fault point. -/
def execPgive (h : Hdr) (a b : Reg) (k : Toks) (back move : Bool) (s : State) : Out State :=
  s.blockWait qPart h k.ins (some k.tko) (some .st) (fun x ts => s.startAfter x ts k.ins ++ s.blockWrites x)
    fun t => .ok (.pgive (s.rangeDesc t a b) t back move)

/-- The checks at the fault point of a PGIVE, in the order of spec/18 R369. -/
def State.pgiveCheck (s : State) (d : List Word) (t : Tid) (back move : Bool) : Except Flt (List Nat × Nat) :=
  let die := fld (d.getD 2 0) 16 3
  let cid := (s.block t.blk).ctx
  match s.rangeCheck t d move with
  | .error f => .error f
  | .ok (pas, fp) =>
    if move && (decide ((s.mdie die).poolSize < rdPages d)
        || (List.range pas.length).any fun i => !s.smallPage cid (va57 (rdVa d) + 4096 * i)) then
      .error ⟨.access, rdVa d, 0⟩
    else if s.notOwned t.blk (giver back) pas then .error ⟨.partViolation, rdVa d, 0⟩
    else if !ownerAdmits (s.ownerOf fp) (giver back) then .error ⟨.partViolation, rdFlag d, 0⟩
    else .ok (pas, fp)

/-- Are owner entries of a range locked by a PGIVE that rehomes (spec/15 R324)? -/
def State.pagesLocked (s : State) (o : Op) (t : Tid) (d : List Word) (move : Bool) : Bool :=
  let pages := match s.rangeCheck t d move with | .ok (pas, _) => pagesOf pas | .error _ => []
  s.ops.any fun p => p.id != o.id && p.stage == 2 && p.done.any pages.contains && (match p.kind with | .pgive .. => true | _ => false)

/-- ENGINE_OPERATION_COMPLETE for PGIVE: the release; the check at the fault point; a rehoming, with its TLBINV; the owner change; the
flag store (spec/15 R324 to R326). `done` holds the pages that take the new owner, `lim` of them,
and behind them those a rehoming left. -/
def State.stepPgive (s : State) (o : Op) (d : List Word) (t : Tid) (back move : Bool) : Option State :=
  match o.stage with
  | 0 =>
    if !s.canRun o then none
    else
      let s := s.release o.core .pkg
      some (s.modOp o.id fun p => { p with stage := 1, after := s.relWaits o.core .pkg })
  | 1 =>
    if !s.acked o.core o.after || s.pagesLocked o t d move then none
    else match s.pgiveCheck d t back move with
      | .error f => some (s.abandonFault o f)
      | .ok (pas, fp) =>
        let die := fld (d.getD 2 0) 16 3
        let away := move && pas.any fun pa => dieCode pa != die
        let (now, s) := if away then s.rehome (s.block t.blk).ctx (va57 (rdVa d)) pas die else (pas, s)
        let wait := if away then (s.placedOps o.core .pkg).filter (· != o.id) else []
        some ((s.unblock o qPart).modOp o.id fun p => { p with
          stage := 2, prog := fp, after := wait, lim := (pagesOf now).length
          done := pagesOf now ++ (if away then pagesOf pas else []) })
  | 2 =>
    if !s.startable o then none
    else
      let s := (s.rehomeEnd (o.done.drop o.lim)).setOwner (o.done.take o.lim) (ownerOfPart (1 - giver back))
      some (s.modOp o.id fun p => { p with stage := 3, after := [] })
  | _ => some ((s.engineWrite o.core (cellsAt o.prog 4 (rdVal d).toNat) []).finish o.id)

/-- What PTAKE checks of one lane and starts (spec/15 R327). -/
def State.ptakeCheck (s : State) (a b : Reg) (back : Bool) (t : Tid) : Except Flt OpKind :=
  let d := s.rangeDesc t a b
  (s.rangeCheck t d false).map fun r => .ptake d t r.1 r.2 back
/-- PTAKE (spec/15 R327): the address checks at issue; its lanes are blocked until the operation completes. -/
def execPtake (h : Hdr) (a b : Reg) (k : Toks) (back : Bool) (s : State) : Out State :=
  s.blockWait qPart h k.ins (some k.tko) none (fun x _ => k.ins.flatMap (s.tokOps x)) (s.ptakeCheck a b back)

/-- PTAKE_FLAG_POLL (spec/15 R327): the flag is read at its home; once it has reached VAL the owner is checked and the
acquire performed. -/
def State.pollPtake (s : State) (o : Op) (d : List Word) (t : Tid) (pas : List Nat) (fp : Nat) (back : Bool) : Option State :=
  if !s.canRun o then none
  else
    let s := s.gather o.core (secOf fp)
    if s.homeRead fp 4 < (rdVal d).toNat then some (s.modOp o.id fun p => { p with pageAt := s.now o.core })
    else if s.notOwned t.blk (1 - giver back) pas then some (s.abandonFault o ⟨.partViolation, rdVa d, 0⟩)
    else some (((s.acquireBy o.core .pkg o.tids).unblock o qPart).finish o.id)

/-! ### PQRY, PZERO -/

/-- Compute dies in partition T (spec/15 R328). -/
def State.diesT (s : State) : Nat := ((List.range 8).filter fun d => (s.die d).partT).length

/-- PQRY (spec/15 R328). -/
def execPqry (h : Hdr) (d : Reg) (form : PqForm) (s : State) : Out State :=
  match form with
  | .dies => .next (s.fixed qPart h 4 fun _ => [(d, BitVec.ofNat 32 (s.diesT * 16 + (8 - s.diesT)))])
  | .own a =>
    let ts := s.act h
    match splitFaults (ts.map fun t => (t, s.gAcc t (s.rd64 t a) 1 .r false)) with
    | ([], ok) =>
      .next ((ok.foldl (fun s' p => match p.2.loc with
        | .mem pa => s'.addOp { s.opOf p.1 (.pqry p.1 pa (lanesReg ts p.1 d)) with cnts := [(p.1, .ld)] }
        | .spad .. => s') s).retireFp qPart 4).useFree
    | (bad, _) => .next (s.raise bad)

/-- The number of an owner (spec/15 R320). -/
def Owner.num : Owner → Nat
  | .none => 0 | .p => 1 | .t => 2 | .shared => 3

/-- LOAD_COMPLETE for PQRY.OWN (spec/15 R328). -/
def State.stepPqry (s : State) (o : Op) (t : Tid) (pa : Nat) (d : Reg) : State :=
  (s.wr t d (BitVec.ofNat 32 (dieCode pa * 256 + Owner.num (s.ownerOf pa)))).finish o.id

/-- What PZERO checks of one lane and starts (spec/15 R329). -/
def State.pzeroCheck (s : State) (a b : Reg) (owner : Owner) (t : Tid) : Except Flt OpKind :=
  let pa := (s.rd64 t a).toNat
  let n := (s.rd t b).toNat
  if pa % 65536 ≠ 0 then .error ⟨.misalign, s.rd64 t a, 0⟩
  else if n = 0 || decide (65535 < n) || decide (2 ^ 53 ≤ pa)
      || !((List.range n).all fun i => s.lineHome (pa + 65536 * i) && installed (pa + 65536 * i)) then
    .error ⟨.access, s.rd64 t a, 0⟩
  else .ok (.pzero ((List.range n).map (pa / 65536 + ·)) owner)
/-- PZERO (spec/15 R329). -/
def execPzero (h : Hdr) (a b : Reg) (owner : Owner) (s : State) : Out State :=
  match splitFaults ((s.act h).map fun t => (t, s.pzeroCheck a b owner t)) with
  | ([], ok) =>
    .next ((ok.foldl (fun s' p => s'.addOp { s.opOf p.1 p.2 with
      cnts := [(p.1, .st)], after := s.startAfter p.1.blk [p.1] [] }) s).retireFp qPart 4).useFree
  | (bad, _) => .next (s.raise bad)

/-- Zero one page at its home and set its owner (spec/15 R329); a home whose plane is off is poisoned instead. -/
def State.zeroPage (s : State) (p : Nat) (w : Owner) : State :=
  let lo := p * 65536
  let inP : Nat → Bool := inRange lo 65536
  let secs : Nat → Bool := inRange (lo / 64) 1024
  let off := s.planeOff lo
  let s := (s.purgeAll inP).setOwner [p] w
  let held := sortNat (((s.mem.l2.filter fun e => inP e.1).map (·.1)) ++ ((s.mem.dev.filter fun c => inP c.1).map (·.1)))
  let s := s.keepOld (held.map fun a => (a, s.homeByte a))
  { s with mem := { s.mem with
    l2 := s.mem.l2.filter fun e => !inP e.1
    l2Poison := s.mem.l2Poison.filter fun x => !secs x
    lines := s.mem.lines.filter fun l => !inP (l.1 * 256)
    dev := if off then s.mem.dev else s.mem.dev.filter fun c => !inP c.1
    devPoison := if off then (List.range 1024).foldl (fun l i => insNat (lo / 64 + i) l) s.mem.devPoison
                 else s.mem.devPoison.filter fun x => !secs x } }

/-- ENGINE_OPERATION_COMPLETE for PZERO: one page as one step, behind its thread's earlier accesses; with the last the operation
completes (spec/15 R329, spec/10 R213); a home to which no path leads takes nothing (spec/19 R399). -/
def State.stepPzero (s : State) (o : Op) (pages : List Nat) (w : Owner) : Option State :=
  if !s.canRun o then none
  else match pages[o.prog]? with
  | none => none
  | some p =>
    let s := if s.cut o.core (p * 65536) then s else s.zeroPage p w
    if o.prog + 1 < pages.length then some (s.modOp o.id fun q => { q with prog := q.prog + 1 }) else some (s.finish o.id)

end Sys2Proof.Machine
end

