-- ==== Sys2Proof/Machine/Gfx.lean ====
section
/-!
DEFINITION. Machine/Gfx.lean: the GFX class (spec/17) without ray traversal: windows (R345 to R347), ordered packets
(R348 to R350), RAST (R351 to R353), SAMPLE (R358, R359), OMRG (R360, R361), TTASK and TFENCE as they start (R362).
-/

namespace Sys2Proof.Machine

/-- The GFX queue (spec/02 R50). -/
def qGfx : Nat := 10

/-! ### Graphics binds (spec/17 R344) -/

/-- NPROD of a grid's bind record. -/
def Grid.nprod (g : Grid) : Nat := fld (g.binds.getD 0 0) 0 7
/-- The word of channel c. -/
def Grid.chan (g : Grid) (c : Nat) : Word := g.binds.getD (1 + c) 0
/-- The word of region r. -/
def Grid.regWord (g : Grid) (r : Nat) : Word := g.binds.getD (9 + r) 0
/-- PQ of a channel word. -/
def chPQ (w : Word) : Nat := fld w 29 2
/-- CQ of a channel word. -/
def chCQ (w : Word) : Nat := fld w 27 2
/-- The offset of buffer k of a channel. -/
def chBuf (w : Word) (k : Bool) : Nat := 512 * fld w 14 13 + (if k then 256 * fld w 0 14 else 0)
/-- The bytes of a buffer. -/
def chSize (w : Word) : Nat := 256 * fld w 0 14
/-- The defined regions of a grid. -/
def Grid.defRegions (g : Grid) : List Nat := (List.range 16).filter fun r => bitOf (g.regWord r) 31

/-- A quad group of a grid. -/
def State.qgroup (s : State) (g q : Nat) : QGroup := (s.grid g).qgroups.getD q {}
/-- A channel of a quad group. -/
def State.chanOf (s : State) (g q c : Nat) : Chan := (s.qgroup g q).chans.getD c {}
/-- Change a channel of a quad group. -/
def State.modChan (s : State) (g q c : Nat) (f : Chan → Chan) : State :=
  s.modGrid g fun x => { x with qgroups := x.qgroups.put q { s.qgroup g q with
    chans := (s.qgroup g q).chans.put c (f (s.chanOf g q c)) } }
/-- full<k> of a channel. -/
def Chan.full (c : Chan) (k : Bool) : Bool := if k then c.full1 else c.full0
/-- Set full<k>. -/
def Chan.setFull (c : Chan) (k v : Bool) : Chan := if k then { c with full1 := v } else { c with full0 := v }

/-! ### WINACQ, WINREL (spec/17 R345 to R347) -/

/-- The fault of a window word in a block (spec/17 R343, R346); `held`: what pheld or cheld must be. -/
def State.winFault (s : State) (t : Tid) (cons : Bool) (c : Nat) (held : Bool) : Option Flt :=
  let b := s.block t.blk
  let g := s.grid b.grid
  let w := g.chan c
  let ch := s.chanOf b.grid (b.qgid.getD 0) c
  badField (!g.lrec.gfx || !bitOf w 31 || qposOf b.core != (if cons then chCQ w else chPQ w)
    || (if cons then ch.cheld else ch.pheld) != held || (!cons && c == 7))

/-- What WINACQ checks of one lane and starts (spec/17 R346). -/
def State.winacqCheck (s : State) (d : Reg) (cons : Bool) (ch : Fin 8) (t : Tid) : Except Flt OpKind :=
  match s.winFault t cons ch.val false with
  | some f => .error f
  | none => .ok (.winacq d cons ch.val)
/-- WINACQ (spec/17 R346): its lanes are blocked until the word is served. -/
def execWinacq (h : Hdr) (d : Reg) (cons : Bool) (ch : Fin 8) (s : State) : Out State :=
  s.blockWait qGfx h [] none none (fun _ _ => []) (s.winacqCheck d cons ch)

/-- ENGINE_OPERATION_COMPLETE for WINACQ: the step, the acquire of .QUAD, the destination 4 clocks later (spec/17 R346,
R347). -/
def State.serveWinacq (s : State) (o : Op) (d : Reg) (cons : Bool) (c : Nat) : Option State :=
  let b := s.block o.blk
  let q := b.qgid.getD 0
  let ch := s.chanOf b.grid q c
  let w := (s.grid b.grid).chan c
  let k := if cons then ch.cidx else ch.pidx
  if ch.full k != cons then none
  else
    let s := s.modChan b.grid q c fun x => if cons then { x with cheld := true } else { x with pheld := true }
    let s := (s.acquireBy o.core .quad o.tids).unblock o qGfx
    let cur := s.cur
    let s := { s with cur := { core := o.core, pc := o.pc, tids := o.tids } }
    let v : Word := BitVec.ofNat 32 (chCQ w * 2 ^ 22 + chBuf w k)
    let s := (o.tids.filter fun t => writesReg o.tids t d).foldl (fun s t => s.wrAt t d v (s.now o.core + 4) qGfx) s
    some ({ s with cur := cur }.finish o.id)

/-- WINREL (spec/17 R346, R347): it waits as FENCE.REL does, then, where no lane faults, releases at .QUAD and hands the buffer over. -/
def execWinrel (h : Hdr) (cons : Bool) (ch : Fin 8) (s : State) : Out State :=
  s.waitFor (fun t => !(s.isActive h t) || (s.act h).all fun u => u.blk != t.blk || s.fencedDone u) fun s =>
    let bad := (s.act h).filterMap fun t => (s.winFault t cons ch.val true).map fun f => (t, f)
    if !bad.isEmpty then .next (s.raise bad) else
    let bs := blksOf (s.act h)
    let s' := if bs.isEmpty then s else s.release s.cur.core .quad
    let s' := bs.foldl (fun s' b =>
      let k := s.block b
      s'.modChan k.grid (k.qgid.getD 0) ch.val fun c =>
        if cons then { c.setFull c.cidx false with cidx := !c.cidx, cheld := false }
        else { c.setFull c.pidx true with pidx := !c.pidx, pheld := false }) s'
    .next (s'.retireFp qGfx 2).useFree

/-! ### ORDT (spec/17 R348 to R350) -/

/-- What ORDT checks of one lane and starts (spec/17 R348). -/
def State.ordtCheck (s : State) (a b : Reg) (fin_ : Bool) (t : Tid) : Except Flt OpKind :=
  let blk := s.block t.blk
  let g := s.grid blk.grid
  let off := (s.rd t a).toNat
  let w := s.rd t (a.plus 1)
  let seq := (s.rd t b).toNat
  let mask := fld w 16 16
  let len := fld w 0 5
  match staged [misFault 16 off, badField (!g.lrec.gfx || decide (g.nprod ≤ blk.blkid) || decide (16 < len) || fld w 5 11 != 0
      || (len != 0 && (spadLoc blk off (16 * len)).isNone) || blk.lastSeq.any (fun l => seq ≤ l) || blk.fin
      || (List.range 16).any fun i => mask / 2 ^ i % 2 == 1 && !bitOf (g.regWord i) 31)] [] with
  | some f => .error f
  | none => .ok (.ordt off len mask seq fin_ [] [])
/-- ORDT (spec/17 R348). -/
def execOrdt (h : Hdr) (a b : Reg) (k : Toks) (fin_ : Bool) (s : State) : Out State :=
  let r := s.blockWord qGfx 2 h k.ins (some k.tko) (some .cp) (s.ordtCheck a b fin_)
  match r with
  | .next s' => .next ((s'.ops.drop s.ops.length).foldl (fun s' o => match o.kind with
      | .ordt _ _ _ seq f _ _ => s'.modBlock o.blk fun b => { b with lastSeq := some seq, fin := b.fin || f }
      | _ => s') s')
  | x => x

/-- Change a region of a grid. -/
def State.modRegion (s : State) (g r : Nat) (f : Region → Region) : State :=
  s.modGrid g fun x => { x with regions := x.regions.put r (f (x.regions.getD r {})) }

/-- Has an operation's block an earlier ORDT in flight? A block's packets go in the order of its words, as ascending delivery
requires (spec/17 R349; DEDUCED, log 37). -/
def State.earlierOrdt (s : State) (o : Op) : Bool :=
  s.ops.any fun p => p.blk == o.blk && decide (p.id < o.id) && match p.kind with
    | .ordt .. => true
    | _ => false

/-- ENGINE_OPERATION_COMPLETE for ORDT: it reads the packet and moves the watermarks, then enters the ingress of every
region of its mask, waiting while one is full (spec/17 R349). -/
def State.stepOrdt (s : State) (o : Op) (off len mask seq : Nat) (fin_ : Bool) (data : List Byte) (bad : List Nat) :
    Option State :=
  let b := s.block o.blk
  let g := b.grid
  if !s.canRun o || s.earlierOrdt o then none
  else if o.stage = 0 then
    let bytes := bytesOf (16 * len) (s.spadRead b.core (b.spadBase + off) (16 * len))
    let bad := (List.range len).filter fun i => s.spadPoison b.core (b.spadBase + off + 16 * i) 16
    let s := (s.grid g).defRegions.foldl (fun (s : State) r => s.modRegion g r fun x =>
      if fin_ then { x with fins := insNat b.blkid x.fins } else { x with marks := x.marks.put b.blkid seq }) s
    some (s.modOp o.id fun p => { p with stage := 1, kind := .ordt off len mask seq fin_ bytes bad })
  else
    let left := (List.range 16).filter fun r => mask / 2 ^ r % 2 == 1 && !o.done.contains r
    let room := left.filter fun r => (((s.grid g).regions.getD r {}).pend).length < 1024
    if room.isEmpty && !left.isEmpty then none
    else
      let pk : Packet := { prod := b.blkid, seq := seq, fin := fin_, data := data, bad := bad }
      let s := room.foldl (fun (s : State) r => s.modRegion g r fun x => { x with pend := x.pend ++ [pk] }) s
      if room.length = left.length then some (s.finish o.id)
      else some (s.modOp o.id fun p => { p with done := p.done ++ room })

/-- Is a packet deliverable (spec/17 R349)? -/
def Region.deliverable (r : Region) (nprod : Nat) (p : Packet) : Bool :=
  (List.range nprod).all fun q => q == p.prod || r.fins.contains q || (r.marks.find q).any fun w => p.seq ≤ w
/-- The next packet to deliver: the deliverable one of lowest sequence, ties by producer (spec/17 R349). -/
def Region.next (r : Region) (nprod : Nat) : Option Packet :=
  let ps := r.pend.filter (r.deliverable nprod)
  ps.find? fun p => ps.all fun q => decide (p.seq < q.seq) || (p.seq == q.seq && decide (p.prod ≤ q.prod))
/-- Does a packet fit the buffer with its header (spec/17 R350)? -/
def Region.fits (r : Region) (size : Nat) (p : Packet) : Bool := 16 + r.buf.length + 16 + p.data.length ≤ size

/-- The owner block of a region: the member at CQ of CH7 in its quad group (spec/17 R344). -/
def State.regOwner (s : State) (g r : Nat) : Option (Nat × Block) :=
  let x := s.grid g
  s.blocks.find? fun p => p.2.grid == g && p.2.qgid == some (fld (x.regWord r) 0 16)
    && p.2.core % 4 == chCQ (x.chan 7) && p.2.bstate == .resident

/-- INGRESS_DELIVERY: the next deliverable packet joins the buffer being filled (spec/17 R349, R350). -/
def execIngressDelivery (grid : Nat) (region : Fin 16) (s : State) : Out State :=
  let g := s.grid grid
  let r := g.regions.getD region.val {}
  let own := s.regOwner grid region.val
  let run : Option State := match r.next g.nprod, own with
    | some p, some (_, b) =>
      if !bitOf (g.regWord region.val) 31 || r.last || !r.fits (chSize (g.chan 7)) p
          || (s.chanOf grid (fld (g.regWord region.val) 0 16) 7).full (s.chanOf grid (fld (g.regWord region.val) 0 16) 7).pidx
      then none
      else
        let rec_ := bytesOf 16 (p.seq + p.prod * 2 ^ 32 + p.data.length * 2 ^ 64) ++ p.data
        some (s.modRegion grid region.val fun x => { x with
          pend := x.pend.erase p, buf := x.buf ++ rec_, cnt := x.cnt + 1, bad := x.bad ++ p.bad.map ((32 + x.buf.length) / 16 + ·), at_ := s.now b.core })
    | _, _ => none
  ofStep "INGRESS_DELIVERY" run

/-- Why an ingress buffer is due for its owner: the next packet does not fit, every producer has finished, or 256 clocks have passed with none delivered (spec/17
R350); none where there is no room for it or nothing to hand over. Is it the last? -/
def State.releasable (s : State) (grid : Nat) (region : Fin 16) (b : Block) : Option Bool :=
  let g := s.grid grid
  let r := g.regions.getD region.val {}
  let w := g.chan 7
  let ch := s.chanOf grid (fld (g.regWord region.val) 0 16) 7
  let nxt := r.next g.nprod
  let full := r.cnt != 0 && nxt.any fun p => !r.fits (chSize w) p
  let done := r.pend.isEmpty && (List.range g.nprod).all r.fins.contains && g.nprod != 0
  let idle := r.cnt != 0 && nxt.isNone && decide (r.at_ + 256 ≤ s.now b.core)
  if !bitOf (g.regWord region.val) 31 || r.last || ch.full ch.pidx || !(full || done || idle) then none else some done

/-- INGRESS_RELEASE: the buffer with its header is written into the owner's window and handed over (spec/17 R350). -/
def execIngressRelease (grid : Nat) (region : Fin 16) (s : State) : Out State :=
  let g := s.grid grid
  let r := g.regions.getD region.val {}
  let q := fld (g.regWord region.val) 0 16
  let w := g.chan 7
  let ch := s.chanOf grid q 7
  let run : Option State := (s.regOwner grid region.val).bind fun x => (s.releasable grid region x.2).map fun done =>
    let b := x.2
    let head := bytesOf 16 (r.cnt + (16 + r.buf.length) * 2 ^ 32 + (if done then 2 ^ 64 else 0))
    let bs := head ++ r.buf
    let s := (List.range (bs.length / 16)).foldl (fun (s : State) i =>
      s.engPut b.core (.spad b.core (b.spadBase + chBuf w ch.pidx + 16 * i)) ((bs.drop (16 * i)).take 16) (r.bad.contains i) false) s
    let s := s.modRegion grid region.val fun x => { x with buf := [], cnt := 0, bad := [], last := done }
    s.modChan grid q 7 fun c => { c.setFull c.pidx true with pidx := !c.pidx }
  ofStep "INGRESS_RELEASE" run

/-! ### RAST (spec/17 R351 to R353) -/

/-- A snapped coordinate in units of 1/256; none for a NaN or a value outside ±2^22 (spec/17 R352). -/
def snap (w : Word) : Option Int := match v32 w with
  | .fin n m e => let x := roundInt .rn 0 n m (e + 8); if x.natAbs ≤ 2 ^ 22 then some x else none
  | _ => none

/-- A triangle set up for the walk: snapped vertices, A, the walk rectangle of pixels. -/
structure RTri where
  v : List (Int × Int)
  a : Int
  x0 : Int
  y0 : Int
  x1 : Int
  y1 : Int
  deriving DecidableEq, Repr

/-- cross(u, v) (spec/17 R352). -/
def cross (u v : Int × Int) : Int := u.1 * v.2 - u.2 * v.1
/-- u − v. -/
def vsub (u v : Int × Int) : Int × Int := (u.1 - v.1, u.2 - v.2)
/-- Vertex i, mod 3. -/
def RTri.vert (t : RTri) (i : Nat) : Int × Int := t.v.getD (i % 3) (0, 0)
/-- E_i at a point. -/
def RTri.edge (t : RTri) (i : Nat) (p : Int × Int) : Int := cross (vsub (t.vert (i + 1)) p) (vsub (t.vert (i + 2)) p)
/-- Is edge i inclusive (spec/17 R352)? -/
def RTri.inclusive (t : RTri) (i : Nat) : Bool :=
  let d := vsub (t.vert (i + 2)) (t.vert (i + 1))
  let d := if t.a < 0 then (-d.1, -d.2) else d
  decide (d.2 < 0) || (d.2 == 0 && decide (0 < d.1))
/-- The centre of a pixel in units of 1/256. -/
def centre (x y : Int) : Int × Int := (256 * x + 128, 256 * y + 128)
/-- Is a pixel covered (spec/17 R352)? -/
def RTri.covers (t : RTri) (x y : Int) : Bool :=
  decide (t.x0 ≤ x) && decide (x ≤ t.x1) && decide (t.y0 ≤ y) && decide (y ≤ t.y1)
    && (List.range 3).all fun i =>
      let e := t.edge i (centre x y) * (if t.a < 0 then -1 else 1)
      decide (0 < e) || (e == 0 && t.inclusive i)

/-- The triangle of the vertex registers and scissor; none when it is empty or culled (spec/17 R352). -/
def rastTri (g sc : List Word) (cull : Cull) : Option RTri :=
  let co := ([0, 1, 3, 4, 6, 7] : List Nat).map fun k => snap (g.getD k 0)
  if co.any (·.isNone) then none
  else
    let c (k : Nat) : Int := (co.getD k none).getD 0
    let v := [(c 0, c 1), (c 2, c 3), (c 4, c 5)]
    let a := cross (vsub (c 2, c 3) (c 0, c 1)) (vsub (c 4, c 5) (c 0, c 1))
    if a = 0 || (cull == .back && decide (a < 0)) || (cull == .front && decide (0 < a)) then none
    else
      let lo (xs : List Int) : Int := -((-(xs.foldl min (xs.headD 0) - 128)) / 256)
      let hi (xs : List Int) : Int := (xs.foldl max (xs.headD 0) - 128) / 256
      some { v := v, a := a
             x0 := max (lo [c 0, c 2, c 4]) (fld (sc.getD 0 0) 0 16), y0 := max (lo [c 1, c 3, c 5]) (fld (sc.getD 0 0) 16 16)
             x1 := min (hi [c 0, c 2, c 4]) ((fld (sc.getD 1 0) 0 16 : Nat) - 1)
             y1 := min (hi [c 1, c 3, c 5]) ((fld (sc.getD 1 0) 16 16 : Nat) - 1) }

/-- Tile columns and rows of the rectangle, and the end of the walk (spec/17 R352). -/
def RTri.ntx (t : RTri) : Nat := (t.x1 / 8 - t.x0 / 8 + 1).toNat
/-- The end of the walk; 0 for an empty rectangle. -/
def RTri.end_ (t : RTri) : Nat := if t.x1 < t.x0 ∨ t.y1 < t.y0 then 0 else 64 * t.ntx * (t.y1 / 8 - t.y0 / 8 + 1).toNat
/-- The pixel at a position. -/
def RTri.pixel (t : RTri) (p : Nat) : Int × Int :=
  ((t.x0 / 8 + (p / 64 % Nat.max 1 t.ntx : Nat)) * 8 + (p % 8 : Nat), (t.y0 / 8 + (p / 64 / Nat.max 1 t.ntx : Nat)) * 8 + (p / 8 % 8 : Nat))

/-- A ratio of integers in FP32, rounded once. -/
def ratio32 (n d : Int) : Word := BitVec.ofNat 32 (roundRat f32 .rn false 0 ((n < 0) != (d < 0)) n.natAbs d.natAbs)

/-- The walk of one issue: samples for at most `n` lanes, at most `fuel` positions (spec/17 R352). -/
def RTri.walk (t : RTri) : Nat → Nat → Nat → List (List Word) × Nat
  | 0, p, _ => ([], p)
  | fuel + 1, p, n =>
    if n = 0 || decide (t.end_ ≤ p) then ([], p)
    else
      let (x, y) := t.pixel p
      if t.covers x y then
        let smp := [wordOf x, wordOf y, ratio32 (t.edge 1 (centre x y)) t.a, ratio32 (t.edge 2 (centre x y)) t.a]
        let (rest, q) := RTri.walk t fuel (p + 1) (n - 1)
        (smp :: rest, q)
      else RTri.walk t fuel (p + 1) n

/-- What RAST checks of one lane and starts (spec/17 R351, R353). -/
def State.rastCheck (s : State) (h : Hdr) (a b : Reg) (cull : Cull) (t : Tid) : Except Flt OpKind :=
  .ok (.rast a (byLane ((s.act h).filter (·.blk == t.blk))) (s.rds t (.g 0) 10) (s.rds t b 2) cull)
/-- RAST (spec/17 R351, R353): the raster walker accepts the next one 4 clocks later (R363). -/
def execRast (h : Hdr) (a b : Reg) (tko : Tok) (cull : Cull) (s : State) : Out State :=
  (s.modCore s.cur.core fun k => { k with rastFree := s.clk + 4 }).blockWord qGfx 0 h [] (some tko) (some .ld) (s.rastCheck h a b cull)

/-- ENGINE_OPERATION_COMPLETE for RAST: samples and continuation token are written (spec/17 R352, R353). -/
def State.stepRast (s : State) (o : Op) (d : Reg) (lanes : List Tid) (g sc : List Word) (cull : Cull) : Option State :=
  if !s.canRun o then none
  else
    let g9 := g.getD 9 0
    let (smp, tok) : List (List Word) × Word := match rastTri g sc cull with
      | none => ([], 0)
      | some t =>
        let (l, p) := t.walk 256 (if g9 = 0 then 0 else fld g9 0 31) lanes.length
        (l, if p < t.end_ then BitVec.ofNat 32 (2 ^ 31 + p) else 0)
    let s := lanes.zipIdx.foldl (fun (s : State) (p : Tid × Nat) =>
      let v := smp.getD p.2 [0xFFFFFFFF, 0xFFFFFFFF, 0, 0]
      (List.range 4).foldl (fun (s : State) k => s.wr p.1 (d.plus k) (v.getD k 0)) s) s
    let s := match lanes.head? with
      | some t => s.wr t (.g 9) tok
      | none => s
    some (s.finish o.id)

/-! ### SAMPLE (spec/17 R358, R359) -/

/-- Bytes of a texel or pixel format. -/
def texBytes (f : Nat) : Nat := if f = 1 then 8 else 4
/-- Size of level n along an axis. -/
def lvlSize (w n : Nat) : Nat := Nat.max 1 (w / 2 ^ n)
/-- Byte offset of level n (spec/17 R358). -/
def lvlOfs (w h b : Nat) : Nat → Nat
  | 0 => 0
  | n + 1 => lvlOfs w h b n + (lvlSize w n * lvlSize h n * b + 255) / 256 * 256
/-- An index under an addressing mode (spec/17 R359). -/
def texAddr (mode n : Nat) (k : Int) : Nat :=
  match mode with
  | 0 => (k % n).toNat
  | 1 => (clampI 0 (n - 1) k).toNat
  | _ => let m := (k % (2 * n)).toNat; if m < n then m else 2 * n - 1 - m

/-- One axis of a lookup: pairs of index and weight in units of 1/256 (spec/17 R359). -/
def texAxis (bil : Bool) (c : Word) (n : Nat) : List (Int × Nat) :=
  let (neg, m, e) : Bool × Nat × Int := match v32 c with
    | .fin neg m e => (neg, m, e)
    | _ => (false, 0, 0)
  let (p, q) := quot m e
  let x : Int := (if neg then -(p : Int) else p) * n
  if !bil then [(x / q, 256)]
  else
    let num := 2 * x - q
    let den : Nat := 2 * q
    let i := num / den
    let r := (num - i * den).toNat * 256
    let lo := r / den
    let a := if den < 2 * (r % den) || (2 * (r % den) == den && lo % 2 == 1) then lo + 1 else lo
    [(i, 256 - a), (i + 1, a)]

/-- The texels of one lane: addresses and weights in units of 2^-16 (spec/17 R358, R359). -/
def texels (ds : List Word) (u v lod : Word) : List (DWord × Nat) :=
  let base := ds.getD 1 0 ++ ds.getD 0 0
  let c := ds.getD 3 0
  let w := fld (ds.getD 2 0) 0 16
  let h := fld (ds.getD 2 0) 16 16
  let b := texBytes (fld c 0 2)
  let n := (roundIFV .rn 0 0 (fld c 7 4) (v32 lod)).toNat
  let wn := lvlSize w n
  let hn := lvlSize h n
  (texAxis (bitOf c 2) v hn).flatMap fun y => (texAxis (bitOf c 2) u wn).map fun x =>
    (base + BitVec.ofNat 64 (lvlOfs w h b n + (texAddr (fld c 5 2) hn y.1 * wn + texAddr (fld c 3 2) wn x.1) * b), x.2 * y.2)

/-- Is a texture descriptor refused (spec/17 R358, R359)? -/
def texBad (ds : List Word) : Bool :=
  let c := ds.getD 3 0
  let w := fld (ds.getD 2 0) 0 16
  let h := fld (ds.getD 2 0) 16 16
  fld c 11 21 != 0 || fld c 0 2 == 3 || fld c 3 2 == 3 || fld c 5 2 == 3 || w == 0 || h == 0 || decide (16384 < w)
    || decide (16384 < h) || decide (Nat.log2 (Nat.max w h) < fld c 7 4)

/-- What SAMPLE checks of one lane and starts (spec/17 R358, R359). -/
def State.sampleCheck (s : State) (a b : Reg) (t : Tid) : Except Flt OpKind :=
  let ds := s.rds t b 4
  match staged [misFault 256 (s.rd64 t b).toNat, badField (texBad ds)] [] with
  | some f => .error f
  | none =>
    let blk := s.block t.blk
    let n := texBytes (fld (ds.getD 3 0) 0 2)
    let tx := texels ds (s.rd t a) (s.rd t (a.plus 1)) (s.rd t (a.plus 2))
    let l := tx.map fun (p : DWord × Nat) => s.gAccess blk.core blk (s.thread t).level p.1 n .r false
    match firstFault (faultsOf l) with
    | some f => .error f
    | none => .ok (.sample t a (fld (ds.getD 3 0) 0 2) ((tx.map (·.1)).zip ((oksOf l).zip (tx.map (·.2)))))
/-- The accesses of the texels a SAMPLE of some lanes reads. -/
def State.sampleAccs (s : State) (a b : Reg) (ts : List Tid) : List Acc :=
  (oksOf (ts.map fun t => s.sampleCheck a b t)).flatMap fun k => match k with
    | .sample t _ _ tx => tx.map fun x => { t := t, loc := .mem x.2.1, va := x.1 }
    | _ => []
/-- SAMPLE (spec/17 R358, R359): its fault point is that of a GLOBAL access, so its group is rejected where its texels find no
miss-status entries (spec/09 R178, R189). -/
def execSample (h : Hdr) (a b : Reg) (k : Toks) (s : State) : Out State :=
  let accs := s.sampleAccs a b (s.act h)
  if s.rejects accs then .next (s.reject qGfx)
  else
    let fine := (s.staleFaults (byLane (s.act h)) k.ins).isEmpty && (s.act h).all fun t => (s.sampleCheck a b t).isOk
    (if fine then s.takeMshr accs else s).laneWord qGfx 3 h k.ins k.tko .ld (s.sampleCheck a b)

/-- The four channels of a texel's bytes, RGBA8 in units of 1/255 (spec/17 R359). -/
def texel (f v : Nat) : List FV :=
  match f with
  | 0 => (List.range 4).map fun k => .fin false (v / 2 ^ (8 * k) % 256) 0
  | 1 => (List.range 4).map fun k => f16.dec (v / 2 ^ (16 * k) % 65536)
  | _ => [f32.dec v, .fin false 0 0, .fin false 0 0, .fin false 1 0]

/-- ENGINE_OPERATION_COMPLETE for SAMPLE: the weighted exact sum, rounded once (spec/17 R359); poison is consumed. -/
def State.stepSample (s : State) (o : Op) (t : Tid) (a : Reg) (f : Nat) (tx : List (DWord × Nat × Nat)) : Option State :=
  if !s.canRun o then none
  else
    let (els, bad, s) : List (List FV) × Option DWord × State := tx.foldl (fun (r : List (List FV) × Option DWord × State) p =>
      let (v, x, s) := r.2.2.readLoc o.core (.mem p.2.1) (texBytes f)
      (r.1 ++ [texel f v], r.2.1.orElse fun _ => if x then some p.1 else none, s)) ([], none, s)
    match bad with
    | some va => some ((s.consume t o.pc va).finishLane o.id)
    | none =>
      let chan (k : Nat) : Word :=
        let terms := (els.zip (tx.map (·.2.2))).map fun p => (p.1.getD k (.fin false 0 0)).mul (.fin false p.2 (-16))
        match f, sumFV .rn false terms with
        | 0, .fin n m e => BitVec.ofNat 32 (roundRat f32 .rn false 0 n (quot m e).1 ((quot m e).2 * 255))
        | _, x => r32 .rn x
      some (((List.range 4).foldl (fun (s : State) k => s.wr t (a.plus k) (chan k)) s).finishLane o.id)

/-! ### OMRG (spec/17 R360, R361) -/

/-- What OMRG checks of one lane and starts (spec/17 R360, R361). -/
def State.omrgCheck (s : State) (a b : Reg) (t : Tid) : Except Flt OpKind :=
  let ds := s.rds t b 4
  let c := ds.getD 3 0
  let blk := s.block t.blk
  let px := fld c 0 8 * fld c 8 8
  match staged [misFault 8 (ds.getD 0 0).toNat, misFault 4 (ds.getD 1 0).toNat,
      badField (fld c 24 8 != 0 || fld c 18 2 == 3 || fld c 16 2 == 3 || px == 0
        || (spadLoc blk (ds.getD 0 0).toNat (px * texBytes (fld c 16 2))).isNone
        || (spadLoc blk (ds.getD 1 0).toNat (px * 4)).isNone)] [] with
  | some f => .error f
  | none => .ok (.omrg t (s.rds t a 8) ds)
/-- OMRG (spec/17 R360, R361). -/
def execOmrg (h : Hdr) (a b : Reg) (k : Toks) (s : State) : Out State :=
  s.laneWord qGfx 2 h k.ins k.tko .st (s.omrgCheck a b)

/-- The depth comparison z op dz (spec/17 R361). -/
def depthPass (df : Nat) (z d : Word) : Bool :=
  let a := v32 z
  let b := v32 d
  match df with
  | 0 => false
  | 7 => true
  | _ =>
    if a.isNan || b.isNan then false
    else match df with
      | 1 => a.lt b
      | 2 => a.le b && b.le a
      | 3 => a.le b
      | 4 => b.lt a
      | 5 => !(a.le b && b.le a)
      | _ => b.le a

/-- The blended pixel (spec/17 R361): the source channels, the pixel's old bytes; an RGBA8 channel in units of 1/255. -/
def blend (bl cf : Nat) (src : List FV) (old : Nat) : Nat :=
  let d := texel cf old
  let z : FV := .fin false 0 0
  let one : FV := .fin false 1 0
  let oneMinus := sumFV .rn false [one, (src.getD 3 z).flip]
  let k : FV := if cf = 0 then .fin false 255 0 else one
  let o (i : Nat) : FV :=
    let x := (src.getD i z).mul k
    match bl with
    | 0 => x
    | 1 => sumFV .rn false [x, (d.getD i z).mul oneMinus]
    | _ => sumFV .rn false [x, d.getD i z]
  match cf with
  | 0 => (List.range 4).foldl (fun a i => a + (roundIFV .rn 0 0 255 (o i)).toNat * 2 ^ (8 * i)) 0
  | 1 => (List.range 4).foldl (fun a i => a + roundFV f16 .rn false 0 (o i) * 2 ^ (16 * i)) 0
  | _ => (r32 .rn (o 0)).toNat

/-- ENGINE_OPERATION_COMPLETE for OMRG: one indivisible step at the scratchpad, after the earlier steps of its thread and
the lower lanes of its issue group (spec/17 R361). -/
def State.stepOmrg (s : State) (o : Op) (t : Tid) (fr ds : List Word) : Option State :=
  let wait := s.ops.any fun p => match p.kind with
    | .omrg u _ _ => (u == t && decide (p.id < o.id)) || (p.core == o.core && p.pc == o.pc && p.clk == o.clk && decide (u.lane < t.lane))
    | _ => false
  if !s.canRun o || wait then none
  else
    let b := s.block o.blk
    let c := ds.getD 3 0
    let x0 := fld (ds.getD 2 0) 0 16
    let y0 := fld (ds.getD 2 0) 16 16
    let x := (fr.getD 0 0).toNat
    let y := (fr.getD 1 0).toNat
    if x < x0 || x0 + fld c 0 8 ≤ x || y < y0 || y0 + fld c 8 8 ≤ y then some (s.finishLane o.id)
    else
      let k := (y - y0) * fld c 0 8 + (x - x0)
      let cf := fld c 16 2
      let n := texBytes cf
      let dep := b.spadBase + (ds.getD 1 0).toNat + 4 * k
      let col := b.spadBase + (ds.getD 0 0).toNat + n * k
      if !depthPass (fld c 20 3) (fr.getD 2 0) (BitVec.ofNat 32 (s.spadRead b.core dep 4)) then some (s.finishLane o.id)
      else
        let s := if bitOf c 23 then s.spadPut b.core (cellsAt dep 4 (fr.getD 2 0).toNat) [] [] else s
        let src := (List.range 4).map fun i => v32 (fr.getD (4 + i) 0)
        let v := blend (fld c 18 2) cf src (s.spadRead b.core col n)
        some ((s.spadPut b.core (cellsAt col n v) [] []).finishLane o.id)

/-! ### TTASK, TFENCE (spec/17 R362) -/

/-- What TTASK checks of one lane and starts (spec/17 R362, spec/18 R390). -/
def State.ttaskCheck (s : State) (a b : Reg) (t : Tid) : Except Flt OpKind :=
  let blk := s.block t.blk
  let va := s.rd64 t a
  if va.toNat % 256 ≠ 0 then .error ⟨.misalign, va, 0⟩
  else match s.gAccess blk.core blk (s.thread t).level va 256 .r false with
    | .error _ => .error ⟨.access, va, 0⟩
    | .ok pa => .ok (.ttask pa b)
/-- TTASK: the record's address is checked as LAUNCH checks it (spec/17 R362, spec/18 R390). -/
def execTtask (h : Hdr) (a b : Reg) (k : Toks) (s : State) : Out State :=
  s.blockWord qGfx 3 h k.ins (some k.tko) none (s.ttaskCheck a b)

/-- The distance of a fence's generation from its slot's (spec/17 R362). -/
def fenceDist (sgen f : Nat) : Nat := (((sgen : Int) - f) % (2 ^ 26 - 1)).toNat

/-- What TFENCE checks of one lane of the active threads `ts` and starts (spec/17 R362). -/
def State.tfenceCheck (s : State) (ts : List Tid) (a b : Reg) (t : Tid) : Except Flt OpKind :=
  let f := s.rd t a
  let slot := fld f 0 6
  let gen := fld f 6 26
  let d := fenceDist ((s.grid (s.block t.blk).grid).fences.getD slot {}).gen gen
  if gen = 0 || decide (2 ^ 25 ≤ d) then .error ⟨.access, 0, 0⟩
  else .ok (.tfence t slot gen (d != 0) (lanesReg ts t b))
/-- TFENCE: a fence of generation 0, or ahead, faults; the active threads are blocked (spec/17 R362). -/
def execTfence (h : Hdr) (a b : Reg) (k : Toks) (s : State) : Out State :=
  let ts := byLane (s.act h)
  match s.staleFaults ts k.ins with
  | [] => match splitFaults (ts.map fun t => (t, s.tfenceCheck ts a b t)) with
    | ([], ok) =>
      let s' := (blksOf ts).foldl (fun (s' : State) x =>
        let mine := ok.filter (·.1.blk == x)
        let first := s'.nextId
        let s' := mine.foldl (fun (s' : State) p =>
          let id := s'.nextId
          (s'.addOp { s.opOf p.1 p.2 with after := k.ins.flatMap (s.tokOps x) }).modThread p.1 fun th =>
            { th with waitOp := some id, since := none }) s'
        let id := s'.nextId
        match mine.head? with
        | none => s'
        | some p => (s'.addOp { s.opOf p.1 .group with
            tids := mine.map (·.1), after := (List.range mine.length).map (first + ·) }).addTok x k.tko id) (s.produceAll k.tko)
      let rest := s.cur.tids.filter fun t => !s.isActive h t
      .next (((s'.narrow rest).retire qGfx).narrow s.cur.tids).useFree
    | (bad, _) => .next (s.raise bad)
  | bad => .next (s.raise bad)

/-- ENGINE_OPERATION_COMPLETE for TFENCE: once the slot's task is complete, the acquire of .PKG and the status; at once
for an expired fence (spec/17 R362). `stage` − 1 is the status kept at the task's completion. -/
def State.serveTfence (s : State) (o : Op) (t : Tid) (slot gen : Nat) (expired : Bool) (b : Reg) : Option State :=
  let sl := (s.grid (s.block o.blk).grid).fences.getD slot {}
  let st : Option Nat :=
    if expired then some 3
    else if o.stage ≠ 0 then some (o.stage - 1)
    else if fenceDist sl.gen gen = 0 && sl.task.isNone then some sl.status
    else none
  if !s.canRun o then none
  else st.map fun st =>
    let s := if expired then s else s.acquireBy o.core .pkg [t]
    ((s.wr t b (BitVec.ofNat 32 st)).unblock o qGfx).finishLane o.id

end Sys2Proof.Machine
end

