-- ==== Sys2Proof/Machine/Trav.lean ====
section
/-!
DEFINITION. Machine/Trav.lean: TRAV, the traversal of a bounding-volume hierarchy by one lane's ray (spec/17 R354 to
R357), in exact arithmetic. The values of ray registers +14 and +15 are free (DESIGN CHOICE, log 9); what they stand for is kept in the
thread.
-/

namespace Sys2Proof.Machine

/-! ### Exact geometry -/

/-- A fraction; its denominator is positive. -/
abbrev Frac := Int × Nat
/-- a < b. -/
def Frac.lt (a b : Frac) : Bool := a.1 * b.2 < b.1 * a.2
/-- The larger of two. -/
def fracMax (a b : Frac) : Frac := if Frac.lt a b then b else a
/-- The smaller of two. -/
def fracMin (a b : Frac) : Frac := if Frac.lt b a then b else a
/-- n / d with a positive denominator. -/
def mkFrac (n d : Int) : Frac := if d < 0 then (-n, d.natAbs) else (n, d.natAbs)
/-- f ≤ q for an FP32 bound. -/
def boundLe (f : FV) (q : Frac) : Bool := match f with
  | .nan => false
  | .inf n => n
  | .fin n m e => alignTo n m e (-149) * q.2 ≤ q.1 * 2 ^ 149
/-- q < f for an FP32 bound. -/
def ltBound (q : Frac) (f : FV) : Bool := match f with
  | .nan => false
  | .inf n => !n
  | .fin n m e => q.1 * 2 ^ 149 < alignTo n m e (-149) * q.2

/-- A finite FP32 word as an integer in units of 2^-149. -/
def fix149 (w : Word) : Option Int := match v32 w with
  | .fin n m e => some (alignTo n m e (-149))
  | _ => none
/-- Three words, if all are finite. -/
def vec149 (ws : List Word) : Option (List Int) :=
  let l := ws.map fix149
  if l.any (·.isNone) then none else some (l.map fun x => x.getD 0)

/-- Component k of a vector. -/
def comp (v : List Int) (k : Nat) : Int := v.getD k 0
/-- Difference of vectors. -/
def sub3 (a b : List Int) : List Int := (List.range 3).map fun k => comp a k - comp b k
/-- Dot product. -/
def dot3 (a b : List Int) : Int := comp a 0 * comp b 0 + comp a 1 * comp b 1 + comp a 2 * comp b 2
/-- Cross product. -/
def cross3 (a b : List Int) : List Int :=
  [comp a 1 * comp b 2 - comp a 2 * comp b 1, comp a 2 * comp b 0 - comp a 0 * comp b 2,
   comp a 0 * comp b 1 - comp a 1 * comp b 0]

/-- t, u and v where a ray meets a triangle within it; none otherwise (spec/17 R356). -/
def triHit (o d : List Int) (v : List (List Int)) : Option (Frac × Frac × Frac) :=
  let v0 := v.getD 0 []
  let e1 := sub3 (v.getD 1 []) v0
  let e2 := sub3 (v.getD 2 []) v0
  let p := cross3 d e2
  let det := dot3 e1 p
  let tv := sub3 o v0
  let q := cross3 tv e1
  let u := mkFrac (dot3 tv p) det
  let w := mkFrac (dot3 d q) det
  if det = 0 then none
  else if u.1 < 0 || w.1 < 0 || (det.natAbs : Int) < u.1 + w.1 then none
  else some (mkFrac (dot3 e2 q) det, u, w)

/-- The entry distance of a ray into a box it meets within its bounds and no farther than the committed hit; the inner
none is an entry at −∞ (spec/17 R356). -/
def boxEntry (o d lo hi : List Int) (tmin tmax : FV) (best : Option Frac) : Option (Option Frac) :=
  let axes := (List.range 3).map fun k => (comp o k, comp d k, comp lo k, comp hi k)
  if axes.any fun a => a.2.2.2 < a.2.2.1 || (a.2.1 == 0 && (decide (a.1 < a.2.2.1) || decide (a.2.2.2 < a.1))) then none
  else
    let mov := axes.filter fun a => a.2.1 != 0
    let near := mov.map fun a => fracMin (mkFrac (a.2.2.1 - a.1) a.2.1) (mkFrac (a.2.2.2 - a.1) a.2.1)
    let far := mov.map fun a => fracMax (mkFrac (a.2.2.1 - a.1) a.2.1) (mkFrac (a.2.2.2 - a.1) a.2.1)
    match near, far with
    | n :: ns, f :: fs =>
      let entry := ns.foldl fracMax n
      let exit_ := fs.foldl fracMin f
      if Frac.lt exit_ entry || !boundLe tmin exit_ || !ltBound entry tmax
          || best.any (fun b => Frac.lt b entry) then none else some (some entry)
    | _, _ => some none

/-! ### Reading -/

/-- Read `n` chunks of `k` bytes of memory for an operation: what stopped it, or the bytes, the first poisoned address, the
state. -/
def State.travRead (s : State) (o : Op) (va k n : Nat) : Except (Bool × Nat) (Nat × Option Nat × State) :=
  (List.range n).foldl (fun (r : Except (Bool × Nat) (Nat × Option Nat × State)) i => match r with
    | .error e => .error e
    | .ok (v, bad, s) => match s.opPlace o 0 ((va + k * i) % 2 ^ 64) k .r with
      | .error e => .error e
      | .ok l =>
        let (bs, p, s) := s.engGet o.core l k
        .ok (v + ofBytes bs * 2 ^ (8 * k * i), bad.orElse fun _ => if p then some (va + k * i) else none, s)) (.ok (0, none, s))

/-- n bytes at an offset of a number. -/
def sub8 (v ofs n : Nat) : Nat := v / 2 ^ (8 * ofs) % 2 ^ (8 * n)
/-- The FP32 word at an offset. -/
def subW (v ofs : Nat) : Word := BitVec.ofNat 32 (sub8 v ofs 4)

/-! ### The traversal -/

/-- Fields of the descriptor (spec/17 R354). -/
def tdBase (ds : List Word) (k : Nat) : Nat := (ds.getD (k + 1) 0 ++ ds.getD k 0).toNat
/-- The shader-table index of a geometry (spec/17 R357). -/
def tdIndex (ds : List Word) (ray : List Word) (geom : Nat) : Nat :=
  fld (ds.getD 6 0) 0 16 + geom * fld (ds.getD 6 0) 16 16 + fld (ray.getD 8 0) 0 4
/-- SCOUNT. -/
def tdCount (ds : List Word) : Nat := (ds.getD 7 0).toNat

/-- The running state of one issue: the package, the traversal, the first poisoned address read. -/
structure TRun where
  s : State
  st : TravSt
  bad : Option Nat := none

/-- The valid children of a node the ray meets, in the order they are taken (spec/17 R355, R356). A ray or node that is
not finite meets a box or not, a free choice (DESIGN CHOICE, log 9). -/
def children (free : Nat) (ray : List Word) (st : TravSt) (node nd lvl : Nat) : List TItem :=
  let o := vec149 (ray.take 3)
  let d := vec149 ((ray.drop 4).take 3)
  let og := vec149 ((List.range 3).map fun k => subW nd (4 * k))
  let flags := sub8 nd 15 1
  let hits := (List.range 4).filterMap fun i =>
    if flags / 2 ^ i % 2 = 0 then none
    else
      let item : TItem :=
        { leaf := flags / 2 ^ (4 + i) % 2 == 1, ref := sub8 nd (40 + 4 * i) 4
          cnt := sub8 nd (56 + i) 1, lvl := lvl + 1 }
      let at_ (b : Nat) : List Int := (List.range 3).map fun k =>
        comp (og.getD []) k + (sub8 nd (16 + 6 * i + b + k) 1 : Nat) * 2 ^ (sub8 nd (12 + k) 1 + 22)
      match o, d, og with
      | some o, some d, some _ => (boxEntry o d (at_ 0) (at_ 3) (v32 (ray.getD 3 0)) (v32 st.tmax)
          (st.best.map fun h => (h.tn, h.td))).map fun e => (e, item)
      | _, _, _ => if Config.unstated free (4 * node + i) % 2 = 0 then none else some (none, item)
  let before (a b : Option Frac) : Bool := match a, b with
    | none, none => false
    | none, some _ => true
    | some _, none => false
    | some x, some y => Frac.lt x y
  (hits.foldl (fun (l : List (Option Frac × TItem)) x =>
    l.takeWhile (fun y => !before x.1 y.1) ++ [x] ++ l.dropWhile (fun y => !before x.1 y.1)) []).map (·.2)

/-- Does a hit lower the bounds in force: tmin ≤ t < tmax, below the committed hit, ties to the smaller triangle index
(spec/17 R356)? -/
def TravSt.takes (st : TravSt) (ray : List Word) (t : Frac) (tri : Nat) : Bool :=
  boundLe (v32 (ray.getD 3 0)) t && ltBound t (v32 st.tmax) && (match st.best with
    | none => true
    | some b => Frac.lt t (b.tn, b.td) || (!Frac.lt (b.tn, b.td) t && decide (tri < b.tri)))

/-- The hit of a triangle record, if the ray meets it; values that are not finite leave it free (DESIGN CHOICE, log 9). -/
def recHit (free : Nat) (ray ds : List Word) (tri rec_ : Nat) : Option THit :=
  let vs := (List.range 3).map fun j => vec149 ((List.range 3).map fun k => subW rec_ (12 * j + 4 * k))
  let idx := tdIndex ds ray (sub8 rec_ 36 4)
  let out (p : Frac) : Word := BitVec.ofNat 32 (roundRat f32 .rn false 0 (p.1 < 0) p.1.natAbs p.2)
  match vec149 (ray.take 3), vec149 ((ray.drop 4).take 3), vs with
  | some o, some d, [some a, some b, some c] => (triHit o d [a, b, c]).map fun x =>
      { tri := tri, idx := idx, tn := x.1.1, td := x.1.2, u := out x.2.1, v := out x.2.2 }
  | _, _, _ =>
    if Config.unstated free (8 * tri) % 2 = 0 then none
    else some { tri := tri, idx := idx, tn := (Config.unstated free (8 * tri + 1) : Nat), td := 2 ^ 149
                u := BitVec.ofNat 32 (Config.unstated free (8 * tri + 2)), v := BitVec.ofNat 32 (Config.unstated free (8 * tri + 3)) }

/-- Is a node malformed (spec/17 R355, R357)? -/
def badNode (nd : Nat) : Bool :=
  sub8 nd 60 4 != 0 || (List.range 4).any fun i =>
    sub8 nd 15 1 / 2 ^ i % 2 == 1 && sub8 nd 15 1 / 2 ^ (4 + i) % 2 == 1 && (sub8 nd (56 + i) 1 == 0 || decide (16 < sub8 nd (56 + i) 1))

/-- What an access that cannot be made gives: a page to wait for, or status XFAULT. -/
def accErr (e : Bool × Nat) : Except (Bool × Nat) Nat := if e.1 then .error e else .ok 8

/-- The final status with the committed hit's record (spec/17 R357). -/
def TRun.final (r : TRun) (o : Op) (ds : List Word) : TRun × Except (Bool × Nat) Nat := match r.st.best with
  | none => (r, .ok 0)
  | some h =>
    if tdCount ds ≤ h.idx then (r, .ok 4)
    else match r.s.travRead o (tdBase ds 4 + 8 * h.idx) 8 1 with
      | .error e => (r, accErr e)
      | .ok (v, p, s) => ({ r with s := s, bad := r.bad.orElse fun _ => p }, .ok (if v = 0 then 5 else 1))

/-- One triangle of a leaf: go on (none), or end with a status, or wait for a page (spec/17 R356, R357). -/
def TRun.triangle (r : TRun) (o : Op) (ray ds : List Word) (tri : Nat) : TRun × Option (Except (Bool × Nat) Nat) :=
  match r.s.travRead o (tdBase ds 2 + 48 * tri) 16 3 with
  | .error e => (r, some (accErr e))
  | .ok (rec_, p, s) =>
    let r := { r with s := s, bad := r.bad.orElse fun _ => p }
    let flags := sub8 rec_ 44 4
    let first := bitOf (ray.getD 8 0) 5
    if 2 ≤ flags then (r, some (.ok 7))
    else match (recHit s.free ray ds tri rec_).filter fun h => r.st.takes ray (h.tn, h.td) tri with
      | none => (r, none)
      | some h =>
        if !bitOf (ray.getD 8 0) 4 || flags == 1 then
          let r := { r with st := { r.st with best := some h } }
          if first then
            let (r, x) := r.final o ds
            (r, some x)
          else (r, none)
        else if tdCount ds ≤ h.idx then (r, some (.ok 4))
        else match s.travRead o (tdBase ds 4 + 8 * h.idx) 8 1 with
          | .error e => (r, some (accErr e))
          | .ok (v, p, s) =>
            let r := { r with s := s, bad := r.bad.orElse fun _ => p }
            if v = 0 then (r, none) else ({ r with st := { r.st with cand := some h } }, some (.ok 2))

/-- One issue: at most `budget` nodes (spec/17 R356, R357). -/
def TRun.loop (o : Op) (ray ds : List Word) : Nat → Nat → TRun → TRun × Except (Bool × Nat) Nat
  | 0, _, r => (r, .ok 3)
  | fuel + 1, budget, r => match r.st.stack with
    | [] => r.final o ds
    | it :: rest =>
      if it.leaf then
        if it.cnt = 0 then TRun.loop o ray ds fuel budget { r with st := { r.st with stack := rest } }
        else
          let next := { r with st := { r.st with stack := { it with ref := it.ref + 1, cnt := it.cnt - 1 } :: rest } }
          match next.triangle o ray ds it.ref with
          | (r, some x) => (r, x)
          | (r, none) => TRun.loop o ray ds fuel budget r
      else if budget = 0 then (r, .ok 3)
      else if 24 < it.lvl then (r, .ok 6)
      else match r.s.travRead o (tdBase ds 0 + 64 * it.ref) 16 4 with
        | .error e => (r, accErr e)
        | .ok (nd, p, s) =>
          if badNode nd then ({ r with s := s, bad := r.bad.orElse fun _ => p }, .ok 7)
          else
            let kids := children s.free ray r.st it.ref nd it.lvl
            TRun.loop o ray ds fuel (budget - 1) { s := s, bad := r.bad.orElse fun _ => p, st := { r.st with stack := kids ++ rest } }

/-- The traversal an issue begins or continues; none for a state no issue left (spec/17 R354). -/
def travStart (th : Thread) (ray : List Word) : Option TravSt :=
  let key := (ray.getD 15 0 ++ ray.getD 14 0).toNat
  if key = 0 then some { stack := [{ leaf := false, ref := 0, cnt := 0, lvl := 1 }], tmax := ray.getD 7 0 }
  else (th.travs.find key).map fun st => match st.cand with
    | none => st
    | some h =>
      if bitOf (ray.getD 8 0) 7 then { st with best := some h, cand := none, stack := if bitOf (ray.getD 8 0) 5 then [] else st.stack }
      else { st with cand := none }

/-- TRAV (spec/17 R354, R357). -/
def execTrav (h : Hdr) (a b : Reg) (k : Toks) (s : State) : Out State :=
  s.laneWord qGfx 0 h k.ins k.tko .ld fun t => .ok (.trav t a (s.rds t a 16) (s.rds t b 8))

/-- The registers an issue writes, and its trap: status; the committed hit with t, u, v, index and triangle, or the
candidate's index and triangle; the traversal state (spec/17 R354, R357). -/
def State.endTrav (s : State) (o : Op) (t : Tid) (a : Reg) (ray : List Word) (st : TravSt) (code : Nat) : State :=
  let goes := code == 2 || code == 3
  let v := Config.travToken s.free
  let key : DWord := if goes && v == 0 then 1 else v
  let s := s.wr t (a.plus 9) (BitVec.ofNat 32 code)
  let s := match (if code = 4 then none else st.best) with
    | none => s
    | some h =>
      let tw : Word := BitVec.ofNat 32 (roundRat f32 .rn false 0 (h.tn < 0) h.tn.natAbs h.td)
      [(7, tw), (10, h.u), (11, h.v), (12, BitVec.ofNat 32 h.idx), (13, BitVec.ofNat 32 h.tri)].foldl
        (fun (s : State) (p : Nat × Word) => s.wr t (a.plus p.1) p.2) s
  let s := match code, st.cand with
    | 2, some h => (s.wr t (a.plus 12) (BitVec.ofNat 32 h.idx)).wr t (a.plus 13) (BitVec.ofNat 32 h.tri)
    | _, _ => s
  let s := s.wrN t (a.plus 14) 2 key.toNat
  let old := (ray.getD 15 0 ++ ray.getD 14 0).toNat
  let s := s.modThread t fun th =>
    let tv := Tab.del th.travs old
    { th with travs := if goes then tv.put key.toNat st else tv }
  let s := if code == 4 && bitOf (ray.getD 8 0) 6 then s.lateTrap t { code := FCode.access.num, pc := o.pc, val := 0 } else s
  s.useFree.finishLane o.id

/-- The traversal of an operation as it stood at issue, for a page that never came (spec/17 R357). -/
def State.travFail (s : State) (o : Op) (t : Tid) (a : Reg) (ray : List Word) : State :=
  s.endTrav o t a ray ((travStart (s.thread t) ray).getD { stack := [], tmax := 0 }) 8

/-- The end of a traversal whose state no TRAV left: the registers it writes take any values and nothing faults (spec/17 R354,
spec/00 R2; free values, log 9). -/
def State.travAny (s : State) (o : Op) (t : Tid) (a : Reg) : State :=
  let v := fun k => Config.unstated s.free k
  let s' := ([7, 9, 10, 11, 12, 13, 14, 15] : List Nat).foldl (fun s' k => s'.wr t (a.plus k) (BitVec.ofNat 32 (v k))) s
  s'.useFree.finishLane o.id

/-- ENGINE_OPERATION_COMPLETE for TRAV: one issue of the traversal; poison read is consumed; a page not present is
waited for (spec/17 R357, spec/12 R251). A traversal state no TRAV left breaks an obligation: any values result (R354). -/
def State.stepTrav (s : State) (o : Op) (t : Tid) (a : Reg) (ray ds : List Word) : Out State :=
  if !s.canRun o || o.stage != 0 then ofStep "TRAV" none
  else match travStart (s.thread t) ray with
    | none => .next (s.travAny o t a)
    | some st => match TRun.loop o ray ds 8192 8 { s := s, st := st } with
      | (r, .error e) =>
        if r.s.copyLimit o = 0 then .next (r.s.travFail o t a ray)
        else .next (r.s.modOp o.id fun p => { p with stage := 1, prog := e.2, pageAt := s.now o.core, lim := s.copyLimit o })
      | (r, .ok code) =>
        match r.bad with
        | some va => .next ((r.s.consume t o.pc (BitVec.ofNat 64 va)).finishLane o.id)
        | none => .next (r.s.endTrav o t a ray r.st code)

end Sys2Proof.Machine
end

