-- ==== Sys2Proof/Machine/Launch.lean ====
section
/-!
DEFINITION. Machine/Launch.lean: launch records and their checks (spec/18 R387, R388), package queues (R389), LAUNCH and
TTASK (R390, spec/17 R362), placement and block start (spec/01 R22 to R28), release of threads, completion of blocks and
grids (spec/03 R86, spec/18 R389).
-/

namespace Sys2Proof.Machine

/-- The SYS queue (spec/02 R50). -/
def qSys : Nat := 11

/-! ### Launch records (spec/18 R387, R388) -/

/-- Bits of a record: byte offset, low bit, width. -/
def recFld (v off lo n : Nat) : Nat := v / 2 ^ (8 * off + lo) % 2 ^ n
/-- The defined bits of a record: byte offset, low bit, width (spec/18 R387). -/
def recFields : List (Nat × Nat × Nat) :=
  [(0x00, 0, 64), (0x08, 0, 32), (0x0C, 16, 12), (0x10, 0, 64), (0x18, 0, 5), (0x18, 6, 5), (0x18, 11, 2), (0x18, 16, 6),
   (0x1C, 0, 6), (0x20, 0, 256), (0x40, 0, 16), (0x44, 0, 512), (0x84, 0, 4), (0x88, 0, 16), (0x8C, 0, 32),
   (0x90, 0, 256), (0xB0, 0, 32), (0xB4, 0, 128), (0xC4, 0, 32)]
/-- The defined bits as a mask. -/
def recMask : Nat := recFields.foldl (fun m f => m + (2 ^ f.2.2 - 1) * 2 ^ (8 * f.1 + f.2.1)) 0
/-- A list of words of a record. -/
def recWords (v off n : Nat) : List Word := (List.range n).map fun k => BitVec.ofNat 32 (recFld v (off + 4 * k) 0 32)

/-- The fields of a record (spec/18 R387). -/
def recOf (v : Nat) : LRec where
  entry := BitVec.ofNat 64 (recFld v 0 0 64)
  nblk := recFld v 8 0 32
  nrow := recFld v 0xC 24 4 + 1
  regs := if recFld v 0xC 16 8 = 20 then 191 else 32 + 8 * recFld v 0xC 16 8
  spadb := recFld v 0x10 0 32
  accb := recFld v 0x14 0 32
  qg := recFld v 0x18 0 1 == 1
  cores := recFld v 0x18 1 1 == 1
  gfx := recFld v 0x18 2 1 == 1
  pod := recFld v 0x18 3 1 == 1
  sup := recFld v 0x18 4 1 == 1
  pcls := recFld v 0x18 6 2
  prio := recFld v 0x18 8 3
  part := recFld v 0x18 11 2
  dgn := recFld v 0x18 16 6
  memaff := recFld v 0x1C 0 6
  fs := recWords v 0x20 8
  mbmask := BitVec.ofNat 16 (recFld v 0x40 0 16)
  mbs := recWords v 0x44 16
  trapen := BitVec.ofNat 4 (recFld v 0x84 0 4)
  cid := recFld v 0x88 0 16
  gridid := recFld v 0x8C 0 32
  seed := BitVec.ofNat 64 (recFld v 0x90 0 64)
  save := BitVec.ofNat 64 (recFld v 0x98 0 64)
  bind := BitVec.ofNat 64 (recFld v 0xA0 0 64)
  doneva := BitVec.ofNat 64 (recFld v 0xA8 0 64)
  doneval := BitVec.ofNat 32 (recFld v 0xB0 0 32)
  deps := (recWords v 0xB4 4).map (·.toNat)
  podlid := BitVec.ofNat 32 (recFld v 0xC4 0 32)

/-- The registers of a lane's file an allocation occupies (spec/02 R47). -/
def allocOf (n : Nat) : Nat := if n = 191 then 192 else n

/-- Does a field of a record break its limit (spec/18 R387, R388)? -/
def recLimits (v : Nat) : Bool :=
  let r := recOf v
  Nat.land v recMask != v || r.entry.toNat % 8 != 0 || r.nblk == 0 || decide (2 ^ 31 ≤ r.nblk)
    || decide (20 < recFld v 0xC 16 8) || r.spadb % 256 != 0 || decide (2 ^ 22 < r.spadb) || r.accb % 256 != 0
    || decide (2 ^ 23 < r.accb) || (r.gfx && !r.qg) || r.pcls == 3 || r.part == 0 || decide (40 < r.dgn)
    || (r.qg && r.dgn % 4 != 0) || (r.save == 0 && r.pcls != 0) || r.doneva.toNat % 8 != 0
    || r.fs.any (fun w => !slotValid w) || decide (2048 < r.nrow * allocOf r.regs)
    || (r.qg && r.nblk % 4 != 0) || (r.dgn != 0 && r.nblk % r.dgn != 0)

/-- Translate n bytes of a context for hardware, without a cached translation; none where the page is not present, not
permitted or not in installed memory (spec/18 R382, R389). -/
def State.sysAccess (s : State) (cid : Nat) (lv : Level) (va : DWord) (n : Nat) (p : Perm) : Option Nat :=
  if !form57 va || va57 va / 4096 != (va57 va + n - 1) / 4096 then none
  else match (s.ctxRoot cid).map fun r => s.walk cid (va57 va) 4 0 r with
    | some (.ok e) =>
      let pa := e.pa + (va57 va - e.va)
      if e.allows p lv && installed pa then some pa else none
    | _ => none

/-- The level of a grid's threads (spec/18 R365). -/
def LRec.level (r : LRec) : Level := if r.sup then .sup else .user

/-- The words of a bind record (spec/17 R344): NPROD, CH0 to CH7, REG0 to REG15; none where it cannot be read. -/
def State.bindWords (s : State) (r : LRec) : Option (List Word) :=
  let l := (List.range 25).map fun k => s.sysAccess r.cid r.level (r.bind + BitVec.ofNat 64 (4 * k)) 4 .r
  if r.bind.toNat % 4 != 0 || l.any (·.isNone) then none
  else some (l.map fun p => BitVec.ofNat 32 (s.homeRead (p.getD 0) 4))

/-- Is a bind record refused (spec/17 R344)? -/
def bindBad (spadb : Nat) (b : List Word) : Bool :=
  let g : Grid := { binds := b }
  let np := b.getD 0 0
  decide (np.toNat = 0) || decide (64 < np.toNat)
    || ((List.range 8).any fun c => let w := g.chan c
        bitOf w 31 && (chPQ w == chCQ w || chSize w == 0 || decide (spadb < 512 * fld w 14 13 + 2 * chSize w)))
    || ((List.range 16).any fun r => bitOf (g.regWord r) 31 && (!bitOf (g.chan 7) 31 || fld (g.regWord r) 16 15 != 0))
    || (bitOf (g.chan 7) 31 && decide (fld (g.chan 7) 0 14 < 2))

/-! ### Queues (spec/18 R389, R390) -/

/-- A queue. -/
def State.ringq (s : State) (q : Nat) : Ringq := s.pkg.queues.getD q {}
/-- Change a queue. -/
def State.modRingq (s : State) (q : Nat) (f : Ringq → Ringq) : State :=
  { s with pkg := { s.pkg with queues := s.pkg.queues.put q (f (s.ringq q)) } }
/-- QCTL.SIZE. -/
def Ringq.size (r : Ringq) : Nat := fld r.ctl 0 16
/-- QHEAD moves over the leading run of finished records (spec/18 R389). -/
def Ringq.advance (r : Ringq) : Ringq :=
  let n := (r.recs.takeWhile (·.2)).length
  { r with recs := r.recs.drop n, head := (r.head + n) % Nat.max 1 r.size }

/-- Is a record refused at its acceptance (spec/18 R365, R388)? `user`: the context of a user-level issuer. -/
def State.recRefused (s : State) (q v : Nat) (user : Option Nat) : Bool :=
  let r := recOf v
  let ctl := (s.ringq q).ctl
  recLimits v || (s.ctxRoot r.cid).isNone || Nat.land r.part (fld ctl 28 2) != r.part || (r.sup && bitOf ctl 30)
    || (match user with
        | some c => r.sup || r.cid != c || r.gridid != 0
        | none => false)
    || (r.gfx && (match s.bindWords r with
        | some b => bindBad r.spadb b
        | none => true))

/-- Is a grid complete (spec/18 R389)? -/
def Grid.complete (g : Grid) : Bool := match g.status with
  | .done | .faulted | .killed | .refused => true
  | _ => false

/-- A key for a new grid: its GRIDID, or where a grid has had it, a number no grid has (spec/18 R389). -/
def State.gridKey (s : State) (gid : Nat) : Nat :=
  if (s.grids.find gid).isNone then gid
  else ((List.range (s.grids.length + 1)).find? fun k => (s.grids.find (2 ^ 31 + k)).isNone).getD 0 + 2 ^ 31

/-- The grid that a GRIDID names: the oldest incomplete one, else the one accepted last. -/
def State.gridOf (s : State) (gid : Nat) : Option Nat :=
  let l := s.grids.filter fun p => p.2.lrec.gridid == gid
  let first := l.find? fun p => !p.2.complete && l.all fun q => q.2.complete || decide (p.2.order ≤ q.2.order)
  let last := l.find? fun p => l.all fun q => decide (q.2.order ≤ p.2.order)
  (first.orElse fun _ => last).map (·.1)

/-- Accept a record into a queue behind its records (spec/18 R389): a new grid; a refused one is finished at once. -/
def State.accept (s : State) (q : Nat) (r : LRec) (refused : Bool) : Nat × State :=
  let key := s.gridKey r.gridid
  let deps := (s.grids.filter fun p => !p.2.complete && r.deps.contains p.2.lrec.gridid && p.2.lrec.gridid != 0).map (·.1)
  let binds := if r.gfx && !refused then (s.bindWords r).getD [] else []
  let g : Grid := { lrec := r, fs := r.fs, queue := q, order := s.order, deps := deps, refuse := refused, binds := binds, since := (List.range 8).map fun d => (s.die d).clk }
  let s := { s.useOrder with grids := s.grids.put key g }
  (key, s.modRingq q fun x => { x with recs := x.recs ++ [(key, refused)] })

/-- The next hardware-assigned GRIDID (spec/18 R390). -/
def State.newGid (s : State) : Nat × State :=
  let n := s.pkg.gridnext
  (n.toNat, { s with pkg := { s.pkg with gridnext := if n = 0x7FFFFFFF then 1 else n + 1 } })
/-- A record with its GRIDID filled in, where it is 0. -/
def State.withGid (s : State) (v : Nat) : Nat × State :=
  if recFld v 0x8C 0 32 = 0 then let (n, s) := s.newGid; (v + n * 2 ^ (8 * 0x8C), s) else (v, s)

/-- The words of a record in the capture log. -/
def recLog (v : Nat) : List Word := recWords v 0 64

/-- Records up to a new tail become pending, each checked (spec/18 R389). -/
def State.takeRecs (s : State) (q : Nat) : Nat → State
  | 0 => s
  | n + 1 =>
    let r := s.ringq q
    let i := (r.head + r.recs.length) % Nat.max 1 r.size
    let v := s.homeRead (r.base.toNat + 256 * i) 256
    let (w, s) := s.withGid v
    let bad := s.recRefused q w none
    let s := (s.accept q (recOf w) bad).2
    State.takeRecs (if bad then s else s.capLog (recLog w)) q n

/-- A QTAIL write (spec/18 R367, R389): none where it would leave more than SIZE − 1 records in the ring. -/
def State.writeTail (s : State) (q : Nat) (v : Word) : Option State :=
  let r := s.ringq q
  let n := (v.toNat + r.size - r.tail % Nat.max 1 r.size) % Nat.max 1 r.size
  if r.size ≤ v.toNat || decide (r.size - 1 < r.recs.length + n) then none
  else
    let s := s.takeRecs q n
    some (s.modRingq q fun x => ({ x with tail := v.toNat }).advance)

/-- LAUNCH's checks and append, as one step (spec/18 R390): the status, the grid of an accepted record, the state. `prio`:
the least priority (spec/17 R362). -/
def State.enqueue (s : State) (q v : Nat) (user : Option Nat) (prio : Nat) : Word × Option Nat × State :=
  let v := if (recOf v).prio < prio then v + (prio - (recOf v).prio) * 2 ^ (8 * 0x18 + 8) else v
  let asked := user.isSome && recFld v 0x8C 0 32 != 0
  let (w, s) := s.withGid v
  let r := s.ringq q
  let user' := if asked then user else none
  if !bitOf r.ctl 31 || r.size == 0 || (user.isSome && !bitOf r.ctl 30) then (0x80000002, none, s)
  else if r.size - 1 ≤ r.recs.length then (0x80000001, none, s)
  else if s.recRefused q w user' || (match user with
      | some c => (recOf w).sup || (recOf w).cid != c
      | none => false) then (0x80000003, none, s)
  else
    let s := s.homeWrite (cellsAt (r.base.toNat + 256 * r.tail) 256 w) [] []
    let (key, s) := s.accept q (recOf w) false
    let s := (s.capLog (recLog w)).modRingq q fun x => { x with tail := (x.tail + 1) % Nat.max 1 x.size }
    (BitVec.ofNat 32 (recOf w).gridid, some key, s)

/-- The context of a user-level issuer (spec/18 R388). -/
def State.userCid (s : State) (t : Tid) : Option Nat :=
  if (s.thread t).level = .user then some (s.block t.blk).ctx else none

/-- What LAUNCH checks of one lane and starts (spec/18 R390). -/
def State.launchCheck (s : State) (a b : Reg) (t : Tid) : Except Flt OpKind :=
  let blk := s.block t.blk
  let va := s.rd64 t a
  let q := (s.rd t b).toNat
  if va.toNat % 256 ≠ 0 then .error ⟨.misalign, va, 0⟩
  else if 15 < q then .error ⟨.access, 0, 0⟩
  else match s.gAccess blk.core blk (s.thread t).level va 256 .r false with
    | .error _ => .error ⟨.access, va, 0⟩
    | .ok pa => .ok (.launch pa q (b.plus 1))
/-- LAUNCH (spec/18 R390). -/
def execLaunch (h : Hdr) (a b : Reg) (k : Toks) (s : State) : Out State :=
  s.blockWord qSys 3 h k.ins (some k.tko) (some .cp) (s.launchCheck a b)

/-- The release of .PKG that a LAUNCH or TTASK begins with (spec/18 R390, spec/17 R362). -/
def State.launchRelease (s : State) (o : Op) : Option State :=
  if !s.canRun o then none
  else
    let s := s.release o.core .pkg
    some (s.modOp o.id fun p => { p with stage := 1, after := s.relWaits o.core .pkg })
/-- The record at a place, as the issuing core reads it (spec/10 R213). -/
def State.readRec (s : State) (o : Op) (pa : Nat) : Nat × State :=
  let (bs, _, s) := s.engGet o.core (.mem pa) 256
  (ofBytes bs, s)

/-- ENGINE_OPERATION_COMPLETE for LAUNCH (spec/18 R390). -/
def State.stepLaunch (s : State) (o : Op) (pa q : Nat) (b : Reg) : Option State :=
  if o.stage = 0 then s.launchRelease o
  else if !s.acked o.core o.after then none
  else
    let (v, s) := s.readRec o pa
    let (st, _, s) := s.enqueue q v (s.userCid o.low) 0
    some ((s.wr o.low b st).finish o.id)

/-- ENGINE_OPERATION_COMPLETE for TTASK (spec/17 R362): the lowest slot without an incomplete task; the queue is a free
choice (DESIGN CHOICE, log 21). -/
def State.stepTtask (s : State) (o : Op) (pa : Nat) (b : Reg) : Option State :=
  if o.stage = 0 then s.launchRelease o
  else if !s.acked o.core o.after then none
  else
    let blk := s.block o.blk
    let g := s.grid blk.grid
    match (List.range 64).find? fun k => (g.fences.getD k {}).task.isNone with
    | none => none
    | some k =>
      let gen := (g.fences.getD k {}).gen
      let gen := if gen = 2 ^ 26 - 1 then 1 else gen + 1
      let (v, s) := s.readRec o pa
      let (_, key, s) := s.enqueue (Config.pick s.free o.blk % 16) v (s.userCid o.low) blk.prio
      let slot : FenceSlot := { gen := gen, task := key, status := 1 }
      let s := s.useFree.modGrid blk.grid fun g => { g with fences := g.fences.put k slot }
      some ((s.wr o.low b (BitVec.ofNat 32 (gen * 64 + k))).finish o.id)

/-- QTAIL_WRITE: a host writes a tail index (spec/18 R389); a refused write gets an error completion. -/
def execQtailWrite (q : Fin 16) (v : Word) (s : State) : Out State :=
  match s.writeTail q.val v with
  | some s => .next s
  | none => .next { s with outs := s.outs ++ [.hostErr q.val] }

/-- GRIDNEXT as written (spec/18 R367): none where it would fault. -/
def State.writeGridnext (s : State) (v : Word) : Option State :=
  if v = 0 || bitOf v 31 then none else some { s with pkg := { s.pkg with gridnext := v } }
/-- GRIDNEXT_WRITE (spec/18 R367): a host's refused write gets an error completion. -/
def execGridnextWrite (v : Word) (s : State) : Out State :=
  match s.writeGridnext v with
  | some s => .next s
  | none => .next { s with outs := s.outs ++ [.hostErr 0] }

/-! ### Room on cores (spec/01 R22) -/

/-- What a block needs of a core. -/
structure Need where
  rows : Nat
  regs : Nat
  spad : Nat
  acc : Nat
  cid : Nat
  deriving DecidableEq, Repr

/-- The needs of a grid's blocks. -/
def LRec.need (r : LRec) : Need :=
  { rows := r.nrow, regs := r.nrow * allocOf r.regs, spad := r.spadb, acc := r.accb / 256, cid := r.cid }

/-- The rows of a block whose threads are not all released. -/
def Block.liveRows (b : Block) : List Nat :=
  (List.range b.nrow).filter fun r => b.threads.any fun p => p.1 / 64 == r && p.2.status != .released
/-- The rows of a block that still hold their slot at a clock: a slot is free from the clock after the release of its threads on
(spec/03 R86). -/
def Block.heldRows (now : Nat) (b : Block) : List Nat :=
  (List.range b.nrow).filter fun r => b.threads.any fun p => p.1 / 64 == r && (p.2.status != .released || decide (now < p.2.freed))
/-- The blocks on a core, one that has just completed among them while it holds a slot. -/
def State.residents (s : State) (c : Nat) : List Block :=
  (s.blocks.filter fun p => p.2.core == c && (p.2.onCore
    || (p.2.bstate == .completed && p.2.threads.any fun q => decide (s.now c < q.2.freed)))).map (·.2)
/-- The slots in use on a core. -/
def State.usedSlots (s : State) (c : Nat) : List Nat :=
  (s.residents c).flatMap fun b => (b.heldRows (s.now c)).map fun r => (b.slots[r]?).getD r
/-- The lowest place for n scratchpad bytes beside windows in use. -/
def freeBase (used : List (Nat × Nat)) (n : Nat) : Option Nat :=
  if n = 0 then some 0
  else
    let ok (x : Nat) : Bool := decide (x + n ≤ Config.spadBytes)
      && used.all fun w => decide (x + n ≤ w.1) || decide (w.1 + w.2 ≤ x)
    match (0 :: used.map fun w => w.1 + w.2).filter ok with
    | [] => none
    | x :: t => some (minD x (x :: t))

/-- May one more such block start on a core, beside the blocks planned there (core and base)? Its scratchpad base. Flagged
cores take none (spec/16 R341). -/
def State.fits (s : State) (extra : List (Nat × Nat)) (n : Need) (c : Nat) : Option Nat :=
  let rs := s.residents c
  let ex := extra.filter (·.1 == c)
  let k := ex.length + 1
  let rows := rs.foldl (fun a b => a + (b.heldRows (s.now c)).length) 0
  let regs := rs.foldl (fun a b => a + (b.heldRows (s.now c)).length * allocOf b.regs) 0
  let acc := rs.foldl (fun a b => a + b.accLines) 0
  let wins := (rs.filter (fun b => b.spadSize != 0)).map (fun b => (b.spadBase, b.spadSize)) ++ ex.map fun p => (p.2, n.spad)
  if Config.computeCores ≤ c || (s.core c).flagged || rs.any (fun b => b.cid != n.cid) || decide (16 < rows + k * n.rows)
      || decide (2048 < regs + k * n.regs) || decide (2 ^ 15 < acc + k * n.acc) then none
  else freeBase wins n.spad

/-- Plan k more blocks one by one on the first cores that take them (spec/01 R22, R28). -/
def State.planBlocks (s : State) (n : Need) (ok : Nat → Bool) : Nat → List (Nat × Nat) → Option (List (Nat × Nat))
  | 0, ex => some ex
  | k + 1, ex =>
    match (List.range Config.computeCores).findSome? fun c => if ok c then (s.fits ex n c).map fun b => (c, b) else none with
    | some p => s.planBlocks n ok k (ex ++ [p])
    | none => none
/-- The four places of a quad group on a quad, block i at QPOS i (spec/01 R23). -/
def State.fitsQuad (s : State) (n : Need) (ok : Nat → Bool) (ex : List (Nat × Nat)) (q : Nat) : Option (List (Nat × Nat)) :=
  let l := (List.range 4).filterMap fun i => if ok (4 * q + i) then (s.fits ex n (4 * q + i)).map fun b => (4 * q + i, b) else none
  if l.length = 4 then some l else none
/-- Plan k more quad groups. -/
def State.planQuads (s : State) (n : Need) (ok : Nat → Bool) : Nat → List (Nat × Nat) → Option (List (Nat × Nat))
  | 0, ex => some ex
  | k + 1, ex => match (List.range 80).findSome? (s.fitsQuad n ok ex) with
    | some l => s.planQuads n ok k (ex ++ l)
    | none => none
/-- Plan m blocks, as quad groups or one by one. -/
def State.planPart (s : State) (n : Need) (qg : Bool) (ok : Nat → Bool) (m : Nat) (ex : List (Nat × Nat)) :
    Option (List (Nat × Nat)) := if qg then s.planQuads n ok (m / 4) ex else s.planBlocks n ok m ex
/-- Plan k die groups of size d, each on one die (spec/01 R24). -/
def State.planDies (s : State) (n : Need) (qg : Bool) (ok : Nat → Bool) (d : Nat) :
    Nat → List (Nat × Nat) → Option (List (Nat × Nat))
  | 0, ex => some ex
  | k + 1, ex => match (List.range 8).findSome? fun x => s.planPart n qg (fun c => ok c && dieOf c == x) d ex with
    | some ex => s.planDies n qg ok d k ex
    | none => none
/-- A placement of m blocks of a record on cores that a condition admits, none where there is no room (spec/01 R22 to
R24). -/
def State.plan (s : State) (r : LRec) (ok : Nat → Bool) (m : Nat) : Option (List (Nat × Nat)) :=
  if r.dgn = 0 then s.planPart r.need r.qg ok m [] else s.planDies r.need r.qg ok r.dgn (m / r.dgn) []

/-- Is a chosen placement one: every core has room, quad groups on the four levels of one quad, die groups on one die
(spec/01 R22 to R24)? The bases. -/
def State.placeOn (s : State) (r : LRec) (ok : Nat → Bool) (cores : List Nat) : Option (List (Nat × Nat)) :=
  let quads := cores.zipIdx.all fun (p : Nat × Nat) => !r.qg || (p.1 % 4 == p.2 % 4
    && quadOf p.1 == quadOf (cores.getD (p.2 / 4 * 4) 0))
  let dies := cores.zipIdx.all fun (p : Nat × Nat) => r.dgn == 0 || dieOf p.1 == dieOf (cores.getD (p.2 / r.dgn * r.dgn) 0)
  if !quads || !dies || cores.any (fun c => !ok c) then none
  else cores.foldl (fun (a : Option (List (Nat × Nat))) c => a.bind fun ex => (s.fits ex r.need c).map fun b => ex ++ [(c, b)])
    (some [])

/-- Must the blocks of a launch be placed together (spec/01 R24, spec/18 R388)? -/
def LRec.whole (r : LRec) : Bool := r.cores || r.gfx
/-- Blocks of the next unit to place. -/
def Grid.unitSize (g : Grid) : Nat :=
  if g.lrec.whole then g.lrec.nblk else if g.lrec.dgn ≠ 0 then g.lrec.dgn else if g.lrec.qg then 4 else 1
/-- Does a partition mask name the partition of a die (spec/01 R26)? -/
def State.inPart (s : State) (mask d : Nat) : Bool := if (s.die d).partT then 2 ≤ mask else mask % 2 == 1

/-! ### The work distributors (spec/01 R28, spec/18 R389) -/

/-- Is a record of a queue still to be placed? -/
def Grid.unplaced (g : Grid) : Bool := !g.complete && !g.refuse && decide (g.nextBlk < g.lrec.nblk)
/-- May a die's distributor pull a record (spec/18 R389): its dependences complete, its mask and its queue, which is enabled, name the
die's partition (DEDUCED, log 21)? Room plays no part in the order of selection. -/
def State.pullable (s : State) (d : Nat) (g : Grid) : Bool :=
  g.unplaced && g.deps.all (fun k => (s.grid k).complete) && s.inPart g.lrec.part d
    && s.inPart (fld (s.ringq g.queue).ctl 28 2) d && bitOf (s.ringq g.queue).ctl 31 && fld (s.ringq g.queue).ctl 0 16 != 0

/-- Saved units that wait for a distributor, by their lowest block (spec/18 R389). -/
def State.waitingUnits (s : State) : List (Nat × Block) :=
  (s.pkg.saved.filter fun v => v.auto && !v.mig && v.unit.head? == some v.blk).map fun v => (v.blk, s.block v.blk)
/-- May a die's distributor pull a saved unit? -/
def State.restorable (s : State) (d : Nat) (b : Block) : Bool :=
  (b.part == 1) == (s.die d).partT

/-- The place of a candidate in the order of selection: PRIO, then acceptance, saved units before unplaced blocks (spec/18
R389). -/
def Grid.rank (g : Grid) (saved : Bool) : Nat := ((7 - g.lrec.prio) * 2 ^ 64 + g.order) * 2 + (if saved then 0 else 1)
/-- The candidates of a die: rank, grid, saved unit. -/
def State.candidates (s : State) (d : Nat) : List (Nat × Nat × Option Nat) :=
  ((s.waitingUnits.filter fun p => s.restorable d p.2).map fun p => ((s.grid p.2.grid).rank true, p.2.grid, some p.1))
    ++ (s.grids.filter fun p => s.pullable d p.2).map fun p => (p.2.rank false, p.1, none)

/-- RECORD_PULL: a distributor takes the first candidate, a record of queue q or a unit of a grid that came through it
(spec/18 R389). -/
def execRecordPull (die : Nat) (q : Fin 16) (s : State) : Out State :=
  let l := s.candidates die
  ofStep "RECORD_PULL" ((l.find? fun p => l.all fun r => decide (p.1 ≤ r.1)).bind fun p =>
    if die < 8 ∧ (s.grid p.2.1).queue = q.val ∧ s.pkg.suspended = false then some (s.modDie die fun d => { d with job := some (p.2.1, p.2.2) }) else none)

/-- A core passes to a context (spec/01 R28, spec/15 R329): from another one, its scratchpad, tags, accumulation store and
semaphores are zeroed. -/
def State.enterCtx (s : State) (c cid : Nat) : State :=
  if (s.core c).cid = cid then s
  else s.modCore c fun k => { k with cid := cid, spad := [], tags := [], spoison := [], acc := [], sems := [] }

/-- Write a mailbox now: it wakes SLEEP.MB (spec/04 R100). -/
def State.writeMb (s : State) (c k : Nat) (v : Word) : State :=
  s.modCore c fun x => { x.land with mb := x.land.mb.put k v, mbAt := some x.clk }

/-- The lowest free slots of a core for n rows. -/
def State.freeSlots (s : State) (c n : Nat) : List Nat :=
  ((List.range 16).filter fun k => !(s.usedSlots c).contains k).take n

/-- BLOCK START (spec/01 R28, R21; spec/18 R365): everything of the block zero, its identity, its slots, its window, the
current format slots; mailboxes written. A block killed before its placement starts with its threads killed (R372). -/
def State.startBlock (s : State) (key blkid c base : Nat) : State :=
  let g := s.grid key
  let r := g.lrec
  let th : Thread := { pc := r.entry, level := r.level, start := s.now c, owed := s.now c, iseen := s.mem.ver,
                       status := if g.killedBlks.contains blkid then .killed else .live }
  let b : Block := {
    core := c, grid := key, blkid := blkid, nrow := r.nrow, slots := s.freeSlots c r.nrow, regs := r.regs
    spadBase := base, spadSize := r.spadb, accLines := r.accb / 256
    part := if (s.die (dieOf c)).partT then 1 else 0, prio := r.prio
    qgid := if r.qg then some (blkid / 4) else none
    dgid := if r.dgn ≠ 0 then some (blkid / r.dgn) else none
    dgpos := if r.dgn ≠ 0 then blkid % r.dgn else 0
    cid := r.cid, fs := g.fs, threads := (List.range (64 * r.nrow)).map fun i => (i, th) }
  let s := s.enterCtx c r.cid
  let s := { s with blocks := s.blocks.put (handle key blkid) b }
  (List.range 16).foldl (fun (s : State) k => 
    let v := r.mbs.getD k 0
    if r.mbmask.getLsbD k then (s.capLog (s.mbEntry (handle key blkid) k v)).writeMb c k v else s) s

/-- A record is finished (spec/18 R389). -/
def State.finishRec (s : State) (key : Nat) : State :=
  let mark (p : Nat × Bool) : Nat × Bool := if p.1 = key then (p.1, true) else p
  s.modRingq (s.grid key).queue fun q => ({ q with recs := q.recs.map mark }).advance

/-- BLOCK_PLACEMENT (spec/01 R22 to R28): the next unit of a pulled record starts on the given cores, one for each block in
ascending BLKID; a launch that must be placed whole and has no room is refused (with no cores given). -/
def execBlockPlacement (grid : Nat) (cores : List Nat) (s : State) : Out State :=
  let g := s.grid grid
  let r := g.lrec
  let mine (d : Nat) : Bool := (s.die d).job == some (grid, none)
  let ok (c : Nat) : Bool := s.inPart r.part (dieOf c) && (r.whole || (mine (dieOf c) && dieOf c == dieOf (cores.headD 0)))
  let free (s : State) : State := (List.range 8).foldl (fun (s : State) d =>
    if mine d then s.modDie d fun x => { x with job := none } else s) s
  let plan := s.plan r ok g.unitSize
  let run : Option State :=
    if !g.unplaced || !(List.range 8).any mine || s.pkg.suspended then none
    else if cores.isEmpty then
      if r.whole && plan.isNone then some (((free s).modGrid grid fun g => { g with refuse := true }).finishRec grid) else none
    else if cores.length ≠ g.unitSize || (s.capturing && plan.map (fun l => l.map (·.1)) != some cores) then none
    else (s.placeOn r ok cores).map fun l =>
      let s := (l.zipIdx).foldl (fun (s : State) (p : (Nat × Nat) × Nat) =>
        s.startBlock grid (g.nextBlk + p.2) p.1.1 p.1.2) (free s)
      let s := s.modGrid grid fun g => { g with nextBlk := g.nextBlk + cores.length, status := .running }
      if r.nblk ≤ g.nextBlk + cores.length then s.finishRec grid else s
  ofStep "BLOCK_PLACEMENT" run

/-! ### Ends (spec/03 R86, spec/18 R389) -/

/-- THREAD_RELEASE (spec/03 R86). -/
def execThreadRelease (t : Tid) (s : State) : Out State :=
  let th := s.thread t
  s.whenDo ((th.status == .exited || th.status == .killed) && th.ld == 0 && th.st == 0 && th.cp == 0 && th.mt == 0
      && !s.ops.any (fun o => o.tids.contains t)) "THREAD_RELEASE" fun s =>
    s.modThread t fun th => { th with status := .released, pend := [], freed := s.now (s.block t.blk).core + 1 }

/-- BLOCK_COMPLETE (spec/03 R86): its accumulation copies are written back and dropped (spec/14 R296), its latches (spec/13
R281), quad records (R288) and postings (spec/12 R261) go, and its core's writes are released at .SYS (spec/18 R389). -/
def execBlockComplete (blk : Nat) (s : State) : Out State :=
  let b := s.block blk
  let all := b.threads.all fun p => p.2.status == .released
  s.whenDo ((s.block? blk).isSome && !isSvc b.core && b.bstate != .completed && b.bstate != .preempting && all
      && !s.ops.any fun o => o.blk == blk) "BLOCK_COMPLETE" fun s =>
    let held := b.onCore
    let s := if held then (s.accLeave b.core blk).release b.core .sys else s
    let waits := if held then (s.relWaits b.core .sys).map fun i => (b.core, i) else []
    let s := s.dropRecs (·.blk == blk)
    let s := { s with
      fabric := { s.fabric with posts := s.fabric.posts.filter (·.blk != blk) }
      pkg := { s.pkg with saved := s.pkg.saved.filter fun v => !(v.blk == blk && v.auto) } }
    (s.modBlock blk fun b => { b with bstate := .completed, latches := [], ring := none, held := [] }).modGrid b.grid
      fun g => { g with doneBlks := insNat b.blkid g.doneBlks, rel := g.rel ++ waits }

/-- The status a grid completes with, and its number (spec/18 R373, R389). -/
def Grid.final (g : Grid) : GStatus :=
  if g.refuse then .refused else if g.killed then .killed else if g.faulted then .faulted else .done
/-- The number of a completion status (spec/18 R389). -/
def GStatus.num : GStatus → Nat
  | .refused => 1 | .faulted => 2 | .killed => 3 | _ => 0

/-- Tasks of a grid end (spec/17 R362): their slots hold their status, and the TFENCEs that wait keep it. -/
def State.endTasks (s : State) (key st : Nat) : State :=
  s.grids.foldl (fun (s : State) p =>
    p.2.fences.foldl (fun (s : State) f =>
      if f.2.task ≠ some key then s
      else
        let s := s.modGrid p.1 fun g => { g with fences := g.fences.put f.1 { f.2 with task := none, status := st } }
        { s with ops := s.ops.map fun o => match o.kind with
            | .tfence _ slot gen false _ =>
              if (s.block o.blk).grid = p.1 ∧ slot = f.1 ∧ gen = f.2.gen then { o with stage := st + 1 } else o
            | _ => o }) s) s

/-- GRID_COMPLETE (spec/18 R389): status, tasks, and the completion word as one write behind every write of the grid. -/
def execGridComplete (grid : Nat) (s : State) : Out State :=
  let g := s.grid grid
  let r := g.lrec
  let ready := g.refuse || (r.nblk ≤ g.nextBlk && r.nblk ≤ g.doneBlks.length && g.rel.all fun p => s.acked p.1 [p.2])
  s.whenDo ((s.grids.find grid).isSome && !g.complete && ready) "GRID_COMPLETE" fun s =>
    let fs := g.final
    let s := s.modGrid grid fun g => { g with status := fs }
    let s := s.endTasks grid (Nat.min 2 (GStatus.num fs))
    if r.doneva = 0 then s
    else match s.sysAccess r.cid r.level r.doneva 8 .w with
      | some pa => s.homeWrite (cellsAt pa 8 (GStatus.num fs + r.doneval.toNat * 2 ^ 32)) [] []
      | none => s

/-- HOST_MAILBOX_WRITE: a write of a mailbox by a host through the fabric, or by service firmware (spec/04 R100): an input (spec/18
R394). -/
def execHostMailboxWrite (core : Nat) (k : Fin 16) (v : Word) (s : State) : Out State :=
  ofStep "HOST_MAILBOX_WRITE" (if core < Config.computeCores then
    let blk := ((s.blocks.find? fun p => p.2.core == core && p.2.onCore).map (·.1)).getD 0
    (s.input (s.mbEntry blk k.val v)).map fun s => s.writeMb core k.val v else none)

end Sys2Proof.Machine
end

