-- ==== Sys2Proof/Machine/Preempt.lean ====
section
/-!
DEFINITION. Machine/Preempt.lean: commands on a block (spec/18 R372), pre-emption (R381, R382), saved images (R383),
restore (R384) and migration (R385), CTXSAVE and CTXLOAD (R386).
-/

namespace Sys2Proof.Machine

/-! ### Waiting words and killed threads -/

/-- The operation of a thread's waiting word is abandoned with its wait (spec/18 R382): the word is at its fault point
again. A barrier wait stays. -/
def State.quitWait (s : State) (t : Tid) : State := match (s.thread t).waitOp.bind s.op? with
  | none => s
  | some o => match o.kind with
    | .semacq _ k _ _ => (s.modSem o.core k fun m => { m with queue := m.queue.filter (· != o.id) }).abandon o
    | .ldsf .. | .stse .. | .ptake .. | .winacq .. | .tfence .. => s.abandon o
    | _ => s

/-- Kill threads of a block (spec/18 R372): exited for convergence; killed members of their barriers, the block too when it
has no live thread left or a KILLB acts on it. -/
def State.killThreads (s : State) (b : Nat) (ts : List Nat) (all : Bool) : State :=
  let tids := (ts.filter fun i => (s.thread ⟨b, i⟩).status == .live).map fun i => (⟨b, i⟩ : Tid)
  let s := tids.foldl State.quitWait s
  let s := tids.foldl State.dropLate ((s.openAll b).modThreads tids (Thread.leave .killed))
  let s := (s.leaveCvs b).settleBars b
  s.barKills b (all || (s.liveThreads b).isEmpty)

/-! ### Commands on the selected block (spec/18 R372) -/

/-- The block BSEL selects: the key of its grid, and its index. -/
def State.selected (s : State) : Option (Nat × Nat) :=
  (s.gridOf (fld s.pkg.bsel 0 32)).bind fun k =>
    if fld s.pkg.bsel 32 32 < (s.grid k).lrec.nblk then some (k, fld s.pkg.bsel 32 32) else none
/-- BCTL.STATE of a block (spec/18 R372). -/
def State.blockState (s : State) (g b : Nat) : Nat := match (s.block? (handle g b)).map (·.bstate) with
  | some BState.pending => 1 | some BState.resident => 2 | some BState.preempting => 3 | some BState.saved => 4
  | some BState.completed => 5
  | none => if (s.grid g).refuse then 0 else 1

/-- The head record of a block is removed (spec/18 R372). -/
def State.popRec (s : State) (b : Nat) : State := s.modBlock b fun k => { k with faultq := k.faultq.drop 1 }
/-- The threads suspended on a record. -/
def State.suspended (s : State) (b : Nat) (r : FRec) : List Nat :=
  ((s.block b).threads.filter fun p => p.2.susp == some r.id).map (·.1)
/-- Is the page an operation waits for present by now? -/
def State.pageNow (s : State) (o : Op) : Bool :=
  let b := s.block o.blk
  match s.translate b.core b.ctx (va57 (BitVec.ofNat 64 o.prog)) with
  | .error true => false
  | _ => true
/-- An engine that waits for a page tries it again at once (spec/12 R421): it goes on, or asks again, its wait still the same one; not
once its limit has run out. -/
def State.retryPage (s : State) (r : FRec) : State := match r.op with
  | none => s
  | some i => s.modOp i fun o =>
    if o.page ≠ some r.id then o
    else if o.pageAt + o.lim ≤ s.now o.core then { o with page := none }
    else if s.pageNow o then { o with stage := 0, page := none } else { o with stage := 1, page := none }

/-- The suspended threads of a record go on: RESUME. -/
def Thread.resume (th : Thread) : Thread := { th with susp := none, since := none }
/-- SKIP: where the faulting word is still the oldest unissued one, it counts as issued (spec/18 R372). -/
def Thread.skipWord (pc : DWord) (now : Nat) (th : Thread) : Thread :=
  let th := th.resume
  let q := match th.win.head? with
    | some { word := some w, .. } => wordClass w.toNat
    | _ => 16
  if th.pc = pc then Thread.retire pc q now 0 th else th

/-- RESUME, SKIP, KILLT and POP on the head record of a resident block (spec/18 R372, spec/12 R421); none sets ERR. -/
def State.headCmd (s : State) (b cmd : Nat) : Option State :=
  match (s.block b).faultq.head? with
  | none => none
  | some r =>
    let ts := s.suspended b r
    let tids := ts.map fun i => (⟨b, i⟩ : Tid)
    match cmd with
    | 1 => if r.susp then some ((s.popRec b).modThreads tids Thread.resume)
        else if r.op.isSome then some ((s.popRec b).retryPage r) else none
    | 2 => if r.susp then
        some ((s.popRec b).modThreads tids fun th =>
          if r.code = FCode.poison.num ∨ r.code = FCode.barBroken.num then th.resume else Thread.skipWord r.pc (s.now (s.block b).core) th) else none
    | 3 => if r.susp then
        some (((s.popRec b).killThreads b ts false).modGrid (s.block b).grid fun g => { g with faulted := true }) else none
    | _ => if r.imp then some ((s.popRec b).retryPage r) else none

/-- KILLB (spec/18 R372): every thread of the block is killed, its records removed; its grid will be KILLED (R373). A block
not yet placed starts with its threads killed. -/
def State.killBlock (s : State) (g b : Nat) : State :=
  let hd := handle g b
  let s := s.modGrid g fun x => { x with killed := true, killedBlks := insNat b x.killedBlks }
  if (s.block? hd).isNone then (s.gridBars g b).foldl (fun s x => (s.openNow x).barKill x) s
  else (s.modBlock hd fun k => { k with faultq := [], lostMark := false, held := [] }).killThreads hd
    ((s.block hd).threads.map (·.1)) true

/-! ### Units and images (spec/18 R381 to R383) -/

/-- The unit of a block (spec/18 R381): the largest placement unit that holds it; its blocks that have not completed, in
ascending BLKID. -/
def State.unitOf (s : State) (hd : Nat) : List Nat :=
  let b := s.block hd
  let r := (s.grid b.grid).lrec
  let ids := if r.cores then List.range r.nblk
    else match b.dgid, b.qgid with
      | some d, _ => (List.range r.dgn).map (r.dgn * d + ·)
      | none, some q => (List.range 4).map (4 * q + ·)
      | none, none => [b.blkid]
  (ids.map (handle b.grid)).filter fun h => match s.block? h with
    | some k => k.bstate != .completed
    | none => false
/-- Unit kind (spec/18 R383). -/
def State.unitKind (s : State) (b : Block) : Nat :=
  if (s.grid b.grid).lrec.cores then 3 else if b.dgid.isSome then 2 else if b.qgid.isSome then 1 else 0

/-- IMGSZ (spec/18 R383). -/
def Block.imgSize (b : Block) : Nat :=
  (8192 + b.nrow * 64 * (4 * b.regs + 128) + b.spadSize + b.spadSize / 32 + 4095) / 4096 * 4096

/-- The places of an image, translated for an access; none where a page does not allow it (spec/18 R382). -/
def State.imagePages (s : State) (cid : Nat) (lv : Level) (va : DWord) (size : Nat) (p : Perm) : Option (List (Nat × Nat)) :=
  let parts := pageParts (va57 va) size
  let l := parts.map fun q => s.sysAccess cid lv (va + BitVec.ofNat 64 (q.1 - va57 va)) q.2 p
  if !form57 va || !form57 (va + BitVec.ofNat 64 (size - 1)) || l.any (·.isNone) then none
  else some ((l.map fun q => q.getD 0).zip (parts.map (·.2)))
/-- The byte of an image at an offset, by its places. -/
def imageAddr : List (Nat × Nat) → Nat → Option Nat
  | [], _ => none
  | (pa, n) :: t, i => if i < n then some (pa + i) else imageAddr t (i - n)

/-- The header of an image (spec/18 R383). -/
def State.imageHead (s : State) (b : Block) : List Word :=
  [BitVec.ofNat 32 (s.grid b.grid).lrec.gridid, BitVec.ofNat 32 b.blkid, BitVec.ofNat 32 b.imgSize,
   BitVec.ofNat 32 (s.unitKind b * 2 ^ 24 + (if b.qgid.isSome then qposOf b.core else 0)), BitVec.ofNat 32 b.cid, 1]
/-- The bytes of an image: its header, reserved zeros, and a body whose layout is the implementation's (DESIGN CHOICE, log 10). -/
def State.imageBytes (s : State) (b : Block) (free : Nat) : List Byte :=
  let head := ((s.imageHead b).flatMap fun w => bytesOf 4 w.toNat) ++ List.replicate (256 - 24) 0
  head ++ (List.range (b.imgSize - 256)).map fun i => Config.imageByte free (256 + i)
/-- Write bytes over the places of an image, at their homes (spec/18 R386). -/
def State.putImage (s : State) (pages : List (Nat × Nat)) (bs : List Byte) : State :=
  (pages.foldl (fun (r : State × List Byte) p =>
    (r.1.homeWrite (((r.2.take p.2).zipIdx).map fun x => (p.1 + x.2, x.1)) [] [], r.2.drop p.2)) (s, bs)).1

/-- The images of a unit in its grid's save area (spec/18 R382, R383); none where there is none or a page does not allow
it. -/
def State.saveAreas (s : State) (unit : List Nat) : Option (List (List (Nat × Nat))) :=
  let l := unit.map fun h =>
    let b := s.block h
    let r := (s.grid b.grid).lrec
    if r.save = 0 then none
    else s.imagePages r.cid r.level (r.save + BitVec.ofNat 64 (b.blkid * b.imgSize)) b.imgSize .w
  if l.any (·.isNone) then none else some (l.map fun p => p.getD [])
/-- The images of a unit from an address on, in a context (spec/18 R386). -/
def State.imagesAt (s : State) (cid : Nat) (lv : Level) (va : DWord) (unit : List Nat) : Option (List (List (Nat × Nat))) :=
  let l := unit.zipIdx.map fun (h : Nat × Nat) =>
    let n := (s.block h.1).imgSize
    s.imagePages cid lv (va + BitVec.ofNat 64 (h.2 * n)) n .w
  if l.any (·.isNone) then none else some (l.map fun p => p.getD [])

/-! ### Stop, drain, save (spec/18 R382) -/

/-- Stop: no thread of the unit issues further, and its waiting words are abandoned; its arrivals at gathers end. -/
def State.stopUnit (s : State) (unit : List Nat) : State :=
  let s := unit.foldl (fun (s : State) h =>
    let ts := (s.block h).threads.map fun p => (⟨h, p.1⟩ : Tid)
    let s := ts.foldl State.quitWait s
    let s := s.modThreads ts fun th => { th with since := none, rejected := none, tkSnap := th.tkSnap.filter (·.1 == 1), aged := none, urgent := false }
    s.modCore (s.block h).core fun k => { k with gathers := k.gathers.filter fun g => g.blk != h }) s
  let mark (p : Preempt) : Preempt := if p.unit = unit then { p with phase := 1 } else p
  { s with pkg := { s.pkg with preempts := s.pkg.preempts.map mark } }

/-- A pre-emption of a resident unit begins (spec/18 R382); migration skips the deferral (R385). -/
def State.beginPreempt (s : State) (unit : List Nat) (imgs : List (List (Nat × Nat))) (op : Option Nat)
    (keep migrate : Bool) : State :=
  let c := (s.block (unit.headD 0)).core
  let p : Preempt := { unit := unit, since := s.now c, core := c, imgs := imgs, op := op, keep := keep, migrate := migrate }
  let s := unit.foldl (fun (s : State) h => s.modBlock h fun b => { b with bstate := .preempting }) s
  let s := { s with pkg := { s.pkg with preempts := s.pkg.preempts ++ [p] } }
  if migrate then s.stopUnit unit else s

/-- Pre-empt a block's unit into its save area (spec/18 R372, R381, R385); none where the request is refused. -/
def State.preemptBlock (s : State) (hd : Nat) (migrate : Bool) : Option State :=
  let unit := s.unitOf hd
  if unit.isEmpty || unit.any (fun h => (s.block h).bstate != .resident) then none
  else (s.saveAreas unit).map fun imgs => s.beginPreempt unit imgs none false migrate

/-- The barriers of a unit's blocks, at every level (spec/11 R232). -/
def State.unitBars (s : State) (unit : List Nat) : List Bar :=
  unit.flatMap fun h =>
    let b := s.block h
    let g := s.grid b.grid
    b.bars.map (·.2) ++ (match b.qgid with | some q => (g.qgroups.getD q {}).bars.map (·.2) | none => [])
      ++ (match b.dgid with | some _ => g.dbars.map (·.2) | none => []) ++ g.bars.map (·.2)
/-- Does a barrier hold an arrival of the unit in a phase that has not opened (spec/18 R382)? -/
def State.partArrived (s : State) (unit : List Nat) : Bool :=
  (s.unitBars unit).any fun r => r.part.any fun t => unit.contains t.blk

/-- A TTASK that waits for a fence slot: pre-emption abandons it and it is issued again after the restore (spec/17 R364). -/
def State.slotWait (s : State) (o : Op) : Bool :=
  match o.kind with
  | .ttask .. => o.stage == 1 && s.acked o.core o.after
      && (List.range 64).all fun k => ((s.grid (s.block o.blk).grid).fences.getD k {}).task.isSome
  | _ => false
/-- The operation of a block that goes to another core: a TTASK that waited for a slot begins again (spec/17 R364). -/
def Op.moved (c : Nat) (o : Op) : Op :=
  match o.kind with
  | .ttask .. => { o with core := c, stage := 0, after := [] }
  | _ => { o with core := c }

/-- Operations that a drain does not wait for: barrier waits, arrivals that wait for their phase to open, epochs not full, a CTX word, an inbound transfer, a TTASK that waits for a
slot, and what waits for them by tokens; never a matrix request whose epoch is full (spec/13 R291, spec/17 R364, spec/18 R382). -/
def State.stuckOps (s : State) : List Nat :=
  s.ops.foldl (fun (a : List Nat) o =>
    let own : Bool := match o.kind with
      | .barWait .. | .ctxsave .. | .ctxload .. | .inbound .. => true
      | .barArr t b .. => (s.bar b).part.contains t
      | .epoch n => (s.cv o.blk n).tokOp == some o.id
      | .mtx r => r.full.isNone
      | .ttask .. => s.slotWait o
      | _ => false
    let full : Bool := match o.kind with
      | .mtx r => r.full.isSome
      | _ => false
    if !full && (own || o.after.any a.contains) then a ++ [o.id] else a) []
/-- Has a unit drained (spec/18 R382): its operations have ended and its writes in flight have landed? -/
def State.drained (s : State) (unit : List Nat) : Bool :=
  let stuck := s.stuckOps
  s.ops.all (fun o => !unit.contains o.blk || stuck.contains o.id)
    && unit.all fun h => let b := s.block h
        b.gpend.isEmpty && b.cvpend.isEmpty && b.mrel.isEmpty && b.spw.isEmpty && b.threads.all fun p =>
          p.2.pend.isEmpty && p.2.later.isEmpty && (p.2.fenceIds.isNone || p.2.status != .live || p.2.susp.isSome)

/-- A thread's position: its window reduced to the marks of the skip mask (spec/02 R55). -/
def Thread.stand (th : Thread) : Thread := { th with win := winOfMask th.skipMask, lbuf := [] }

/-- The saved state of a block (spec/18 R383): window and tags by offset; the semaphores where no other block of the grid
remains on the core. -/
def State.savedOf (s : State) (p : Preempt) (h : Nat) (pages : List (Nat × Nat)) : Saved :=
  let b := s.block h
  let k := s.core b.core
  let g := s.grid b.grid
  let lo := b.spadBase
  let n := b.spadSize
  let stand (q : Nat × Thread) : Nat × Thread := (q.1, q.2.stand)
  let alone := !s.blocks.any fun q => q.2.core == b.core && q.2.onCore && q.2.grid == b.grid && !p.unit.contains q.1
  { blk := h, unit := p.unit, pages := pages, size := b.imgSize, free := s.free
    body := { b with threads := b.threads.map stand }
    ops := s.ops.filter fun o => o.blk == h
    qg := b.qgid.map fun q => g.qgroups.getD q {}
    dbars := match b.dgid with
      | some d => g.dbars.filter fun x => x.1 / 4 == d
      | none => []
    gbars := g.bars
    spad := (k.spad.filter fun x => inRange lo n x.1).map fun x => (x.1 - lo, x.2)
    tags := (k.tags.filter fun w => inRange lo n (4 * w)).map fun w => w - lo / 4
    spoison := (k.spoison.filter fun x => inRange lo n (64 * x)).map fun x => x - lo / 64
    sems := if alone then some k.sems else none
    auto := p.op.isNone, mig := p.migrate, cores := p.unit.map fun h => (s.block h).core }

/-- Flush, Save and Free for one member (spec/18 R382, spec/14 R296, spec/12 R261); a checkpoint stays in place and goes on
(R386). -/
def State.saveMember (s : State) (p : Preempt) (h : Nat) (pages : List (Nat × Nat)) : State :=
  let b := s.block h
  let s := s.accLeave b.core h
  let v := s.savedOf p h pages
  let bytes := s.imageBytes b s.free
  let s := s.useFree.putImage pages bytes
  let on_ (q : Nat × Thread) : Nat × Thread := (q.1, (q.2.stand).restart (s.now b.core))
  let s := { s with
    pkg := { s.pkg with saved := s.pkg.saved ++ [v] }
    fabric := { s.fabric with posts := s.fabric.posts.filter (·.blk != h) } }
  if p.keep then s.modBlock h fun b => { b with bstate := .resident, threads := b.threads.map on_ }
  else s.modBlock h fun b => { b with bstate := .saved, held := [], threads := v.body.threads }

/-- PREEMPT_DEFER_END (spec/18 R382). -/
def execPreemptDeferEnd (blk : Nat) (s : State) : Out State :=
  ofStep "PREEMPT_DEFER_END" ((s.pkg.preempts.find? fun p => p.unit.contains blk && p.phase == 0).bind fun p =>
    if s.partArrived p.unit then none else some (s.stopUnit p.unit))
/-- PRELIM_EXPIRY: the save is forced (spec/18 R382). -/
def execPrelimExpiry (blk : Nat) (s : State) : Out State :=
  ofStep "PRELIM_EXPIRY" ((s.pkg.preempts.find? fun p => p.unit.contains blk && p.phase == 0).bind fun p =>
    if p.since + (s.core p.core).prelim.toNat ≤ s.now p.core then some (s.stopUnit p.unit) else none)
/-- PREEMPT_DRAIN_COMPLETE: Flush, Save, Free (spec/18 R382). -/
def execPreemptDrainComplete (blk : Nat) (s : State) : Out State :=
  ofStep "PREEMPT_DRAIN_COMPLETE" ((s.pkg.preempts.find? fun p => p.unit.contains blk && p.phase == 1).bind fun p =>
    let s := s.landAll
    if !s.drained p.unit then none
    else
      let s := (p.unit.zip p.imgs).foldl (fun (s : State) x => s.saveMember p x.1 x.2) s
      let s := { s with pkg := { s.pkg with preempts := s.pkg.preempts.filter fun q => q.unit != p.unit } }
      some (match p.op with
        | some i => s.modOp i fun o => { o with stage := 2, prog := 0 }
        | none => s))

/-- DISTRIBUTOR_PREEMPT (spec/18 R381): to place a record of higher priority, or in class 2 one of equal priority that has
waited 10^7 clocks. -/
def execDistributorPreempt (blk : Nat) (s : State) : Out State :=
  let b := s.block blk
  let r := (s.grid b.grid).lrec
  let d := dieOf b.core
  let wanted := s.grids.any fun p => s.pullable d p.2
    && ((1 ≤ r.pcls && decide (r.prio < p.2.lrec.prio))
      || (r.pcls == 2 && r.prio == p.2.lrec.prio && decide (p.2.since.getD d 0 + 10000000 ≤ (s.die d).clk)))
  ofStep "DISTRIBUTOR_PREEMPT" (if (s.block? blk).isSome && !isSvc b.core && wanted && !s.pkg.suspended then s.preemptBlock blk false else none)

/-! ### Restore (spec/18 R384, R385) -/

/-- Put a block back on a core (spec/18 R384): its window, the grid's current format slots, its threads at their positions
with every queue restarted, its waiting operations; the saved semaphores where the core holds no other block of the grid. -/
def State.restoreBlock (s : State) (v : Saved) (body : Block) (c base : Nat) : State :=
  let g := s.grid body.grid
  let held := body.liveRows
  let free := s.freeSlots c held.length
  let slots := (List.range body.nrow).map fun r => match held.findIdx? (· == r) with
    | some i => (free[i]?).getD 0
    | none => 0
  let s := s.enterCtx c body.cid
  let alone := !s.blocks.any fun q => q.2.core == c && q.2.onCore && q.2.grid == body.grid && !v.unit.contains q.1
  let on_ (q : Nat × Thread) : Nat × Thread := (q.1, (q.2.stand).restart (s.now c))
  let b := { body with
    core := c, spadBase := base, slots := slots, fs := g.fs, bstate := .resident
    part := if (s.die (dieOf c)).partT then 1 else 0, threads := body.threads.map on_ }
  let n := body.spadSize
  let s := s.modCore c fun k => { k with
    spad := cellsPut (k.spad.filter fun x => !inRange base n x.1) (v.spad.map fun x => (x.1 + base, x.2))
    tags := v.tags.foldl (fun l w => insNat (w + base / 4) l) (k.tags.filter fun w => !inRange base n (4 * w))
    spoison := v.spoison.foldl (fun l x => insNat (x + base / 64) l) (k.spoison.filter fun x => !inRange base n (64 * x))
    sems := match v.sems with
      | some m => if alone then m else k.sems
      | none => k.sems }
  let s := { s with blocks := s.blocks.put v.blk b }
  { s with ops := s.ops.map fun o => if o.blk = v.blk then o.moved c else o }

/-- The needs of one block. -/
def Block.need (b : Block) : Need :=
  { rows := b.liveRows.length, regs := b.liveRows.length * allocOf b.regs, spad := b.spadSize, acc := b.accLines, cid := b.cid }

/-- Restore the members of a unit on cores, each where there is room (spec/18 R384). -/
def State.restoreOn (s : State) (l : List (Saved × Block × Nat)) : Option State :=
  l.foldl (fun (a : Option State) x => a.bind fun s => (s.fits [] x.2.1.need x.2.2).map fun base =>
    s.restoreBlock x.1 x.2.1 x.2.2 base) (some s)

/-- Do cores suit a unit's groups: quad groups on one quad by QPOS, die groups on one die (spec/01 R23, R24)? -/
def groupsOk (bs : List Block) (cores : List Nat) : Bool :=
  let l := bs.zip cores
  l.all fun x => l.all fun y =>
    (x.1.qgid.isNone || x.1.qgid != y.1.qgid || (quadOf x.2 == quadOf y.2 && x.2 % 4 == x.1.blkid % 4))
      && (x.1.dgid.isNone || x.1.dgid != y.1.dgid || dieOf x.2 == dieOf y.2)

/-- Does a unit have a member waiting at a barrier? -/
def State.unitWaits (s : State) (unit : List Nat) : Bool := s.ops.any fun o => unit.contains o.blk && (match o.kind with
  | .barWait .. => true
  | .barArr t b .. => (s.bar b).part.contains t
  | _ => false)

/-- UNIT_RESTORE (spec/18 R384, R385): a unit that a distributor has pulled, or one that migrates, is placed whole; a
migrating unit goes to other cores, within its die where it is a die group or waits at a barrier. -/
def execUnitRestore (blk : Nat) (cores : List Nat) (s : State) : Out State :=
  let run : Option State := match s.pkg.saved.find? fun v => v.auto && v.unit.contains blk with
    | none => none
    | some v0 =>
      let vs := v0.unit.filterMap fun h => s.pkg.saved.find? fun v => v.auto && v.blk == h
      let bs := vs.map fun v => s.block v.blk
      let r := (s.grid (s.block blk).grid).lrec
      let key : Option (Nat × Option Nat) := some ((s.block blk).grid, v0.unit.head?)
      let dies := v0.cores.map dieOf
      let near := (bs.any fun b => b.dgid.isSome && !r.cores) || s.unitWaits v0.unit
      let ok (c : Nat) : Bool := ((bs.headD (s.block blk)).part == 1) == (s.die (dieOf c)).partT
      if cores.length ≠ bs.length || !groupsOk bs cores || !cores.all ok || s.pkg.suspended then none
      else if v0.mig then
        if cores.any v0.cores.contains || (near && !cores.all fun c => dies.contains (dieOf c)) then none else some s
      else if !(List.range 8).any (fun d => (s.die d).job == key && (r.cores || cores.all fun c => dieOf c == d)) then none
      else
        let clear (s : State) (d : Nat) : State := if (s.die d).job = key then s.modDie d fun x => { x with job := none } else s
        some ((List.range 8).foldl clear s)
  ofStep "UNIT_RESTORE" (run.bind fun s =>
    let unit := ((s.pkg.saved.find? fun v => v.auto && v.unit.contains blk).map (·.unit)).getD []
    let vs := unit.filterMap fun h => s.pkg.saved.find? fun v => v.auto && v.blk == h
    (s.restoreOn ((vs.zip cores).map fun x => (x.1, s.block x.1.blk, x.2))).map fun s =>
      { s with pkg := { s.pkg with saved := s.pkg.saved.filter fun v => !(v.auto && unit.contains v.blk) } })

/-! ### BCTL (spec/18 R372) -/

/-- The effect of a command on a block that is not pre-empting; none sets ERR. -/
def State.bctlDo (s : State) (g b cmd : Nat) : Option State :=
  let hd := handle g b
  let here := s.blockState g b == 2
  match cmd with
  | 1 | 2 | 3 | 7 => if here then s.headCmd hd cmd else none
  | 4 => if s.blockState g b = 0 then none else some (s.killBlock g b)
  | 5 => if here then s.preemptBlock hd false else none
  | 6 => if here then s.preemptBlock hd true else none
  | _ => none

/-- A command on the selected block: it waits while the block is pre-empting; a refused one sets ERR (spec/18 R372). -/
def State.bctlCmd (s : State) (cmd : Nat) : State :=
  let bad (s : State) : State := { s with pkg := { s.pkg with bctlErr := true } }
  if cmd = 0 || 8 ≤ cmd then bad s
  else match s.selected with
    | none => bad s
    | some (g, b) =>
      if s.blockState g b = 3 then
        { s with pkg := { s.pkg with bctl := BitVec.ofNat 32 (cmd * 2 ^ 28), bctlSel := handle g b } }
      else (s.bctlDo g b cmd).getD (bad s)

/-- A command event: the one that waits for the end of a pre-emption, or a write of system software through a host (spec/18
R372). -/
def State.bctlEvent (s : State) (cmd : Nat) : Out State :=
  if s.pkg.bctl = 0 then .next (s.bctlCmd cmd)
  else
    let hd := s.pkg.bctlSel
    let g := hd % 2 ^ 32
    let b := hd / 2 ^ 32
    ofStep "BCTL" (if fld s.pkg.bctl 28 4 = cmd ∧ s.blockState g b ≠ 3 then
      some ({ (s.bctlDo g b cmd).getD { s with pkg := { s.pkg with bctlErr := true } } with
        pkg := { ((s.bctlDo g b cmd).getD { s with pkg := { s.pkg with bctlErr := true } }).pkg with bctl := 0, bctlSel := 0 } })
      else none)

/-- BCTL_RESUME (spec/18 R372). -/
def execBctlResume (s : State) : Out State := s.bctlEvent 1
/-- BCTL_SKIP (spec/18 R372). -/
def execBctlSkip (s : State) : Out State := s.bctlEvent 2
/-- BCTL_KILLT (spec/18 R372). -/
def execBctlKillt (s : State) : Out State := s.bctlEvent 3
/-- BCTL_KILLB (spec/18 R372). -/
def execBctlKillb (s : State) : Out State := s.bctlEvent 4
/-- BCTL_PREEMPT (spec/18 R372, R381). -/
def execBctlPreempt (s : State) : Out State := s.bctlEvent 5
/-- BCTL_MIGRATE (spec/18 R372, R385). -/
def execBctlMigrate (s : State) : Out State := s.bctlEvent 6
/-- BCTL_POP (spec/18 R372). -/
def execBctlPop (s : State) : Out State := s.bctlEvent 7
/-- BCTL_INVALID: no action; ERR (spec/18 R372). -/
def execBctlInvalid (s : State) : Out State := .next (s.bctlCmd 0)

/-! ### CTXSAVE, CTXLOAD (spec/18 R386) -/

/-- A CTX word: one operation for the issue group, from its lowest active lane; every active lane counts in st and takes
the status. -/
def State.ctxWord (s : State) (h : Hdr) (a : Reg) (k : Tid → OpKind) : Out State :=
  let ts := byLane (s.act h)
  match ts with
  | [] => .next (s.retire qSys)
  | t :: _ =>
    if (s.rd64 t a).toNat % 4096 ≠ 0 then .next (s.raise (ts.map fun u => (u, ⟨.misalign, s.rd64 t a, 0⟩)))
    else
      let o := { s.opOf t (k t) with tids := ts, cnts := ts.map fun u => (u, .st), after := s.startAfter t.blk ts [] }
      .next ((s.addOp o).retireFp qSys 4).useFree
/-- CTXSAVE (spec/18 R386). -/
def execCtxsave (h : Hdr) (d a b : Reg) (keep : Bool) (s : State) : Out State :=
  s.ctxWord h a fun t => .ctxsave t d (s.rd64 t a) (s.rd64 t b) keep
/-- CTXLOAD (spec/18 R386). -/
def execCtxload (h : Hdr) (d a : Reg) (s : State) : Out State := s.ctxWord h a fun t => .ctxload t d (s.rd64 t a)

/-- The end of a CTX operation: the release of .PKG, then status and counter (spec/18 R386). Stage 2 has the status in
`prog`. -/
def State.endCtx (s : State) (o : Op) (d : Reg) : Option State :=
  if o.stage = 2 then
    let s := s.release o.core .pkg
    some (s.modOp o.id fun p => { p with stage := 3, after := s.relWaits o.core .pkg })
  else if !s.acked o.core o.after then none
  else some (((o.tids.filter fun t => writesReg o.tids t d).foldl (fun (s : State) t =>
    s.wr t d (BitVec.ofNat 32 o.prog)) s).finish o.id)

/-- A CTX operation reaches its status. -/
def State.ctxStatus (s : State) (o : Op) (st : Nat) : State := s.modOp o.id fun p => { p with stage := 2, prog := st }

/-- ENGINE_OPERATION_COMPLETE for CTXSAVE (spec/18 R386): a pre-emption in progress ends first. -/
def State.stepCtxsave (s : State) (o : Op) (d : Reg) (va id : DWord) (keep : Bool) : Option State :=
  if 2 ≤ o.stage then s.endCtx o d
  else if o.stage = 1 || !s.canRun o then none
  else match s.gridOf (fld id 0 32) with
    | none => some (s.ctxStatus o 1)
    | some g =>
      let hd := handle g (fld id 32 32)
      match (s.block? hd).map (·.bstate) with
      | some BState.preempting => if o.lim = 1 then none else some (s.modOp o.id fun p => { p with lim := 1 })
      | some BState.resident =>
        let unit := s.unitOf hd
        if unit.any fun h => (s.block h).bstate != .resident then none
        else
          let t := o.low
          match s.imagesAt (s.block t.blk).ctx (s.thread t).level va unit with
          | none => some (s.ctxStatus o 3)
          | some imgs => some ((s.beginPreempt unit imgs (some o.id) keep false).modOp o.id fun p => { p with stage := 1 })
      | _ => some (s.ctxStatus o (if o.lim = 1 then 2 else 1))

/-- The saved state an image stands for: a header of a complete image, and a body written here (spec/18 R383, R386). -/
def State.imageFind (s : State) (pages : List (Nat × Nat)) : Option Saved :=
  let word (k : Nat) : Nat := match imageAddr pages (4 * k) with
    | some a => s.homeRead a 4
    | none => 0
  s.pkg.saved.reverse.find? fun v =>
    (s.grid v.body.grid).lrec.gridid == word 0 && v.body.blkid == word 1 && v.size == word 2 && v.body.cid == word 4
      && word 5 == 1 && (pages.foldl (fun n p => n + p.2) 0 == v.size)
      && (List.range (v.size - 256)).all fun i => match imageAddr pages (256 + i) with
          | some a => s.homeByte a == Config.imageByte v.free (256 + i)
          | none => false

/-- The images of a CTXLOAD (spec/18 R386): the first one's saved state names its unit; each member's image follows. -/
def State.loadImages (s : State) (cid : Nat) (lv : Level) (va : DWord) : Option (List Saved) :=
  match s.imagePages cid lv va 4096 .r with
  | none => none
  | some first =>
    let size := match imageAddr first 8 with
      | some a => s.homeRead a 4
      | none => 0
    let at_ (i : Nat) : Option Saved := (s.imagePages cid lv (va + BitVec.ofNat 64 (i * size)) size .r).bind s.imageFind
    match at_ 0 with
    | none => none
    | some v =>
      let l := (List.range v.unit.length).map at_
      if v.unit.zipIdx.all fun (x : Nat × Nat) => match l.getD x.2 none with
          | some w => w.blk == x.1
          | none => false
      then some (l.filterMap id) else none

/-- The state a saved image holds of its block's groups and waiting operations replaces the present one (spec/18 R383). -/
def State.loadGroups (s : State) (v : Saved) : State :=
  let s := s.modGrid v.body.grid fun g => { g with
    qgroups := match v.body.qgid, v.qg with
      | some q, some x => g.qgroups.put q x
      | _, _ => g.qgroups
    dbars := v.dbars.foldl (fun (t : Tab Bar) p => t.put p.1 p.2) g.dbars
    bars := if g.lrec.cores then v.gbars else g.bars }
  { s with ops := s.ops.filter (fun o => o.blk != v.blk) ++ v.ops }

/-- ENGINE_OPERATION_COMPLETE for CTXLOAD (spec/18 R386). -/
def State.stepCtxload (s : State) (o : Op) (d : Reg) (va : DWord) : Option State :=
  if 2 ≤ o.stage then s.endCtx o d
  else if !s.canRun o then none
  else
    let t := o.low
    let cid := (s.block t.blk).ctx
    let lv := (s.thread t).level
    let head := (s.imagePages cid lv va 4096 .r).bind fun p => imageAddr p 0
    match head with
    | none => some (s.ctxStatus o 2)
    | some h =>
      let gid := s.homeRead h 4
      let gcid := s.homeRead (h + 16) 4
      match s.gridOf gid with
      | none => some (s.ctxStatus o 1)
      | some g =>
        if (s.grid g).complete || (s.grid g).lrec.cid ≠ gcid then some (s.ctxStatus o 1)
        else match s.loadImages cid lv va with
          | none => some (s.ctxStatus o 2)
          | some vs =>
            let now := vs.map fun v => (s.block v.blk).bstate
            if now.any fun x => x == .resident || x == .preempting then some (s.ctxStatus o 3)
            else if now.any fun x => x != .saved then some (s.ctxStatus o 2)
            else
              let r := (s.grid g).lrec
              let ok (c : Nat) : Bool := (((vs.map fun v => v.body).headD (s.block o.blk)).part == 1) == (s.die (dieOf c)).partT
              let m := vs.length
              let r := if r.dgn ≠ 0 ∧ m % r.dgn ≠ 0 then { r with dgn := m } else r
              match s.plan { r with qg := r.qg && m % 4 == 0 } ok m with
              | none => some (s.ctxStatus o 4)
              | some l =>
                let s1 := vs.foldl State.loadGroups s
                match s1.restoreOn ((vs.zip l).map fun x => (x.1, x.1.body, x.2.1)) with
                | none => some (s.ctxStatus o 4)
                | some s2 =>
                  let hs := vs.map (·.blk)
                  some ({ s2 with pkg := { s2.pkg with saved := s2.pkg.saved.filter fun v => !(v.auto && hs.contains v.blk) } }.ctxStatus
                    o 0)

end Sys2Proof.Machine
end

