-- ==== Sys2Proof/Machine/EvEngine.lean ====
section
/-!
DEFINITION. Machine/EvEngine.lean: the events of barriers and semaphores (spec/11), of the copy engine (spec/12), of the
matrix engine (spec/13) and the accumulation stores (spec/14), the completion of the other engine operations (spec/10
R213), and the in-switch reductions (spec/19 R404).
-/

namespace Sys2Proof.Machine

/-! ### Barriers and semaphores -/

/-- BARRIER_ARRIVAL (spec/11 R234). -/
def execBarrierArrival (op : Nat) (s : State) : Out State :=
  ofStep "BARRIER_ARRIVAL" ((s.op? op).bind fun o => match o.kind with
    | .barArr t b c ex p => s.arrive o t b c ex p
    | _ => none)
/-- PHASE_OPEN (spec/11 R233). -/
def execPhaseOpen (b : BarId) (s : State) : Out State := ofStep "PHASE_OPEN" ((s.opening b).map (s.openPhase b))
/-- BARRIER_WAVE (spec/16 R338). -/
def execBarrierWave (b : BarId) (s : State) : Out State := ofStep "BARRIER_WAVE" (s.wave b)
/-- SEMAPHORE_SERVE (spec/11 R241). -/
def execSemaphoreServe (core : Nat) (k : Fin 64) (s : State) : Out State := ofStep "SEMAPHORE_SERVE" (s.semServe core k.val)

/-! ### The copy engine -/

/-- COPY_OPERATION_START (spec/12 R249): a copy moves one more element, so that anything may happen between two of them; a remote one
sends; a CPR passes its fault point (R257, R259). -/
def execCopyOperationStart (op : Nat) (s : State) : Out State :=
  ofStep "COPY_OPERATION_START" ((s.op? op).bind fun o =>
    if o.stage == cprOpen then s.cprPoint o
    else if !s.canRun o || o.stage != 0 then none
    else
      let s := s.modOp op fun p => { p with started := true }
      match o.kind with
      | .copy segs ctl el => if o.started && decide (segEls segs el ≤ o.done.length) then none else some (s.runCopy o segs ctl el 1).1
      | .put ssp src len pod pkg chan _ seq => some (s.sendPut o ssp src len pod pkg chan seq)
      | _ => none)

/-- COPY_OPERATION_COMPLETE (spec/12 R249, R259, R261): a copy moves what is left of it. -/
def execCopyOperationComplete (op : Nat) (s : State) : Out State :=
  ofStep "COPY_OPERATION_COMPLETE" ((s.op? op).bind fun o => match o.kind with
    | .copy segs ctl el =>
      if !o.started || o.stage != 0 then none
      else match s.runCopy o segs ctl el (segEls segs el) with
        | (s, true) => some (s.endCopy o (some ctl) false false)
        | (s, false) => some s
    | .cpr r =>
      if o.stage != 0 || decide (o.prog < r.nl) || decide (s.now o.core < o.pageAt + 4) then none
      else
        let s := match r.sem with
          | some k => s.semAdd o.core k 1 false false
          | none => s
        some (s.endCopy o none false false)
    | .post p =>
      if !s.canRun o then none
      else some ({ s with fabric := { s.fabric with posts := s.fabric.posts ++ [p] } }.endCopy o none false false)
    | _ => none)

/-- ENGINE_PAGE_SERVICE_REQUEST: a record in the queue of the block that holds the operation, once it has room (spec/12
R421), naming its page; of an inbound transfer without the fields of a word. -/
def execEnginePageServiceRequest (op : Nat) (s : State) : Out State :=
  ofStep "ENGINE_PAGE_SERVICE_REQUEST" ((s.op? op).bind fun o =>
    if o.stage != 1 || Config.faultRecords ≤ (s.block o.blk).faultq.length then none
    else
      let waits : Bool := match o.kind with
        | .copy .. | .put .. | .trav .. | .inbound .. => true
        | _ => false
      if !waits then none
      else
        let r := s.engineRec o .xlate 3 (BitVec.ofNat 64 (o.prog / 4096 * 4096))
        let r := match o.kind with
          | .inbound .. => { r with slot := 0, lane := 0, row := 0, pc := 0, lmask := 0 }
          | _ => r
        let id := s.nextId
        some ((s.impRec o.blk r).modOp op fun p => { p with stage := 2, page := some id }))

/-- COPYLIM_EXPIRY: an operation that waits for a page, or an inbound transfer for a posting, beyond its limit ends with
error (spec/12 R251, R252, R262; spec/17 R357). -/
def execCopylimExpiry (op : Nat) (s : State) : Out State :=
  ofStep "COPYLIM_EXPIRY" ((s.op? op).bind fun o =>
    let pageWait := (o.stage == 1 || o.stage == 2) && decide (o.pageAt + o.lim ≤ s.now o.core)
    match o.kind with
    | .inbound pod pkg chan seq .. =>
      if pageWait || (o.stage == 0 && decide (o.clk + o.lim ≤ s.now o.core) && !s.fabric.posts.any (·.chan == chan)) then some (s.refuseIn o pod pkg chan seq) else none
    | .trav t a ray _ => if pageWait then some (s.travFail o t a ray) else none
    | .copy .. | .put .. => if pageWait then some (s.endError o o.prog) else none
    | _ => none)

/-- CPR_LINE_WRITE (spec/12 R259). -/
def execCprLineWrite (op : Nat) (s : State) : Out State :=
  ofStep "CPR_LINE_WRITE" ((s.op? op).bind fun o => match o.kind with
    | .cpr r => s.writeCprLine o r
    | _ => none)

/-- The words of an inbound transfer in the capture log (spec/18 R394, DESIGN CHOICE, log 21). -/
def inLog (pod pkg chan seq : Nat) (data : List Byte) : List Word :=
  [BitVec.ofNat 32 (2 ^ 31 + chan), BitVec.ofNat 32 (pod * 2 ^ 10 + pkg), BitVec.ofNat 32 seq, BitVec.ofNat 32 data.length]
    ++ (List.range ((data.length + 3) / 4)).map fun i => BitVec.ofNat 32 (ofBytes ((data.drop (4 * i)).take 4))

/-- The inbound transfer of a sender that is already held here. -/
def State.inboundOp (s : State) (pod pkg chan seq : Nat) : Option Op := s.ops.find? fun o => match o.kind with
  | .inbound a b c d .. => a == pod && b == pkg && c == chan && d == seq
  | _ => false
/-- An inbound transfer arrives (spec/12 R262): held by no block until it finds a posting; its limit counts on core 0 (DESIGN CHOICE, log
8). -/
def State.newInbound (s : State) (pod pkg chan seq : Nat) (data : List Byte) (bad : List Nat) : State :=
  s.addOp { id := 0, core := 0, blk := 2 ^ 64, kind := .inbound pod pkg chan seq data bad, clk := s.now 0,
            lim := (s.core 0).copylim.toNat }
/-- Place the inbound transfer of a sender if it can be placed now. -/
def State.tryInbound (s : State) (pod pkg chan seq : Nat) : Option State :=
  (s.inboundOp pod pkg chan seq).bind fun o => match o.kind with
    | .inbound _ _ _ _ data bad => s.placeIn o pod pkg chan seq data bad
    | _ => none

/-- INBOUND_PUT (spec/12 R262): the transfer arrives, an input (spec/18 R394), or one that is held is tried again. A
suspended package answers with TIMEOUT at the sender (spec/19 R409). -/
def execInboundPut (pod pkg chan seq : Nat) (p : Payload) (s : State) : Out State :=
  ofStep "INBOUND_PUT" (match s.inboundOp pod pkg chan seq with
    | some _ => s.tryInbound pod pkg chan seq
    | none =>
      if s.fw.pkgSusp || s.fw.sysSusp || decide (4096 ≤ chan) then none
      else (s.input (inLog pod pkg chan seq p.data)).map fun s =>
        let s := s.newInbound pod pkg chan seq p.data p.bad
        (s.tryInbound pod pkg chan seq).getD s)

/-- The sent transfer of an operation ends at its sender (spec/12 R262). -/
def State.endPut (s : State) (o : Op) (err timeout : Bool) : Option State := match o.kind with
  | .put _ _ _ _ _ _ ctl _ =>
    if o.stage != 3 then none
    else
      let s := if err then s.setFaultst o.blk 2 else s
      let s := if timeout then s.setFaultst o.blk 3 else s
      some (s.endCopy o (some ctl) err timeout)
  | _ => none
/-- PUT_ACKNOWLEDGE (spec/12 R262). -/
def execPutAcknowledge (op : Nat) (err : Bool) (s : State) : Out State :=
  ofStep "PUT_ACKNOWLEDGE" ((s.op? op).bind fun o => s.endPut o err false)
/-- TRANSFER_LINK_TIMEOUT (spec/12 R262, spec/19 R409). -/
def execTransferLinkTimeout (op : Nat) (s : State) : Out State :=
  ofStep "TRANSFER_LINK_TIMEOUT" ((s.op? op).bind fun o => s.endPut o false true)

/-- TOKEN_JOIN_COMPLETE (spec/12 R263). -/
def execTokenJoinComplete (op : Nat) (s : State) : Out State :=
  ofStep "TOKEN_JOIN_COMPLETE" ((s.op? op).bind fun o =>
    if o.kind == .join && s.startable o && decide (o.clk + 2 ≤ s.now o.core) then some (s.finish op) else none)

/-! ### The matrix engine and the accumulation stores -/

/-- REQUEST_ENTRY (spec/13 R270). -/
def execRequestEntry (op : Nat) (s : State) : Out State := ofStep "REQUEST_ENTRY" ((s.op? op).bind s.enterRequest)
/-- PASS_GRANT (spec/13 R271). -/
def execPassGrant (op : Nat) (s : State) : Out State := ofStep "PASS_GRANT" ((s.op? op).bind s.grantPass)
/-- QME_LINE_WRITE (spec/13 R285). -/
def execQmeLineWrite (op : Nat) (s : State) : Out State := ofStep "QME_LINE_WRITE" ((s.op? op).bind s.writeMtxLine)
/-- REQUEST_COMPLETE (spec/13 R285). -/
def execRequestComplete (op : Nat) (s : State) : Out State := ofStep "REQUEST_COMPLETE" ((s.op? op).bind s.completeRequest)

/-- CONTRIBUTION_APPLY (spec/14 R298, R311). -/
def execContributionApply (op : Nat) (s : State) : Out State :=
  ofStep "CONTRIBUTION_APPLY" ((s.op? op).bind fun o => match o.kind with
    | .accadd a v => s.applyAdd o a v
    | _ => none)
/-- WRITE_BACK (spec/14 R297). -/
def execWriteBack (core line : Nat) (s : State) : Out State := ofStep "WRITE_BACK" (s.evict core line)

/-! ### Other engine operations -/

/-- ENGINE_OPERATION_COMPLETE (spec/10 R213): the words of ACC, GFX and PART, LAUNCH, TTASK, the CTX words. -/
def execEngineOperationComplete (op : Nat) (s : State) : Out State :=
  let no : Out State := ofStep "ENGINE_OPERATION_COMPLETE" none
  match s.op? op with
  | none => no
  | some o => match o.kind with
    | .trav t a ray ds => s.stepTrav o t a ray ds
    | .accz .. | .accset .. | .accfl .. | .accpoi .. | .accout .. => ofStep "ENGINE_OPERATION_COMPLETE" (s.stepAcc o)
    | .rast d lanes g sc cull => ofStep "ENGINE_OPERATION_COMPLETE" (s.stepRast o d lanes g sc cull)
    | .sample t a f tx => ofStep "ENGINE_OPERATION_COMPLETE" (s.stepSample o t a f tx)
    | .omrg t fr ds => ofStep "ENGINE_OPERATION_COMPLETE" (s.stepOmrg o t fr ds)
    | .ordt off len mask seq fin_ data bad => ofStep "ENGINE_OPERATION_COMPLETE" (s.stepOrdt o off len mask seq fin_ data bad)
    | .winacq d cons c => ofStep "ENGINE_OPERATION_COMPLETE" (s.serveWinacq o d cons c)
    | .tfence t slot gen ex b => ofStep "ENGINE_OPERATION_COMPLETE" (s.serveTfence o t slot gen ex b)
    | .pgive d t back move => ofStep "ENGINE_OPERATION_COMPLETE" (s.stepPgive o d t back move)
    | .pzero pages w => ofStep "ENGINE_OPERATION_COMPLETE" (s.stepPzero o pages w)
    | .launch pa q b => ofStep "ENGINE_OPERATION_COMPLETE" (s.stepLaunch o pa q b)
    | .ttask pa b => ofStep "ENGINE_OPERATION_COMPLETE" (s.stepTtask o pa b)
    | .ctxsave _ d va id keep => ofStep "ENGINE_OPERATION_COMPLETE" (s.stepCtxsave o d va id keep)
    | .ctxload _ d va => ofStep "ENGINE_OPERATION_COMPLETE" (s.stepCtxload o d va)
    | _ => no

/-- PTAKE_FLAG_POLL (spec/15 R327). -/
def execPtakeFlagPoll (op : Nat) (s : State) : Out State :=
  ofStep "PTAKE_FLAG_POLL" ((s.op? op).bind fun o => match o.kind with
    | .ptake d t pas fp back => s.pollPtake o d t pas fp back
    | _ => none)

/-! ### In-switch reductions (spec/19 R404) -/

/-- Contributors of a group, 2 to 1,024. -/
def redMembers (g : Nat) : Nat := Config.redCount g % 1023 + 2
/-- Two contributions combined element by element, 4 bytes each (spec/19 R404). -/
def redAdd (fl : Bool) (a b : List Byte) : List Byte :=
  (List.range (a.length / 4)).flatMap fun i =>
    let x : Word := BitVec.ofNat 32 (ofBytes ((a.drop (4 * i)).take 4))
    let y : Word := BitVec.ofNat 32 (ofBytes ((b.drop (4 * i)).take 4))
    bytesOf 4 (if fl then faddW .rn false x y else x + y).toNat
/-- The sum in ascending contributor package number. -/
def redSum (fl : Bool) (got : List (Nat × List Byte)) : List Byte :=
  match (sortNat (got.map (·.1))).filterMap fun p => (got.find? (·.1 == p)).map (·.2) with
  | [] => []
  | x :: t => t.foldl (redAdd fl) x

/-- This package's own transfers to a group, sent and not acknowledged. -/
def State.redPuts (s : State) (g : Nat) : List Op := s.ops.filter fun o => o.stage == 3 && (match o.kind with
  | .put _ _ _ pod pkg chan _ _ => pod == s.pkg.podNo && pkg * 2 ^ 12 + chan == g
  | _ => false)
/-- Is a contribution of this package one that it sent? -/
def State.sentTo (s : State) (g : Nat) (data : List Byte) (bad : List Nat) : Bool := (s.redPuts g).any fun o => match o.kind with
  | .put _ _ _ pod pkg chan _ seq => s.outs.contains (.put pod pkg chan seq data bad)
  | _ => false

/-- REDUCTION_CONTRIBUTION: a contribution counts; the last one of a group whose lengths all agree completes it: the sum is
placed as one inbound transfer where the group's package is this one, with the poison of any contribution (spec/09 R180), and the contributors' transfers end. -/
def execReductionContribution (group src : Nat) (p : Payload) (s : State) : Out State :=
  let old := (s.fabric.reds.find? (·.id == group)).getD { id := group, members := redMembers group }
  ofStep "REDUCTION_CONTRIBUTION" (
    if (old.got.any (·.1 == src)) || decide (redMembers group ≤ old.got.length) || (src == s.pkg.pkgNo && !s.sentTo group p.data p.bad)
        || s.fw.pkgSusp || s.fw.sysSusp then none
    else
      let got := old.got ++ [(src, p.data)]
      let bads := old.bad ++ p.bad
      let rest := s.fabric.reds.filter (·.id != group)
      if got.length = redMembers group ∧ (got.all fun p => p.2.length == Config.redLength group) = true then
        let s := { s with fabric := { s.fabric with reds := rest } }
        let s := (s.redPuts group).foldl (fun (s : State) o => (s.endPut o false false).getD s) s
        if group / 2 ^ 12 = s.pkg.pkgNo then
          let chan := group % 2 ^ 12
          let s := s.newInbound s.pkg.podNo src chan s.order (redSum (Config.redFloat group) got) bads
          some ((s.tryInbound s.pkg.podNo src chan s.order).getD s).useOrder
        else some s
      else some { s with fabric := { s.fabric with reds := rest ++ [{ old with got := got, bad := bads }] } })

/-- REDUCTION_TIMEOUT: the group breaks or its timeout passes: the partial sum is discarded, its contributors' transfers end
with TIMEOUT (spec/19 R404); a suspend parks it instead (R410). -/
def execReductionTimeout (group : Nat) (s : State) : Out State :=
  s.whenDo ((s.fabric.reds.any (·.id == group) || !(s.redPuts group).isEmpty) && !s.fw.sysSusp) "REDUCTION_TIMEOUT" fun s =>
    let s := { s with fabric := { s.fabric with reds := s.fabric.reds.filter (·.id != group) } }
    (s.redPuts group).foldl (fun (s : State) o => (s.endPut o false true).getD s) s

end Sys2Proof.Machine
end

