-- ==== Sys2Proof/Machine/EvLinks.lean ====
section
/-!
DEFINITION. Machine/EvLinks.lean: the events of the die-to-die links: resends and failures (spec/19 R399), the state machine
(R400), lane errors (R402). A link is named by the key of one of its ends.
-/

namespace Sys2Proof.Machine

/-- Is the key an end of a link in one of some states, while the package has power? -/
def State.linkIn (s : State) (k : Nat) (sts : List LState) : Bool :=
  isLinkEnd k && !s.fw.pkgSusp && sts.contains (s.link? k).state

/-- The clocks of a retry window: WIN units of 1,024, 0 taken as 1 (spec/19 R402). A window begins with the first resend
behind the end of the one before (DESIGN CHOICE, log 8). -/
def Link.window (l : Link) : Nat := 1024 * Nat.max 1 (fld l.thr 0 16)
/-- FLIT_CRC_RETRY: a flit is resent and LKRETRY counts it; LIMIT resends within a window raise RETRY; sixteen consecutive
failures of one flit put the link into FAILED (spec/19 R399, R402). Whether it is the flit that failed last is a free
value (DESIGN CHOICE, log 23). -/
def execFlitCrcRetry (link : Nat) (s : State) : Out State :=
  let l := s.link? link
  let now := l.clk
  let fresh := decide (l.win = 0 ∨ l.winAt + l.window ≤ now)
  let n := if fresh then 1 else l.win + 1
  let fails := if Config.pick s.free link % 2 = 0 then l.fails + 1 else 1
  s.whenDo (s.linkIn link [.train, .active, .drain, .paused]) "FLIT_CRC_RETRY" fun s =>
    let s := (s.modLink link fun l => { l with
      retry := if l.retry = 0xFFFFFFFF then l.retry else l.retry + 1
      win := n
      winAt := if fresh then now else l.winAt
      fails := fails }).useFree
    let lim := fld l.thr 16 16
    let s := if lim ≠ 0 ∧ n = lim then s.linkEvt link 0 else s
    if fails = 16 then s.linkFail link else s

/-- LANE_ERROR: a lane's checker exceeds its threshold; 0 to 63 data lanes, 64 to 67 redundant ones (spec/19 R402). -/
def execLaneError (link lane : Nat) (s : State) : Out State :=
  s.whenDo (s.linkIn link [.train, .active, .drain, .paused, .failed] && decide (lane < 68)) "LANE_ERROR" fun s =>
    (s.modLink link fun l =>
      if lane < 64 then { l with lasterr := lane, derr := l.derr ||| BitVec.ofNat 64 (2 ^ lane) }
      else { l with lasterr := lane, serr := l.serr ||| BitVec.ofNat 4 (2 ^ (lane - 64)) }).linkEvt link 1

/-- LKCTL with some of its bits changed. -/
def Link.ctlWith (l : Link) (pause retrain : Bool) : Nat :=
  (if pause then 2 ^ 31 else 0) + (if retrain then 2 ^ 30 else 0) + l.twidth * 2 ^ 28

/-- LKCTL_PAUSE_SET (spec/19 R400). -/
def execLkctlPauseSet (link : Nat) (s : State) : Out State :=
  let l := s.link? link
  s.whenDo (isLinkEnd link && !s.fw.pkgSusp && !l.pause) "LKCTL_PAUSE_SET" fun s => s.linkWrite link 0x08 (l.ctlWith true false)
/-- LKCTL_PAUSE_CLEAR (spec/19 R400). -/
def execLkctlPauseClear (link : Nat) (s : State) : Out State :=
  let l := s.link? link
  s.whenDo (isLinkEnd link && !s.fw.pkgSusp && l.pause) "LKCTL_PAUSE_CLEAR" fun s => s.linkWrite link 0x08 (l.ctlWith false false)
/-- LKCTL_RETRAIN (spec/19 R400). -/
def execLkctlRetrain (link : Nat) (s : State) : Out State :=
  let l := s.link? link
  s.whenDo (isLinkEnd link && !s.fw.pkgSusp && !l.retrain) "LKCTL_RETRAIN" fun s => s.linkWrite link 0x08 (l.ctlWith l.pause true)

/-- LINK_DRAIN_COMPLETE: both retry buffers are empty (spec/19 R400). -/
def execLinkDrainComplete (link : Nat) (s : State) : Out State :=
  let a := s.link? link
  let b := s.link? (linkOther link)
  let dest : LState := if a.retrain || b.retrain then .train else if a.pause || b.pause then .paused else .active
  s.whenDo (s.linkIn link [.drain]) "LINK_DRAIN_COMPLETE" fun s => s.linkGo link fun l => { l with state := dest }

/-- The end whose LKREMAP and TWIDTH training uses: the one that set RETRAIN; of both, the CD end, between two CDs the
module 10 end (spec/19 R400). -/
def State.trainEnd (s : State) (k : Nat) : Nat :=
  let o := linkOther k
  let wins (a b : Nat) : Bool := if a / 256 < 8 ∧ b / 256 < 8 then a % 256 == 10 else a / 256 < 8
  match (s.link? k).retrain, (s.link? o).retrain with
  | true, false => k
  | false, true => o
  | _, _ => if wins k o then k else o
/-- LINK_TRAIN_COMPLETE (spec/19 R400). -/
def execLinkTrainComplete (link : Nat) (s : State) : Out State :=
  let w := s.link? (s.trainEnd link)
  let held := (s.link? link).pause || (s.link? (linkOther link)).pause
  s.whenDo (s.linkIn link [.train]) "LINK_TRAIN_COMPLETE" fun s => s.linkGo link fun l => { l with
    state := if held then .paused else .active
    width := w.twidth, twidth := w.twidth, remap := w.remap, map := w.remap, retrain := false, fails := 0 }
/-- LINK_TRAIN_FAIL (spec/19 R400). -/
def execLinkTrainFail (link : Nat) (s : State) : Out State :=
  s.whenDo (s.linkIn link [.train]) "LINK_TRAIN_FAIL" fun s => s.linkFail link

end Sys2Proof.Machine
end

