-- ==== Sys2Proof/Machine/Sys.lean ====
section
/-!
DEFINITION. Machine/Sys.lean: the SYS words of spec/18: TRAP, ERET, WFI, HALT (R375), the control registers and the CSR
words (R366, R367, R376), TLBINV (R379, R380), RMARK (R396), and the writes of control registers by hosts and firmware.
-/

namespace Sys2Proof.Machine

/-! ### Reading control registers (spec/18 R366, R367) -/

/-- Does a record await service (spec/18 R370)? -/
def State.awaits (s : State) (b : Block) (r : FRec) : Bool :=
  r.susp || r.op.isSome || (r.code == FCode.copyFault.num && (s.grid b.grid).lrec.trapen.getLsbD 3)
/-- The record of a block that has awaited service longest. -/
def State.firstWait (s : State) (b : Block) : Option Nat := ((b.faultq.filter (s.awaits b)).head?).map (·.id)
/-- The oldest block with a record awaiting service (spec/18 R370). -/
def State.svcPend (s : State) : Option Block :=
  (s.blocks.foldl (fun (a : Option (Nat × Block)) p => match s.firstWait p.2, a with
    | some i, some q => if i < q.1 then some (i, p.2) else a
    | some i, none => some (i, p.2)
    | none, _ => a) none).map (·.2)

/-- Is a service core the leader's (spec/18 R391)? -/
def Svc.leads (v : Svc) (slot : Nat) : Bool := v.started && !v.inReset && 1 ≤ v.epoch && v.leadSlot == slot
/-- SIP of a service core: 0 LINK_EVENT, 1 HEARTBEAT_LOST, 2 SVCREQ, 3 CLKCMP (spec/18 R367, R370). -/
def State.sip (s : State) (slot : Nat) : Nat :=
  let v := s.svc slot
  (if v.linkPend then 1 else 0) + (if v.hbPend then 2 else 0) + (if v.leads slot && s.svcPend.isSome then 4 else 0)
    + (if v.clkcmp.toNat ≤ s.now (320 + slot) then 8 else 0)

/-- The words of a fault record (spec/18 R371). -/
def FRec.words (r : FRec) : List Word :=
  [BitVec.ofNat 32 (2 ^ 31 + (if r.lost then 2 ^ 30 else 0) + (if r.imp then 2 ^ 29 else 0) + (if r.susp then 2 ^ 28 else 0)
      + r.code * 2 ^ 16 + r.slot * 2 ^ 12 + r.lane * 2 ^ 6 + r.sub),
   BitVec.ofNat 32 r.blkid, BitVec.truncate 32 r.pc, BitVec.truncate 32 (r.pc >>> 32), BitVec.truncate 32 r.val,
   BitVec.truncate 32 (r.val >>> 32), BitVec.truncate 32 r.lmask, BitVec.truncate 32 (r.lmask >>> 32)]
/-- BFRk: the head record of the selected block; 0 where there is none (spec/18 R367, R371). -/
def State.bfrWord (s : State) (k : Nat) : Word := match s.selected.bind fun p => (s.block (handle p.1 p.2)).faultq.head? with
  | some r => r.words.getD k 0
  | none => 0
/-- BCTL: a command that waits, ERR, STATE (spec/18 R372). -/
def State.bctlWord (s : State) : Word :=
  BitVec.ofNat 32 (fld s.pkg.bctl 28 4 * 2 ^ 28 + (if s.pkg.bctlErr then 2 ^ 27 else 0)
    + (match s.selected with | some p => s.blockState p.1 p.2 | none => 0) * 2 ^ 24)

/-- The compute core whose instances a core reaches: its own, or for the pair of a compute die the one CORESEL names
(spec/18 R366). -/
def State.csrCore (s : State) (c : Nat) : Nat := if isSvc c then 40 * svcSlot c + (s.svc (svcSlot c)).coresel else c
/-- The memory die of a service pair. -/
def pairDie (c : Nat) : Nat := c - 328

/-- A number as a 64-bit value. -/
def d64 (n : Nat) : DWord := BitVec.ofNat 64 n
/-- A word as a 64-bit value. -/
def w64 (w : Word) : DWord := w.zeroExtend 64

/-- The value of a control register as a core reads it (spec/18 R367). -/
def State.csrRead (s : State) (c : Nat) (r : Csr) : DWord :=
  let v := s.svc (svcSlot c)
  let k := s.csrCore c
  let m := s.mdie (pairDie c)
  match r with
  | .stvec => v.stvec | .sepc => v.sepc | .scause => w64 v.scause | .stval => v.stval | .sstat => w64 v.sstat
  | .sie => w64 v.sie | .sip => d64 (s.sip (svcSlot c)) | .clkcmp => v.clkcmp
  | .ftvec => v.ftvec | .fepc => v.fepc | .fcause => w64 v.fcause | .ftval => v.ftval | .fstat => w64 v.fstat
  | .bsel => s.pkg.bsel | .bctl => w64 s.bctlWord | .bfr i => w64 (s.bfrWord i.val)
  | .svcpend => match s.svcPend with
    | some b => d64 ((s.grid b.grid).lrec.gridid + b.blkid * 2 ^ 32)
    | none => 0xFFFFFFFFFFFFFFFF
  | .qbase q => (s.ringq q.val).base | .qctl q => w64 (s.ringq q.val).ctl
  | .qtail q => d64 (s.ringq q.val).tail | .qhead q => d64 (s.ringq q.val).head
  | .gridnext => w64 s.pkg.gridnext | .ctxtab => s.pkg.ctxtab | .partcfg => d64 s.pkg.nt
  | .chsel => d64 s.pkg.chsel | .chcid => d64 (s.pkg.chcid.getD s.pkg.chsel 0)
  | .capctl => w64 s.pkg.capctl | .capbase => s.pkg.capbase | .capsize => w64 s.pkg.capsize
  | .poolbase i => (s.mdie i.val).poolbase | .poolnpg i => w64 (s.mdie i.val).poolnpg
  | .bfs i => match s.selected with
    | some p => w64 ((s.grid p.1).fs.getD i.val 0)
    | none => 0
  | .copylim => w64 (s.core k).copylim | .prelim => w64 (s.core k).prelim
  | .strcfg => d64 ((s.quad (quadOf k)).thrCfg * 2 ^ 8 + (s.quad (quadOf k)).holdCfg)
  | .cslimq => d64 (s.quad (quadOf k)).cslim | .cslimd => d64 (s.die (dieOf k)).cslim
  | .coresel => d64 v.coresel
  | .qoscls i => w64 (m.qos.getD i.val 0)
  | .migsrc => m.migsrc | .migdst => m.migdst | .migctl => w64 m.migctl
  | .hbper => w64 v.hbper | .leader => d64 (v.epoch * 2 ^ 8 + v.leadKind) | .leadslot => d64 v.leadSlot

/-! ### Writing control registers -/

/-- Write CAPCTL (spec/18 R393): ON changes only while no grid is resident; turned on without REPLAY it begins an empty
log; REPLAY set takes the log there is (DESIGN CHOICE, log 21); virtual clocks begin with it. -/
def State.writeCapctl (s : State) (w : Word) : Option State :=
  let on_ := bitOf w 31
  let busy := s.blocks.any fun p => !isSvc p.2.core && p.2.onCore
  if on_ != s.capturing && busy then none
  else
    let begins := on_ && !s.capturing && !bitOf w 30
    let old := if begins then 0 else s.pkg.capctl
    let ovf := if bitOf w 29 then 0 else fld s.pkg.capctl 29 1
    let p := s.pkg
    let log := if begins then [] else p.caplog
    let replay := if bitOf w 30 && !s.replaying then p.caplog else p.replay
    let s := if on_ != s.capturing then { s with cores := s.cores.map fun q => (q.1, { q.2 with vclk := 0 }) } else s
    some { s with pkg := { p with
      capctl := BitVec.ofNat 32 (fld w 30 2 * 2 ^ 30 + ovf * 2 ^ 29 + fld old 0 29)
      caplog := log
      replay := replay } }

/-- Is a block of a grid on a core (spec/18 R367)? -/
def State.gridResident (s : State) (g : Nat) : Bool := s.blocks.any fun p => !isSvc p.2.core && p.2.grid == g && p.2.onCore
/-- Write a format slot of the selected block's grid (spec/18 R367, spec/05 R115); where BSEL names no known block nothing is
written and nothing faults (DESIGN CHOICE, log 52). -/
def State.writeBfs (s : State) (k : Nat) (w : Word) : Option State := match s.selected with
  | none => some s
  | some p => if s.gridResident p.1 || !slotValid w then none
      else some (s.modGrid p.1 fun g => { g with fs := g.fs.set k w })

/-- The dies of partition T are those listed; a die that changes lets go what it had pulled (spec/01 R26, R27). -/
def State.setPart (s : State) (nt : Nat) (dies : List Nat) : State :=
  let s := { s with pkg := { s.pkg with nt := nt } }
  (List.range 8).foldl (fun (s : State) d =>
    if (s.die d).partT == dies.contains d then s
    else s.modDie d fun k => { k with partT := dies.contains d, job := none }) s
/-- Firmware's choice of n compute dies, a free value (spec/18 R367, DESIGN CHOICE, log 14). -/
def chooseDies (free : Nat) : Nat → List Nat → List Nat
  | 0, _ => []
  | n + 1, l =>
    let d := l.getD (Config.pick free n % Nat.max 1 l.length) 0
    d :: chooseDies free n (l.filter (· != d))

/-- Write BCTL (spec/18 R372): ERR clears by a 1; a command acts; command code 0 sets ERR unless only ERR is cleared. -/
def State.writeBctl (s : State) (w : Word) : State :=
  let s := if bitOf w 27 then { s with pkg := { s.pkg with bctlErr := false } } else s
  if fld w 28 4 = 0 ∧ bitOf w 27 = true then s else s.bctlCmd (fld w 28 4)

/-- Write MIGCTL (spec/09 R184): GO is only set, DONE and ERR are only cleared. -/
def migWrite (old w : Word) : Word :=
  BitVec.ofNat 32 ((if bitOf old 31 || bitOf w 31 then 2 ^ 31 else 0) + (if bitOf old 30 && !bitOf w 30 then 2 ^ 30 else 0)
    + (if bitOf old 29 && !bitOf w 29 then 2 ^ 29 else 0) + fld w 0 16)

/-- Write a service-core register (spec/18 R367, R374). -/
def Svc.write (v : Svc) (r : Csr) (x : DWord) : Svc :=
  let w : Word := x.truncate 32
  match r with
  | .stvec => { v with stvec := x } | .sepc => { v with sepc := x } | .stval => { v with stval := x }
  | .scause => { v with scause := w &&& 0x80FF7FFF } | .sstat => { v with sstat := (w &&& 3) ||| 4 }
  | .sie => { v with sie := w } | .clkcmp => { v with clkcmp := x }
  | .ftvec => { v with ftvec := x } | .fepc => { v with fepc := x } | .ftval => { v with ftval := x }
  | .fcause => { v with fcause := w &&& 0x80FF7FFF } | .fstat => { v with fstat := w &&& 0x3F }
  | .hbper => { v with hbper := w } | .coresel => { v with coresel := fld w 0 6 }
  | _ => v

/-- Is a register one of the service core's own (spec/18 R366)? -/
def svcOwn : Csr → Bool
  | .stvec | .sepc | .scause | .stval | .sstat | .sie | .sip | .clkcmp | .ftvec | .fepc | .fcause | .ftval | .fstat | .hbper
  | .leader | .leadslot | .coresel => true
  | _ => false
/-- The highest epoch claimed (spec/18 R392). -/
def State.topEpoch (s : State) : Nat := s.svcs.foldl (fun (n : Nat) p => Nat.max n p.2.epoch) 0
/-- Does a pair write from a lower epoch: every die ignores it (spec/18 R392)? -/
def State.outdated (s : State) (c : Nat) : Bool := isSvc c && decide ((s.svc (svcSlot c)).epoch < s.topEpoch)
/-- The leader registers its supervisor entry with the firmware of every pair when it first writes one (spec/18 R392, DESIGN CHOICE, log
23). -/
def State.register (s : State) (c : Nat) (x : DWord) : State :=
  let v := s.svc (svcSlot c)
  if v.leads (svcSlot c) && v.entry == 0 && x != 0 then
    (List.range 14).foldl (fun (s : State) k => s.modSvc k fun v => { v with entry := x }) s
  else s

/-- Write a control register from a core (spec/18 R366, R367); none where the value breaks a rule of its register:
ACCESS. MIGSRC and MIGDST take any low bits, which R184 refuses at GO (DESIGN CHOICE, log 52). -/
def State.csrWrite (s : State) (c : Nat) (r : Csr) (x : DWord) : Option State :=
  let w : Word := x.truncate 32
  let k := s.csrCore c
  let setPkg (p : Pkg) : Option State := some { s with pkg := p }
  let setCore (f : Core → Core) : Option State := some (s.modCore k f)
  let setQuad (f : Quad → Quad) : Option State := some (s.modQuad (quadOf k) f)
  let setMem (d : Nat) (f : MDie → MDie) : Option State := some (s.modMDie d f)
  if s.outdated c && !svcOwn r then some s else
  match r with
  | .coresel => if 40 ≤ fld w 0 6 then none else some (s.modSvc (svcSlot c) fun v => v.write r x)
  | .stvec => some ((s.register c x).modSvc (svcSlot c) fun v => v.write r x)
  | .bsel => setPkg { s.pkg with bsel := x }
  | .bctl => some (s.writeBctl w)
  | .qbase q => if fld x 0 8 ≠ 0 then none else some (s.modRingq q.val fun y => { y with base := x })
  | .qctl q => some (s.modRingq q.val fun y => { y with ctl := w &&& 0xF000FFFF })
  | .qtail q => s.writeTail q.val w
  | .gridnext => s.writeGridnext w
  | .ctxtab => setPkg { s.pkg with ctxtab := x }
  | .partcfg => if 8 < fld w 0 4 then none
      else some (s.setPart (fld w 0 4) (chooseDies s.free (fld w 0 4) (List.range 8))).useFree
  | .chsel => if 4095 < w.toNat then none else setPkg { s.pkg with chsel := w.toNat }
  | .chcid => if 65535 < w.toNat then none else setPkg { s.pkg with chcid := s.pkg.chcid.put s.pkg.chsel w.toNat }
  | .capctl => s.writeCapctl w
  | .capbase => if fld x 0 12 ≠ 0 then none else setPkg { s.pkg with capbase := x }
  | .capsize => setPkg { s.pkg with capsize := w }
  | .poolbase i => setMem i.val fun m => { m with poolbase := x, poolTaken := 0, poolBack := [] }
  | .poolnpg i => setMem i.val fun m => { m with poolnpg := w, poolTaken := 0, poolBack := [] }
  | .bfs i => s.writeBfs i.val w
  | .copylim => setCore fun y => { y with copylim := w }
  | .prelim => setCore fun y => { y with prelim := w }
  | .strcfg => setQuad fun q => { q with thrCfg := fld w 8 8, holdCfg := fld w 0 8 }
  | .cslimq => setQuad fun q => { q with cslim := fld w 0 16 }
  | .cslimd => some (s.modDie (dieOf k) fun d => { d with cslim := fld w 0 16 })
  | .qoscls i => setMem (pairDie c) fun m => { m with qos := m.qos.set i.val (w &&& 0xFFFFFFC0) }
  | .migsrc => setMem (pairDie c) fun m => { m with migsrc := x }
  | .migdst => setMem (pairDie c) fun m => { m with migdst := x }
  | .migctl => setMem (pairDie c) fun m => { m with migctl := migWrite m.migctl w }
  | .bfr _ | .svcpend | .qhead _ | .sip | .leader | .leadslot => some s
  | _ => some (s.modSvc (svcSlot c) fun v => v.write r x)

/-! ### The CSR words (spec/18 R376) -/

/-- Where an access to a control register completes: clocks after issue (spec/18 R376). -/
def csrLatency (c : Nat) (r : Csr) : Nat := if svcOwn r then 8 else match r with
  | .copylim | .prelim | .strcfg | .cslimq | .cslimd | .qoscls _ | .migsrc | .migdst | .migctl => 40
  | _ => if c = 328 then 40 else 300
/-- Is the register a queue's tail, whose write is a release (spec/18 R389)? -/
def isTail : Csr → Bool
  | .qtail _ => true
  | _ => false

/-- A CSR word: once for the issue group, from its lowest active lane; every active lane receives the value read; later
words wait for its completion (spec/18 R376). `f` gives the value to write, if the word writes. -/
def State.csrWord (s : State) (h : Hdr) (r : Csr) (d : Reg) (f : Tid → DWord → Option DWord) : Out State :=
  let c := s.cur.core
  let ts := byLane (s.act h)
  match ts with
  | [] => .next (s.retireSerial qSys)
  | t :: _ =>
    let old := s.csrRead c r
    let new := f t old
    let s := if isTail r && new.isSome && (s.thread t).fenceIds.isNone then
        let s := s.release c .sys
        s.modThreads ts fun th => { th with tkSnap := [(1, s.relWaits c .sys)] }
      else s
    if isTail r && new.isSome && !s.acked c ((s.thread t).fenceIds.getD []) then .next s.hold
    else match (match new with | some v => s.csrWrite c r v | none => some s) with
      | none => .next (s.raise (ts.map fun u => (u, ⟨.access, 0, 0⟩)))
      | some s' =>
        let due := s.clk + csrLatency c r
        let vals := if r.wide then pairOf d old else [(d, BitVec.truncate 32 old)]
        let s' := ts.foldl (fun (s' : State) u => vals.foldl (fun (s' : State) p =>
          if writesReg ts u p.1 then s'.wrAt u p.1 p.2 due qSys else s') s') s'
        .next ((s'.retireFp qSys 2).modThreads s.cur.tids fun th => { th with readyAt := Nat.max th.readyAt due }).useFree

/-- The operand of a CSR word: a pair for a 64-bit register (spec/18 R376). -/
def State.csrOpd (s : State) (t : Tid) (r : Csr) (a : Reg) : DWord := if r.wide then s.rd64 t a else w64 (s.rd t a)

/-- CSRR (spec/18 R376). -/
def execCsrr (h : Hdr) (d : Reg) (r : Csr) (s : State) : Out State := s.csrWord h r d fun _ _ => none
/-- CSRW (spec/18 R376). -/
def execCsrw (h : Hdr) (r : Csr) (a : Reg) (s : State) : Out State := s.csrWord h r .xz fun t _ => some (s.csrOpd t r a)
/-- CSRSET (spec/18 R376). -/
def execCsrset (h : Hdr) (d : Reg) (r : Csr) (a : Reg) (s : State) : Out State :=
  s.csrWord h r d fun t old => some (old ||| s.csrOpd t r a)
/-- CSRCLR (spec/18 R376). -/
def execCsrclr (h : Hdr) (d : Reg) (r : Csr) (a : Reg) (s : State) : Out State :=
  s.csrWord h r d fun t old => some (old &&& ~~~ s.csrOpd t r a)

/-! ### TRAP, ERET, WFI, HALT (spec/18 R375) -/

/-- TRAP: a fault event on a compute core; on a service core the trap of R374, whose saved position is the next word; not
taken without an active lane. -/
def execTrap (h : Hdr) (imm : BitVec 22) (s : State) : Out State :=
  let ts := s.act h
  let val : DWord := imm.zeroExtend 64
  match ts with
  | [] => .next (s.retireJump qSys [])
  | t :: _ =>
    if isSvc s.cur.core then
      .next (s.svcTrap (svcSlot s.cur.core) false .trap val (s.cur.pc + 8) ((s.thread t).skipMask >>> 1))
    else .next (s.raise (ts.map fun u => (u, ⟨.trap, val, 0⟩)))

/-- ERET: a PLV above the current level faults PRIV with the word as its value. -/
def execEret (h : Hdr) (s : State) : Out State :=
  match s.act h with
  | [] => .next (s.retireJump qSys [])
  | t :: _ =>
    let k := svcSlot s.cur.core
    let v := s.svc k
    let lv := (s.thread t).level
    let st := if lv = .fw then v.fstat else v.sstat
    let word := (((s.thread t).win[(s.thread t).winIx s.cur.pc]?).bind (·.word)).getD 0
    if lv.num < fld st 2 2 then .next (s.raise [(t, ⟨.priv, word, 0⟩)])
    else .next (s.svcReturn k)

/-- Is an interrupt pending whose enable bit is set: SIE, or FEN for the first two (spec/18 R374, R375)? -/
def State.wakes (s : State) (slot : Nat) : Bool :=
  let p := s.sip slot
  let v := s.svc slot
  (p % 2 == 1 && bitOf v.fstat 4) || (p / 2 % 2 == 1 && bitOf v.fstat 5) || (p / 4 % 2 == 1 && bitOf v.sie 2)
    || (p / 8 % 2 == 1 && bitOf v.sie 3)
/-- WFI: waits for an interrupt; on a compute core as SLEEP.MB without limit. -/
def execWfi (h : Hdr) (s : State) : Out State :=
  s.waitFor (fun t => !(s.isActive h t)
      || (if isSvc s.cur.core then s.wakes (svcSlot s.cur.core) else s.slept t s.cur.core (2 ^ 64) true)) fun s =>
    .next ((s.retireJump qSys []).modThreads s.cur.tids fun th => { th with readyAt := Nat.max th.readyAt (s.clk + 1) })

/-- HALT: the pair fetches nothing further and sends no heartbeat. -/
def execHalt (h : Hdr) (s : State) : Out State :=
  match s.act h with
  | [] => .next (s.retireJump qSys [])
  | _ => .next ((s.retireJump qSys []).modSvc (svcSlot s.cur.core) fun v => { v with halted := true })

/-! ### TLBINV (spec/18 R379, R380) -/

/-- Translations a lane's TLBINV discards: every context, or those of one context that meet the range (spec/18 R379). -/
def State.tlbGone (s : State) (t : Tid) (a b c : Reg) (all : Bool) (e : TlbEnt) : Bool :=
  let va := va57 (s.rd64 t a)
  let n := (s.rd t b).toNat
  all || (e.cid == fld (s.rd t c) 0 16 && (n == 0 || (decide (e.va < va + n) && decide (va < e.va + e.size))))

/-- The operations a TLBINV waits for, once it has discarded. -/
def Thread.tlbIds (th : Thread) : Option (List Nat) := (th.tkSnap.find? (·.1 == 2)).map (·.2)

/-- TLBINV: release, discard, wait for the accesses that used what was discarded (spec/18 R380). -/
def execTlbinv (h : Hdr) (a b c : Reg) (all : Bool) (sc : Scope) (s : State) : Out State :=
  let co := s.cur.core
  let ts := s.act h
  let new := ts.filter fun t => (s.thread t).fenceIds.isNone && (s.thread t).tlbIds.isNone
  let s := if new.isEmpty then s
    else
      let s := s.release co sc
      s.modThreads new fun th => { th with tkSnap := [(1, s.relWaits co sc)] }
  let go := ts.filter fun t => match (s.thread t).fenceIds with
    | some ids => s.acked co ids
    | none => false
  let s := go.foldl (fun (s : State) t => s.tlbDrop (inScope co sc) (s.tlbGone t a b c all)) s
  let s := s.modThreads go fun th => { th with tkSnap := [(2, s.placedOps co sc)] }
  s.waitFor (fun t => !(s.isActive h t) || (match (s.thread t).tlbIds with
      | some ids => ids.all fun i => !s.pending i
      | none => false)) fun s => .next (s.retireSerial qSys).useFree

/-! ### RMARK, and writes from outside -/

/-- RMARK: each block with an active lane appends an entry under capture (spec/18 R396). -/
def execRmark (h : Hdr) (a : Reg) (mark : BitVec 22) (s : State) : Out State :=
  let ts := s.act h
  let s' := (blksOf ts).foldl (fun (s' : State) x => match lowLane ts x with
    | none => s'
    | some t => s'.capLog [BitVec.truncate 32 (s.sreg t .gridid), BitVec.truncate 32 (s.sreg t .blkid), mark.zeroExtend 32,
        s.rd t a]) s
  .next (s'.retire qSys).useFree

/-- A write from outside that breaks a rule gets an error completion (spec/18 R367). -/
def State.outWrite (s : State) (r : Option State) : Out State := .next (match r with
  | some s => s
  | none => { s with outs := s.outs ++ [.hostErr 0] })

/-- BFS_WRITE (spec/18 R367, spec/05 R115). -/
def execBfsWrite (k : Fin 8) (v : Word) (s : State) : Out State := s.outWrite (s.writeBfs k.val v)
/-- PARTCFG_WRITE: firmware's dies given (spec/01 R27, spec/18 R367). -/
def execPartcfgWrite (v : Word) (dies : List Nat) (s : State) : Out State :=
  ofStep "PARTCFG_WRITE" (if fld v 0 4 ≤ 8 ∧ dies.length = fld v 0 4 ∧ dies.Nodup ∧ (dies.all fun d => d < 8) = true then
    some (s.setPart (fld v 0 4) dies) else none)
/-- CAPCTL_WRITE (spec/18 R393). -/
def execCapctlWrite (v : Word) (s : State) : Out State := s.outWrite (s.writeCapctl v)
/-- REGISTER_WRITE: a register that has no row of its own, as its core writes it (spec/18 R366). -/
def execRegisterWrite (core : Nat) (csr : Csr) (v : DWord) (s : State) : Out State :=
  ofStep "REGISTER_WRITE" (if !csr.readOnly && Csr.reached core csr && decide (core < 334) then
    some (match s.csrWrite core csr v with
      | some s => s
      | none => { s with outs := s.outs ++ [.hostErr 0] }) else none)

end Sys2Proof.Machine
end

