-- ==== Sys2Proof/Machine/EvSvc.lean ====
section
/-!
DEFINITION. Machine/EvSvc.lean: the service pairs' events: their interrupts (spec/18 R374), heartbeats (R391), and the
takeover of a lost leader (R392).
-/

namespace Sys2Proof.Machine

/-! ### Interrupts (spec/18 R374) -/

/-- Does a pair run: started, neither stopped nor held in reset, its clocks not frozen? -/
def State.pairRuns (s : State) (slot : Nat) : Bool :=
  let v := s.svc slot
  decide (slot < 14) && v.started && !v.halted && !v.inReset && !s.fw.pkgSusp
/-- A pair between two words, where an interrupt can be taken: the wait of its oldest word is given up with the word
unissued; a barrier wait is not (DEDUCED, log 23). -/
def State.atGap (s : State) (slot : Nat) : Option State :=
  let t : Tid := ⟨svcHandle slot, 0⟩
  let s' := s.quitWait t
  if s.pairRuns slot && (s.thread t).status == .live && (s'.thread t).waitOp.isNone then some s' else none
/-- Take an interrupt: the saved position is the thread's own. -/
def State.interrupt (s : State) (slot : Nat) (code : FCode) (val : Nat) : State :=
  let th := s.thread ⟨svcHandle slot, 0⟩
  s.svcTrap slot true code (BitVec.ofNat 64 val) th.pc th.skipMask

/-- Is SVCREQ taken: pending since the clock before, enabled, the pair between two words (spec/18 R370, R374)? -/
def State.svcreqTaken (s : State) (slot : Nat) : Bool :=
  let v := s.svc slot
  v.leads slot && s.svcPend.isSome && v.irq.testBit 2 && bitOf v.sie 2 && bitOf v.sstat 0
/-- Is CLKCMP taken: pending since the clock before, and enabled (spec/18 R374)? -/
def State.clkcmpTaken (s : State) (slot : Nat) : Bool :=
  let v := s.svc slot
  decide (v.clkcmp.toNat ≤ s.now (320 + slot)) && v.irq.testBit 3 && bitOf v.sie 3 && bitOf v.sstat 0
/-- SVCREQ_ENTRY: a level on the leader (spec/18 R370, R374). -/
def execSvcreqEntry (core : Nat) (s : State) : Out State :=
  let k := svcSlot core
  ofStep "SVCREQ_ENTRY" (
    if isSvc core && s.svcreqTaken k then
      (s.atGap k).map fun s => s.interrupt k .svcreq 0
    else none)

/-- CLKCMP_MATCH: CLK has reached CLKCMP; it is taken at the clock after if enabled, else stays pending (spec/18 R367, R374). -/
def execClkcmpMatch (core : Nat) (s : State) : Out State :=
  let k := svcSlot core
  let v := s.svc k
  ofStep "CLKCMP_MATCH" (
    if isSvc core && s.pairRuns k && decide (v.clkcmp.toNat ≤ s.now core) then
      if s.clkcmpTaken k then (s.atGap k).map fun s => s.interrupt k .clkcmp 0 else some s
    else none)

/-- The lowest module of a slot's die whose LKEVT is nonzero (spec/19 R402). -/
def State.lowEvent (s : State) (slot : Nat) : Nat :=
  ((List.range (linkModules slot)).find? fun m => (s.link? (linkKey slot m)).evt != 0).getD 0
/-- LINK_EVENT_ENTRY: VAL is taken at trap entry (spec/18 R374, spec/19 R402). -/
def execLinkEventEntry (core : Nat) (s : State) : Out State :=
  let k := svcSlot core
  let v := s.svc k
  ofStep "LINK_EVENT_ENTRY" (
    if isSvc core && v.linkPend && bitOf v.fstat 0 && bitOf v.fstat 4 then
      (s.atGap k).map fun s => (s.modSvc k fun v => { v with linkPend := false }).interrupt k .linkEvent (s.lowEvent k)
    else none)

/-! ### Heartbeats (spec/18 R391) -/

/-- HEARTBEAT_LOST is taken where it is pending and enabled (spec/18 R374). -/
def State.takeLost (s : State) (slot : Nat) : State :=
  let v := s.svc slot
  if v.hbPend && bitOf v.fstat 0 && bitOf v.fstat 5 then
    match s.atGap slot with
    | some s => (s.modSvc slot fun v => { v with hbPend := false }).interrupt slot .heartbeatLost v.silent
    | none => s
  else s

/-- The heartbeat period; a period of 0 clocks is one clock (DESIGN CHOICE, log 23). -/
def Svc.beatPer (v : Svc) : Nat := Nat.max 1 v.hbper.toNat
/-- HEARTBEAT_SEND: once per HBPER of its own clocks, to every other pair (spec/18 R391). -/
def execHeartbeatSend (core : Nat) (s : State) : Out State :=
  let k := svcSlot core
  let v := s.svc k
  ofStep "HEARTBEAT_SEND" (
    if isSvc core && s.pairRuns k && decide (v.hbAt + v.beatPer ≤ s.now core) then
      let s := s.modSvc k fun v => { v with hbAt := s.now core }
      let s := (List.range 14).foldl (fun (s : State) j =>
        if j = k ∨ (s.svc j).started = false then s
        else s.modSvc j fun v => { v with heard := v.heard.put k (s.now (320 + j)), missed := v.missed.put k 0 }) s
      some (s.takeLost k)
    else none)

/-- HEARTBEAT_MISSED: a period of 2 × HBPER without a heartbeat counts; the third raises HEARTBEAT_LOST, which is taken once
it is enabled. A silent pair that does not lead is held in reset (spec/18 R391, R392). -/
def execHeartbeatMissed (core sender : Nat) (s : State) : Out State :=
  let k := svcSlot core
  let v := s.svc k
  let now := s.now core
  ofStep "HEARTBEAT_MISSED" (
    if !isSvc core || !s.pairRuns k || decide (14 ≤ sender) || sender == k || !(s.svc sender).started then none
    else if v.heard.getD sender 0 + 2 * v.beatPer ≤ now then
      let n := v.missed.getD sender 0 + 1
      let s := s.modSvc k fun v => { v with
        heard := v.heard.put sender now
        missed := v.missed.put sender n
        hbPend := v.hbPend || n == 3
        silent := if n = 3 then sender else v.silent }
      let s := if n = 3 ∧ sender ≠ v.leadSlot then s.modSvc sender fun v => { v with inReset := true } else s
      some (s.takeLost k)
    else if v.hbPend then some (s.takeLost k)
    else none)

/-! ### Takeover (spec/18 R392) -/

/-- KIND of a slot's die: 0 a compute die, 8 to 11 the NMDs, 12 and 13 the FMDs (spec/18 R367). -/
def kindOf (slot : Nat) : Nat := if slot < 8 then 0 else slot
/-- How far a slot follows another, cyclically. -/
def after (lead slot : Nat) : Nat := (slot + 14 - lead) % 14

/-- Is a pair sending heartbeats, as another pair knows it? -/
def State.beats (s : State) (me slot : Nat) : Bool :=
  s.pairRuns slot && decide ((s.svc me).missed.getD slot 0 < 3)
/-- Is a pair the candidate: the next above the silent leader whose pair sends heartbeats and holds a registered entry? -/
def State.candidate (s : State) (slot : Nat) : Bool :=
  let v := s.svc slot
  s.pairRuns slot && v.entry != 0 && slot != v.leadSlot && decide (1 ≤ v.epoch) && decide (3 ≤ v.missed.getD v.leadSlot 0)
    && (List.range 14).all fun j => !decide (0 < after v.leadSlot j ∧ after v.leadSlot j < after v.leadSlot slot)
      || !s.beats slot j || (s.svc j).entry == 0

/-- TAKEOVER: the candidate claims the next epoch, holds the silent pair in reset, leads, and enters supervisor level at the
registered entry (spec/18 R392). -/
def execTakeover (slot : Nat) (s : State) : Out State :=
  let t : Tid := ⟨svcHandle slot, 0⟩
  let v := s.svc slot
  let e := v.epoch + 1
  ofStep "TAKEOVER" (if !s.candidate slot then none
    else (s.atGap slot).map fun s =>
      let s := s.modSvc v.leadSlot fun x => { x with inReset := true }
      let s := s.modSvc slot fun x => { x with
        epoch := e, leadKind := kindOf slot, leadSlot := slot, prevLead := v.leadSlot, depth := x.depth + 1
        scause := 0x80190000, stval := BitVec.ofNat 64 (e % 2 ^ 24 * 2 ^ 8), sepc := 0, sstat := 4, stvec := v.entry }
      s.modThread t fun th =>
        { th.restart (s.now (320 + slot)) with level := .sup, pc := v.entry, win := [], susp := none, trap := none })

/-- Is the claim of pair a to be followed rather than that of b: a higher epoch, or the same and nearer behind the silent
leader (spec/18 R392)? -/
def State.claimOver (s : State) (a b : Nat) : Bool :=
  let x := s.svc a
  let y := s.svc b
  decide (y.epoch < x.epoch) || (x.epoch == y.epoch && decide (after x.prevLead a < after x.prevLead b))
/-- LEADER_CLAIM: a pair receives a claim and follows it, a claimant that loses withdrawing (spec/18 R392). -/
def execLeaderClaim (slot : Nat) (s : State) : Out State :=
  let v := s.svc slot
  let claims := (List.range 14).filter fun k => (s.svc k).leads k && k != slot
  let best := (claims.find? fun a => claims.all fun b => a == b || s.claimOver a b)
  ofStep "LEADER_CLAIM" (best.bind fun a =>
    let x := s.svc a
    if decide (14 ≤ slot) || !v.started || v.inReset then none
    else if v.epoch < x.epoch || (v.epoch == x.epoch && v.leadSlot != a && s.claimOver a v.leadSlot) then
      some (s.modSvc slot fun v => { v with epoch := x.epoch, leadKind := kindOf a, leadSlot := a, prevLead := x.prevLead })
    else none)

end Sys2Proof.Machine
end

