-- ==== Sys2Proof/Machine/EvFw.lean ====
section
/-!
DEFINITION. Machine/EvFw.lean: the tier migration engines (spec/09 R184, R185), accesses of hosts and the display (spec/19
R405, spec/09 R199), power-up and firmware (R406 to R408), suspend and resume (R409, R410).
-/

namespace Sys2Proof.Machine

/-! ### Tier migration (spec/09 R184, R185) -/

/-- A range of 64 KiB pages the engine takes: aligned, on installed memory of this package (spec/09 R184, DEDUCED, log 44). -/
def State.migRange (s : State) (a : DWord) (n : Nat) : Bool :=
  let last := a.toNat + n * 65536 - 1
  a.toNat % 65536 == 0 && decide (last < 2 ^ 53) && pkgOf a.toNat == s.pkg.pkgNo && pkgOf last == s.pkg.pkgNo
    && (dieCode a.toNat == dieCode last || decide (4 ≤ dieCode a.toNat)) && installed a.toNat && installed last
/-- MIGRATION_GO: the copy starts, or is refused with ERR (spec/09 R184). -/
def execMigrationGo (die : Nat) (s : State) : Out State :=
  let m := s.mdie die
  let n := fld m.migctl 0 16
  let src := m.migsrc.toNat
  let dst := m.migdst.toNat
  let ok := n != 0 && s.migRange m.migsrc n && s.migRange m.migdst n
    && decide (src + n * 65536 ≤ dst ∨ dst + n * 65536 ≤ src)
  s.whenDo ((die == 4 || die == 5) && bitOf m.migctl 31 && m.mig.isNone && !s.fw.pkgSusp) "MIGRATION_GO" fun s =>
    s.modMDie die fun m =>
      if ok then { m with mig := some (src, dst, n) } else { m with migctl := (m.migctl &&& 0x7FFFFFFF) ||| 0x20000000 }
/-- MIGRATION_DONE: by paths through compute dies (spec/01 R16) the destination has the devices' content of the source; GO clears and DONE is set (spec/09 R185, DEDUCED, log
44). -/
def execMigrationDone (die : Nat) (s : State) : Out State :=
  ofStep "MIGRATION_DONE" ((s.mdie die).mig.bind fun g =>
    if s.fw.pkgSusp then none
    else
      let s := (List.range g.2.2).foldl (fun (s : State) i => 
        let (a, b) := (g.1 + i * 65536, g.2.1 + i * 65536)
        s.copyDev a b 65536 (s.mdPath die (dieCode a)) (s.mdPath die (dieCode b))) s
      some (s.modMDie die fun m => { m with mig := none, migctl := (m.migctl &&& 0x7FFFFFFF) ||| 0x40000000 }))

/-! ### Power-up and firmware (spec/19 R406 to R408) -/

/-- PACKAGE_POWER_UP: every register takes its reset value, the modules train, only the loader runs (spec/19 R400, R406);
what names the package and the model's own counters stay. -/
def execPackagePowerUp (s : State) : Out State :=
  .next { State.reset with
    agenda := s.agenda, free := s.free, nextId := s.nextId, order := s.order, outs := s.outs
    pkg := { State.reset.pkg with pkgNo := s.pkg.pkgNo, podNo := s.pkg.podNo } }

/-- The boot staging region of NMD0: its size, and the place of the length and status. -/
def bootBytes : Nat := 256 * 2 ^ 20
/-- The first address of the package's NMD0. -/
def State.bootBase (s : State) : Nat := s.pkg.pkgNo * 2 ^ 43
/-- The bytes of a bundle in the staging region. -/
def State.bundle (s : State) (len : Nat) : List Byte := (List.range len).map fun i => s.homeByte (s.bootBase + i)
/-- The loader's status: 1 started, 2 bad signature, 3 another part's record, 4 bad format (spec/19 R406, DESIGN CHOICE, log 11). -/
def State.bundleStatus (s : State) (len : Nat) : Nat :=
  if bootBytes - 8 < len then 4 else Config.bundleStatus (s.bundle len) % 4 + 1
/-- The version of a bundle, a uint32 (spec/19 R407). -/
def State.bundleVersion (s : State) (len : Nat) : Nat := Config.bundleVersion (s.bundle len) % 2 ^ 32
/-- The service pairs start; the lowest slot leads at epoch 1 (spec/18 R391). -/
def State.startPairs (s : State) : State :=
  (List.range 14).foldl (fun (s : State) k => (s.modSvc k fun v => { v with
    started := true, epoch := 1, leadKind := kindOf 0, leadSlot := 0, hbAt := s.now (320 + k)
    heard := (List.range 14).map fun j => (j, s.now (320 + k)) }).modThread ⟨svcHandle k, 0⟩ fun th =>
      { th with iseen := s.mem.ver, iacq := s.mem.ver }) s
/-- The loader or the firmware takes a bundle whose length has been written: into bank 0 at the first start, else into the
inactive bank (spec/19 R406, R407). -/
def State.takeBundle (s : State) (len : Nat) : State :=
  let st := s.bundleStatus len
  let v := s.bundleVersion len
  let s :=
    if st ≠ 1 then s
    else if s.fw.loaded then { s with fw := { s.fw with banks := s.fw.banks.set (1 - s.fw.active) (some v) } }
    else { s.startPairs with fw := { s.fw with loaded := true, banks := [some v, none], active := 0, rollback := v } }
  { s.homeWrite (cellsAt (s.bootBase + bootBytes - 8) 8 st) [] [] with fw := { s.fw with status := st } }
/-- BUNDLE_LENGTH_WRITE: a host writes a bundle's length (spec/19 R406). -/
def execBundleLengthWrite (len : Nat) (s : State) : Out State :=
  s.whenDo (!s.fw.pkgSusp && decide (len < 2 ^ 64)) "BUNDLE_LENGTH_WRITE" fun s =>
    (s.homeWrite (cellsAt (s.bootBase + bootBytes - 8) 8 len) [] []).takeBundle len

/-- Has a pair an aperture access or a CSR word under way (spec/19 R407)? -/
def State.pairBusy (s : State) (slot : Nat) : Bool :=
  let ap (a : Acc) : Bool := match a.loc with
    | .mem pa => isAperture pa
    | .spad .. => false
  let th := s.thread ⟨svcHandle slot, 0⟩
  decide (s.now (320 + slot) < th.readyAt) || s.ops.any fun o => o.core == 320 + slot && match o.kind with
    | .load a .. | .loadU a .. => ap a
    | .store accs .. => accs.any ap
    | _ => false
/-- BANK_SWITCH: at a quiescent point of all pairs the inactive bank becomes active; a lower version is refused (spec/19
R407). An interrupt that no pair has enabled does not hold the point off (DESIGN CHOICE, log 23). -/
def execBankSwitch (s : State) : Out State :=
  let quiet := (List.range 14).all fun k => (s.svc k).depth == 0 && !s.wakes k && !s.pairBusy k
  ofStep "BANK_SWITCH" ((s.fw.banks.getD (1 - s.fw.active) none).bind fun v =>
    if !s.fw.loaded || !quiet || s.fw.pkgSusp then none
    else if v < s.fw.rollback then some s
    else some { s with fw := { s.fw with active := 1 - s.fw.active, rollback := v } })

/-- ATTESTATION_REQUEST: a report with the versions of both banks, which is active, and the roll-back counter (spec/19
R408). -/
def execAttestationRequest (nonce : Nat) (s : State) : Out State :=
  s.whenDo (s.fw.loaded && !s.fw.pkgSusp && decide (nonce < 2 ^ 48)) "ATTESTATION_REQUEST" fun s =>
    { s with outs := s.outs ++ [.report nonce s.fw.banks s.fw.active s.fw.rollback (Config.report nonce)] }

/-! ### Hosts and the display (spec/19 R405, spec/09 R199) -/

/-- A place a host reaches: n bytes of installed memory of this package (spec/19 R401). -/
def State.hostReach (s : State) (a n : Nat) : Bool :=
  n != 0 && pkgOf a == s.pkg.pkgNo && decide (a + n ≤ 2 ^ 53) && installed a && installed (a + n - 1) && dieCode a == dieCode (a + n - 1)
/-- Sectors that bytes fill wholly. -/
def wholeSecs (a n : Nat) : List Nat := (secsOf a n).filter fun x => decide (a ≤ x * 64 ∧ x * 64 + 64 ≤ a + n)
/-- Append an answer. -/
def State.answer (s : State) (m : OutMsg) : State := { s with outs := s.outs ++ [m] }

/-- A load by a host at the home, which recalls what cores own unless the range is outside the directory (spec/09 R199,
spec/11 R224). -/
def State.hostLoad (s : State) (a n : Nat) (nodir : Bool) : State :=
  let secs := secsOf a n
  let s := if nodir then s else secs.foldl State.recall s
  let s := secs.foldl State.l2Fill s
  if s.planeOff a || secs.any s.homePoison then s.answer (.hostPoison a)
  else s.answer (.hostLoad a ((List.range n).map fun i => s.homeByte (a + i)))
/-- A store by a host at the home. -/
def State.hostStore (s : State) (a : Nat) (data : List Byte) (nodir : Bool) : State :=
  let cs := data.zipIdx.map fun p => (a + p.2, p.1)
  let whole := wholeSecs a data.length
  let s := if nodir then whole.foldl State.homeClean (s.homePut cs) else s.homeWrite cs [] whole
  s.answer (.hostOk a)
/-- An atomic by a host at the home; outside the directory none is allowed (spec/18 R378). -/
def State.hostAtomic (s : State) (a n : Nat) (op : AOp) (b cmp : Nat) : State :=
  let s := (s.recall (secOf a)).l2Fill (secOf a)
  let old := s.homeRead a n
  if s.planeOff a || s.homePoison (secOf a) then s.answer (.hostPoison a)
  else
    let s := if atomWrites op old cmp then s.homeWrite (cellsAt a n (atomNew n op old b cmp)) [] [] else s
    s.answer (.hostLoad a (bytesOf n old))
/-- The words of a host's store in the capture log (spec/18 R394, DESIGN CHOICE, log 21). -/
def hostLog (a : Nat) (data : List Byte) : List Word :=
  [BitVec.ofNat 32 (3 * 2 ^ 30), BitVec.ofNat 32 a, BitVec.ofNat 32 (a / 2 ^ 32), BitVec.ofNat 32 data.length]
    ++ (List.range ((data.length + 3) / 4)).map fun i => BitVec.ofNat 32 (ofBytes ((data.drop (4 * i)).take 4))

/-- HOST_ACCESS: before the firmware runs, stores into the boot staging region only, the last 8 bytes being the length
(spec/19 R406); after it, loads, stores and atomics of installed memory (R405). Anything else gets an error completion
(R401). -/
def execHostAccess (acc : HostAcc) (nodir : Bool) (s : State) : Out State :=
  ofStep "HOST_ACCESS" (if s.fw.pkgSusp then none else match acc with
    | .load a n => some (if s.fw.loaded && s.hostReach a n then s.hostLoad a n nodir else s.answer (.hostErr a))
    | .store a data =>
      let n := data.length
      let boot := decide (s.bootBase ≤ a ∧ a + n ≤ s.bootBase + bootBytes ∧ 0 < n)
      if s.fw.loaded then
        if s.hostReach a n then (s.input (hostLog a data)).map fun s => s.hostStore a data nodir
        else some (s.answer (.hostErr a))
      else if !boot then some (s.answer (.hostErr a))
      else
        let s := s.hostStore a data nodir
        some (if a = s.bootBase + bootBytes - 8 then s.takeBundle (ofBytes data) else s)
    | .atomic a s64 op b cmp =>
      let n := if s64 then 8 else 4
      if !s.fw.loaded || !s.hostReach a n || a % n != 0 || nodir then some (s.answer (.hostErr a))
      else (s.input (hostLog a (bytesOf 8 b.toNat))).map fun s => s.hostAtomic a n op b.toNat cmp.toNat)

/-- DISPLAY_SCANOUT: the display engine reads a frame from the memory devices, below every cache (spec/19 R405, spec/09
R199). -/
def execDisplayScanout (addr len : Nat) (s : State) : Out State :=
  s.whenDo (s.fw.loaded && !s.fw.pkgSusp && s.hostReach addr len) "DISPLAY_SCANOUT" fun s =>
    if s.planeOff addr || (secsOf addr len).any s.mem.devPoison.contains then s.answer (.hostPoison addr)
    else s.answer (.frame addr ((List.range len).map fun i => cellRead s.mem.dev (addr + i)))

/-! ### Suspend and resume (spec/19 R409, R410) -/

/-- The compute blocks on cores. -/
def State.onCores (s : State) : List Nat := (s.blocks.filter fun p => !isSvc p.2.core && p.2.onCore).map (·.1)
/-- Stop: the distributors place nothing, no compute thread issues, and waiting words are abandoned (spec/18 R382). -/
def State.stopAll (s : State) : State := { s.stopUnit s.onCores with pkg := { s.pkg with suspended := true } }
/-- Operations that a suspend's drain leaves: under a system suspend the senders' transfers too, which stay incomplete
(spec/19 R410). -/
def State.parkable (s : State) (o : Op) : Bool := s.fw.sysSusp && o.stage == 3 && match o.kind with
  | .put .. => true
  | _ => false
/-- Have all the resident blocks drained, but for what is parked and what waits for it? -/
def State.drainedAll (s : State) : Bool :=
  let put := (s.ops.filter s.parkable).map (·.id)
  let left := { s with ops := s.ops.filter fun o => !put.contains o.id && !o.after.any put.contains }
  left.drained s.onCores
/-- Every thread on a core stands at its position, its queues restarted (spec/02 R55). -/
def State.standAll (s : State) : State :=
  { s with blocks := s.blocks.map fun (p : Nat × Block) => (p.1, { p.2 with
      threads := p.2.threads.map fun (q : Nat × Thread) => (q.1, (q.2.stand).restart (s.now p.2.core)) }) }
/-- Change the state of every link that is in one state, where its ends allow it. -/
def State.allLinks (s : State) (from_ dest : LState) (held : Bool) : State :=
  let ks := (List.range 14).flatMap fun k => (List.range (linkModules k)).map (linkKey k)
  ks.foldl (fun (s : State) k =>
    if (s.link? k).state == from_ && (held || (!(s.link? k).pause && !(s.link? (linkOther k)).pause)) then
      s.modLink k fun l => { l with state := dest }
    else s) s
/-- Has any link a drain or a training under way? -/
def State.linksMoving (s : State) : Bool := s.links.any fun p => p.2.state == .drain || p.2.state == .train
/-- Inbound transfers that wait are dropped with no effect, and with them the page requests they made (spec/19 R409,
R410). -/
def State.dropInbound (s : State) : State :=
  let ids := (s.ops.filter fun o => match o.kind with
    | .inbound .. => true
    | _ => false).map (·.id)
  { s with
    ops := s.ops.filter fun o => !ids.contains o.id
    blocks := s.blocks.map fun (p : Nat × Block) => (p.1, { p.2 with
      faultq := p.2.faultq.filter fun r => !(r.op.any ids.contains) }) }

/-- PACKAGE_SUSPEND: first the Stop; then, once everything has drained, the modules pause, the memory refreshes itself, and
the clocks freeze (spec/19 R409). -/
def execPackageSuspend (s : State) : Out State :=
  ofStep "PACKAGE_SUSPEND" (
    if s.fw.pkgSusp || !s.fw.loaded then none
    else if !s.pkg.suspended then some s.stopAll
    else
      let s := s.landAll
      if !s.drainedAll || s.linksMoving then none
      else
        let s := ((s.dropInbound).allLinks .active .paused true)
        some { s with fw := { s.fw with pkgSusp := true } })
/-- PACKAGE_RESUME: the reverse; threads go on from their positions (spec/19 R409), after a system suspend only with
SYSTEM_RESUME (R410). -/
def execPackageResume (s : State) : Out State :=
  s.whenDo s.fw.pkgSusp "PACKAGE_RESUME" fun s =>
    let s := (s.standAll).allLinks .paused .active false
    { s with fw := { s.fw with pkgSusp := false }, pkg := { s.pkg with suspended := s.fw.sysSusp } }
/-- SYSTEM_SUSPEND: Stop; then Park: transfers that can be placed are, the rest are dropped at the receiver and the switch
(spec/19 R410). -/
def execSystemSuspend (s : State) : Out State :=
  s.whenDo (!s.fw.pkgSusp && !s.fw.sysSusp && s.fw.loaded) "SYSTEM_SUSPEND" fun s =>
    let s := s.stopAll
    let s := s.ops.foldl (fun (s : State) o => match o.kind with
      | .inbound a b c d .. => (s.tryInbound a b c d).getD s
      | _ => s) s
    let s := s.dropInbound
    { s with fw := { s.fw with sysSusp := true }, fabric := { s.fabric with reds := [] } }
/-- SYSTEM_RESUME: senders resend their parked transfers whole, then issue restarts (spec/19 R410). -/
def execSystemResume (s : State) : Out State :=
  s.whenDo (s.fw.sysSusp && !s.fw.pkgSusp) "SYSTEM_RESUME" fun s =>
    let mine (m : OutMsg) : Bool := match m with
      | .put pod pkg chan seq .. => s.ops.any fun o => o.stage == 3 && (match o.kind with
        | .put _ _ _ a b c _ d => a == pod && b == pkg && c == chan && d == seq
        | _ => false)
      | _ => false
    { s with
      fw := { s.fw with sysSusp := false }
      pkg := { s.pkg with suspended := false }
      outs := s.outs ++ s.outs.filter mine }

end Sys2Proof.Machine
end

