-- ==== Sys2Proof/Machine/Select.lean ====
section
/-!
DEFINITION. Machine/Select.lean: which words issue at a clock: the words each class chapter holds back (spec/03 R63), the path
table (R64), the choice of one entry for each class by urgency, priority and age and of one thread for each lane (R65, R66;
spec/08 R156), and the issue of the chosen group (spec/01 R28).
-/

namespace Sys2Proof.Machine

/-! ### What holds a word back -/

/-- Does the condition of a word's own entry hold it back for a thread that would be an active lane: WAITC, TKW, SLEEP (spec/03
R84), WFI (spec/18 R375), a second sign of an epoch (R72), the release of FENCE, WINREL, TLBINV and a tail write under way
(spec/10 R217, spec/17 R346, spec/18 R380, R389), CPADV (spec/12 R265)? -/
def State.waitsFor (s : State) (t : Tid) (i : Instr) : Bool :=
  let b := s.block t.blk
  let th := s.thread t
  let unacked := match th.fenceIds with | some ids => !s.acked b.core ids | none => false
  match i with
  | .waitc _ ld st cp mt => !(decide (th.ld ≤ ld.val) && decide (th.st ≤ st.val) && decide (th.cp ≤ cp.val) && decide (th.mt ≤ mt.val))
  | .tkw _ k any => (s.staleAt t k.ins).isNone && !tkwDone any (s.tkSets t k.ins)
  | .sleep _ a mb clocks => !s.slept t b.core (sleepFor (s.rd t a) clocks) mb
  | .wfi _ => !(if isSvc b.core then s.wakes (svcSlot b.core) else s.slept t b.core (2 ^ 64) true)
  | .fence _ kind _ => !s.fencedDone t || (kind.rels && unacked)
  | .winrel .. => !s.fencedDone t
  | .sign _ n => s.signWaits t n.val
  | .mma _ _ n .. | .mmas _ _ n .. => s.signWaits t n.val || ((s.cv t.blk n.val).op == .none && !s.windowQuiet t)
      || th.tabAt.any fun k => !s.entryFor (quadOf b.core) k
  | .csrr .. | .csrw .. | .csrset .. | .csrclr .. => unacked
  | .tlbinv .. => unacked || (match th.tlbIds with | some ids => ids.any s.pending | none => false)
  | .cpadv _ _ m => b.ring.any fun r => !r.ready m
  | _ => false

/-- As `waitsFor`; a thread that is no active lane is not held back. -/
def State.entryHolds (s : State) (t : Tid) (i : Instr) : Bool :=
  (match i.hdr? with | some h => s.isActive h t | none => true) && s.waitsFor t i

/-- Is the unit a word needs free (spec/07 R138, spec/09 R177, spec/12 R267, spec/17 R363)? -/
def State.unitFree (s : State) (c : Nat) (i : Instr) : Bool :=
  (i.cls != 3 || decide ((s.core c).sfuFree ≤ s.now c))
    && (!(i.cls == 5 || i.cls == 6) || decide ((s.core c).memFree ≤ s.now c))
    && (i.cls != 7 || decide ((s.core c).copyFree ≤ s.now c))
    && (match i with | .rast .. => decide ((s.core c).rastFree ≤ s.now c) | _ => true)

/-- Is a decoded word eligible (spec/03 R63): besides what `eligible` says, its entry does not hold it back, its gather is
complete (spec/08 R155), its unit is free? -/
def State.elig (s : State) (t : Tid) (pc : DWord) (i : Instr) : Bool :=
  s.eligible t pc i && (!s.unitStopped t.blk || (s.thread t).pc == pc) && (!i.gathers || (s.gatherOf t pc).isSome) && s.unitFree (s.block t.blk).core i && !s.entryHolds t i

/-- May an eligible word issue now: the core issues words, and none of its class has issued at this clock (spec/03 R65)? -/
def State.mayIssue (s : State) (t : Tid) (pc : DWord) (i : Instr) : Bool :=
  let c := (s.block t.blk).core
  s.elig t pc i && s.coreIssues c && decide ((s.core c).classAt.find i.cls ≠ some (s.now c))

/-- Has a thread arrived at a cross-lane word and does it wait there (spec/08 R155)? -/
def State.arrived (s : State) (t : Tid) (pc : DWord) : Bool :=
  let th := s.thread t
  s.runs t && th.trap.isNone && fld (pc - th.pc) 0 3 == 0 && (s.gatherOf t pc).isNone
    && match th.win[th.winIx pc]? with
      | some { word := some w, issued := false, .. } => match s.decodeWord t w with
        | .ok i => i.gathers && s.eligible t pc i && s.unitFree (s.block t.blk).core i
        | .error _ => false
      | _ => false

/-- What a thread can do at the word at `pc`, once its window reaches it. -/
def State.ready (s : State) (t : Tid) (pc : DWord) : Ready :=
  let th := s.thread t
  let k := th.winIx pc
  let now := s.now (s.block t.blk).core
  if !s.runs t || fld (pc - th.pc) 0 3 ≠ 0 || th.heldAt == some (pc, now) then .wait
  else match th.trap with
    | some tr => .trap tr
    | none => match th.win[k]? with
      | some { word := some w, issued := false, .. } =>
        match s.decodeWord t w with
        | .error r => if k = 0 ∧ Nat.max th.fpAt th.readyAt ≤ now then .fault ⟨rejectCode r, w, 0⟩ else .wait
        | .ok i => if s.mayIssue t pc i then .go w i else .wait
      | some { issued := true, .. } => .wait
      | _ =>
        if k = 0 ∧ Nat.max th.fpAt th.readyAt ≤ now then match s.fetchWord t pc with
          | .error f => .fault f
          | .ok _ => .wait
        else .wait

/-- Take the trap a thread carries (spec/09 R180, spec/11 R233): its word is the one that left it, its position the next
word. -/
def State.takeTrap (s : State) (t : Tid) (tr : Trap) : State :=
  let code : FCode := if tr.code = 0x0F then .barBroken else if tr.code = 0x0C then .tagWait else if tr.code = 0x08 then .access else .poison
  let b := s.block t.blk
  if isSvc b.core then
    s.svcTrap (svcSlot b.core) false code tr.val (s.thread t).pc (s.thread t).skipMask
  else
    let ts := ((b.threads.filter fun p => p.1 / 64 == t.row && p.2.status == .live
      && (match p.2.trap with | some u => u.code == tr.code && u.pc == tr.pc | none => false)).map fun p => (⟨t.blk, p.1⟩ : Tid))
    let val := match (lowLane ts t.blk).bind fun u => (s.thread u).trap with
      | some u => u.val
      | none => tr.val
    let s' := s.faultEvent t.blk t.row tr.pc ts ⟨code, val, tr.sub⟩
    if (s'.thread t).susp.isSome then s'.modThreads ts fun th => { th with trap := none } else s'

/-! ### The path table (spec/03 R64) and the choice (R65) -/

/-- A thread that holds an eligible word: its kernel, the word's address and instruction, its age there, its effective
priority and 1, 0 while it yields, whether it is urgent, lane and slot. -/
structure Cand where
  t : Tid
  kern : Nat
  pc : DWord
  i : Instr
  age : Nat
  prio : Nat
  urgent : Bool
  slot : Nat
  deriving DecidableEq, Repr

/-- A kernel is known by its entry address (spec/01 R22). -/
def State.kern (s : State) (t : Tid) : Nat := (s.grid (s.block t.blk).grid).lrec.entry.toNat

/-- The effective priority of a thread, plus 1: 0 is -1, that of a thread that yields (spec/03 R65, R85). -/
def State.effPrio (s : State) (t : Tid) : Nat :=
  let y := (s.thread t).yield
  if 2 ≤ y ∧ y ≠ 66 then 0 else (s.block t.blk).prio + 1

/-- The eligible words of a thread, oldest first: address, instruction, the clock since which each has been eligible, virtual in capture mode
(spec/18 R394). -/
def State.eligWords (s : State) (t : Tid) : List (DWord × Instr × Nat) :=
  let th := s.thread t
  let now := s.now (s.block t.blk).core
  if !s.runs t || th.trap.isSome then []
  else th.win.zipIdx.filterMap fun p => match p.1 with
    | { word := some w, issued := false, .. } =>
      let pc := th.pc + BitVec.ofNat 64 (8 * p.2)
      if th.heldAt == some (pc, now) then none
      else match s.decodeWord t w with
        | .ok i => if s.elig t pc i then some (pc, i, p.1.elig.getD (s.stamp (s.block t.blk).core)) else none
        | .error _ => none
    | _ => none

/-- The eligible words of a core's threads. -/
def State.cands (s : State) (c : Nat) : List Cand :=
  s.blocks.flatMap fun p => if p.2.core != c then [] else p.2.threads.flatMap fun q =>
    let t : Tid := ⟨p.1, q.1⟩
    let ws := s.eligWords t
    let urgent := q.2.urgent || (match ws with | (_, _, a) :: _ => decide (a + 1024 ≤ s.stamp c) | [] => false)
    ws.map fun w => { t := t, kern := s.kern t, pc := w.1, i := w.2.1, age := w.2.2, prio := s.effPrio t, urgent := urgent,
                      slot := s.slot t }

/-- The key of the entry that holds a candidate. -/
def Cand.key (k : Cand) : Nat × Nat := (k.kern, k.pc.toNat)
/-- The set of an address (spec/03 R64). -/
def pathSet (a : Nat) : Nat := (a / 8 % 64) ^^^ (a / 512 % 64)

/-- One word asks for a place: it is held where its entry exists, takes a free way of its set, else it joins the overflow list. -/
def pathAdd (x : List (Nat × Nat) × List (Tid × Nat)) (t : Tid) (key : Nat × Nat) : List (Nat × Nat) × List (Tid × Nat) :=
  if x.1.contains key then x
  else if (x.1.filter fun e => pathSet e.2 == pathSet key.2).length < 4 then (x.1 ++ [key], x.2)
  else (x.1, x.2 ++ [(t, key.2)])

/-- The path table and the overflow list with the words eligible now: entries that hold no thread are freed; a freed way goes to
the oldest overflow thread of its set, then new words ask in turn (spec/03 R64). -/
def State.pathNow (s : State) (c : Nat) (cs : List Cand) : List (Nat × Nat) × List (Tid × Nat) :=
  let k := s.core c
  let kept := k.ptab.filter fun e => cs.any fun x => x.key == e
  let waiting := k.oflow.filterMap fun o => (cs.find? fun x => x.t == o.1 && x.pc.toNat == o.2).map fun x => (x.t, x.key)
  let fresh := cs.filter fun x => !(waiting.any fun o => o.1 == x.t && o.2 == x.key)
  (waiting ++ fresh.map fun x => (x.t, x.key)).foldl (fun x o => pathAdd x o.1 o.2) (kept, [])

/-- A path-table entry that words of one class make eligible: urgency, priority, age. -/
structure Entry where
  key : Nat × Nat
  urgent : Bool
  prio : Nat
  age : Nat
  deriving DecidableEq, Repr

/-- The entries of some candidates. -/
def entriesOf (cs : List Cand) : List Entry :=
  cs.foldl (fun (es : List Entry) c => match es.find? fun e => e.key == c.key with
    | some e => es.map fun x => if x.key == c.key then
        { e with urgent := e.urgent || c.urgent, prio := Nat.max e.prio c.prio, age := Nat.min e.age c.age } else x
    | none => es ++ [{ key := c.key, urgent := c.urgent, prio := c.prio, age := c.age }]) []

/-- Does the issue logic take an entry before another (spec/03 R65)? -/
def Entry.before (a b : Entry) : Bool :=
  if a.urgent != b.urgent then a.urgent
  else if a.urgent then decide (a.age < b.age)
  else decide (b.prio < a.prio ∨ (a.prio = b.prio ∧ a.age < b.age))

/-- The candidates of a class that are in the path table, and the entries among them that may be chosen: none is taken before
them. Which of several is chosen is the agenda's. -/
def State.choices (s : State) (c q : Nat) : List Cand × List Entry :=
  let cs := s.cands c
  let tab := (s.pathNow c cs).1
  let cs := cs.filter fun x => x.i.cls == q && tab.contains x.key
  let es := entriesOf cs
  (cs, es.filter fun e => es.all fun x => !x.before e)

/-- Does a lane take one thread before another: a yielding thread last, then the older, then the lower slot (spec/03 R65)? -/
def Cand.before (a b : Cand) : Bool :=
  if (a.prio == 0) != (b.prio == 0) then b.prio == 0
  else decide (a.age < b.age ∨ (a.age = b.age ∧ a.slot < b.slot))

/-- One thread for each lane (spec/03 R65). -/
def onePerLane (cs : List Cand) : List Tid :=
  (cs.filter fun a => cs.all fun b => b.t.lane != a.t.lane || b.t == a.t || !b.before a).map (·.t)

/-- The completed gathers of a core at a word, the older first, then the lower slot (spec/08 R156). -/
def State.gathersAt (s : State) (c : Nat) (pc : DWord) : List Gather :=
  ((s.core c).gathers.filter fun g => g.pc == pc && g.done.isSome).foldl (fun a g =>
    let le := fun (x : Gather) => decide (x.doneAt < g.doneAt) ||
      (x.doneAt == g.doneAt && decide (s.slot ⟨x.blk, 64 * x.row⟩ ≤ s.slot ⟨g.blk, 64 * g.row⟩))
    a.filter le ++ [g] ++ a.filter fun x => !le x) []

/-- Whole gathers whose lanes are disjoint, in that order (spec/08 R156). -/
def State.wholeGathers (s : State) (c : Nat) (pc : DWord) (ts : List Tid) : List Tid :=
  (s.gathersAt c pc).foldl (fun a g =>
    let who := ((g.done.getD []).map fun i => (⟨g.blk, i⟩ : Tid)).filter fun t => (s.thread t).status == .live
    if who.all fun t => ts.contains t && !a.any fun u => u.lane == t.lane then a ++ who else a) []

/-- The issue group of an entry's candidates (spec/03 R65, spec/08 R156). -/
def State.groupAt (s : State) (c : Nat) (cs : List Cand) : List Tid := match cs with
  | [] => []
  | x :: _ => if x.i.gathers then s.wholeGathers c x.pc (cs.map (·.t)) else onePerLane cs

/-- The group the issue logic takes for a class at an entry, where the entry may be chosen. -/
def State.select (s : State) (c : Nat) (key : Nat × Nat) (i : Instr) : List Tid :=
  let x := s.choices c i.cls
  if x.2.any fun e => e.key == key then s.groupAt c (x.1.filter fun k => k.key == key && k.i == i) else []

/-- Must a word issue on the core before its clock passes: the issue logic has one to select for a class that has issued none at
this clock (spec/03 R65, R66)? -/
def State.owes (s : State) (c : Nat) : Bool :=
  s.coreIssues c && (let cs := s.cands c
    let tab := (s.pathNow c cs).1
    cs.any fun x => tab.contains x.key && decide ((s.core c).classAt.find x.i.cls ≠ some (s.now c)))

/-! ### The turn of a core -/

/-- The threads a turn names: those of the named core, one per lane, all of one kernel (spec/01 R28, spec/03 R65). -/
def State.groupOf (s : State) (g : Issue) : List Tid :=
  let onCore := g.tids.filter fun t => (s.block t.blk).core == g.core && (s.block t.blk).threads.any (·.1 == t.idx)
  match onCore with
  | [] => []
  | t0 :: _ => (onCore.filter fun t => s.kern t == s.kern t0).foldl
      (fun a t => if a.any (fun u => u.lane == t.lane) then a else a ++ [t]) []

/-- The threads of an issue with their windows filled up to its word. -/
def State.prepare (s : State) (g : Issue) : State := (s.groupOf g).foldl (fun s t => s.fetchTo t g.pc 16) s

/-- The first thread of a turn that can do something at the word, with what it does. -/
def State.leads (s : State) (g : Issue) : Option (Tid × Ready) :=
  ((s.groupOf g).map fun t => (t, s.ready t g.pc)).find? fun r => r.2 != .wait

/-- One turn of the issue logic for a core and a word: where its entry may be chosen, its issue group issues (spec/03 R65); a
pending trap or a fault at fetch or decode is taken instead; with none of these there is no such turn. -/
def State.issueWith (run : Instr → State → Out State) (s : State) (g : Issue) : Out State :=
  let s := s.prepare g
  match s.leads g with
  | some (t, .go _ i) => match s.select g.core (s.kern t, g.pc.toNat) i with
    | [] => .refused (.notEnabled "ISSUE")
    | ts => run i { s with cur := { core := g.core, pc := g.pc, tids := ts } }
  | some (_, .fault f) =>
    let ts := (s.groupOf g).filter fun t => s.ready t g.pc == .fault f
    .next ({ s with cur := { core := g.core, pc := g.pc, tids := ts } }.raise (ts.map fun t => (t, f)))
  | some (t, .trap tr) => .next (s.takeTrap t tr)
  | _ => .refused (.notEnabled "ISSUE")

/-- A thread that takes a trap or a fault at its oldest word, with its row-mates there. -/
def State.nextFault (s : State) : Option Issue :=
  s.blocks.findSome? fun p => p.2.threads.findSome? fun q =>
    let g : Issue := { core := p.2.core, pc := q.2.pc, tids := (p.2.threads.filter fun u =>
      u.1 / 64 == q.1 / 64 && u.2.pc == q.2.pc).map fun u => ⟨p.1, u.1⟩ }
    if !s.runs ⟨p.1, q.1⟩ then none
    else match (s.prepare g).leads g with
      | some (_, .go ..) | none => none
      | _ => some g

/-- Every running thread of a core with its oldest word fetched. -/
def State.headsOf (s : State) (c : Nat) : State :=
  (s.blocks.flatMap fun p => if p.2.core == c then p.2.threads.map fun q => (⟨p.1, q.1⟩ : Tid) else []).foldl
    (fun s t => if s.runs t then s.fetchTo t (s.thread t).pc 16 else s) s

/-- The first entry the issue logic can choose on a core. -/
def State.nextOn (s : State) (c : Nat) : Option Issue :=
  let s := s.headsOf c
  if !s.coreIssues c then none
  else (List.range 16).findSome? fun q =>
    if (s.core c).classAt.find q = some (s.now c) then none
    else
      let x := s.choices c q
      x.2.head?.map fun e => { core := c, pc := BitVec.ofNat 64 e.key.2, tids := (x.1.filter fun k => k.key == e.key).map (·.t) }

/-- With an empty agenda: a trap or fault that is due, else the first word the issue logic can choose. -/
def State.nextIssue (s : State) : Option Issue :=
  match s.nextFault with
  | some g => some g
  | none => (sortNat (s.blocks.map (·.2.core))).findSome? s.nextOn

/-! ### The end of a clock -/

/-- Is a thread blocked, and not stalled (spec/03 R63)? -/
def State.blocked (s : State) (t : Tid) : Bool :=
  let th := s.thread t
  if th.rejected.isSome then false
  else !s.runs t || th.trap.isSome || (th.win.zipIdx.any fun p => match p.1 with
    | { word := some w, issued := false, .. } => match s.decodeWord t w with
      | .ok i => s.entryHolds t i || (i.gathers && (s.gatherOf t (th.pc + BitVec.ofNat 64 (8 * p.2))).isNone) || !s.roomFor t i
          || (i.isAccess && s.acqPending t) || (i.waitsDone && !s.allDone t)
      | .error _ => true
    | _ => false)

/-- Has a word of the thread issued at a clock? -/
def Thread.issuedAt (th : Thread) (now : Nat) : Bool := th.qlast.any (·.2 == now)

/-- May the clock of a core pass for a thread: it is blocked, has issued at it, or has done so within 4,096 clocks (spec/03
R67)? -/
def State.inBound (s : State) (t : Tid) (ws : List (DWord × Instr × Nat)) : Bool :=
  let th := s.thread t
  let now := s.now (s.block t.blk).core
  th.status != .live || th.issuedAt now || decide (now < th.owed + 4095) || (ws.isEmpty && s.blocked t)

/-- A thread at the end of a clock: which words have been eligible and since when; a clock with an eligible word is an issue
opportunity (spec/03 R65, R85); the bound counts from the next clock where it issued or is blocked (R67). -/
def State.endThread (s : State) (t : Tid) (ws : List (DWord × Instr × Nat)) (th : Thread) : Thread :=
  let now := s.now (s.block t.blk).core
  let opp := !ws.isEmpty || th.issuedAt now
  { th with
    win := th.win.zipIdx.map fun p =>
      { p.1 with elig := (ws.find? fun w => w.1 == th.pc + BitVec.ofNat 64 (8 * p.2)).map fun w => w.2.2 }
    yield := if 66 ≤ th.yield then 65 else if opp && decide (1 < th.yield) then th.yield - 1 else th.yield
    owed := if th.issuedAt now || (ws.isEmpty && s.blocked t) then now + 1 else th.owed }

/-- The threads of a core with their eligible words. -/
def State.wordsOn (s : State) (c : Nat) : List (Tid × List (DWord × Instr × Nat)) :=
  s.blocks.flatMap fun p => if p.2.core != c then [] else p.2.threads.map fun q => (⟨p.1, q.1⟩, s.eligWords ⟨p.1, q.1⟩)

/-- Does a core drive filler at this clock (spec/16 R334): its level is light, and its string fills or throttles, a FILL request is in
force, or it issues nothing? -/
def State.drivesFiller (s : State) (c : Nat) : Bool :=
  let q := s.quad (quadOf c)
  let k := s.core c
  !isSvc c && decide (q.dev.getD (c % 4) 0 < 0) && (q.mstate == .filler || q.mstate == .throttle
    || k.fill.any (fun p => decide (s.now c < p.2)) || !k.classAt.any (fun p => p.2 == s.now c))

/-- What the end of a clock of a core keeps for the next: ages, opportunities, the path table, whether it drove filler, what a
service core's SIP showed. -/
def State.endClock (s : State) (c : Nat) : State :=
  let tab := s.pathNow c (s.cands c)
  let s' := (s.wordsOn c).foldl (fun s' w => s'.modThread w.1 (s.endThread w.1 w.2)) s
  let s' := s'.modCore c fun k => { k with
    ptab := tab.1, oflow := tab.2
    filler := (2 * k.filler + if s.drivesFiller c then 1 else 0) % 2 ^ 1024 }
  if isSvc c then s'.modSvc (svcSlot c) fun v => { v with irq := s.sip (svcSlot c) } else s'

/-- TKW's sets and TOKEN_STALE are taken at the clock at which it becomes the oldest word (spec/03 R84). -/
def State.snapTkw (s : State) (c : Nat) : State :=
  (s.wordsOn c).foldl (fun s' w =>
    let th := s.thread w.1
    match th.win with
    | { word := some wd, issued := false, .. } :: _ =>
      if th.tkSnap.isEmpty && th.since.any fun h => decide (h ≤ s.now c) then match s.decodeWord w.1 wd with
        | .ok (.tkw _ k _) => s'.modThread w.1 fun th => { th with tkSnap := s.tkSnapOf w.1 k.ins }
        | _ => s'
      else s'
    | _ => s') s

end Sys2Proof.Machine
end

