-- ==== Sys2Proof/Machine/EvIssue.lean ====
section
/-!
DEFINITION. Machine/EvIssue.lean: the events of the issue logic: fetch and decode faults (spec/02 R32, R33, R52), reissue
after a full fault queue (spec/18 R370), ageing and the end of a demotion (spec/03 R65, R85), rejected groups (spec/09
R178), gathers (spec/08 R155).
-/

namespace Sys2Proof.Machine

/-- INSTRUCTION_FETCH: the next word joins the window, or, at the oldest place, its fetch faults (spec/02 R32, R33). -/
def execInstructionFetch (t : Tid) (s : State) : Out State :=
  let th := s.thread t
  let b := s.block t.blk
  let pc := th.fetchPc
  let on_ := (!isSvc b.core || (s.svc (svcSlot b.core)).started) && b.threads.any (·.1 == t.idx) && b.onCore && th.status == .live
  ofStep "INSTRUCTION_FETCH" (if !on_ || !s.mayFetch t then none
    else match s.fetchWord t pc with
      | .ok _ => some (s.fetchNext t)
      | .error f =>
        if th.fetchIx = 0 ∧ s.runs t = true ∧ th.trap.isNone = true ∧ Nat.max th.fpAt th.readyAt ≤ s.now b.core then
          some ({ s with cur := { core := b.core, pc := pc, tids := [t] } }.raise [(t, f)])
        else none)

/-- DECODE_FAULT: threads whose oldest word is no instruction fault at it (spec/02 R52, R53). -/
def execDecodeFault (ts : List Tid) (s : State) : Out State :=
  ofStep "DECODE_FAULT" (match ts with
    | [] => none
    | t :: _ =>
      let pc := (s.thread t).pc
      let g : Issue := { core := (s.block t.blk).core, pc := pc, tids := ts }
      let s := s.prepare g
      match s.ready t pc with
      | .fault f =>
        if s.groupOf g = ts ∧ (ts.all fun u => s.ready u pc == .fault f) = true then
          some ({ s with cur := g }.raise (ts.map fun u => (u, f)))
        else none
      | _ => none)

/-- FAULT_EVENT_REISSUE: a record of the block is free, and the threads that waited for it reissue their word (spec/18
R370). -/
def execFaultEventReissue (blk : Nat) (s : State) : Out State :=
  let b := s.block blk
  s.whenDo (!b.held.isEmpty && decide (b.faultq.length < Config.faultRecords)) "FAULT_EVENT_REISSUE" fun s =>
    s.modBlock blk fun b => { b with held := [] }

/-- URGENT_AGEING: a thread's oldest eligible word has been eligible for 1,024 clocks, which makes its entry urgent (spec/03
R65). -/
def execUrgentAgeing (t : Tid) (s : State) : Out State :=
  let old := match s.eligWords t with
    | (_, _, a) :: _ => decide (a + 1024 ≤ s.stamp (s.block t.blk).core)
    | [] => false
  s.whenDo (old && !(s.thread t).urgent) "URGENT_AGEING" fun s => s.modThread t fun th => { th with urgent := true }

/-- YIELD_DEMOTION_END: the thread has had its 64 issue opportunities (spec/03 R85). -/
def execYieldDemotionEnd (t : Tid) (s : State) : Out State :=
  s.whenDo ((s.thread t).yield == 1) "YIELD_DEMOTION_END" fun s => s.modThread t fun th => { th with yield := 0 }

/-- MSHR_REJECT_RETRY: 8 clocks after its rejection the threads of a group are eligible at their word again (spec/09
R178). -/
def execMshrRejectRetry (t : Tid) (s : State) : Out State :=
  let th := s.thread t
  let c := (s.block t.blk).core
  let mate (b : Block) (u : Thread) : Bool := b.core == c && u.rejected == th.rejected && u.pc == th.pc
  let free (b : Block) (p : Nat × Thread) : Nat × Thread := if mate b p.2 then (p.1, { p.2 with rejected := none }) else p
  s.whenDo (th.rejected.any fun r => decide (r + 8 ≤ s.now c)) "MSHR_REJECT_RETRY" fun s =>
    { s with blocks := s.blocks.map fun (q : Nat × Block) => (q.1, { q.2 with threads := q.2.threads.map (free q.2) }) }

/-! ### Gathers (spec/08 R155) -/

/-- The cross-lane word at which a thread has arrived and waits. -/
def State.arrivedAt (s : State) (t : Tid) : Option DWord :=
  let th := s.thread t
  ((List.range th.win.length).map fun k => th.pc + BitVec.ofNat 64 (8 * k)).find? (s.arrived t)

/-- GATHER_OPEN: the first arrival of a row at a word, where no gather of the row is open there; its window is XLWIN. -/
def execGatherOpen (t : Tid) (s : State) : Out State :=
  let b := s.block t.blk
  ofStep "GATHER_OPEN" ((s.arrivedAt t).bind fun pc =>
    if (s.core b.core).gathers.any fun g => g.blk == t.blk && g.row == t.row && g.pc == pc && g.done.isNone then none
    else some (s.modCore b.core fun k => { k with
      gathers := k.gathers ++ [{ blk := t.blk, row := t.row, pc := pc, since := k.clk, win := b.xlwin.toNat }] }))

/-- The threads of a gather's row that have arrived at its word, by index. -/
def State.present (s : State) (g : Gather) : List Nat :=
  ((s.block g.blk).threads.filter fun p => p.1 / 64 == g.row && s.arrived ⟨g.blk, p.1⟩ g.pc).map (·.1)
/-- Has every live thread of the row arrived? -/
def State.rowHere (s : State) (g : Gather) : Bool :=
  (s.block g.blk).threads.all fun p => p.1 / 64 != g.row || p.2.status != .live || s.arrived ⟨g.blk, p.1⟩ g.pc

/-- An open gather completes with its present threads; with none it ends. -/
def State.closeGather (s : State) (g : Gather) : State :=
  let who := s.present g
  s.modCore (s.block g.blk).core fun k => { k with
    gathers := if who.isEmpty then k.gathers.erase g else k.gathers.map fun x => if x = g then { x with done := some who, doneAt := s.stamp (s.block g.blk).core } else x }

/-- The open gather of a row that a condition picks. -/
def State.openGather (s : State) (blk row : Nat) (ok : Gather → Bool) : Option Gather :=
  (s.core (s.block blk).core).gathers.find? fun g => g.blk == blk && g.row == row && g.done.isNone && ok g

/-- GATHER_COMPLETE: every live row-mate has arrived. -/
def execGatherComplete (blk row : Nat) (s : State) : Out State :=
  ofStep "GATHER_COMPLETE" ((s.openGather blk row s.rowHere).map s.closeGather)
/-- GATHER_WINDOW_CLOSE: the window has closed. -/
def execGatherWindowClose (blk row : Nat) (s : State) : Out State :=
  let now := s.now (s.block blk).core
  ofStep "GATHER_WINDOW_CLOSE" ((s.openGather blk row fun g => decide (g.since + g.win ≤ now)).map s.closeGather)

end Sys2Proof.Machine
end

