-- ==== Sys2Proof/Machine/EvMem.lean ====
section
/-!
DEFINITION. Machine/EvMem.lean: the events that complete loads and stores: LOAD_COMPLETE and STORE_PERFORMED (spec/09
R187, spec/10 R203), the acknowledgement of forwarded writes (R420), tag steps (spec/09 R192 to R194); and those of the
memory dies: soft errors (R180), a plane that loses power (R181), self-refresh (spec/16 R341).
-/

namespace Sys2Proof.Machine

/-- Perform a load behind the earlier accesses of its threads (spec/10 R203). -/
def State.performInOrder (s : State) (o : Op) : Option State :=
  (s.performBefore o.tids o.id).bind fun s => match s.op? o.id with
    | some o => s.perform o
    | none => none

/-- The end of a performed load: poison is consumed, or the destination written, all its registers at this step, an earlier read
of any of them having given its old value (R38; DESIGN CHOICE, log 5), and an LDA acquires (spec/09 R180, R187,
R188; spec/10 R221). -/
def State.endLoad (s : State) (o : Op) : State := match o.kind with
  | .load a n d acq =>
    let s := if a.bad then s.consume a.t o.pc a.va else s.wrN a.t d (Nat.max 1 (n / 4)) a.data
    let s := match acq with
      | some sc => s.acquireBy o.core sc o.tids
      | none => s
    s.finish o.id
  | .loadU a n d =>
    let s := (o.tids.filter fun t => writesReg o.tids t d).foldl (fun (s : State) t =>
      if a.bad then s else s.wrN t d (Nat.max 1 (n / 4)) a.data) s
    let s := if a.bad then o.tids.foldl (fun (s : State) t => s.consume t o.pc a.va) s else s
    s.finish o.id
  | .tagr a d => (s.wr a.t d (BitVec.ofNat 32 a.data)).finish o.id
  | _ => s

/-- LOAD_COMPLETE (spec/09 R187; spec/10 R221; spec/11 R227, R241; spec/14 R312; spec/15 R328). -/
def execLoadComplete (op : Nat) (s : State) : Out State :=
  ofStep "LOAD_COMPLETE" ((s.op? op).bind fun o => match o.kind with
    | .load .. | .loadU .. | .tagr .. => (s.performInOrder o).bind fun s => (s.op? op).map s.endLoad
    | .atom accs n aop ord sc d => s.stepAtom o accs n aop ord sc d
    | .semtry t k n p sc => s.stepSemtry o t k n p sc
    | .accrd a f d => s.stepAccrd o a f d
    | .pqry t pa d => some (s.stepPqry o t pa d)
    | _ => none)

/-- STORE_PERFORMED (spec/09 R187, R192, R195, R198; spec/10 R221; spec/11 R228, R241). -/
def execStorePerformed (op : Nat) (s : State) : Out State :=
  ofStep "STORE_PERFORMED" ((s.op? op).bind fun o => match o.kind with
    | .store accs n rel full => s.performStore o accs n rel full
    | .stse .. => s.arriveStse o
    | .tags _ c w k v => s.performTags o c w k v
    | .cmaint secs lvl cop => s.performCmaint o secs lvl cop
    | .red _ n aop rel => s.stepRed o n aop rel
    | .semrel _ c k n sc => s.stepSemrel o c k n sc
    | _ => none)

/-- FORWARDED_WRITE_ACK: the home performs a forwarded write, behind the die's earlier ones of the same sectors, and
acknowledges it (spec/10 R420); with no path left it is discarded (spec/19 R399). -/
def execForwardedWriteAck (die id : Nat) (s : State) : Out State :=
  let d := s.die die
  let secs (f : Fwd) : List Nat := f.bytes.map fun c => secOf c.1
  ofStep "FORWARDED_WRITE_ACK" ((d.fwd.find? (·.id == id)).bind fun f =>
    if (d.fwd.takeWhile (·.id != id)).any fun g => meet (secs g) (secs f) then none
    else
      let ok (sec : Nat) : Bool := !s.noPath die (sec * 64)
      let s := s.homeWrite (f.bytes.filter fun c => ok (secOf c.1)) (f.poison.filter ok) (f.whole.filter ok)
      some (s.modDie die fun d => { d with fwd := d.fwd.filter (·.id != id) }))

/-- TAG_STEP (spec/09 R192, R193). -/
def execTagStep (op : Nat) (s : State) : Out State := ofStep "TAG_STEP" ((s.op? op).bind s.tagStep)
/-- TAG_WAIT (spec/09 R194). -/
def execTagWait (op : Nat) (s : State) : Out State :=
  ofStep "TAG_WAIT" ((s.op? op).bind fun o => match o.kind with
    | .ldsf a .. => s.tagWait o a
    | .stse a _ => s.tagWait o a
    | _ => none)

/-- SOFT_ERROR: an uncorrectable soft error poisons a sector (spec/09 R180). The number above the 47 bits of a sector says
where: 0 its home; 1 a scratchpad, core × 2^16 + sector; 2 + core a sector the core's L1 holds; 336 + die one the RDC
holds. -/
def execSoftError (sec : Nat) (s : State) : Out State :=
  let n := sec / 2 ^ 47
  let x := sec % 2 ^ 47
  let held (a : Nat) : Bool := secOf a == x
  ofStep "SOFT_ERROR" (
    if n = 0 then (if installed (x * 64) then some (s.homeTaint x) else none)
    else if n = 1 then
      if x / 2 ^ 16 < Config.computeCores then
        some (s.modCore (x / 2 ^ 16) fun c => { c with spoison := insNat (x % 2 ^ 16) c.spoison })
      else none
    else if n < 336 then
      if (s.core (n - 2)).l1.any fun e => held e.1 then some (s.modCore (n - 2) fun c => { c with l1poison := insNat x c.l1poison })
      else none
    else if n < 344 ∧ ((s.die (n - 336)).rdc.any fun e => held e.1) = true then
      some (s.modDie (n - 336) fun d => { d with rpoison := insNat x d.rpoison })
    else none)

/-- MEMORY_PLANE_OFF (spec/09 R181). -/
def execMemoryPlaneOff (die : Nat) (s : State) : Out State :=
  s.whenDo (decide (die < 6)) "MEMORY_PLANE_OFF" fun s => s.modMDie die fun m => { m with planeOff := true }

/-- SELF_REFRESH_ENTRY: a channel or rank goes to self-refresh (spec/16 R341); an access wakes it (spec/09 R181). -/
def execSelfRefreshEntry (die chan : Nat) (s : State) : Out State :=
  s.whenDo (decide (die < 6)) "SELF_REFRESH_ENTRY" fun s => s.modMDie die fun m => { m with asleep := insNat chan m.asleep }

end Sys2Proof.Machine
end

