-- ==== Sys2Proof/Machine/Pwr.lean ====
section
/-!
DEFINITION. Machine/Pwr.lean: the PWR class, FILL, PWRH and STRQ (spec/16 R342), and the events of the string monitor
(R332, R335), the rails (R339), the islands (R340) and the thermal observer (R341). Currents and
temperatures are inputs of the events (DESIGN CHOICE, log 12).
-/

namespace Sys2Proof

open Sys2Proof.Machine

/-- The code of an activity class (spec/16 R337). -/
def ActClass.num : ActClass → Nat
  | .idle => 0 | .int => 1 | .mem => 2 | .vec => 3 | .sfu => 4 | .mtx => 5

end Sys2Proof

namespace Sys2Proof.Machine

/-- The PWR queue (spec/02 R50). -/
def qPwr : Nat := 12

/-- STRTHR as it is taken (spec/16 R333). -/
def Quad.strthr (q : Quad) : Nat := Nat.max 1 (Nat.min 127 q.thrCfg)
/-- STRHOLD as it is taken, in units of 256 monitor clocks (spec/16 R333). -/
def Quad.strhold (q : Quad) : Nat := Nat.max 1 q.holdCfg
/-- The code of a monitor state (spec/16 R342). -/
def MState.num : MState → Nat
  | .normal => 0 | .filler => 1 | .throttle => 2 | .gap => 3

/-- FILL: the request of the core, from the lowest active lane; NOP on a service core (spec/16 R342). -/
def execFill (h : Hdr) (kind : FillKind) (a : Reg) (clocks : BitVec 16) (s : State) : Out State :=
  let s' := match isSvc s.cur.core, byLane (s.act h) with
    | false, t :: _ =>
      let d := Nat.min 65535 ((s.rd t a).toNat + clocks.toNat)
      s.modCore s.cur.core fun k => { k with fill := if d = 0 then none else some (kind, s.clk + d) }
    | _, _ => s
  .next (s'.retire qPwr).useFree

/-- A grace period of a level begins, unless one began within the last STRHOLD period (spec/16 R342). -/
def State.startGrace (s : State) (c : Nat) : State :=
  let q := s.quad (quadOf c)
  let len := 256 * q.strhold
  match (s.core c).graceLast with
  | some l => if q.mclk < l + len then s
      else s.modCore c fun k => { k with grace := some (q.mclk + len), graceLast := some q.mclk }
  | none => s.modCore c fun k => { k with grace := some (q.mclk + len), graceLast := some q.mclk }

/-- PWRH: the class of each block with an active lane; a change starts a grace period; NOP on a service core (spec/16
R342). -/
def execPwrh (h : Hdr) (cls : ActClass) (s : State) : Out State :=
  let bs := if isSvc s.cur.core then [] else blksOf (s.act h)
  let s' := if bs.any fun b => (s.block b).actclass != cls then s.startGrace s.cur.core else s
  .next ((bs.foldl (fun s' b => s'.modBlock b fun k => { k with actclass := cls }) s').retire qPwr)

/-- The deviations of a quad as STRQ.IMB shows them (spec/16 R332). -/
def Quad.imbWord (q : Quad) : Word :=
  BitVec.ofNat 32 ((q.dev.zipIdx).foldl (fun m (p : Int × Nat) => m + (p.1 % 256).toNat * 2 ^ (8 * p.2)) 0)
/-- THR and STATE as STRQ.ST shows them (spec/16 R342). -/
def Quad.stWord (q : Quad) : Word := BitVec.ofNat 32 (q.thr * 2 ^ 29 + MState.num q.mstate * 2 ^ 27)
/-- A quad as STRQ.LIM shows it (spec/16 R342). -/
def Quad.limWord (q : Quad) : Word := BitVec.ofNat 32 (q.cslim % 2 ^ 16 * 2 ^ 16 + q.strthr * 2 ^ 8 + q.strhold)
/-- The share of the last 1,024 clocks in which a core drove filler, in 1/256 (spec/16 R342). -/
def Core.fillShare (k : Core) : Nat := Nat.min 255 (((List.range 1024).filter k.filler.testBit).length / 4)
/-- What STRQ returns (spec/16 R332, R342): the string's fields as they were at some clock of the last 16, the core's and
the block's own exact. -/
def State.strqWord (s : State) (t : Tid) (form : SqForm) : Word :=
  let b := s.block t.blk
  let q := s.quad (quadOf b.core)
  let k := s.core b.core
  let old (f : Word × Word × Word → Word) (p : Past) : Option Word := (p.quads.find (quadOf b.core)).map f
  if isSvc b.core then 0
  else match form with
    | .imb => s.oneOf t.idx (s.recent 16 q.imbWord (old (·.1)))
    | .st => s.oneOf t.idx (s.recent 16 q.stWord (old (·.2.1)))
        + BitVec.ofNat 32 (k.fillShare * 2 ^ 16 + Nat.min 255 k.droop * 2 ^ 8 + ActClass.num b.actclass)
    | .lim => s.oneOf t.idx (s.recent 16 q.limWord (old (·.2.2)))

/-- STRQ (spec/16 R342). -/
def execStrq (h : Hdr) (d : Reg) (form : SqForm) (s : State) : Out State :=
  .next (s.fixed qPwr h 4 fun t => [(d, s.strqWord t form)])

/-! ### The string monitor (spec/16 R332, R335) -/

/-- The sum of each level's currents over some monitor clocks. -/
def levelSums (hist : List (List Int)) : List Int := (List.range 4).map fun i => hist.foldl (fun a c => a + c.getD i 0) 0
/-- The deviations of four level currents, in units of 1/128 of their mean, toward zero (DESIGN CHOICE, log 12), limited to
±127 (spec/16 R332). -/
def deviations (cur : List Int) : List Int :=
  let sum := cur.foldl (· + ·) 0
  cur.map fun i => if sum = 0 then 0 else max (-127) (min 127 (((4 * i - sum) * 128).tdiv sum))

/-- Does level q count as within STRTHR: by its deviation, or exempt up to 19 units in a grace period (spec/16 R335,
R342)? -/
def State.inThr (s : State) (q : Nat) (lvl : Nat) (d : Int) : Bool :=
  decide (d.natAbs ≤ (s.quad q).strthr)
    || (decide (d.natAbs ≤ 19) && (s.core (4 * q + lvl)).grace.any fun e => decide ((s.quad q).mclk ≤ e))
/-- Every deviation within STRTHR? -/
def State.allIn (s : State) (q : Nat) : Bool := (s.quad q).dev.zipIdx.all fun (p : Int × Nat) => s.inThr q p.2 p.1

/-- Row 4: a deviation beyond 19 throttles at once (spec/16 R335). -/
def Quad.row4 (q : Quad) : Quad :=
  if q.dev.any fun d => 19 < d.natAbs then { q with thr := Nat.max q.thr 4, mstate := .throttle } else q
/-- Row 6: back to NORMAL (spec/16 R335). -/
def Quad.row6 (ok : Bool) (q : Quad) : Quad := if q.thr = 0 && ok then { q with mstate := .normal } else q

/-- STRING_MONITOR_EVAL: one monitor clock with the measured level currents, averaged over the last 1,024 (spec/16 R332, R335). It stops before the third row, or the fifth, where that row applies: STRHOLD_EXPIRY and THROTTLE_DECAY
go on. -/
def execStringMonitorEval (quad : Nat) (currents : List Int) (s : State) : Out State :=
  s.whenDo (decide (quad < 80) && (s.quad quad).step == 0 && decide (4 ≤ currents.length)) "STRING_MONITOR_EVAL" fun s =>
    let s := s.modQuad quad fun q =>
      let hist := (currents.take 4 :: q.hist).take 1024
      { q with mclk := q.mclk + 1, hist := hist, dev := deviations (levelSums hist) }
    if (s.quad quad).mstate = .gap then s
    else
      let ok := s.allIn quad
      s.modQuad quad fun q =>
        let q := if ok then { q with hold := 0 }
          else { q with hold := q.hold + 1, mstate := if q.mstate = .normal then .filler else q.mstate }
        let near := q.dev.all fun d => d.natAbs ≤ q.strthr / 2
        let q := { q with within := if near then q.within + 1 else 0 }
        let h := 256 * q.strhold
        if !ok && decide (h ≤ q.hold) && (q.hold - h) % 256 == 0 then { q with step := 1 }
        else
          let q := q.row4
          if 1024 ≤ q.within then { q with step := 2 } else q.row6 ok

/-- STRHOLD_EXPIRY: the third row, then those after it (spec/16 R335). -/
def execStrholdExpiry (quad : Nat) (s : State) : Out State :=
  let ok := s.allIn quad
  s.whenDo ((s.quad quad).step == 1) "STRHOLD_EXPIRY" fun s => s.modQuad quad fun q =>
    (Quad.row4 { q with step := 0, mstate := .throttle, thr := Nat.min 7 (q.thr + 1) }).row6 ok

/-- THROTTLE_DECAY: the fifth row, then the last (spec/16 R335). -/
def execThrottleDecay (quad : Nat) (s : State) : Out State :=
  let ok := s.allIn quad
  s.whenDo ((s.quad quad).step == 2) "THROTTLE_DECAY" fun s => s.modQuad quad fun q =>
    Quad.row6 ok { q with step := 0, thr := q.thr - 1, within := 0 }

/-- Is another level of a core's quad in an excursion? The core's own may then have ended while the quad's state holds on (spec/16 R335). -/
def State.gapElsewhere (s : State) (core : Nat) : Bool :=
  (List.range 4).any fun i => 4 * quadOf core + i != core && (s.core (4 * quadOf core + i)).gap
/-- RAIL_GAP_EXCURSION: a level's gap monitor sees more than 200 mV (spec/16 R335, R339). -/
def execRailGapExcursion (core : Nat) (s : State) : Out State :=
  s.whenDo (decide (core < Config.computeCores) && (!(s.core core).gap || s.gapElsewhere core)) "RAIL_GAP_EXCURSION" fun s =>
    (s.modCore core fun k => { k with droop := k.droop + 1, gap := true }).modQuad (quadOf core) fun q =>
      if q.mstate = .gap then q else { q with gapSave := some (q.mstate, q.thr), mstate := .gap, thr := 7 }

/-- RAIL_GAP_END: the excursions of the string's levels have ended; state and THR return to what they were (spec/16 R335, R339). -/
def execRailGapEnd (quad : Nat) (s : State) : Out State :=
  ofStep "RAIL_GAP_END" ((s.quad quad).gapSave.map fun (p : MState × Nat) =>
    ((List.range 4).foldl (fun (s : State) i => s.modCore (4 * quad + i) fun k => { k with gap := false }) s).modQuad quad fun q =>
      { q with mstate := p.1, thr := p.2, gapSave := none })

/-- PWRH_GRACE_END (spec/16 R342). -/
def execPwrhGraceEnd (core : Nat) (s : State) : Out State :=
  s.whenDo ((s.core core).grace.any fun e => e ≤ (s.quad (quadOf core)).mclk) "PWRH_GRACE_END" fun s =>
    s.modCore core fun k => { k with grace := none }

/-- FILL_EXPIRY (spec/16 R342). -/
def execFillExpiry (core : Nat) (s : State) : Out State :=
  s.whenDo ((s.core core).fill.any fun p => p.2 ≤ s.now core) "FILL_EXPIRY" fun s =>
    s.modCore core fun k => { k with fill := none }

/-- FREQUENCY_CHANGE: issue is suppressed for at most 512 clocks (spec/16 R340). -/
def execFrequencyChange (core clocks : Nat) (s : State) : Out State :=
  s.whenDo (decide (core < Config.computeCores + Config.servicePairs) && decide (clocks ≤ 512)) "FREQUENCY_CHANGE" fun s =>
    s.modCore core fun k => { k with suppress := k.clk + clocks }

/-- THERMAL_FLAG: the observer flags a core (spec/16 R341, DESIGN CHOICE, log 12). -/
def execThermalFlag (core : Nat) (s : State) : Out State :=
  s.whenDo (decide (core < Config.computeCores)) "THERMAL_FLAG" fun s => s.modCore core fun k => { k with flagged := true }
/-- THERMAL_UNFLAG: a window closes under both release conditions; the droop count starts again (spec/16 R341,
DESIGN CHOICE, log 12). -/
def execThermalUnflag (core : Nat) (s : State) : Out State :=
  s.whenDo (decide (core < Config.computeCores)) "THERMAL_UNFLAG" fun s =>
    s.modCore core fun k => { k with flagged := false, droop := 0 }

end Sys2Proof.Machine
end

