-- ==== Sys2Proof/Machine/Xln.lean ====
section
/-!
DEFINITION. Machine/Xln.lean: the XLN class (spec/08): permutes of R160 to R162, reductions and scans of R163 to R165,
votes of R166, compress and expand of R167, XMATCH of R168. Values pass only between active lanes of one row (R157).
-/

namespace Sys2Proof.Machine

/-- The XLN queue (spec/02 R50). -/
def qXln : Nat := 4

/-- The active source of a lane of t's row, if any (spec/08 R157). -/
def State.src? (s : State) (h : Hdr) (t : Tid) (lane : Nat) : Option Tid :=
  (s.act h).find? fun u => u.blk == t.blk && u.row == t.row && u.lane == lane

/-- The active sources of t's row, in ascending lane order (spec/08 R157). -/
def State.rowSrcs (s : State) (h : Hdr) (t : Tid) : List Tid :=
  byLane ((s.act h).filter fun u => u.blk == t.blk && u.row == t.row)

/-- A cross-lane word with register results. -/
def State.cross (s : State) (h : Hdr) (lat : Nat) (f : Tid → List (Reg × Word)) : State := (s.fixed qXln h lat f).ungather

/-- The source lane of a permute, none outside the row (spec/08 R160). -/
def srcLane (m : XMode) (l n : Nat) : Option Nat :=
  let i : Int := match m with
    | .idx => n
    | .up => (l : Int) - n
    | .dn => l + n
    | .xor => (l ^^^ n : Nat)
    | .rot => ((l + n) % 64 : Nat)
  if 0 ≤ i ∧ i < 64 then some i.toNat else none

/-- The value a permute gives lane t: its source's a, or the fill (spec/08 R161). -/
def State.permute (s : State) (h : Hdr) (t : Tid) (m : XMode) (n : Word) (a : Reg) (fill : Word) : Word :=
  match (srcLane m t.lane n.toNat).bind (s.src? h t) with
  | some u => s.rd u a
  | none => fill

/-- XRD (spec/08 R161). -/
def execXrd (h : Hdr) (d a b c : Reg) (m : XMode) (s : State) : Out State :=
  .next (s.cross h 4 fun t => [(d, s.permute h t m (s.rd t b) a (s.rd t c))])
/-- The offset of XRDI (spec/08 R162). -/
def xoff : XOff → Word
  | .n v => v.zeroExtend 32
  | .w k => BitVec.ofNat 32 (Config.width / 2 ^ k.val)
/-- XRDI (spec/08 R161, R162). -/
def execXrdi (h : Hdr) (d a : Reg) (m : XMode) (fill : XFill) (off : XOff) (s : State) : Out State :=
  .next (s.cross h 4 fun t => [(d, s.permute h t m (xoff off) a (match fill with
    | .zero => 0
    | .own => s.rd t a
    | .keep => s.rd t d))])

/-- Combine two values (spec/08 R163). -/
def xcombine (op : XOp) (a b : Word) : Word :=
  match op with
  | .iadd => a + b
  | .imin => if compareInt a b .le false then a else b
  | .imax => if compareInt a b .ge false then a else b
  | .umin => if compareInt a b .le true then a else b
  | .umax => if compareInt a b .ge true then a else b
  | .and => a &&& b
  | .or => a ||| b
  | .xor => a ^^^ b
  | .fadd => faddW .rn false a b
  | .fmin => fpick false false a b
  | .fmax => fpick true false a b
/-- Combine with an empty value (spec/08 R163). -/
def xcombine? (op : XOp) : Option Word → Option Word → Option Word
  | none, b => b
  | a, none => a
  | some a, some b => some (xcombine op a b)
/-- The result with no source (spec/08 R163). -/
def xident : XOp → Word
  | .iadd | .umax | .or | .xor | .fadd => 0
  | .imin => 0x7FFFFFFF
  | .imax => 0x80000000
  | .umin | .and => 0xFFFFFFFF
  | .fmin => 0x7F800000
  | .fmax => 0xFF800000
/-- Latency of a reduction or scan (spec/08 R158). -/
def xlat : XOp → Nat
  | .fadd | .fmin | .fmax => 14
  | _ => 8

/-- One step of the tree: neighbours combine, the lower lane first (spec/08 R164). -/
def treeStep (op : XOp) : List (Option Word) → List (Option Word)
  | a :: b :: t => xcombine? op a b :: treeStep op t
  | l => l
/-- The tree over the 64 lanes of a row (spec/08 R164). -/
def xtree (op : XOp) (vs : List (Option Word)) : Option Word :=
  ((List.range 6).foldl (fun v _ => treeStep op v) vs).headD none
/-- The sources of a row, lane by lane. -/
def State.laneVals (s : State) (h : Hdr) (t : Tid) (a : Reg) : List (Option Word) :=
  let us := s.rowSrcs h t
  (List.range Config.width).map fun k => (us.find? (·.lane == k)).map fun u => s.rd u a

/-- XRED (spec/08 R164). -/
def execXred (h : Hdr) (d a : Reg) (op : XOp) (s : State) : Out State :=
  .next (s.cross h (xlat op) fun t => [(d, (xtree op (s.laneVals h t a)).getD (xident op))])
/-- The running combination up to a lane, exclusive or inclusive (spec/08 R165). -/
def xscanAt (op : XOp) (exc : Bool) (vs : List (Option Word)) (l : Nat) : Option Word :=
  (vs.take (if exc then l else l + 1)).foldl (xcombine? op) none
/-- XSCAN (spec/08 R165). -/
def execXscan (h : Hdr) (d a : Reg) (op : XOp) (exc : Bool) (s : State) : Out State :=
  .next (s.cross h (xlat op) fun t => [(d, (xscanAt op exc (s.laneVals h t a) t.lane).getD (xident op))])

/-- The lanes of t's row whose predicate is true (spec/08 R166). -/
def State.voters (s : State) (h : Hdr) (t : Tid) (p : Pred) (neg : Bool) : List Tid :=
  (s.rowSrcs h t).filter fun u => s.rdP u p != neg
/-- XVOTE (spec/08 R166). -/
def execXvote (h : Hdr) (d : Reg) (p : Pred) (neg : Bool) (m : VoteMode) (s : State) : Out State :=
  .next (s.cross h 4 fun t =>
    let vs := s.voters h t p neg
    match m with
    | .bal => pairOf d (laneMask vs)
    | .balhi => pairOf d 0
    | .cnt => [(d, BitVec.ofNat 32 vs.length)]
    | .pre => [(d, BitVec.ofNat 32 (vs.filter fun u => u.lane < t.lane).length)])
/-- XPRED (spec/08 R166). -/
def execXpred (h : Hdr) (pd p : Pred) (neg : Bool) (m : PredMode) (s : State) : Out State :=
  .next (s.fixedP qXln h 4 pd fun t =>
    let n := (s.voters h t p neg).length
    let all := (s.rowSrcs h t).length
    match m with
    | .all => n == all
    | .any => decide (0 < n)
    | .uni => n == all || n == 0).ungather
/-- XCMP (spec/08 R167). -/
def execXcmp (h : Hdr) (d a c : Reg) (p : Pred) (neg : Bool) (s : State) : Out State :=
  .next (s.cross h 6 fun t =>
    let sel := s.voters h t p neg
    [(d, match sel[t.lane]? with
      | some u => s.rd u a
      | none => s.rd t c), (d.plus 1, BitVec.ofNat 32 sel.length)])
/-- XEXP (spec/08 R167). -/
def execXexp (h : Hdr) (d a c : Reg) (p : Pred) (neg : Bool) (s : State) : Out State :=
  .next (s.cross h 6 fun t =>
    let sel := s.voters h t p neg
    [(d, if sel.contains t then (match s.src? h t (sel.filter fun u => u.lane < t.lane).length with
        | some u => s.rd u a
        | none => s.rd t c) else s.rd t c)])
/-- XMATCH (spec/08 R168). -/
def execXmatch (h : Hdr) (d a : Reg) (hi : Bool) (s : State) : Out State :=
  .next (s.cross h 4 fun t =>
    pairOf d (if hi then 0 else laneMask ((s.rowSrcs h t).filter fun u => s.rd u a == s.rd t a)))

end Sys2Proof.Machine
end

