-- ==== Sys2Proof/Machine/Dispatch.lean ====
section
/-!
DEFINITION. Machine/Dispatch.lean: the meaning of every instruction, one arm per constructor of `Instr`.
-/

namespace Sys2Proof.Machine

open Sys2Proof

def exec (i : Instr) (s : State) : Host.Outcome State Fault Refusal :=
  match i with
  | .nop x0 => Sys2Proof.Machine.execNop x0 s
  | .bra x0 x1 => Sys2Proof.Machine.execBra x0 x1 s
  | .brx x0 x1 x2 => Sys2Proof.Machine.execBrx x0 x1 x2 s
  | .call x0 x1 x2 => Sys2Proof.Machine.execCall x0 x1 x2 s
  | .ret x0 x1 => Sys2Proof.Machine.execRet x0 x1 s
  | .loop x0 x1 x2 x3 => Sys2Proof.Machine.execLoop x0 x1 x2 x3 s
  | .loopi x0 x1 x2 x3 => Sys2Proof.Machine.execLoopi x0 x1 x2 x3 s
  | .brkl x0 x1 x2 => Sys2Proof.Machine.execBrkl x0 x1 x2 s
  | .yield x0 => Sys2Proof.Machine.execYield x0 s
  | .cvset x0 x1 x2 x3 x4 => Sys2Proof.Machine.execCvset x0 x1 x2 x3 x4 s
  | .sign x0 x1 => Sys2Proof.Machine.execSign x0 x1 s
  | .start x0 => Sys2Proof.Machine.execStart x0 s
  | .waitc x0 x1 x2 x3 x4 => Sys2Proof.Machine.execWaitc x0 x1 x2 x3 x4 s
  | .tkw x0 x1 x2 => Sys2Proof.Machine.execTkw x0 x1 x2 s
  | .exit x0 => Sys2Proof.Machine.execExit x0 s
  | .sleep x0 x1 x2 x3 => Sys2Proof.Machine.execSleep x0 x1 x2 x3 s
  | .iadd x0 x1 x2 x3 x4 => Sys2Proof.Machine.execIadd x0 x1 x2 x3 x4 s
  | .isub x0 x1 x2 x3 x4 => Sys2Proof.Machine.execIsub x0 x1 x2 x3 x4 s
  | .imul x0 x1 x2 x3 => Sys2Proof.Machine.execImul x0 x1 x2 x3 s
  | .imulh x0 x1 x2 x3 x4 => Sys2Proof.Machine.execImulh x0 x1 x2 x3 x4 s
  | .imad x0 x1 x2 x3 x4 x5 => Sys2Proof.Machine.execImad x0 x1 x2 x3 x4 x5 s
  | .imin x0 x1 x2 x3 x4 => Sys2Proof.Machine.execImin x0 x1 x2 x3 x4 s
  | .imax x0 x1 x2 x3 x4 => Sys2Proof.Machine.execImax x0 x1 x2 x3 x4 s
  | .iabs x0 x1 x2 x3 => Sys2Proof.Machine.execIabs x0 x1 x2 x3 s
  | .and x0 x1 x2 x3 => Sys2Proof.Machine.execAnd x0 x1 x2 x3 s
  | .or x0 x1 x2 x3 => Sys2Proof.Machine.execOr x0 x1 x2 x3 s
  | .xor x0 x1 x2 x3 => Sys2Proof.Machine.execXor x0 x1 x2 x3 s
  | .andn x0 x1 x2 x3 => Sys2Proof.Machine.execAndn x0 x1 x2 x3 s
  | .shl x0 x1 x2 x3 => Sys2Proof.Machine.execShl x0 x1 x2 x3 s
  | .shr x0 x1 x2 x3 => Sys2Proof.Machine.execShr x0 x1 x2 x3 s
  | .sar x0 x1 x2 x3 => Sys2Proof.Machine.execSar x0 x1 x2 x3 s
  | .rol x0 x1 x2 x3 => Sys2Proof.Machine.execRol x0 x1 x2 x3 s
  | .bfx x0 x1 x2 x3 x4 => Sys2Proof.Machine.execBfx x0 x1 x2 x3 x4 s
  | .bfi x0 x1 x2 x3 x4 => Sys2Proof.Machine.execBfi x0 x1 x2 x3 x4 s
  | .popc x0 x1 x2 => Sys2Proof.Machine.execPopc x0 x1 x2 s
  | .clz x0 x1 x2 => Sys2Proof.Machine.execClz x0 x1 x2 s
  | .brev x0 x1 x2 => Sys2Proof.Machine.execBrev x0 x1 x2 s
  | .isetp x0 x1 x2 x3 x4 x5 x6 => Sys2Proof.Machine.execIsetp x0 x1 x2 x3 x4 x5 x6 s
  | .plop x0 x1 x2 x3 x4 x5 => Sys2Proof.Machine.execPlop x0 x1 x2 x3 x4 x5 s
  | .sel x0 x1 x2 x3 x4 x5 => Sys2Proof.Machine.execSel x0 x1 x2 x3 x4 x5 s
  | .mov x0 x1 x2 => Sys2Proof.Machine.execMov x0 x1 x2 s
  | .movi x0 x1 x2 => Sys2Proof.Machine.execMovi x0 x1 x2 s
  | .movhi x0 x1 x2 => Sys2Proof.Machine.execMovhi x0 x1 x2 s
  | .movs x0 x1 x2 => Sys2Proof.Machine.execMovs x0 x1 x2 s
  | .movsw x0 x1 x2 => Sys2Proof.Machine.execMovsw x0 x1 x2 s
  | .lea x0 x1 x2 x3 x4 x5 => Sys2Proof.Machine.execLea x0 x1 x2 x3 x4 x5 s
  | .iadd64 x0 x1 x2 x3 => Sys2Proof.Machine.execIadd64 x0 x1 x2 x3 s
  | .pget x0 x1 => Sys2Proof.Machine.execPget x0 x1 s
  | .pput x0 x1 x2 => Sys2Proof.Machine.execPput x0 x1 x2 s
  | .iaddi x0 x1 x2 x3 => Sys2Proof.Machine.execIaddi x0 x1 x2 x3 s
  | .andi x0 x1 x2 x3 => Sys2Proof.Machine.execAndi x0 x1 x2 x3 s
  | .ori x0 x1 x2 x3 => Sys2Proof.Machine.execOri x0 x1 x2 x3 s
  | .xori x0 x1 x2 x3 => Sys2Proof.Machine.execXori x0 x1 x2 x3 s
  | .isetpi x0 x1 x2 x3 x4 x5 => Sys2Proof.Machine.execIsetpi x0 x1 x2 x3 x4 x5 s
  | .fadd x0 x1 x2 x3 x4 x5 x6 => Sys2Proof.Machine.execFadd x0 x1 x2 x3 x4 x5 x6 s
  | .fsub x0 x1 x2 x3 x4 x5 x6 => Sys2Proof.Machine.execFsub x0 x1 x2 x3 x4 x5 x6 s
  | .fmul x0 x1 x2 x3 x4 x5 x6 => Sys2Proof.Machine.execFmul x0 x1 x2 x3 x4 x5 x6 s
  | .ffma x0 x1 x2 x3 x4 x5 x6 x7 x8 x9 => Sys2Proof.Machine.execFfma x0 x1 x2 x3 x4 x5 x6 x7 x8 x9 s
  | .fmin x0 x1 x2 x3 x4 x5 => Sys2Proof.Machine.execFmin x0 x1 x2 x3 x4 x5 s
  | .fmax x0 x1 x2 x3 x4 x5 => Sys2Proof.Machine.execFmax x0 x1 x2 x3 x4 x5 s
  | .fabs x0 x1 x2 x3 => Sys2Proof.Machine.execFabs x0 x1 x2 x3 s
  | .fneg x0 x1 x2 x3 => Sys2Proof.Machine.execFneg x0 x1 x2 x3 s
  | .fsetp x0 x1 x2 x3 x4 x5 => Sys2Proof.Machine.execFsetp x0 x1 x2 x3 x4 x5 s
  | .frnd x0 x1 x2 x3 => Sys2Proof.Machine.execFrnd x0 x1 x2 x3 s
  | .fclamp x0 x1 x2 x3 x4 x5 => Sys2Proof.Machine.execFclamp x0 x1 x2 x3 x4 x5 s
  | .f2i x0 x1 x2 x3 x4 => Sys2Proof.Machine.execF2i x0 x1 x2 x3 x4 s
  | .i2f x0 x1 x2 x3 x4 => Sys2Proof.Machine.execI2f x0 x1 x2 x3 x4 s
  | .hadd2 x0 x1 x2 x3 x4 x5 x6 => Sys2Proof.Machine.execHadd2 x0 x1 x2 x3 x4 x5 x6 s
  | .hmul2 x0 x1 x2 x3 x4 x5 x6 => Sys2Proof.Machine.execHmul2 x0 x1 x2 x3 x4 x5 x6 s
  | .hfma2 x0 x1 x2 x3 x4 x5 x6 x7 => Sys2Proof.Machine.execHfma2 x0 x1 x2 x3 x4 x5 x6 x7 s
  | .dot2 x0 x1 x2 x3 x4 x5 x6 => Sys2Proof.Machine.execDot2 x0 x1 x2 x3 x4 x5 x6 s
  | .dot4 x0 x1 x2 x3 x4 x5 x6 => Sys2Proof.Machine.execDot4 x0 x1 x2 x3 x4 x5 x6 s
  | .cvt x0 x1 x2 x3 x4 x5 => Sys2Proof.Machine.execCvt x0 x1 x2 x3 x4 x5 s
  | .cvtpk x0 x1 x2 x3 x4 x5 => Sys2Proof.Machine.execCvtpk x0 x1 x2 x3 x4 x5 s
  | .cvtup x0 x1 x2 x3 x4 => Sys2Proof.Machine.execCvtup x0 x1 x2 x3 x4 s
  | .fscl x0 x1 x2 x3 x4 => Sys2Proof.Machine.execFscl x0 x1 x2 x3 x4 s
  | .fclass x0 x1 x2 x3 => Sys2Proof.Machine.execFclass x0 x1 x2 x3 s
  | .rcp x0 x1 x2 => Sys2Proof.Machine.execRcp x0 x1 x2 s
  | .rsq x0 x1 x2 => Sys2Proof.Machine.execRsq x0 x1 x2 s
  | .sqrt x0 x1 x2 x3 => Sys2Proof.Machine.execSqrt x0 x1 x2 x3 s
  | .exp2 x0 x1 x2 => Sys2Proof.Machine.execExp2 x0 x1 x2 s
  | .log2 x0 x1 x2 => Sys2Proof.Machine.execLog2 x0 x1 x2 s
  | .sin x0 x1 x2 => Sys2Proof.Machine.execSin x0 x1 x2 s
  | .cos x0 x1 x2 => Sys2Proof.Machine.execCos x0 x1 x2 s
  | .sincos x0 x1 x2 => Sys2Proof.Machine.execSincos x0 x1 x2 s
  | .tanh x0 x1 x2 => Sys2Proof.Machine.execTanh x0 x1 x2 s
  | .tlu x0 x1 x2 x3 => Sys2Proof.Machine.execTlu x0 x1 x2 x3 s
  | .dropm x0 x1 x2 x3 => Sys2Proof.Machine.execDropm x0 x1 x2 x3 s
  | .csamp x0 x1 x2 x3 => Sys2Proof.Machine.execCsamp x0 x1 x2 x3 s
  | .rng x0 x1 x2 x3 => Sys2Proof.Machine.execRng x0 x1 x2 x3 s
  | .fdiv x0 x1 x2 x3 x4 => Sys2Proof.Machine.execFdiv x0 x1 x2 x3 x4 s
  | .xrd x0 x1 x2 x3 x4 x5 => Sys2Proof.Machine.execXrd x0 x1 x2 x3 x4 x5 s
  | .xrdi x0 x1 x2 x3 x4 x5 => Sys2Proof.Machine.execXrdi x0 x1 x2 x3 x4 x5 s
  | .xred x0 x1 x2 x3 => Sys2Proof.Machine.execXred x0 x1 x2 x3 s
  | .xscan x0 x1 x2 x3 x4 => Sys2Proof.Machine.execXscan x0 x1 x2 x3 x4 s
  | .xvote x0 x1 x2 x3 x4 => Sys2Proof.Machine.execXvote x0 x1 x2 x3 x4 s
  | .xpred x0 x1 x2 x3 x4 => Sys2Proof.Machine.execXpred x0 x1 x2 x3 x4 s
  | .xcmp x0 x1 x2 x3 x4 x5 => Sys2Proof.Machine.execXcmp x0 x1 x2 x3 x4 x5 s
  | .xexp x0 x1 x2 x3 x4 x5 => Sys2Proof.Machine.execXexp x0 x1 x2 x3 x4 x5 s
  | .xmatch x0 x1 x2 x3 => Sys2Proof.Machine.execXmatch x0 x1 x2 x3 s
  | .lds x0 x1 x2 x3 x4 x5 => Sys2Proof.Machine.execLds x0 x1 x2 x3 x4 x5 s
  | .sts x0 x1 x2 x3 x4 x5 => Sys2Proof.Machine.execSts x0 x1 x2 x3 x4 x5 s
  | .ldsf x0 x1 x2 x3 x4 x5 x6 => Sys2Proof.Machine.execLdsf x0 x1 x2 x3 x4 x5 x6 s
  | .stse x0 x1 x2 x3 x4 x5 => Sys2Proof.Machine.execStse x0 x1 x2 x3 x4 x5 s
  | .tags x0 x1 x2 x3 x4 => Sys2Proof.Machine.execTags x0 x1 x2 x3 x4 s
  | .tagr x0 x1 x2 x3 => Sys2Proof.Machine.execTagr x0 x1 x2 x3 s
  | .ldg x0 x1 x2 x3 x4 => Sys2Proof.Machine.execLdg x0 x1 x2 x3 x4 s
  | .stg x0 x1 x2 x3 x4 => Sys2Proof.Machine.execStg x0 x1 x2 x3 x4 s
  | .ldu x0 x1 x2 x3 x4 => Sys2Proof.Machine.execLdu x0 x1 x2 x3 x4 s
  | .pref x0 x1 x2 x3 => Sys2Proof.Machine.execPref x0 x1 x2 x3 s
  | .cmaint x0 x1 x2 x3 x4 => Sys2Proof.Machine.execCmaint x0 x1 x2 x3 x4 s
  | .fence x0 x1 x2 => Sys2Proof.Machine.execFence x0 x1 x2 s
  | .lda x0 x1 x2 x3 x4 x5 x6 => Sys2Proof.Machine.execLda x0 x1 x2 x3 x4 x5 x6 s
  | .stl x0 x1 x2 x3 x4 x5 x6 => Sys2Proof.Machine.execStl x0 x1 x2 x3 x4 x5 x6 s
  | .atom x0 x1 x2 x3 x4 x5 x6 x7 => Sys2Proof.Machine.execAtom x0 x1 x2 x3 x4 x5 x6 x7 s
  | .atoms x0 x1 x2 x3 x4 x5 x6 x7 x8 => Sys2Proof.Machine.execAtoms x0 x1 x2 x3 x4 x5 x6 x7 x8 s
  | .red x0 x1 x2 x3 x4 x5 x6 => Sys2Proof.Machine.execRed x0 x1 x2 x3 x4 x5 x6 s
  | .bar x0 x1 x2 x3 x4 x5 x6 => Sys2Proof.Machine.execBar x0 x1 x2 x3 x4 x5 x6 s
  | .bara x0 x1 x2 x3 x4 x5 => Sys2Proof.Machine.execBara x0 x1 x2 x3 x4 x5 s
  | .barw x0 x1 x2 x3 x4 => Sys2Proof.Machine.execBarw x0 x1 x2 x3 x4 s
  | .barn x0 x1 x2 x3 => Sys2Proof.Machine.execBarn x0 x1 x2 x3 s
  | .semacq x0 x1 x2 x3 x4 => Sys2Proof.Machine.execSemacq x0 x1 x2 x3 x4 s
  | .semrel x0 x1 x2 x3 x4 x5 => Sys2Proof.Machine.execSemrel x0 x1 x2 x3 x4 x5 s
  | .semtry x0 x1 x2 x3 x4 x5 => Sys2Proof.Machine.execSemtry x0 x1 x2 x3 x4 x5 s
  | .semrd x0 x1 x2 x3 => Sys2Proof.Machine.execSemrd x0 x1 x2 x3 s
  | .cpl x0 x1 x2 x3 x4 => Sys2Proof.Machine.execCpl x0 x1 x2 x3 x4 s
  | .cpt x0 x1 x2 x3 x4 => Sys2Proof.Machine.execCpt x0 x1 x2 x3 x4 s
  | .cpr x0 x1 x2 x3 => Sys2Proof.Machine.execCpr x0 x1 x2 x3 s
  | .cpstage x0 x1 x2 x3 x4 => Sys2Proof.Machine.execCpstage x0 x1 x2 x3 x4 s
  | .cpstageOff x0 => Sys2Proof.Machine.execCpstageOff x0 s
  | .cpadv x0 x1 x2 => Sys2Proof.Machine.execCpadv x0 x1 x2 s
  | .cpremPut x0 x1 x2 x3 => Sys2Proof.Machine.execCpremPut x0 x1 x2 x3 s
  | .cpremPost x0 x1 x2 x3 => Sys2Proof.Machine.execCpremPost x0 x1 x2 x3 s
  | .tkj x0 x1 => Sys2Proof.Machine.execTkj x0 x1 s
  | .cpfill x0 x1 x2 x3 x4 => Sys2Proof.Machine.execCpfill x0 x1 x2 x3 x4 s
  | .mma x0 x1 x2 x3 x4 x5 => Sys2Proof.Machine.execMma x0 x1 x2 x3 x4 x5 s
  | .mmas x0 x1 x2 x3 x4 x5 => Sys2Proof.Machine.execMmas x0 x1 x2 x3 x4 x5 s
  | .mrel x0 x1 => Sys2Proof.Machine.execMrel x0 x1 s
  | .mfq x0 x1 x2 => Sys2Proof.Machine.execMfq x0 x1 x2 s
  | .mqry x0 x1 x2 => Sys2Proof.Machine.execMqry x0 x1 x2 s
  | .accz x0 x1 x2 x3 => Sys2Proof.Machine.execAccz x0 x1 x2 x3 s
  | .accadd x0 x1 x2 x3 => Sys2Proof.Machine.execAccadd x0 x1 x2 x3 s
  | .accrd x0 x1 x2 x3 => Sys2Proof.Machine.execAccrd x0 x1 x2 x3 s
  | .accset x0 x1 x2 x3 x4 => Sys2Proof.Machine.execAccset x0 x1 x2 x3 x4 s
  | .accfl x0 x1 x2 x3 => Sys2Proof.Machine.execAccfl x0 x1 x2 x3 s
  | .accout x0 x1 x2 x3 => Sys2Proof.Machine.execAccout x0 x1 x2 x3 s
  | .accpoi x0 x1 x2 x3 => Sys2Proof.Machine.execAccpoi x0 x1 x2 x3 s
  | .rast x0 x1 x2 x3 x4 => Sys2Proof.Machine.execRast x0 x1 x2 x3 x4 s
  | .trav x0 x1 x2 x3 => Sys2Proof.Machine.execTrav x0 x1 x2 x3 s
  | .sample x0 x1 x2 x3 => Sys2Proof.Machine.execSample x0 x1 x2 x3 s
  | .winacq x0 x1 x2 x3 => Sys2Proof.Machine.execWinacq x0 x1 x2 x3 s
  | .winrel x0 x1 x2 => Sys2Proof.Machine.execWinrel x0 x1 x2 s
  | .ordt x0 x1 x2 x3 x4 => Sys2Proof.Machine.execOrdt x0 x1 x2 x3 x4 s
  | .ttask x0 x1 x2 x3 => Sys2Proof.Machine.execTtask x0 x1 x2 x3 s
  | .tfence x0 x1 x2 x3 => Sys2Proof.Machine.execTfence x0 x1 x2 x3 s
  | .omrg x0 x1 x2 x3 => Sys2Proof.Machine.execOmrg x0 x1 x2 x3 s
  | .trap x0 x1 => Sys2Proof.Machine.execTrap x0 x1 s
  | .eret x0 => Sys2Proof.Machine.execEret x0 s
  | .csrr x0 x1 x2 => Sys2Proof.Machine.execCsrr x0 x1 x2 s
  | .csrw x0 x1 x2 => Sys2Proof.Machine.execCsrw x0 x1 x2 s
  | .csrset x0 x1 x2 x3 => Sys2Proof.Machine.execCsrset x0 x1 x2 x3 s
  | .csrclr x0 x1 x2 x3 => Sys2Proof.Machine.execCsrclr x0 x1 x2 x3 s
  | .tlbinv x0 x1 x2 x3 x4 x5 => Sys2Proof.Machine.execTlbinv x0 x1 x2 x3 x4 x5 s
  | .launch x0 x1 x2 x3 => Sys2Proof.Machine.execLaunch x0 x1 x2 x3 s
  | .wfi x0 => Sys2Proof.Machine.execWfi x0 s
  | .halt x0 => Sys2Proof.Machine.execHalt x0 s
  | .rmark x0 x1 x2 => Sys2Proof.Machine.execRmark x0 x1 x2 s
  | .ctxsave x0 x1 x2 x3 x4 => Sys2Proof.Machine.execCtxsave x0 x1 x2 x3 x4 s
  | .ctxload x0 x1 x2 => Sys2Proof.Machine.execCtxload x0 x1 x2 s
  | .fill x0 x1 x2 x3 => Sys2Proof.Machine.execFill x0 x1 x2 x3 s
  | .pwrh x0 x1 => Sys2Proof.Machine.execPwrh x0 x1 s
  | .strq x0 x1 x2 => Sys2Proof.Machine.execStrq x0 x1 x2 s
  | .pgive x0 x1 x2 x3 x4 x5 => Sys2Proof.Machine.execPgive x0 x1 x2 x3 x4 x5 s
  | .ptake x0 x1 x2 x3 x4 => Sys2Proof.Machine.execPtake x0 x1 x2 x3 x4 s
  | .pqry x0 x1 x2 => Sys2Proof.Machine.execPqry x0 x1 x2 s
  | .pzero x0 x1 x2 x3 => Sys2Proof.Machine.execPzero x0 x1 x2 x3 s
  | .instructionFetch x0 => Sys2Proof.Machine.execInstructionFetch x0 s
  | .decodeFault x0 => Sys2Proof.Machine.execDecodeFault x0 s
  | .faultEventReissue x0 => Sys2Proof.Machine.execFaultEventReissue x0 s
  | .urgentAgeing x0 => Sys2Proof.Machine.execUrgentAgeing x0 s
  | .yieldDemotionEnd x0 => Sys2Proof.Machine.execYieldDemotionEnd x0 s
  | .mshrRejectRetry x0 => Sys2Proof.Machine.execMshrRejectRetry x0 s
  | .loadComplete x0 => Sys2Proof.Machine.execLoadComplete x0 s
  | .storePerformed x0 => Sys2Proof.Machine.execStorePerformed x0 s
  | .forwardedWriteAck x0 x1 => Sys2Proof.Machine.execForwardedWriteAck x0 x1 s
  | .tagStep x0 => Sys2Proof.Machine.execTagStep x0 s
  | .tagWait x0 => Sys2Proof.Machine.execTagWait x0 s
  | .gatherOpen x0 => Sys2Proof.Machine.execGatherOpen x0 s
  | .gatherComplete x0 x1 => Sys2Proof.Machine.execGatherComplete x0 x1 s
  | .gatherWindowClose x0 x1 => Sys2Proof.Machine.execGatherWindowClose x0 x1 s
  | .requestEntry x0 => Sys2Proof.Machine.execRequestEntry x0 s
  | .passGrant x0 => Sys2Proof.Machine.execPassGrant x0 s
  | .qmeLineWrite x0 => Sys2Proof.Machine.execQmeLineWrite x0 s
  | .requestComplete x0 => Sys2Proof.Machine.execRequestComplete x0 s
  | .copyOperationStart x0 => Sys2Proof.Machine.execCopyOperationStart x0 s
  | .copyOperationComplete x0 => Sys2Proof.Machine.execCopyOperationComplete x0 s
  | .enginePageServiceRequest x0 => Sys2Proof.Machine.execEnginePageServiceRequest x0 s
  | .copylimExpiry x0 => Sys2Proof.Machine.execCopylimExpiry x0 s
  | .cprLineWrite x0 => Sys2Proof.Machine.execCprLineWrite x0 s
  | .inboundPut x0 x1 x2 x3 x4 => Sys2Proof.Machine.execInboundPut x0 x1 x2 x3 x4 s
  | .putAcknowledge x0 x1 => Sys2Proof.Machine.execPutAcknowledge x0 x1 s
  | .tokenJoinComplete x0 => Sys2Proof.Machine.execTokenJoinComplete x0 s
  | .contributionApply x0 => Sys2Proof.Machine.execContributionApply x0 s
  | .writeBack x0 x1 => Sys2Proof.Machine.execWriteBack x0 x1 s
  | .barrierArrival x0 => Sys2Proof.Machine.execBarrierArrival x0 s
  | .phaseOpen x0 => Sys2Proof.Machine.execPhaseOpen x0 s
  | .barrierWave x0 => Sys2Proof.Machine.execBarrierWave x0 s
  | .semaphoreServe x0 x1 => Sys2Proof.Machine.execSemaphoreServe x0 x1 s
  | .hostMailboxWrite x0 x1 x2 => Sys2Proof.Machine.execHostMailboxWrite x0 x1 x2 s
  | .threadRelease x0 => Sys2Proof.Machine.execThreadRelease x0 s
  | .blockComplete x0 => Sys2Proof.Machine.execBlockComplete x0 s
  | .gridComplete x0 => Sys2Proof.Machine.execGridComplete x0 s
  | .recordPull x0 x1 => Sys2Proof.Machine.execRecordPull x0 x1 s
  | .blockPlacement x0 x1 => Sys2Proof.Machine.execBlockPlacement x0 x1 s
  | .distributorPreempt x0 => Sys2Proof.Machine.execDistributorPreempt x0 s
  | .prelimExpiry x0 => Sys2Proof.Machine.execPrelimExpiry x0 s
  | .preemptDeferEnd x0 => Sys2Proof.Machine.execPreemptDeferEnd x0 s
  | .preemptDrainComplete x0 => Sys2Proof.Machine.execPreemptDrainComplete x0 s
  | .unitRestore x0 x1 => Sys2Proof.Machine.execUnitRestore x0 x1 s
  | .ptakeFlagPoll x0 => Sys2Proof.Machine.execPtakeFlagPoll x0 s
  | .ingressRelease x0 x1 => Sys2Proof.Machine.execIngressRelease x0 x1 s
  | .linkDrainComplete x0 => Sys2Proof.Machine.execLinkDrainComplete x0 s
  | .linkTrainFail x0 => Sys2Proof.Machine.execLinkTrainFail x0 s
  | .strholdExpiry x0 => Sys2Proof.Machine.execStrholdExpiry x0 s
  | .throttleDecay x0 => Sys2Proof.Machine.execThrottleDecay x0 s
  | .bctlResume => Sys2Proof.Machine.execBctlResume s
  | .bctlSkip => Sys2Proof.Machine.execBctlSkip s
  | .bctlKillt => Sys2Proof.Machine.execBctlKillt s
  | .bctlKillb => Sys2Proof.Machine.execBctlKillb s
  | .bctlPreempt => Sys2Proof.Machine.execBctlPreempt s
  | .bctlMigrate => Sys2Proof.Machine.execBctlMigrate s
  | .bctlPop => Sys2Proof.Machine.execBctlPop s
  | .bctlInvalid => Sys2Proof.Machine.execBctlInvalid s
  | .qtailWrite x0 x1 => Sys2Proof.Machine.execQtailWrite x0 x1 s
  | .gridnextWrite x0 => Sys2Proof.Machine.execGridnextWrite x0 s
  | .bfsWrite x0 x1 => Sys2Proof.Machine.execBfsWrite x0 x1 s
  | .partcfgWrite x0 x1 => Sys2Proof.Machine.execPartcfgWrite x0 x1 s
  | .capctlWrite x0 => Sys2Proof.Machine.execCapctlWrite x0 s
  | .registerWrite x0 x1 x2 => Sys2Proof.Machine.execRegisterWrite x0 x1 x2 s
  | .svcreqEntry x0 => Sys2Proof.Machine.execSvcreqEntry x0 s
  | .clkcmpMatch x0 => Sys2Proof.Machine.execClkcmpMatch x0 s
  | .linkEventEntry x0 => Sys2Proof.Machine.execLinkEventEntry x0 s
  | .heartbeatSend x0 => Sys2Proof.Machine.execHeartbeatSend x0 s
  | .heartbeatMissed x0 x1 => Sys2Proof.Machine.execHeartbeatMissed x0 x1 s
  | .takeover x0 => Sys2Proof.Machine.execTakeover x0 s
  | .leaderClaim x0 => Sys2Proof.Machine.execLeaderClaim x0 s
  | .stringMonitorEval x0 x1 => Sys2Proof.Machine.execStringMonitorEval x0 x1 s
  | .railGapExcursion x0 => Sys2Proof.Machine.execRailGapExcursion x0 s
  | .railGapEnd x0 => Sys2Proof.Machine.execRailGapEnd x0 s
  | .pwrhGraceEnd x0 => Sys2Proof.Machine.execPwrhGraceEnd x0 s
  | .fillExpiry x0 => Sys2Proof.Machine.execFillExpiry x0 s
  | .frequencyChange x0 x1 => Sys2Proof.Machine.execFrequencyChange x0 x1 s
  | .thermalFlag x0 => Sys2Proof.Machine.execThermalFlag x0 s
  | .thermalUnflag x0 => Sys2Proof.Machine.execThermalUnflag x0 s
  | .migrationGo x0 => Sys2Proof.Machine.execMigrationGo x0 s
  | .migrationDone x0 => Sys2Proof.Machine.execMigrationDone x0 s
  | .ingressDelivery x0 x1 => Sys2Proof.Machine.execIngressDelivery x0 x1 s
  | .softError x0 => Sys2Proof.Machine.execSoftError x0 s
  | .hostAccess x0 x1 => Sys2Proof.Machine.execHostAccess x0 x1 s
  | .displayScanout x0 x1 => Sys2Proof.Machine.execDisplayScanout x0 x1 s
  | .flitCrcRetry x0 => Sys2Proof.Machine.execFlitCrcRetry x0 s
  | .laneError x0 x1 => Sys2Proof.Machine.execLaneError x0 x1 s
  | .lkctlPauseSet x0 => Sys2Proof.Machine.execLkctlPauseSet x0 s
  | .lkctlPauseClear x0 => Sys2Proof.Machine.execLkctlPauseClear x0 s
  | .lkctlRetrain x0 => Sys2Proof.Machine.execLkctlRetrain x0 s
  | .linkTrainComplete x0 => Sys2Proof.Machine.execLinkTrainComplete x0 s
  | .reductionContribution x0 x1 x2 => Sys2Proof.Machine.execReductionContribution x0 x1 x2 s
  | .reductionTimeout x0 => Sys2Proof.Machine.execReductionTimeout x0 s
  | .transferLinkTimeout x0 => Sys2Proof.Machine.execTransferLinkTimeout x0 s
  | .packagePowerUp => Sys2Proof.Machine.execPackagePowerUp s
  | .bundleLengthWrite x0 => Sys2Proof.Machine.execBundleLengthWrite x0 s
  | .bankSwitch => Sys2Proof.Machine.execBankSwitch s
  | .attestationRequest x0 => Sys2Proof.Machine.execAttestationRequest x0 s
  | .packageSuspend => Sys2Proof.Machine.execPackageSuspend s
  | .packageResume => Sys2Proof.Machine.execPackageResume s
  | .systemSuspend => Sys2Proof.Machine.execSystemSuspend s
  | .systemResume => Sys2Proof.Machine.execSystemResume s
  | .engineOperationComplete x0 => Sys2Proof.Machine.execEngineOperationComplete x0 s
  | .memoryPlaneOff x0 => Sys2Proof.Machine.execMemoryPlaneOff x0 s
  | .selfRefreshEntry x0 x1 => Sys2Proof.Machine.execSelfRefreshEntry x0 x1 s

end Sys2Proof.Machine
end

