-- ==== Sys2Proof/Machine/Due.lean ====
section
/-!
DEFINITION. Machine/Due.lean: the events that a rule puts at a clock: a clock passes only where none of them is due at it
(DESIGN CHOICE, log 1).
-/

namespace Sys2Proof.Machine

/-- The threads of a core. -/
def State.threadsOn (s : State) (c : Nat) : List Tid :=
  s.blocks.flatMap fun p => if p.2.core != c then [] else p.2.threads.map fun q => ⟨p.1, q.1⟩

/-- The event a thread's clock calls for: the end of a rejection after 8 clocks (spec/09 R178), of a demotion (spec/03 R85),
1,024 clocks of eligibility (R65), the opening of a gather at the first arrival (spec/08 R155). -/
def State.dueThread (s : State) (t : Tid) : Option Instr :=
  let th := s.thread t
  let now := s.now (s.block t.blk).core
  if th.rejected.any fun r => decide (r + 8 ≤ now) then some (.mshrRejectRetry t)
  else if th.yield == 1 then some (.yieldDemotionEnd t)
  else if !th.urgent && (match s.eligWords t with | (_, _, a) :: _ => decide (a + 1024 ≤ s.stamp (s.block t.blk).core) | [] => false) then some (.urgentAgeing t)
  else match s.arrivedAt t with
    | some pc =>
      if (s.core (s.block t.blk).core).gathers.any fun g => g.blk == t.blk && g.row == t.row && g.pc == pc && g.done.isNone then none
      else some (.gatherOpen t)
    | none => none

/-- The gathers that complete at this clock (spec/08 R155). -/
def State.dueGather (s : State) (c : Nat) : Option Instr :=
  (s.core c).gathers.findSome? fun g =>
    if g.done.isSome then none
    else if s.rowHere g then some (.gatherComplete g.blk g.row)
    else if g.since + g.win ≤ s.now c then some (.gatherWindowClose g.blk g.row) else none

/-- The event a matrix request calls for: its entry, a booked line write, its completion (spec/13 R285). -/
def State.dueMtx (s : State) (o : Op) (r : MReq) : Option Instr :=
  let at_ := (r.slots r.t0).map (·.2)
  if !r.entered then (if (s.enter o.id).isSome then some (.requestEntry o.id) else none)
  else if r.fail.isSome || r.passes != r.kch then none
  else if (at_[r.lines]?).any fun k => decide (k ≤ s.now o.core) then some (.qmeLineWrite o.id)
  else if r.lines == r.nl && decide (at_.foldl Nat.max 0 + 4 ≤ s.now o.core) then some (.requestComplete o.id) else none

/-- The events of the wait of an engine for a page (spec/12 R252, R421): the end of its limit, its request. -/
def State.duePage (s : State) (o : Op) : Option Instr :=
  if (o.stage == 1 || o.stage == 2) && decide (o.pageAt + o.lim ≤ s.now o.core) then some (.copylimExpiry o.id)
  else if o.stage == 1 && decide ((s.block o.blk).faultq.length < Config.faultRecords) then some (.enginePageServiceRequest o.id)
  else none
/-- The event a CPR calls for: its fault point, a booked line write, its completion (spec/12 R257, R259). -/
def State.dueCpr (s : State) (o : Op) (r : CprReq) : Option Instr :=
  let now := s.now o.core
  if o.stage == cprOpen then (if o.clk + 2 ≤ now then some (.copyOperationStart o.id) else none)
  else if (r.slots[o.prog]?).any fun k => k == now then some (.cprLineWrite o.id)
  else if decide (r.nl ≤ o.prog) && decide (o.pageAt + 4 ≤ now) then some (.copyOperationComplete o.id) else none
/-- The event an inbound transfer calls for: the end of its limit, its placement (spec/12 R262). -/
def State.dueInbound (s : State) (o : Op) (pod pkg chan seq : Nat) (data : List Byte) (bad : List Nat) : Option Instr :=
  if o.stage != 0 then s.duePage o
  else if (s.placeIn o pod pkg chan seq data bad).isSome then some (.inboundPut pod pkg chan seq ⟨data, bad⟩)
  else if decide (o.clk + o.lim ≤ s.now o.core) && !s.fabric.posts.any (·.chan == chan) then some (.copylimExpiry o.id)
  else none

/-- The event an operation of a core calls for at its clock: an arrival that counts (spec/11 R234); the service of a tag step or the
end of its wait (spec/09 R193, R194); the reading of a flag once per 256 clocks (spec/15 R327). -/
def State.dueOp (s : State) (o : Op) : Option Instr := match o.kind with
  | .barArr t b .. => if s.countsNow o t b then some (.barrierArrival o.id) else none
  | .mtx r => s.dueMtx o r
  | .cpr r => s.dueCpr o r
  | .copy .. | .put .. | .trav .. => s.duePage o
  | .inbound pod pkg chan seq data bad => s.dueInbound o pod pkg chan seq data bad
  | .join => if s.startable o && decide (o.clk + 2 ≤ s.now o.core) then some (.tokenJoinComplete o.id) else none
  | .ptake .. => if s.canRun o && decide (o.pageAt + 256 ≤ s.now o.core) then some (.ptakeFlagPoll o.id) else none
  | .ldsf .. | .stse .. =>
    if o.stage == 1 && s.tagExpired o then some (.tagWait o.id)
    else if s.tagServable o then some (.tagStep o.id) else none
  | _ => none

/-- The barriers whose phase opens now (spec/11 R233), and those whose next wave on a core is due (spec/16 R338). -/
def State.dueBar (s : State) (c : Nat) : Option Instr :=
  s.usedBars.findSome? fun b =>
    if (s.opening b).isSome then some (.phaseOpen b)
    else if (s.bar b).waveAt.any fun p => p.1 == c && decide (p.2.1 ≤ s.now c) then some (.barrierWave b) else none

/-- The pre-emption that leaves its deferral on a core: no member of the unit is in a part-arrived phase, or PRELIM has run out
(spec/18 R382). -/
def State.duePreempt (s : State) (c : Nat) : Option Instr :=
  (s.pkg.preempts.filter fun p => p.core == c && p.phase == 0).findSome? fun p =>
    if !s.partArrived p.unit then some (.preemptDeferEnd (p.unit.headD 0))
    else if p.since + (s.core c).prelim.toNat ≤ s.now c then some (.prelimExpiry (p.unit.headD 0)) else none

/-- The rows of the string monitor that an evaluation has left to do (spec/16 R335). -/
def State.dueQuad (s : State) (c : Nat) : Option Instr :=
  let q := quadOf c
  if isSvc c then none
  else if (s.quad q).step == 1 then some (.strholdExpiry q)
  else if (s.quad q).step == 2 then some (.throttleDecay q) else none

/-- The ingress buffers that are released to blocks of a core (spec/17 R350). -/
def State.dueIngress (s : State) (c : Nat) : Option Instr :=
  s.grids.findSome? fun g => if g.2.regions.isEmpty then none else (List.finRange 16).findSome? fun r =>
    match s.regOwner g.1 r.val with
    | some (_, b) => if b.core == c && (s.releasable g.1 r b).isSome then some (.ingressRelease g.1 r) else none
    | none => none

/-- What a service pair's clock calls for: an interrupt that is taken (spec/18 R374), a heartbeat, the end of a period in which one was
missed (R391). -/
def State.dueSvc (s : State) (c : Nat) : Option Instr :=
  let k := svcSlot c
  let v := s.svc k
  let gap := (s.atGap k).isSome
  let others := (List.range 14).filter fun j => j != k && (s.svc j).started
  if !isSvc c || !s.pairRuns k then none
  else if gap && v.linkPend && bitOf v.fstat 0 && bitOf v.fstat 4 then some (.linkEventEntry c)
  else if gap && v.hbPend && bitOf v.fstat 0 && bitOf v.fstat 5 && !others.isEmpty then some (.heartbeatMissed c (others.headD 0))
  else if gap && s.svcreqTaken k then some (.svcreqEntry c)
  else if gap && s.clkcmpTaken k then some (.clkcmpMatch c)
  else if v.hbAt + v.beatPer ≤ s.now c then some (.heartbeatSend c)
  else (others.find? fun j => decide (v.heard.getD j 0 + 2 * v.beatPer ≤ s.now c)).map fun j => .heartbeatMissed c j

/-- The command that has waited for the end of a pre-emption (spec/18 R372). -/
def State.dueBctl (s : State) : Option Instr :=
  if s.pkg.bctl = 0 || s.blockState (s.pkg.bctlSel % 2 ^ 32) (s.pkg.bctlSel / 2 ^ 32) = 3 then none
  else match fld s.pkg.bctl 28 4 with
    | 1 => some .bctlResume | 2 => some .bctlSkip | 3 => some .bctlKillt | 4 => some .bctlKillb
    | 5 => some .bctlPreempt | 6 => some .bctlMigrate | 7 => some .bctlPop | _ => none

/-- The transition of a link whose time has run out: a drain ends within 8,192 link clocks, a training within 150,000 (spec/19
R400). -/
def State.dueLink (s : State) (k : Nat) : Option Instr :=
  let l := s.link? k
  if s.linkIn k [.drain] && decide (l.since + 8192 ≤ l.clk) then some (.linkDrainComplete k)
  else if s.linkIn k [.train] && decide (l.since + 150000 ≤ l.clk) then some (.linkTrainFail k) else none

/-- The first event that is due on a core at its clock. -/
def State.dueOn (s : State) (c : Nat) : Option Instr :=
  (s.dueSvc c).orElse fun _ => (s.duePreempt c).orElse fun _ => (s.dueQuad c).orElse fun _ => (s.dueIngress c).orElse fun _ =>
    (s.dueBar c).orElse fun _ => ((s.ops.filter fun o => o.core == c).findSome? s.dueOp).orElse fun _ =>
    ((s.threadsOn c).findSome? s.dueThread).orElse fun _ => s.dueGather c

end Sys2Proof.Machine
end

