-- ==== Sys2Proof/Machine/Past.lean ====
section
/-!
DEFINITION. Machine/Past.lean: the passing of clocks, island by island (spec/00 R3, spec/01 R20): a clock of a core passes where
no event is due at it and no word is owed (spec/03 R65 to R67); what BARN, MQRY and STRQ may still read of a clock that ends
(spec/11 R237, spec/13 R289, spec/16 R342) is kept for as long as they may, at most 1,024 clocks.
-/

namespace Sys2Proof.Machine

/-- The cores that have state. -/
def State.usedCores (s : State) : List Nat := sortNat (s.cores.map (·.1) ++ s.blocks.map (·.2.core))

/-- What BARN, MQRY and STRQ show now. -/
def State.shown (s : State) : Past where
  clks := s.usedCores.map fun c => (c, s.now c)
  bars := s.blocks.flatMap fun p => (s.barsOf p.1 true).map fun b => (b, s.barWordOf b)
  blks := s.blocks.map fun p => (p.1, (s.mqryStat p.1, s.mqryLatch p.1))
  quads := (sortNat (s.blocks.map fun p => quadOf p.2.core)).map fun q =>
    (q, ((s.quad q).imbWord, (s.quad q).stWord, (s.quad q).limWord))

/-- What may still be read once this clock has passed: it shows what the clock before it did, or it is added; what is older than
1,024 clocks on every core goes. -/
def State.pastAfter (s : State) : List Past :=
  let p := s.shown
  let old := match s.past.getLast? with
    | some q => if q.bars == p.bars && q.blks == p.blks && q.quads == p.quads then s.past.dropLast else s.past
    | none => []
  (old.filter fun q => q.clks.any fun k => decide (s.now k.1 < k.2 + 1024)) ++ [p]

/-- Is a core among the islands of a tick, all of them where none is named? -/
def inTick (who : List Nat) (c : Nat) : Bool := who.isEmpty || who.contains c

/-- The event that is due before a clock of some islands passes; none while the package is suspended (spec/19 R409). -/
def State.due (s : State) (who : List Nat) : Option Instr :=
  if s.fw.pkgSusp then none
  else s.dueBctl.orElse fun _ => ((s.usedCores.filter (inTick who)).findSome? s.dueOn).orElse fun _ =>
    ((s.links.map (·.1)).filter fun k => inTick who (2000 + k)).findSome? s.dueLink

/-- May the clock pass on these islands? -/
def State.mayTick (s : State) (who : List Nat) : Bool :=
  let cs := s.usedCores.filter (inTick who)
  (s.due who).isNone && cs.all fun c => !s.owes c && (s.wordsOn c).all fun w => s.inBound w.1 w.2

/-- Bytes of earlier words that a thread may still fetch are kept, no others (spec/02 R56). -/
def State.pruneOld (s : State) : State :=
  let seen := s.blocks.flatMap fun p => if isSvc p.2.core && !(s.svc (svcSlot p.2.core)).started then [] else
    p.2.threads.filterMap fun q => if q.2.status == .live then some q.2.iseen else none
  { s with mem := { s.mem with old := s.mem.old.filter fun e => seen.any fun v => decide (v < e.1) } }

/-- One clock of some islands. -/
def State.tickOne (s : State) (who : List Nat) : State :=
  let cs := s.usedCores.filter (inTick who)
  let past := s.pastAfter
  let s := cs.foldl (fun s c => (s.endClock c).modCore c fun k => { k with clk := k.clk + 1 }) { s with past := past }
  let s := { s with
    dies := s.dies.map fun (p : Nat × Die) => if inTick who (1000 + p.1) then (p.1, { p.2 with clk := p.2.clk + 1 }) else p
    links := s.links.map fun (p : Nat × Link) => if inTick who (2000 + p.1) then (p.1, { p.2 with clk := p.2.clk + 1 }) else p }
  cs.foldl State.snapTkw s.landAll.pruneOld

/-- n clocks of some islands, one by one; none pass while the package is suspended (spec/19 R409), and none passes where an event
is due or a word is owed at it. -/
def State.tickAll (s : State) (who : List Nat) : Nat → Out State
  | 0 => .next s
  | n + 1 =>
    if s.fw.pkgSusp then .next s
    else if s.mayTick who then (s.tickOne who).tickAll who n
    else .refused (.notEnabled "TICK")

/-- An event frees words that found their condition not to hold at this clock to try again. -/
def State.retryHeld (s : State) : State :=
  { s with blocks := s.blocks.map fun p => (p.1, { p.2 with threads := p.2.threads.map fun q => (q.1, { q.2 with heldAt := none }) }) }

end Sys2Proof.Machine
end

