-- ==== Sys2Proof/Machine/Step.lean ====
section
/-!
DEFINITION. Machine/Step.lean: one step of the package. The agenda of the state says what happens next (DESIGN CHOICE, log 1): an
issue group of a core, an event, or clocks; with an empty agenda an event that is due happens, else the first word that can
issue does, else a clock passes.
-/

namespace Sys2Proof.Machine

/-- One step: writes that are due land, then the head of the agenda happens. -/
def step (s : State) : Host.Outcome State Fault Refusal :=
  match s.landAll.agenda with
  | [] => match s.landAll.due [] with
    | some i => exec i s.landAll.retryHeld
    | none => match s.landAll.nextIssue with
      | some g => s.landAll.issueWith exec g
      | none => s.landAll.tickAll [] 1
  | .tick n who :: r => ({ s.landAll with agenda := r } : State).tickAll who n
  | .event i :: r => if i.isWord then .refused .notAnEvent else exec i ({ s.landAll with agenda := r } : State).retryHeld
  | .issue g :: r => ({ s.landAll with agenda := r } : State).issueWith exec g

/-- The state with one instruction placed where the next step fetches and runs it (DESIGN CHOICE, log 2); the bits above `nbits` are
0. -/
def State.withFetchWord (s : State) (nbits w : Nat) : State := s.probe (w % 2 ^ nbits)

end Sys2Proof.Machine
end

