-- ==== Sys2Proof/Safety.lean ====
section
/-!
DEFINITION. Safety.lean: what counts as a safe run, in the terms the claims use: the invariants of the state, what a
word that completes may change (frames), and the writes it leaves in flight.
-/

namespace Sys2Proof.Machine

/-! ### Invariants -/

/-- Every byte store is in canonical form: the devices and every scratchpad (DESIGN CHOICE, log 3). -/
def State.memWf (s : State) : Bool := s.mem.wf && s.cores.all fun p => cellsWf p.2.spad

/-- GRIDNEXT is neither 0 nor has bit 31 set (spec/18 R367). -/
def State.gridnextOk (s : State) : Bool := s.pkg.gridnext != 0 && !bitOf s.pkg.gridnext 31

/-- A step that ends in a next state. -/
def steps (s t : State) : Prop := step s = .next t

/-! ### The issue group -/

/-- Is there such a thread? -/
def State.has (s : State) (t : Tid) : Bool :=
  (s.blocks.find t.blk).isSome && ((s.block t.blk).threads.find t.idx).isSome

/-- The threads of the issue group are distinct, exist, and run on its core. -/
def State.groupOk (s : State) : Bool :=
  decide s.cur.tids.Nodup && s.cur.tids.all fun t => s.has t && (s.block t.blk).core == s.cur.core

/-! ### Frames: what is left when the parts a word may change are taken away -/

/-- A thread but for its pc, window, loop levels and issue bookkeeping. -/
def Thread.arch (th : Thread) : Thread :=
  { th with pc := 0, win := [], loops := [], lbuf := [], qlast := [], readyAt := 0, fpAt := 0, since := none,
            heldAt := none, tkSnap := [], urgent := false, owed := 0, aged := none, rejected := none, iseen := 0, iacq := 0,
            accAt := 0, tabAt := none, undo := none }

/-- A thread but for its counters and the operation it waits for as well. -/
def Thread.still (th : Thread) : Thread := { th.arch with ld := 0, st := 0, cp := 0, mt := 0, waitOp := none }

/-- A core but for the occupancy of its units, its virtual clock, its gathers, its translations and its reserved copy slots. -/
def Core.arch (k : Core) : Core :=
  { k with classAt := [], sfuFree := 0, memFree := 0, copyFree := 0, rastFree := 0, spare := 0, vclk := 0, gathers := [], tlb := [],
           book := [] }

/-- All of the state but the issue group, the counters of free values and operations, cores, blocks and operations. -/
def State.rest (s : State) : State :=
  { s with cur := {}, free := 0, nextId := 0, cores := [], blocks := [], ops := [] }

/-- Every byte of memory and of every scratchpad reads as before. -/
def SameBytes (s s' : State) : Prop :=
  (∀ pa, s'.homeByte pa = s.homeByte pa) ∧ ∀ c o, cellRead (s'.core c).spad o = cellRead (s.core c).spad o

/-- No cache gives up a line while it takes n more bytes (spec/09 R174). -/
def State.roomy (s : State) (n : Nat) : Prop :=
  s.mem.l2.length + n ≤ Config.l2Lines 4 ∧ (∀ c, (s.core c).l1.length + n ≤ Config.l1Sectors) ∧
  ∀ d, (s.die d).rdc.length + n ≤ Config.rdcLines

/-- The byte a load of a core finds (spec/09 R174): its L1's where that holds the sector whole or the byte dirty, else the one
below: the RDC's where that holds the sector whole, else the home's behind the die's own forwarded writes. -/
def State.loadByte (s : State) (c a : Nat) : Byte :=
  let below := if isSvc c then s.homeByte a
    else if (s.die (dieOf c)).holds (secOf a) then s.lowByte c a else s.sentByte (dieOf c) a
  if s.atHome a then s.homeByte a
  else match (s.core c).l1.find a with
    | some b => if (s.core c).holds (secOf a) || b.dirty then b.v else below
    | none => below

/-- Nothing but threads, blocks and operations has changed: memory, scratchpads, caches, mailboxes, semaphores,
CSRs, service cores, grids, quads, dies, links and the fabric are as before. -/
def SameRest (s s' : State) : Prop :=
  s'.rest = s.rest ∧ (∀ c, (s'.core c).arch = (s.core c).arch) ∧ SameBytes s s'

/-- A thread of the group at the word falls through to the word behind it, unless the word ends a loop body or that
word has already issued. -/
def FellThrough (s s' : State) (ts : List Tid) : Prop :=
  ∀ t ∈ ts, (s.thread t).pc = s.cur.pc → (s.thread t).atLoopEnd s.cur.pc = false →
    ((s.thread t).win.drop 1).all (fun w => !w.issued) = true →
    (s'.thread t).pc = s.cur.pc + 8 ∧ (s'.thread t).loops = (s.thread t).loops

/-! ### Fixed-latency words -/

/-- A write of a register is in flight and lands at a clock (spec/02 R36); xz discards. -/
def State.inFlight (s : State) (t : Tid) (r : Reg) (v : Word) (due : Nat) : Prop :=
  match r with
  | .xz => True
  | .x n => ∃ p ∈ (s.thread t).pend, p.dst = n.val ∧ p.val = v ∧ p.due = due
  | .g n => ∃ p ∈ (s.block t.blk).gpend, p.dst = 192 + n.val ∧ p.val = v ∧ p.due = due

/-- The writes in flight are those of before and, for the active threads, the named ones. -/
def OnlyWrites (s s' : State) (h : Hdr) (due : Nat) (f : Tid → List (Reg × Word)) : Prop :=
  (∀ u, ∀ p ∈ (s.thread u).pend, p ∈ (s'.thread u).pend) ∧
  (∀ u, ∀ p ∈ (s'.thread u).pend, p ∈ (s.thread u).pend ∨
    (u ∈ s.act h ∧ p.due = due ∧ ∃ w ∈ f u, ∃ n, w.1 = .x n ∧ p.dst = n.val ∧ p.val = w.2)) ∧
  (∀ b, ∀ p ∈ (s.block b).gpend, p ∈ (s'.block b).gpend) ∧
  (∀ b, ∀ p ∈ (s'.block b).gpend, p ∈ (s.block b).gpend ∨
    (p.due = due ∧ ∃ t ∈ s.act h, t.blk = b ∧ lowLane (s.act h) b = some t ∧
      ∃ w ∈ f t, ∃ n, w.1 = .g n ∧ p.dst = 192 + n.val ∧ p.val = w.2))

/-- A fixed-latency word has completed: for each active thread the named registers have their values in flight, to land
`lat` clocks after issue (a g register's from the lowest active lane of its block, spec/02 R49); no other write is
added; registers, predicates, counters and every other field of every thread and block are as before, and so is
everything else. -/
def Fixed (s s' : State) (h : Hdr) (lat : Nat) (f : Tid → List (Reg × Word)) : Prop :=
  (∀ t ∈ s.act h, ∀ p ∈ f t, writesReg (s.act h) t p.1 = true → s'.inFlight t p.1 p.2 (s.clk + lat)) ∧
  OnlyWrites s s' h (s.clk + lat) f ∧
  (∀ u, { (s'.thread u).arch with pend := [] } = { (s.thread u).arch with pend := [] }) ∧
  (∀ u, u ∉ s.cur.tids → s'.thread u = s.thread u) ∧
  (∀ b, { s'.block b with threads := [], gpend := [] } = { s.block b with threads := [], gpend := [] }) ∧
  s'.ops = s.ops ∧ SameRest s s' ∧ FellThrough s s' s.cur.tids

/-- A fixed-latency word that writes predicates: for each active thread the named predicates have their values in
flight; p7 discards (spec/02 R40). -/
def FixedP (s s' : State) (h : Hdr) (lat : Nat) (f : Tid → List (Pred × Bool)) : Prop :=
  (∀ t ∈ s.act h, ∀ p ∈ f t, p.1 ≠ 7 → ∃ w ∈ (s'.thread t).pend,
    w.dst = 256 + p.1.val ∧ w.val = (if p.2 then 1 else 0) ∧ w.due = s.clk + lat) ∧
  (∀ u, ∀ p ∈ (s.thread u).pend, p ∈ (s'.thread u).pend) ∧
  (∀ u, ∀ p ∈ (s'.thread u).pend, p ∈ (s.thread u).pend ∨
    (u ∈ s.act h ∧ p.due = s.clk + lat ∧ ∃ w ∈ f u, w.1 ≠ 7 ∧ p.dst = 256 + w.1.val ∧ p.val = if w.2 then 1 else 0)) ∧
  (∀ u, { (s'.thread u).arch with pend := [] } = { (s.thread u).arch with pend := [] }) ∧
  (∀ u, u ∉ s.cur.tids → s'.thread u = s.thread u) ∧
  (∀ b, { s'.block b with threads := [] } = { s.block b with threads := [] }) ∧
  s'.ops = s.ops ∧ SameRest s s' ∧ FellThrough s s' s.cur.tids

/-- A fixed-latency word answers a next state in which it has completed with these register results. -/
def State.gives (s : State) (h : Hdr) (i : Instr) (lat : Nat) (f : Tid → List (Reg × Word)) : Prop :=
  ∃ s', exec i s = .next s' ∧ Fixed s s' h lat f

/-- A fixed-latency word answers a next state in which it has completed with these predicate results. -/
def State.givesP (s : State) (h : Hdr) (i : Instr) (lat : Nat) (f : Tid → List (Pred × Bool)) : Prop :=
  ∃ s', exec i s = .next s' ∧ FixedP s s' h lat f

/-- The issue group's word has issued and changed nothing but the group's pcs and issue bookkeeping. -/
def OnlyRetired (s s' : State) : Prop :=
  (∀ u, (s'.thread u).arch = (s.thread u).arch) ∧ (∀ u, u ∉ s.cur.tids → s'.thread u = s.thread u) ∧
  (∀ b, { s'.block b with threads := [] } = { s.block b with threads := [] }) ∧
  s'.ops = s.ops ∧ SameRest s s'

/-- The active lanes have gone to their targets, loop levels kept, and their next words wait at least two clocks; the inactive
lanes fall through (spec/03 R78). -/
def Jumped (s s' : State) (h : Hdr) (tgt : Tid → DWord) : Prop :=
  (∀ t ∈ s.act h, (s'.thread t).pc = tgt t ∧ (s'.thread t).loops = (s.thread t).loops ∧ s.clk + 2 ≤ (s'.thread t).readyAt) ∧
  FellThrough s s' (s.cur.tids.filter fun t => !s.isActive h t)

/-- A transfer target that faults on nothing: word-aligned and in the 57-bit form (spec/03 R78). -/
def legalTarget (d : DWord) : Prop := d.toNat % 8 = 0 ∧ form57 d = true

/-- Registers and predicates of every thread, and every byte of memory, are as before. -/
def SameValues (s s' : State) : Prop :=
  (∀ u, (s'.thread u).x = (s.thread u).x ∧ (s'.thread u).preds = (s.thread u).preds) ∧
  (∀ b, (s'.block b).g = (s.block b).g) ∧ SameBytes s s'

/-! ### Words that start operations -/

/-- An operation the word has put in flight, waiting to run: of this kind, for these threads of a block, at the word,
behind the operations of the tokens it consumes, and a member of the token it produces (spec/03 R69, R70). -/
def Started (s s' : State) (b : Nat) (k : OpKind) (ts : List Tid) (ins : List Tok) (tko : Option Tok) : Prop :=
  ∃ o ∈ s'.ops, s.nextId ≤ o.id ∧ o.kind = k ∧ o.blk = b ∧ o.tids = ts ∧ o.core = s.cur.core ∧ o.pc = s.cur.pc ∧
    o.clk = s.clk ∧ o.stage = 0 ∧ (∀ i ∈ ins.flatMap (s.tokOps b), i ∈ o.after) ∧
    ∀ n, tko = some n → ((s'.block b).tok n).prod = true ∧ o.id ∈ ((s'.block b).tok n).ops

/-- A word that starts operations has changed nothing but pcs, issue bookkeeping, tokens, the list of operations, and of
its active threads the counters and what they wait for: every register, predicate and byte of memory is as before, and
no operation of before is lost. -/
def OpFrame (s s' : State) (h : Hdr) : Prop :=
  (∀ u, (s'.thread u).still = (s.thread u).still) ∧ (∀ u, u ∉ s.act h → (s'.thread u).arch = (s.thread u).arch) ∧
  (∀ b, { s'.block b with threads := [], toks := [] } = { s.block b with threads := [], toks := [] }) ∧
  (∀ o ∈ s.ops, o ∈ s'.ops) ∧ SameRest s s'

/-- One counter of each active thread has risen by one, the others are as before (spec/03 R68). -/
def Counted (s s' : State) (h : Hdr) (c : Option Cnt) : Prop :=
  ∀ u ∈ s.act h, (s'.thread u).arch = (match c with
    | some c => Thread.up c (s.thread u)
    | none => s.thread u).arch

/-- A word that starts one operation for each block with an active lane, from its lowest active lane, has completed. -/
def BlockStarts (s s' : State) (h : Hdr) (ins : List Tok) (tko : Option Tok) (cnt : Option Cnt) (kind : Tid → OpKind) :
    Prop :=
  OpFrame s s' h ∧ Counted s s' h cnt ∧ FellThrough s s' s.cur.tids ∧
  ∀ b ∈ blksOf (s.act h), ∀ t, lowLane (s.act h) b = some t →
    Started s s' b (kind t) ((s.act h).filter (·.blk == b)) ins tko

/-- A word that starts one operation for each active lane, and one for each block's token, has completed. -/
def LaneStarts (s s' : State) (h : Hdr) (ins : List Tok) (tko : Tok) (cnt : Cnt) (kind : Tid → OpKind) : Prop :=
  OpFrame s s' h ∧ Counted s s' h (some cnt) ∧ FellThrough s s' s.cur.tids ∧
  (∀ t ∈ s.act h, Started s s' t.blk (kind t) [t] ins none) ∧
  ∀ b ∈ blksOf (s.act h), Started s s' b .group ((byLane (s.act h)).filter (·.blk == b)) [] (some tko)

/-- Each token the word consumes is produced, for every active lane (spec/03 R70). -/
def State.produced (s : State) (h : Hdr) (ins : List Tok) : Bool :=
  (s.act h).all fun t => ins.all fun k => ((s.block t.blk).tok k).prod

/-- A word that puts `n` operations in flight at once has completed: only the counter it names has risen. -/
def Begun (s s' : State) (h : Hdr) (c : Option Cnt) (n : Nat) : Prop :=
  OpFrame s s' h ∧ Counted s s' h c ∧ FellThrough s s' s.cur.tids ∧ s'.ops.length = s.ops.length + n

/-- An access that faults on nothing: n bytes at a SPAD offset, or at a QSPAD offset of a member of the quad group, lie at
this core and byte (spec/09 R171, R172, R176). -/
def State.spadAt (s : State) (t : Tid) (q : Bool) (o n : Nat) (l : Nat × Nat) : Prop :=
  let b := s.block t.blk
  o % n = 0 ∧ 0 < b.spadSize ∧
  if q then o < 2 ^ 24 ∧ o % 2 ^ 22 + n ≤ b.spadSize ∧
    ∃ m, s.qmember b (o / 2 ^ 22 % 4) = some m ∧ l = (m.2.core, m.2.spadBase + o % 2 ^ 22)
  else o + n ≤ b.spadSize ∧ l = (b.core, b.spadBase + o)

/-- The accesses of one row. -/
def rowAccs (accs : List Acc) (t : Tid) : List Acc := accs.filter fun a => a.t.blk == t.blk && a.t.row == t.row

/-- The value a register holds, writes in flight apart; xz reads 0. -/
def State.reg (s : State) (t : Tid) (r : Reg) : Word := match r with
  | .xz => 0
  | .x n => (s.thread t).x.getD n.val 0
  | .g n => (s.block t.blk).g.getD n.val 0

/-- No access that began before an operation is in flight. -/
def State.firstAccess (s : State) (o : Op) : Bool := (s.opsBefore o.id).all fun p => !p.kind.fenced

/-- An operation has completed: it has left the list, and of its counters those of these threads have fallen. -/
def Ended (s s' : State) (o : Op) (c : Option Cnt) : Prop :=
  s'.ops = s.ops.filter (·.id != o.id) ∧
  ∀ u, (s'.thread u).cnt = fun k => (s.thread u).cnt k - if some k = c ∧ u ∈ o.tids then 1 else 0

/-- The registers and predicates are as before, but for the named registers of these threads. -/
def OnlyRegs (s s' : State) (ts : List Tid) (rs : List Reg) : Prop :=
  (∀ u r, ¬ (r ∈ rs) → s'.reg u r = s.reg u r) ∧ (∀ u, u ∉ ts → (s'.thread u).x = (s.thread u).x) ∧
  ∀ u, (s'.thread u).preds = (s.thread u).preds ∧ (s'.thread u).pc = (s.thread u).pc

/-- A word at which its active threads block has put one operation in flight for each of them, which it waits for; the
inactive threads fall through. -/
def Blocked (s s' : State) (h : Hdr) (c : Option Cnt) (kind : Tid → OpKind) : Prop :=
  OpFrame s s' h ∧ FellThrough s s' (s.cur.tids.filter fun t => !s.isActive h t) ∧
  ∀ t ∈ s.act h, (s'.thread t).pc = (s.thread t).pc ∧
    (∀ k, (s'.thread t).cnt k = (s.thread t).cnt k + if c = some k then 1 else 0) ∧
    ∃ o ∈ s'.ops, s.nextId ≤ o.id ∧ o.kind = kind t ∧ o.blk = t.blk ∧ o.tids = [t] ∧ o.core = s.cur.core ∧
      o.pc = s.cur.pc ∧ o.clk = s.clk ∧ o.stage = 0 ∧ (s'.thread t).waitOp = some o.id

/-- The n bytes from `byte 0` on stand in registers d, d + 1, … of a thread, zero-extended (spec/00 R4, spec/09 R187). -/
def State.holds (s : State) (t : Tid) (d : Reg) (n : Nat) (byte : Nat → Byte) : Prop :=
  ∀ k < max 1 (n / 4), d.plus k ≠ .xz → ∀ j < 4,
    (s.reg t (d.plus k)).extractLsb' (8 * j) 8 = if 4 * k + j < n then byte (4 * k + j) else 0

/-- The registers an access of n bytes names. -/
def regsOf (d : Reg) (n : Nat) : List Reg := (List.range (max 1 (n / 4))).map d.plus

/-- The threads of these indices stand at a record that a fault has queued: code, address of the word, VAL (spec/18 R370,
R371). -/
def Faulted (s s' : State) (b : Nat) (ts : List Tid) (code : Nat) (pc val : DWord) : Prop :=
  ∃ r : FRec, (s'.block b).faultq = (s.block b).faultq ++ [r] ∧ r.code = code ∧ r.pc = pc ∧ r.val = val ∧ r.susp = true ∧
    r.imp = false ∧ ∀ t ∈ ts, (s'.thread t).susp = some r.id

/-- A word that starts one operation for each block with an active lane, which its active threads wait for at the word; the
inactive threads fall through. -/
def BlockWaits (s s' : State) (h : Hdr) (ins : List Tok) (tko : Option Tok) (cnt : Option Cnt) (kind : Tid → OpKind) : Prop :=
  OpFrame s s' h ∧ FellThrough s s' (s.cur.tids.filter fun t => !s.isActive h t) ∧
  ∀ b ∈ blksOf (s.act h), ∀ t, lowLane (s.act h) b = some t → ∃ o ∈ s'.ops, s.nextId ≤ o.id ∧ o.kind = kind t ∧ o.blk = b ∧
    o.tids = (s.act h).filter (·.blk == b) ∧ o.core = s.cur.core ∧ o.pc = s.cur.pc ∧ o.clk = s.clk ∧ o.stage = 0 ∧
    (∀ i ∈ ins.flatMap (s.tokOps b), i ∈ o.after) ∧
    (∀ n, tko = some n → ((s'.block b).tok n).prod = true ∧ o.id ∈ ((s'.block b).tok n).ops) ∧
    ∀ u ∈ s.act h, u.blk = b → (s'.thread u).waitOp = some o.id ∧ (s'.thread u).pc = (s.thread u).pc ∧
      ∀ k, (s'.thread u).cnt k = (s.thread u).cnt k + if cnt = some k then 1 else 0

end Sys2Proof.Machine
end

