-- ==== Sys2Proof/Certificates/Slice0/Obligations.lean ====
section
/-!
DEFINITION. Certificates/Slice0/Obligations.lean: the statements for the provers. Each says what the spec's rules give an
instruction, an event or the machine; `OBLIGATIONS.json` names the rule of each.
-/

open Sys2Proof Sys2Proof.Machine

/-! ### Integer words -/

/-- The register words of R89 and R90 on one or more 32-bit sources: each gives its destination the result of the rule, 4
clocks after issue for the multiplies and 2 for the others, and changes nothing else (spec/04 R89, R90). -/
def Obligations.IntResults : Prop :=
  ∀ (s : State) (h : Hdr) (d a b c : Reg), s.groupOk = true →
    let A := fun t => s.rd t a
    let B := fun t => s.rd t b
    let C := fun t => s.rd t c
    let two := fun (i : Instr) (v : Tid → Word) => s.gives h i 2 fun t => [(d, v t)]
    let four := fun (i : Instr) (v : Tid → Word) => s.gives h i 4 fun t => [(d, v t)]
    let signed := fun (v : Int) => BitVec.ofInt 32 (max (-2 ^ 31) (min (2 ^ 31 - 1) v))
    let unsigned := fun (v : Int) => BitVec.ofInt 32 (max 0 (min (2 ^ 32 - 1) v))
    two (.iadd h d a b .wrap) (fun t => A t + B t) ∧
    two (.iadd h d a b .sat) (fun t => signed ((A t).toInt + (B t).toInt)) ∧
    two (.iadd h d a b .satU) (fun t => unsigned ((A t).toNat + (B t).toNat)) ∧
    two (.isub h d a b .wrap) (fun t => A t - B t) ∧
    two (.isub h d a b .sat) (fun t => signed ((A t).toInt - (B t).toInt)) ∧
    two (.isub h d a b .satU) (fun t => unsigned ((A t).toNat - (B t).toNat)) ∧
    four (.imul h d a b) (fun t => A t * B t) ∧
    four (.imulh h d a b false) (fun t => ((A t).signExtend 64 * (B t).signExtend 64).extractLsb' 32 32) ∧
    four (.imulh h d a b true) (fun t => ((A t).zeroExtend 64 * (B t).zeroExtend 64).extractLsb' 32 32) ∧
    four (.imad h d a b c .wrap) (fun t => A t * B t + C t) ∧
    four (.imad h d a b c .sat) (fun t => signed ((A t).toInt * (B t).toInt + (C t).toInt)) ∧
    four (.imad h d a b c .satU) (fun t => unsigned ((A t).toNat * (B t).toNat + (C t).toNat)) ∧
    two (.imin h d a b false) (fun t => if (A t).slt (B t) then A t else B t) ∧
    two (.imin h d a b true) (fun t => if (A t).ult (B t) then A t else B t) ∧
    two (.imax h d a b false) (fun t => if (A t).slt (B t) then B t else A t) ∧
    two (.imax h d a b true) (fun t => if (A t).ult (B t) then B t else A t) ∧
    two (.iabs h d a false) (fun t => (A t).abs) ∧
    two (.iabs h d a true) (fun t => if A t = 0x80000000 then 0x7FFFFFFF else (A t).abs) ∧
    two (.and h d a b) (fun t => A t &&& B t) ∧
    two (.or h d a b) (fun t => A t ||| B t) ∧
    two (.xor h d a b) (fun t => A t ^^^ B t) ∧
    two (.andn h d a b) (fun t => A t &&& ~~~ B t) ∧
    two (.shl h d a b) (fun t => A t <<< (B t).toNat) ∧
    two (.shr h d a b) (fun t => A t >>> (B t).toNat) ∧
    two (.sar h d a b) (fun t => (A t).sshiftRight (B t).toNat) ∧
    two (.rol h d a b) (fun t => (A t).rotateLeft ((B t).toNat % 32)) ∧
    two (.clz h d a) (fun t => (A t).clz) ∧
    two (.brev h d a) (fun t => (A t).reverse) ∧
    two (.popc h d a) (fun t => (A t).cpop) ∧
    two (.mov h d a) A ∧
    (∀ p n, two (.sel h d a b p n) fun t => if s.rdP t p = n then B t else A t) ∧
    ∃ x xs i : Tid → Word, two (.bfx h d a b false) x ∧ two (.bfx h d a b true) xs ∧ two (.bfi h d a b c) i ∧
      ∀ t,
        let pos := (B t).toNat % 256
        let len := (B t).toNat / 256 % 256
        let w := min len (32 - pos)
        if len = 0 ∨ 32 ≤ pos then x t = 0 ∧ xs t = 0 ∧ i t = C t
        else ∀ k < 32,
          (x t).getLsbD k = (decide (k < w) && (A t).getLsbD (pos + k)) ∧
          (xs t).getLsbD k = (A t).getLsbD (pos + min k (w - 1)) ∧
          (i t).getLsbD k = if pos ≤ k ∧ k < pos + w then (A t).getLsbD (k - pos) else (C t).getLsbD k

/-- Pairs, immediates, special registers and the predicates as a word: LEA, IADD64, MOVI, MOVHI, IADDI, ANDI, ORI, XORI, MOVS and
PGET give their destinations the results of the rules, 2 clocks after issue, and change nothing else (spec/04 R91, R95 to R97,
R99). -/
def Obligations.IntMoves : Prop :=
  ∀ (s : State) (h : Hdr) (d a b : Reg), s.groupOk = true →
    let pair := fun (v : DWord) => [(d, v.extractLsb' 0 32), (d.plus 1, v.extractLsb' 32 32)]
    (∀ k, s.gives h (.lea h d a b k false) 2 fun t => pair (s.rd64 t a + (s.rd t b).signExtend 64 <<< k.val)) ∧
    (∀ k, s.gives h (.lea h d a b k true) 2 fun t => pair (s.rd64 t a + (s.rd t b).zeroExtend 64 <<< k.val)) ∧
    (s.gives h (.iadd64 h d a b) 2 fun t => pair (s.rd64 t a + s.rd64 t b)) ∧
    (∀ i, s.gives h (.movi h d i) 2 fun _ => [(d, i.signExtend 32)]) ∧
    (∀ i, s.gives h (.movhi h d i) 2 fun t => [(d, i.zeroExtend 32 <<< 16 ||| s.rd t d &&& 0xFFFF)]) ∧
    (∀ i, s.gives h (.iaddi h d a i) 2 fun t => [(d, s.rd t a + i.signExtend 32)]) ∧
    (∀ i, s.gives h (.andi h d a i) 2 fun t => [(d, s.rd t a &&& i.signExtend 32)]) ∧
    (∀ i, s.gives h (.ori h d a i) 2 fun t => [(d, s.rd t a ||| i.signExtend 32)]) ∧
    (∀ i, s.gives h (.xori h d a i) 2 fun t => [(d, s.rd t a ^^^ i.signExtend 32)]) ∧
    (∀ r, s.gives h (.movs h d r) 2 fun t =>
      if r.wide then pair (s.sreg t r) else [(d, (s.sreg t r).extractLsb' 0 32)]) ∧
    ∃ g : Tid → Word, (s.gives h (.pget h d) 2 fun t => [(d, g t)]) ∧
      ∀ t, ∀ k < 32, (g t).getLsbD k = if k < 7 then s.rdP t (fin 8 k) else decide (k = 7)

/-- The integer words with predicate results: ISETP and ISETPI by the comparison, PLOP by the operation on two predicates, PPUT
from the bits of a word; each puts its predicates in flight, to stand 2 clocks after issue, and changes nothing else (spec/04
R92 to R95). -/
def Obligations.IntPredicates : Prop :=
  ∀ (s : State) (h : Hdr) (p : Pred) (a b : Reg), s.groupOk = true →
    let holds := fun (c : Cmp) (lt eq : Bool) => match c with
      | .eq => eq
      | .ne => !eq
      | .lt => lt
      | .le => lt || eq
      | .gt => !lt && !eq
      | .ge => !lt
    let with_ := fun (t : Tid) (r : Bool) (q : PComb) => match q with
      | .none => r
      | .and k n => r && (s.rdP t k ^^ n)
      | .or k n => r || (s.rdP t k ^^ n)
      | .xor k n => r ^^ (s.rdP t k ^^ n)
    (∀ c q, s.givesP h (.isetp h p a b c false q) 2 fun t =>
      [(p, with_ t (holds c ((s.rd t a).slt (s.rd t b)) (s.rd t a == s.rd t b)) q)]) ∧
    (∀ c q, s.givesP h (.isetp h p a b c true q) 2 fun t =>
      [(p, with_ t (holds c ((s.rd t a).ult (s.rd t b)) (s.rd t a == s.rd t b)) q)]) ∧
    (∀ i c, s.givesP h (.isetpi h p a i c false) 2 fun t =>
      [(p, holds c ((s.rd t a).slt (i.signExtend 32)) (s.rd t a == i.signExtend 32))]) ∧
    (∀ i c, s.givesP h (.isetpi h p a i c true) 2 fun t =>
      [(p, holds c ((s.rd t a).ult (i.zeroExtend 32)) (s.rd t a == i.zeroExtend 32))]) ∧
    (∀ x y z lut, s.givesP h (.plop h p x y z lut) 2 fun t =>
      [(p, lut.getLsbD (4 * (s.rdP t x).toNat + 2 * (s.rdP t y).toNat + (s.rdP t z).toNat))]) ∧
    ∀ mask : BitVec 7, s.givesP h (.pput h a mask) 2 fun t =>
      (([0, 1, 2, 3, 4, 5, 6] : List Pred).filter fun k => mask.getLsbD k.val).map fun k => (k, (s.rd t a).getLsbD k.val)

/-! ### Floating-point, special-function and cross-lane words -/

/-- The FP32 words: each half the word works on gets its result, 4 or 2 clocks after issue (spec/06 R124, R128 to R130, R132,
R133). Sums and products are exact and rounded once; the sign words are bit operations. -/
def Obligations.FpResults : Prop :=
  ∀ (s : State) (h : Hdr) (d a b c : Reg) (md : RMode) (x2 sat : Bool), s.groupOk = true →
    let each := fun (i : Instr) (lat : Nat) (v : Word → Word → Word → Word) => s.gives h i lat fun t =>
      (if x2 then [0, 1] else [0]).map fun k => (d.plus k, v (s.rd t (a.plus k)) (s.rd t (b.plus k)) (s.rd t (c.plus k)))
    let one := fun (i : Instr) (lat : Nat) (v : Word → Word → Word) => s.gives h i lat fun t =>
      [(d, v (s.rd t a) (s.rd t b))]
    each (.fadd h d a b md x2 sat) 4 (fun A B _ => fpRes md sat (sumFV (rndOf md) false [v32 A, v32 B])) ∧
    each (.fsub h d a b md x2 sat) 4 (fun A B _ => fpRes md sat (sumFV (rndOf md) false [v32 A, (v32 B).flip])) ∧
    each (.fmul h d a b md x2 sat) 4 (fun A B _ => fpRes md sat ((v32 A).mul (v32 B))) ∧
    (∀ na nc, each (.ffma h d a b c md x2 sat na nc) 4 fun A B C =>
      fpRes md sat (sumFV (rndOf md) false [((v32 A).mul (v32 B)).flipIf na, (v32 C).flipIf nc])) ∧
    (∀ n, each (.fmin h d a b x2 n) 2 fun A B _ => fpick false n A B) ∧
    (∀ n, each (.fmax h d a b x2 n) 2 fun A B _ => fpick true n A B) ∧
    each (.fclamp h d a b c x2) 2 (fun A B C => fpick false false (fpick true false A B) C) ∧
    each (.fabs h d a x2) 2 (fun A _ _ => A &&& 0x7FFFFFFF) ∧
    each (.fneg h d a x2) 2 (fun A _ _ => A ^^^ 0x80000000) ∧
    one (.fscl h d a b md) 4 (fsclW md) ∧
    ∀ k, one (.fclass h d a k) 2 fun A _ => fclassW k A

/-- The packed, dot-product and conversion words and FSETP (spec/05 R120, R121; spec/06 R131, R134 to R136). -/
def Obligations.FpPackedAndConversions : Prop :=
  ∀ (s : State) (h : Hdr) (d a b c : Reg) (md : RMode) (sat bf : Bool), s.groupOk = true →
    let f := halfFmt bf
    let four := fun (i : Instr) (v : Tid → Word) => s.gives h i 4 fun t => [(d, v t)]
    let A := fun t => s.rd t a
    let B := fun t => s.rd t b
    let C := fun t => s.rd t c
    four (.hadd2 h d a b md sat bf) (fun t =>
      packed md sat bf fun i => sumFV (rndOf md) false [half f (A t) i, half f (B t) i]) ∧
    four (.hmul2 h d a b md sat bf) (fun t => packed md sat bf fun i => (half f (A t) i).mul (half f (B t) i)) ∧
    four (.hfma2 h d a b c md sat bf) (fun t =>
      packed md sat bf fun i => sumFV (rndOf md) false [(half f (A t) i).mul (half f (B t) i), half f (C t) i]) ∧
    four (.dot2 h d a b c md bf) (fun t => fpRes md false
      (sumFV (rndOf md) true [v32 (C t), (half f (A t) 0).mul (half f (B t) 0), (half f (A t) 1).mul (half f (B t) 1)])) ∧
    (∀ sg : DotSign, four (.dot4 h d a b c sat sg) fun t =>
      let el := fun (signed : Bool) (w : Word) (i : Nat) =>
        if signed then (w.extractLsb' (8 * i) 8).toInt else ((w.extractLsb' (8 * i) 8).toNat : Int)
      let v := (C t).toInt + (el (sg != .uu) (A t) 0 * el (sg == .ss) (B t) 0 + el (sg != .uu) (A t) 1 * el (sg == .ss) (B t) 1
        + el (sg != .uu) (A t) 2 * el (sg == .ss) (B t) 2 + el (sg != .uu) (A t) 3 * el (sg == .ss) (B t) 3)
      BitVec.ofInt 32 (if sat then max (-2 ^ 31) (min (2 ^ 31 - 1) v) else v)) ∧
    four (.frnd h d a md) (fun t => frndW md (A t)) ∧
    (∀ u, four (.f2i h d a u md) fun t => f2iW u md (A t)) ∧
    (∀ u, four (.i2f h d a u md) fun t => i2fW u md (A t)) ∧
    (∀ to_ src, s.gives h (.cvt h d a c to_ src) 4 fun t => [(d, cvtW (s.slotWord t to_.val) (s.slotWord t src.val) (s.seedOf t) t.lane (s.rd t a) (s.rd t c))]) ∧
    (∀ to_, s.gives h (.cvtpk h d a b c to_) 4 fun t =>
      [(d, cvtpkW (s.slotWord t to_.val) (s.seedOf t) t.lane (s.rd t d) (s.rd t a) (s.rd t b) (s.rd t c))]) ∧
    (∀ src, s.gives h (.cvtup h d a b src) 4 fun t => [(d, cvtupW (s.slotWord t src.val) (s.rd t a) (s.rd t b))]) ∧
    ∀ p cmp q, s.givesP h (.fsetp h p a b cmp q) 2 fun t => [(p, s.combine t (compareFp (s.rd t a) (s.rd t b) cmp) q)]

/-- Special values of the FP32 words: a NaN source gives the canonical NaN, +0 under .SAT; FMIN and FMAX return the other
operand of a NaN unless .NAN is set; FSETP's compares of a NaN are false but .NE and .NAN; −0 equals +0 (spec/06 R125, R128,
R129, R131). -/
def Obligations.FpSpecialValues : Prop :=
  ∀ (x y z : Word) (md : RMode) (na nc : Bool),
    let nan := fun (w : Word) => w.extractLsb' 23 8 = 0xFF ∧ w.extractLsb' 0 23 ≠ 0
    (nan x ∨ nan y →
      faddW md false x y = 0x7FC00000 ∧ fsubW md false x y = 0x7FC00000 ∧ fmulW md false x y = 0x7FC00000 ∧
      faddW md true x y = 0 ∧ fsubW md true x y = 0 ∧ fmulW md true x y = 0) ∧
    (nan x ∨ nan y ∨ nan z → ffmaW md false na nc x y z = 0x7FC00000 ∧ ffmaW md true na nc x y z = 0) ∧
    (nan x → ¬ nan y → ∀ g, fpick g false x y = y ∧ fpick g false y x = y ∧ fpick g true x y = 0x7FC00000 ∧
      fpick g true y x = 0x7FC00000) ∧
    (nan x → nan y → ∀ g n, fpick g n x y = 0x7FC00000) ∧
    (¬ nan x → ¬ nan y → ∀ g n, fpick g n x y = x ∨ fpick g n x y = y) ∧
    (nan x ∨ nan y → (∀ c, compareFp x y c = (c == .ne || c == .nan))) ∧
    compareFp 0 0x80000000 .eq = true ∧ fpick false false 0 0x80000000 = 0x80000000 ∧ fpick true false 0x80000000 0 = 0

/-- The 64 values of the 6-bit tapered formats, in 256ths: T6e0 and T6e1; pattern 0x20 is NaR, read as NaN (spec/05
R111). -/
def Obligations.TaperedValues : Prop :=
  let value := fun (f p : Nat) => match decSlot f p with
    | .fin g m e => some ((if g then -1 else 1) * (m * 2 ^ (e + 8).toNat : Nat) : Int)
    | _ => none
  let e0 : List Int := [0, 16, 32, 48, 64, 80, 96, 112, 128, 144, 160, 176, 192, 208, 224, 240, 256, 288, 320, 352, 384, 416,
    448, 480, 512, 640, 768, 896, 1024, 1536, 2048, 4096]
  let e1 : List Int := [0, 1, 4, 8, 16, 24, 32, 48, 64, 80, 96, 112, 128, 160, 192, 224, 256, 320, 384, 448, 512, 640, 768, 896,
    1024, 1536, 2048, 3072, 4096, 8192, 16384, 65536]
  (∀ p : Fin 32, value 5 p.val = e0[p.val]? ∧ value 6 p.val = e1[p.val]?) ∧
  (∀ p : Fin 31, value 5 (63 - p.val) = (e0[p.val + 1]?).map (-·) ∧ value 6 (63 - p.val) = (e1[p.val + 1]?).map (-·)) ∧
  decSlot 5 0x20 = .nan ∧ decSlot 6 0x20 = .nan

/-- The SFU words: each has its result its latency after issue; TLU evaluates the segment of its descriptor from the scratchpad
where no coefficient is poisoned and its operands are in range; CSAMP selects within its row (spec/07 R138, R144 to R151). -/
def Obligations.SfuResults : Prop :=
  ∀ (s : State) (h : Hdr) (d a b : Reg), s.groupOk = true →
    let one := fun (i : Instr) (lat : Nat) (v : Word → Word) => s.gives h i lat fun t => [(d, v (s.rd t a))]
    one (.rcp h d a) 12 rcpW ∧ one (.rsq h d a) 12 rsqW ∧ (∀ md, one (.sqrt h d a md) 16 (sqrtW md)) ∧
    one (.exp2 h d a) 12 exp2W ∧ one (.log2 h d a) 12 log2W ∧ one (.sin h d a) 16 sinW ∧ one (.cos h d a) 16 cosW ∧
    (s.gives h (.sincos h d a) 18 fun t => [(d, sinW (s.rd t a)), (d.plus 1, cosW (s.rd t a))]) ∧
    one (.tanh h d a) 12 tanhW ∧
    (∀ md, s.gives h (.fdiv h d a b md) 16 fun t => [(d, fdivW md (s.rd t a) (s.rd t b))]) ∧
    (∀ u, s.gives h (.rng h d a u) 8 fun t => [(d, rngW u (cmix (s.seedOf t) (s.rd t a) t.lane))]) ∧
    (∀ p, s.givesP h (.dropm h p a b) 8 fun t =>
      [(p, decide ((cmix (s.seedOf t) (s.rd t a) t.lane).toNat / 65536 % 65536 < min (s.rd t b).toNat 65536))]) ∧
    (s.gives h (.csamp h d a b) 14 fun t =>
      match byLane ((s.act h).filter fun u => u.blk == t.blk && u.row == t.row) with
      | [] => []
      | l :: r => [(d, csampSel ((l :: r).map fun u => (u.lane, s.rd u a)) (s.rd l b))]) ∧
    let coef := fun (t : Tid) (ds : TluDesc) =>
      (s.block t.blk).spadBase + ds.base + (tluSeg ds (s.rd t a)).1 * (if ds.quad then 16 else 8)
    (s.cur.tids ≠ [] → (∀ o ∈ s.ops, (∃ t ∈ s.act h, t ∈ o.tids) → o.kind.fenced = false) →
      (∀ t ∈ s.act h, ∀ ds, tluDesc (s.rds t b 4) (s.block t.blk).spadSize = some ds → (v32 (s.rd t a)).isNan = false →
        s.spadPoison s.cur.core (coef t ds) (if ds.quad then 16 else 8) = false) →
      s.gives h (.tlu h d a b) 20 fun t => match tluDesc (s.rds t b 4) (s.block t.blk).spadSize with
        | none => [(d, 0x7FC00000)]
        | some ds => if (v32 (s.rd t a)).isNan then [(d, 0x7FC00000)] else
          let c := fun (k : Nat) => BitVec.ofNat 32 (s.spadRead s.cur.core (coef t ds + 4 * k) 4)
          [(d, tluEval ds.quad (c 0) (c 1) (c 2) (tluSeg ds (s.rd t a)).2)])

/-- The cross-lane words: values pass only between active lanes of one row; XPRED writes a predicate (spec/08 R157 to
R168). -/
def Obligations.CrossLaneResults : Prop :=
  ∀ (s : State) (h : Hdr) (d a b c : Reg) (p pd : Pred) (n : Bool), s.groupOk = true →
    let srcs := fun (t : Tid) => byLane ((s.act h).filter fun u => u.blk == t.blk && u.row == t.row)
    let votes := fun (t : Tid) => (srcs t).filter fun u => s.rdP u p != n
    let from_ := fun (t : Tid) (lane : Option Nat) (fill : Word) => match lane.bind fun l => (s.act h).find? fun u =>
        u.blk == t.blk && u.row == t.row && u.lane == l with
      | some u => s.rd u a
      | none => fill
    let pair := fun (v : DWord) => [(d, v.extractLsb' 0 32), (d.plus 1, v.extractLsb' 32 32)]
    (∀ m, s.gives h (.xrd h d a b c m) 4 fun t => [(d, from_ t (srcLane m t.lane (s.rd t b).toNat) (s.rd t c))]) ∧
    (∀ m v, s.gives h (.xrdi h d a m .zero (.n v)) 4 fun t => [(d, from_ t (srcLane m t.lane v.toNat) 0)]) ∧
    (∀ m v, s.gives h (.xrdi h d a m .own (.n v)) 4 fun t => [(d, from_ t (srcLane m t.lane v.toNat) (s.rd t a))]) ∧
    (∀ m v, s.gives h (.xrdi h d a m .keep (.n v)) 4 fun t => [(d, from_ t (srcLane m t.lane v.toNat) (s.rd t d))]) ∧
    (∀ m k, s.gives h (.xrdi h d a m .zero (.w k)) 4 fun t => [(d, from_ t (srcLane m t.lane (64 / 2 ^ k.val)) 0)]) ∧
    (∀ op, s.gives h (.xred h d a op) (xlat op) fun t => [(d, (xtree op (s.laneVals h t a)).getD (xident op))]) ∧
    (∀ op e, s.gives h (.xscan h d a op e) (xlat op) fun t =>
      [(d, (((s.laneVals h t a).take (if e then t.lane else t.lane + 1)).foldl (xcombine? op) none).getD (xident op))]) ∧
    (s.gives h (.xvote h d p n .bal) 4 fun t => pair (laneMask (votes t))) ∧
    (s.gives h (.xvote h d p n .balhi) 4 fun _ => pair 0) ∧
    (s.gives h (.xvote h d p n .cnt) 4 fun t => [(d, BitVec.ofNat 32 (votes t).length)]) ∧
    (s.gives h (.xvote h d p n .pre) 4 fun t => [(d, BitVec.ofNat 32 ((votes t).filter fun u => u.lane < t.lane).length)]) ∧
    (s.givesP h (.xpred h pd p n .all) 4 fun t => [(pd, (votes t).length == (srcs t).length)]) ∧
    (s.givesP h (.xpred h pd p n .any) 4 fun t => [(pd, decide (0 < (votes t).length))]) ∧
    (s.givesP h (.xpred h pd p n .uni) 4 fun t =>
      [(pd, (votes t).length == (srcs t).length || (votes t).length == 0)]) ∧
    (s.gives h (.xcmp h d a c p n) 6 fun t => [(d, (((votes t)[t.lane]?).map fun u => s.rd u a).getD (s.rd t c)),
      (d.plus 1, BitVec.ofNat 32 (votes t).length)]) ∧
    (s.gives h (.xexp h d a c p n) 6 fun t => [(d, if t ∈ votes t then
      from_ t (some ((votes t).filter fun u => u.lane < t.lane).length) (s.rd t c) else s.rd t c)]) ∧
    (s.gives h (.xmatch h d a false) 4 fun t => pair (laneMask ((srcs t).filter fun u => s.rd u a == s.rd t a))) ∧
    (s.gives h (.xmatch h d a true) 4 fun _ => pair 0)

/-! ### Control words -/

/-- BRA, BRX, RET and CALL with legal targets: the active lanes go there, the others fall through; CALL also writes PC + 8
to its link pair two clocks after issue; nothing else changes (spec/03 R78). -/
def Obligations.BranchesJump : Prop :=
  ∀ (s : State) (h : Hdr) (a : Reg), s.groupOk = true →
    (∀ ofs : BitVec 26, legalTarget (s.cur.pc + 8 * ofs.signExtend 64) →
      ∃ s', exec (.bra h ofs) s = .next s' ∧ OnlyRetired s s' ∧ Jumped s s' h fun _ => s.cur.pc + 8 * ofs.signExtend 64) ∧
    (∀ imm : BitVec 22, (∀ t ∈ s.act h, legalTarget (s.rd64 t a + 8 * imm.signExtend 64)) →
      ∃ s', exec (.brx h a imm) s = .next s' ∧ OnlyRetired s s' ∧ Jumped s s' h fun t => s.rd64 t a + 8 * imm.signExtend 64) ∧
    ((∀ t ∈ s.act h, legalTarget (s.rd64 t a)) →
      ∃ s', exec (.ret h a) s = .next s' ∧ OnlyRetired s s' ∧ Jumped s s' h fun t => s.rd64 t a) ∧
    (∀ (ofs : BitVec 26) (k : Fin 64), legalTarget (s.cur.pc + 8 * ofs.signExtend 64) →
      ∃ s', exec (.call h ofs k) s = .next s' ∧ (Jumped s s' h fun _ => s.cur.pc + 8 * ofs.signExtend 64) ∧
        (∀ t ∈ s.act h, s'.inFlight t (xReg (2 * k.val)) ((s.cur.pc + 8).extractLsb' 0 32) (s.clk + 2) ∧
          s'.inFlight t (xReg (2 * k.val + 1)) ((s.cur.pc + 8).extractLsb' 32 32) (s.clk + 2)) ∧
        (∀ u, { (s'.thread u).arch with pend := [] } = { (s.thread u).arch with pend := [] }) ∧
        (∀ u, u ∉ s.act h → (s'.thread u).pend = (s.thread u).pend) ∧
        (∀ b, { s'.block b with threads := [] } = { s.block b with threads := [] }) ∧ s'.ops = s.ops ∧ SameRest s s')

/-- LOOP and LOOPI: a lane whose count is 0 goes past the body, its loop state as before; another starts level k with that
count, its end clipped by the active outer levels, inner levels ended, and goes to the first body word. BRKL ends levels k to
2, keeps their counts and branches. No register changes (spec/03 R80). -/
def Obligations.LoopsStart : Prop :=
  ∀ (s : State) (h : Hdr) (k : Fin 3) (len : Fin 512), s.groupOk = true → len.val ≠ 0 →
    let pc := s.cur.pc
    let starts := fun (s' : State) (cnt : Tid → Word) => OnlyRetired s s' ∧
      ∀ t ∈ s.act h, (s.thread t).pc = pc → (s.thread t).loops.length = 3 → (s.thread t).atLoopEnd pc = false →
        ((s.thread t).win.drop 1).all (fun w => !w.issued) = true →
        let old := (s.thread t).loops
        let new := (s'.thread t).loops
        if cnt t = 0 then (s'.thread t).pc = pc + 8 * (BitVec.ofNat 64 len.val + 1) ∧ new = old
        else (s'.thread t).pc = pc + 8 ∧
          (∀ j, j < k.val → new[j]? = old[j]?) ∧
          (∀ j l, k.val < j → old[j]? = some l → new[j]? = some { l with act := false }) ∧
          let last := ((old.take k.val).filter (·.act)).foldl (fun e l => if l.en < e then l.en else e)
            (pc + 8 * BitVec.ofNat 64 len.val)
          new[k.val]? = some { act := true, st := pc + 8, en := last, lc := cnt t }
    (∀ a, ∃ s', exec (.loop h k a len) s = .next s' ∧ starts s' fun t => s.rd t a) ∧
    (∀ count : BitVec 21, ∃ s', exec (.loopi h k count len) s = .next s' ∧ starts s' fun _ => count.zeroExtend 32) ∧
    ∀ ofs : BitVec 26, ∃ s', exec (.brkl h k ofs) s = .next s' ∧ OnlyRetired s s' ∧
      ∀ t ∈ s.act h, (s'.thread t).pc = pc + 8 * ofs.signExtend 64 ∧
        (s'.thread t).loops = (s.thread t).loops.mapIdx fun j l => if k.val ≤ j then { l with act := false } else l

/-- NOP, WAITC, TKW, SLEEP, WFI, START and YIELD: with nothing to wait for, each falls through and changes no register,
counter or byte; the word behind a serialising word issues from the next clock on. A WAITC whose counters are above its
limits stays where it is (spec/03 R84, R85; spec/18 R375). -/
def Obligations.WaitsEnd : Prop :=
  ∀ (s : State) (h : Hdr), s.groupOk = true → s.cur.tids ≠ [] →
    let passes := fun (i : Instr) => ∃ s', exec i s = .next s' ∧ OnlyRetired s s' ∧ FellThrough s s' s.cur.tids
    let serial := fun (i : Instr) => ∃ s', exec i s = .next s' ∧ OnlyRetired s s' ∧ FellThrough s s' s.cur.tids ∧
      ∀ t ∈ s.cur.tids, s.clk + 1 ≤ (s'.thread t).readyAt
    passes (.nop h) ∧
    (∀ ld st cp mt : Fin 64, (∀ t ∈ s.act h, (s.thread t).ld ≤ ld.val ∧ (s.thread t).st ≤ st.val ∧
      (s.thread t).cp ≤ cp.val ∧ (s.thread t).mt ≤ mt.val) → serial (.waitc h ld st cp mt)) ∧
    (∀ ld st cp mt : Fin 64, (∀ t ∈ s.cur.tids, t ∈ s.act h ∧ (ld.val < (s.thread t).ld ∨ st.val < (s.thread t).st ∨
        cp.val < (s.thread t).cp ∨ mt.val < (s.thread t).mt)) →
      ∃ s', exec (.waitc h ld st cp mt) s = .next s' ∧ OnlyRetired s s' ∧
        ∀ t, (s'.thread t).pc = (s.thread t).pc ∧ (s'.thread t).win = (s.thread t).win) ∧
    (∀ (k : Toks) (any : Bool), (∀ t ∈ s.act h, (s.thread t).tkSnap = [] ∧
        (∀ n ∈ k.ins, ((s.block t.blk).tok n).prod = true) ∧
        (k.ins = [] ∨ if any then ∃ n ∈ k.ins, s.tokOps t.blk n = [] else ∀ n ∈ k.ins, s.tokOps t.blk n = [])) →
      serial (.tkw h k any)) ∧
    (∀ (a : Reg) (mb : Bool) (clocks : BitVec 21), (∀ t ∈ s.act h, ∃ c, (s.thread t).since = some c ∧
        c + min (2 ^ 32 - 1) ((s.rd t a).toNat + clocks.toNat) ≤ s.clk) → serial (.sleep h a mb clocks)) ∧
    (∀ a clocks, (∀ t ∈ s.act h, ∃ c w, (s.thread t).since = some c ∧ (s.core s.cur.core).mbAt = some w ∧ c ≤ w ∧ w < s.clk) →
      serial (.sleep h a true clocks)) ∧
    (isSvc s.cur.core = false →
      (∀ t ∈ s.act h, ∃ c w, (s.thread t).since = some c ∧ (s.core s.cur.core).mbAt = some w ∧ c ≤ w ∧ w < s.clk) →
      serial (.wfi h)) ∧
    (isSvc s.cur.core = true → s.wakes (svcSlot s.cur.core) = true → serial (.wfi h)) ∧
    (∃ s', exec (.start h) s = .next s' ∧ (∀ u, { (s'.thread u).arch with start := 0 } = { (s.thread u).arch with start := 0 }) ∧
      (∀ t ∈ s.act h, (s'.thread t).start = s.clk + 1) ∧ (∀ u, u ∉ s.act h → (s'.thread u).start = (s.thread u).start) ∧
      FellThrough s s' s.cur.tids ∧ s'.ops = s.ops ∧ SameRest s s') ∧
    (∃ s', exec (.yield h) s = .next s' ∧
      (∀ u, { (s'.thread u).arch with yield := 0 } = { (s.thread u).arch with yield := 0 }) ∧
      (∀ t ∈ s.act h, (s'.thread t).yield = if 2 ≤ (s.thread t).yield ∧ (s.thread t).yield ≠ 66 then 67 else 66) ∧
      (∀ u, u ∉ s.act h → (s'.thread u).yield = (s.thread u).yield) ∧
      FellThrough s s' s.cur.tids ∧ s'.ops = s.ops ∧ SameRest s s')

/-- CVSET arms a register two clocks after issue with the member rows of its block, from the block's lowest active lane, and
produces its token; a SIGN adds the active lanes to the epoch, which resets when every live member has signed; EXIT ends the
active threads. No register or byte changes (spec/03 R72, R82, R86). -/
def Obligations.ConvergenceAndExit : Prop :=
  ∀ (s : State) (h : Hdr) (n : Fin 16), s.groupOk = true → s.cur.tids ≠ [] →
    (∀ (a : Reg) (tok : Option Tok) (mask : BitVec 16), (∀ t ∈ s.act h, (s.cv t.blk n.val).signed = [] ∧ s.firing t.blk n.val = false) →
      ∃ s', exec (.cvset h n a tok mask) s = .next s' ∧ SameValues s s' ∧ FellThrough s s' s.cur.tids ∧
        ∀ b ∈ blksOf (s.act h), ∀ t, lowLane (s.act h) b = some t →
          (∃ m : BitVec 16, (n.val, { members := m, tok := tok }, s.clk + 2) ∈ (s'.block b).cvpend ∧
            ∀ r < 16, m.getLsbD r = (decide (r < (s.block b).nrow) && ((s.rd t a).getLsbD r || mask.getLsbD r))) ∧
          ∀ k, tok = some k → ((s'.block b).tok k).prod = true) ∧
    ((∀ t ∈ s.act h, (s.block t.blk).cvpend.all (fun p => p.1 != n.val) = true ∧ (s.cv t.blk n.val).members ≠ 0 ∧
        (s.cv t.blk n.val).members.getLsbD t.row = true ∧
        ((s.cv t.blk n.val).op = .none ∨ (s.cv t.blk n.val).op = .plain) ∧
        s.signWaits t n.val = false ∧ ∀ k, (s.cv t.blk n.val).tok = some k → (s.tokOps t.blk k).length < 63) →
      ∃ s', exec (.sign h n) s = .next s' ∧ SameValues s s' ∧ FellThrough s s' s.cur.tids ∧
        ∀ b ∈ blksOf (s.act h),
          let signed := (s.cv b n.val).signed ++ ((s.act h).filter (·.blk == b)).map (·.idx)
          (s'.cv b n.val).signed = if (s.liveMembers b n.val).all signed.contains then [] else signed) ∧
    ∃ s', exec (.exit h) s = .next s' ∧ SameValues s s' ∧ (∀ t ∈ s.act h, (s'.thread t).status = .exited) ∧
      (∀ u, u ∉ s.act h → (s'.thread u).status = (s.thread u).status) ∧
      FellThrough s s' (s.cur.tids.filter fun t => !s.isActive h t)

/-! ### Memory words -/

/-- LDS, LDG, LDA and LDU with accesses that fault on nothing put one load in flight for each active lane, LDU one for each
block from its lowest lane, and raise LDCNT; a group rejected for want of miss-status entries stays at its word (spec/09 R178,
R187, R188; spec/10 R221). -/
def Obligations.LoadsStart : Prop :=
  ∀ (s : State) (h : Hdr) (d base : Reg) (sz : Size) (acc : Tid → Acc), s.groupOk = true →
    let n := sz.bytes
    let ts := s.act h
    let loads := fun (i : Instr) (acq : Option Scope) => s.rejects (ts.map acc) = false →
      ∃ s', exec i s = .next s' ∧ Begun s s' h (some .ld) ts.length ∧
        ∀ t ∈ ts, Started s s' t.blk (.load (acc t) n (if writesReg ts t d then d else .xz) acq) [t] [] none
    let stays := fun (i : Instr) => s.rejects (ts.map acc) = true → ∃ s', exec i s = .next s' ∧ OnlyRetired s s' ∧
      ∀ u, (s'.thread u).pc = (s.thread u).pc ∧ (s'.thread u).win = (s.thread u).win
    (∀ (ofs : BitVec 16) (q : Bool), (∀ t ∈ ts, ∃ l, s.spadAt t q (s.rd t base + ofs.signExtend 32).toNat n l ∧
        acc t = { t := t, loc := .spad l.1 l.2, va := (s.rd t base + ofs.signExtend 32).zeroExtend 64 }) →
      loads (.lds h d base ofs sz q) none) ∧
    (∀ ofs : BitVec 16, (∀ t ∈ ts, s.gAccLink t (s.rd64 t base + ofs.signExtend 64) n .r none = .ok (acc t)) →
      loads (.ldg h d base ofs sz) none ∧ stays (.ldg h d base ofs sz)) ∧
    (∀ (ofs : BitVec 13) (sc : Scope), (∀ t ∈ ts, s.gAcc t (s.rd64 t base + (ofs ++ (0 : BitVec 3)).signExtend 64) n .r false
        = .ok (acc t)) →
      loads (.lda h d base ofs sc sz .global) (some sc) ∧ stays (.lda h d base ofs sc sz .global)) ∧
    (∀ (ofs : BitVec 13) (sc : Scope) (q : Bool), (∀ t ∈ ts, ∃ l,
        s.spadAt t q (s.rd t base + (ofs ++ (0 : BitVec 3)).signExtend 32).toNat n l ∧
        acc t = { t := t, loc := .spad l.1 l.2, va := (s.rd t base + (ofs ++ (0 : BitVec 3)).signExtend 32).zeroExtend 64 }) →
      loads (.lda h d base ofs sc sz (if q then .qspad else .spad)) (some sc)) ∧
    ∀ ofs : BitVec 16, (∀ b ∈ blksOf ts, ∀ t, lowLane ts b = some t →
        s.gAcc t (s.rd64 t base + ofs.signExtend 64) n .r false = .ok (acc t)) →
      let lanes := (blksOf ts).filterMap (lowLane ts)
      (s.rejects (lanes.map acc) = false → ∃ s', exec (.ldu h d base ofs sz) s = .next s' ∧
        Begun s s' h (some .ld) (blksOf ts).length ∧
        ∀ b ∈ blksOf ts, ∀ t, lowLane ts b = some t →
          Started s s' b (.loadU (acc t) n d) (ts.filter (·.blk == b)) [] none) ∧
      (s.rejects (lanes.map acc) = true → ∃ s', exec (.ldu h d base ofs sz) s = .next s' ∧ OnlyRetired s s' ∧
        ∀ u, (s'.thread u).pc = (s.thread u).pc ∧ (s'.thread u).win = (s.thread u).win)

/-- STS, STG and STL with accesses that fault on nothing put one store in flight for each row with an active lane, of its
lanes' places and the low bytes of their registers, and raise STCNT; memory is not yet changed (spec/09 R187; spec/10 R203,
R221). -/
def Obligations.StoresStart : Prop :=
  ∀ (s : State) (h : Hdr) (d base : Reg) (sz : Size) (acc : Tid → Acc), s.groupOk = true →
    let n := sz.bytes
    let ts := s.act h
    let data := fun (t : Tid) => s.rdN t d sz.regs % 2 ^ (8 * n)
    let accs := ts.map fun t => { acc t with data := data t }
    let stores := fun (i : Instr) (rel : Option Scope) =>
      ∃ s', exec i s = .next s' ∧ Begun s s' h (some .st) (rowsOf ts).length ∧ SameBytes s s' ∧
        ∀ t ∈ ts, Started s s' t.blk (.store (rowAccs accs t) n rel (fullSectors accs n)) ((rowAccs accs t).map (·.t)) [] none
    (∀ (ofs : BitVec 16) (q : Bool), (∀ t ∈ ts, ∃ l, s.spadAt t q (s.rd t base + ofs.signExtend 32).toNat n l ∧
        acc t = { t := t, loc := .spad l.1 l.2, va := (s.rd t base + ofs.signExtend 32).zeroExtend 64 }) →
      stores (.sts h d base ofs sz q) none) ∧
    (∀ ofs : BitVec 16, (∀ t ∈ ts, s.gAccLink t (s.rd64 t base + ofs.signExtend 64) n .w (some (data t)) = .ok (acc t)) →
      stores (.stg h d base ofs sz) none) ∧
    (∀ (ofs : BitVec 13) (sc : Scope), (∀ t ∈ ts, s.gAcc t (s.rd64 t base + (ofs ++ (0 : BitVec 3)).signExtend 64) n .w false
        = .ok (acc t)) → stores (.stl h d base ofs sc sz .global) (some sc)) ∧
    ∀ (ofs : BitVec 13) (sc : Scope) (q : Bool), (∀ t ∈ ts, ∃ l,
        s.spadAt t q (s.rd t base + (ofs ++ (0 : BitVec 3)).signExtend 32).toNat n l ∧
        acc t = { t := t, loc := .spad l.1 l.2, va := (s.rd t base + (ofs ++ (0 : BitVec 3)).signExtend 32).zeroExtend 64 }) →
      stores (.stl h d base ofs sc sz (if q then .qspad else .spad)) (some sc)

/-- LOAD_COMPLETE of a load that no earlier access precedes: its bytes, from the scratchpad or as the core's L1 gives them,
stand in its registers zero-extended, where no cache gives up a line for it; the counter falls; nothing else of a thread
changes. Poison is not delivered: a live
thread takes the POISON trap before its next word. TAGR gives 32 tags (spec/09 R180, R187, R188, R195). -/
def Obligations.LoadsComplete : Prop :=
  ∀ (s : State) (id : Nat) (o : Op), s.op? id = some o → o.stage = 0 → s.firstAccess o = true →
    (∀ u ∈ o.tids, s.has u = true) → o.tids.Nodup → o.cnts = o.tids.map (fun u => (u, .ld)) →
    let done := fun (s' : State) (rs : List Reg) => Ended s s' o (some .ld) ∧ OnlyRegs s s' o.tids rs
    (∀ (a : Acc) (sz : Size) (d : Reg) (acq : Option Scope), o.kind = .load a sz.bytes d acq → o.tids = [a.t] →
      (∀ c off, a.loc = .spad c off → s.spadPoison c off sz.bytes = false →
        ∃ s', exec (.loadComplete id) s = .next s' ∧ done s' (regsOf d sz.bytes) ∧
          s'.holds a.t d sz.bytes (fun j => cellRead (s.core c).spad (off + j)) ∧ (acq = none → SameBytes s s')) ∧
      (∀ pa, a.loc = .mem pa → isAperture pa = false → pa % sz.bytes = 0 → (s.readLoc o.core (.mem pa) sz.bytes).2.1 = false →
        ∃ s', exec (.loadComplete id) s = .next s' ∧ done s' (regsOf d sz.bytes) ∧ (s.roomy 64 →
          s'.holds a.t d sz.bytes (fun j => s.loadByte o.core (pa + j)) ∧ (acq = none → SameBytes s s'))) ∧
      (∀ c off, a.loc = .spad c off → s.spadPoison c off sz.bytes = true → (s.thread a.t).status = .live →
        (s.thread a.t).trap = none →
        ∃ s', exec (.loadComplete id) s = .next s' ∧ done s' [] ∧
          (s'.thread a.t).trap = some { code := 0x0E, pc := o.pc, val := a.va })) ∧
    (∀ (a : Acc) (sz : Size) (d : Reg) (pa : Nat), o.kind = .loadU a sz.bytes d → a.loc = .mem pa → a.t ∈ o.tids →
      isAperture pa = false → pa % sz.bytes = 0 → (s.readLoc o.core (.mem pa) sz.bytes).2.1 = false →
      ∃ s', exec (.loadComplete id) s = .next s' ∧ done s' (regsOf d sz.bytes) ∧ (s.roomy 64 →
        ∀ u ∈ o.tids, writesReg o.tids u d = true → s'.holds u d sz.bytes fun j => s.loadByte o.core (pa + j))) ∧
    ∀ (a : Acc) (d : Reg) (c off : Nat), o.kind = .tagr a d → a.loc = .spad c off → o.tids = [a.t] →
      ∃ s', exec (.loadComplete id) s = .next s' ∧ done s' [d] ∧
        (d ≠ .xz → ∀ k < 32, (s'.reg a.t d).getLsbD k = s.tag c (off / 4 + k))

/-- STORE_PERFORMED of a store that no earlier access precedes: a plain store whose lanes name places that do not meet
writes each lane's bytes and nothing else, in the scratchpad or, dirty, in its core's L1; STCNT falls. An STL first makes its
release; TAGS changes one tag; CMAINT.L1.CLN leaves no dirty byte of its sectors in the L1 (spec/09 R187, R195, R198; spec/10
R203, R221). -/
def Obligations.StoresPerformed : Prop :=
  ∀ (s : State) (id : Nat) (o : Op), s.op? id = some o → s.firstAccess o = true → (∀ u ∈ o.tids, s.has u = true) →
    o.tids.Nodup → o.cnts = o.tids.map (fun u => (u, .st)) → o.id < s.nextId →
    let done := fun (s' : State) => Ended s s' o (some .st) ∧ OnlyRegs s s' [] []
    (∀ (accs : List Acc) (n : Nat) (full : List Loc), o.kind = .store accs n none full → o.stage = 0 →
      accs.Pairwise (fun a b => a.loc.meets n b.loc n = false) → 0 < n →
      (s.memWf = true → (∀ a ∈ accs, ∃ c off, a.loc = .spad c off) →
        ∃ s', exec (.storePerformed id) s = .next s' ∧ done s' ∧ (∀ pa, s'.homeByte pa = s.homeByte pa) ∧
          ∀ c k, cellRead (s'.core c).spad k = match accs.find? fun a => a.loc.meets n (.spad c k) 1 with
            | some a => (BitVec.ofNat (8 * n) a.data).extractLsb' (8 * (k - a.loc.key.2)) 8
            | none => cellRead (s.core c).spad k) ∧
      (s.roomy (n * accs.length) → (∀ a ∈ accs, ∃ pa, a.loc = .mem pa ∧ isAperture pa = false ∧
          ∀ j < n, s.planeOff (pa + j) = false ∧ s.atHome (pa + j) = false) →
        ∃ s', exec (.storePerformed id) s = .next s' ∧ done s' ∧ SameBytes s s' ∧
          ∀ k, (s'.core o.core).l1.find k = match accs.find? fun a => a.loc.meets n (.mem k) 1 with
            | some a => some { v := (BitVec.ofNat (8 * n) a.data).extractLsb' (8 * (k - a.loc.key.2)) 8, dirty := true }
            | none => (s.core o.core).l1.find k)) ∧
    (∀ accs n sc full, o.kind = .store accs n (some sc) full → o.stage = 0 →
      ∃ s' p, exec (.storePerformed id) s = .next s' ∧ s'.op? id = some p ∧ p.stage = 1 ∧ p.kind = o.kind ∧
        OnlyRegs s s' [] [] ∧ (sc = .core → p.after = [] ∧ SameBytes s s')) ∧
    (∀ t c w k v, o.kind = .tags t c w k v → o.prog < k → (∀ p ∈ s.ops, p.kind.tagWords = none) →
      ∃ s', exec (.storePerformed id) s = .next s' ∧ OnlyRegs s s' [] [] ∧ s'.tag c (w + o.prog) = v ∧
        ∀ c' w', ¬ (c' = c ∧ w' = w + o.prog) → s'.tag c' w' = s.tag c' w') ∧
    ∀ secs, o.kind = .cmaint secs .l1 .cln → o.stage = 0 →
      ∃ s', exec (.storePerformed id) s = .next s' ∧ done s' ∧
        ∀ a b, secOf a ∈ secs → s.atHome (secOf a * 64) = false → (s'.core o.core).l1.find a = some b → b.dirty = false

/-- LDSF and STSE block their active threads at the word; TAGS and TAGR go on. A step that arrives and finds its tags otherwise
begins its wait with the TAGLIM of that clock. TAG_STEP of the one step that waits, which finds its tags as it waits for them
within its limit: LDSF loads the words and clears the tags (.KEEP leaves them), STSE stores and sets them, and the thread goes
on; TAG_WAIT past the limit faults with TAG_WAIT (spec/04 R102; spec/09 R192 to R195). -/
def Obligations.TagWords : Prop :=
  (∀ (s : State) (h : Hdr) (d base a b : Reg) (ofs : BitVec 15) (sz : Size) (q : Bool) (acc : Tid → Acc), s.groupOk = true →
    let ts := s.act h
    let at_ := fun (t : Tid) => (s.rd t base + (ofs ++ (0 : BitVec 1)).signExtend 32).toNat
    ((∀ t ∈ ts, ∃ l, s.spadAt t q (at_ t) sz.bytes l ∧
        acc t = { t := t, loc := .spad l.1 l.2, va := BitVec.ofNat 64 (at_ t) }) →
      (∀ keep, ∃ s', exec (.ldsf h d base ofs sz q keep) s = .next s' ∧ Blocked s s' h (some .ld) fun t =>
        .ldsf (acc t) sz.bytes (if writesReg ts t d then d else .xz) keep) ∧
      ∃ s', exec (.stse h d base ofs sz q) s = .next s' ∧ Blocked s s' h (some .st) fun t =>
        .stse { acc t with data := s.rdN t d sz.regs % 2 ^ (8 * sz.bytes) } sz.bytes) ∧
    ((∀ t ∈ ts, s.tagAcc t q (s.rd t a).toNat 128 = .ok (acc t)) →
      ∃ s', exec (.tagr h d a q) s = .next s' ∧ Begun s s' h (some .ld) ts.length ∧
        ∀ t ∈ ts, Started s s' t.blk (.tagr (acc t) (if writesReg ts t d then d else .xz)) [t] [] none) ∧
    ∀ set, (∀ t ∈ ts, s.tagAcc t q (s.rd t a).toNat (4 * (s.rd t b).toNat) = .ok (acc t)) →
      ∃ s', exec (.tags h a b q set) s = .next s' ∧ Begun s s' h (some .st) ts.length ∧
        ∀ t ∈ ts, ∃ c off, (acc t).loc = .spad c off ∧
          Started s s' t.blk (.tags t c (off / 4) (s.rd t b).toNat set) [t] [] none) ∧
  ∀ (s : State) (id : Nat) (o : Op) (a : Acc) (c w : Nat) (sz : Size), s.op? id = some o → o.tids = [a.t] →
    s.has a.t = true → a.loc = .spad c (4 * w) → 4 ≤ sz.bytes →
    let others := fun (s' : State) => ∀ c' w', ¬ (c' = c ∧ w ≤ w' ∧ w' < w + sz.bytes / 4) → s'.tag c' w' = s.tag c' w'
    ((∀ p ∈ s.ops, p.kind.tagWords.isSome = true → p = o) →
      (o.stage = 0 → s.opsBefore id = [] → s.tagsReady o.kind = false →
        let waits := fun (i : Instr) => ∃ s' p, exec i s = .next s' ∧ SameValues s s' ∧ s'.op? id = some p ∧ p.kind = o.kind ∧
          p.stage = 1 ∧ p.pageAt = s.now o.core ∧ p.lim = (s.block o.blk).taglim.toNat ∧ others s'
        (∀ d keep, o.kind = .ldsf a sz.bytes d keep → waits (.tagStep id)) ∧
        (o.kind = .stse a sz.bytes → waits (.storePerformed id))) ∧
      (o.stage = 1 → s.tagExpired o = false →
        (∀ d keep, o.kind = .ldsf a sz.bytes d keep → o.cnts = [(a.t, .ld)] → (∀ i < sz.bytes / 4, s.tag c (w + i) = true) →
          s.spadPoison c (4 * w) sz.bytes = false →
          ∃ s', exec (.tagStep id) s = .next s' ∧ Ended s s' o (some .ld) ∧ (s'.thread a.t).waitOp = none ∧
            s'.holds a.t d sz.bytes (fun j => cellRead (s.core c).spad (4 * w + j)) ∧
            (∀ i < sz.bytes / 4, s'.tag c (w + i) = keep) ∧ others s') ∧
        (o.kind = .stse a sz.bytes → o.cnts = [(a.t, .st)] → s.memWf = true → (∀ i < sz.bytes / 4, s.tag c (w + i) = false) →
          ∃ s', exec (.tagStep id) s = .next s' ∧ Ended s s' o (some .st) ∧ (s'.thread a.t).waitOp = none ∧
            (∀ j < sz.bytes, cellRead (s'.core c).spad (4 * w + j) = BitVec.ofNat 8 (a.data / 2 ^ (8 * j))) ∧
            (∀ i < sz.bytes / 4, s'.tag c (w + i) = true) ∧ others s'))) ∧
    ((∃ d keep, o.kind = .ldsf a sz.bytes d keep) ∨ o.kind = .stse a sz.bytes → o.stage = 1 → o.lim ≠ 0 →
      o.pageAt + o.lim < s.now o.core → isSvc o.core = false → (s.thread a.t).pc = o.pc → (s.block a.t.blk).faultq.length < 16 →
      ∃ s', exec (.tagWait id) s = .next s' ∧ s'.ops = s.ops.filter (·.id != o.id) ∧
        Faulted s s' a.t.blk [a.t] 0x0C o.pc a.va)

/-- PREF changes no value that a program reads. CMAINT puts its operation in flight. A FENCE waits for its threads'
accesses; at .CORE it then only goes on, and a releasing one at .QUAD or .DIE leaves no dirty byte in a compute core's L1
(spec/09 R197, R198; spec/10 R217, R420). -/
def Obligations.HintsAndFences : Prop :=
  ∀ (s : State) (h : Hdr), s.groupOk = true → s.cur.tids ≠ [] →
    (∀ lvl base ofs, ∃ s', exec (.pref h lvl base ofs) s = .next s' ∧ s'.ops = s.ops ∧ FellThrough s s' s.cur.tids ∧
      (∀ u, (s'.thread u).arch = (s.thread u).arch) ∧ (∀ b, (s'.block b).g = (s.block b).g) ∧
      (s.roomy (256 * (s.act h).length) → SameBytes s s')) ∧
    (∀ (a b : Reg) (lvl : CLevel) (op : COp) (parts : Tid → List (Nat × Nat)),
      (∀ t ∈ s.act h, s.gRange true t (s.rd64 t a) (s.rd t b).toNat (if op = .inv then .w else .r) = .ok (parts t)) →
      ∃ s', exec (.cmaint h a b lvl op) s = .next s' ∧ Begun s s' h (some .st) (s.act h).length ∧
        ∀ t ∈ s.act h, ∃ secs, Started s s' t.blk (.cmaint secs lvl op) [t] [] none ∧
          ∀ x, x ∈ secs ↔ ∃ p ∈ parts t, isAperture p.1 = false ∧ x ∈ secsOf p.1 p.2) ∧
    ∀ kind sc,
      ((∀ t ∈ s.act h, s.fencedDone t = true ∧ (s.thread t).fenceIds = none) →
        (sc = .core → ∃ s', exec (.fence h kind sc) s = .next s' ∧ OnlyRetired s s' ∧ FellThrough s s' s.cur.tids) ∧
        (sc = .quad ∨ sc = .die → ∃ s', exec (.fence h kind sc) s = .next s' ∧ s'.ops = s.ops ∧
          (∀ u, (s'.thread u).x = (s.thread u).x ∧ (s'.thread u).preds = (s.thread u).preds) ∧ FellThrough s s' s.cur.tids ∧
          (kind.rels = true → isSvc s.cur.core = false → s.act h ≠ [] →
            ∀ a b, (s'.core s.cur.core).l1.find a = some b → b.dirty = false))) ∧
      ((∀ t ∈ s.cur.tids, t ∈ s.act h ∧ s.fencedDone t = false) →
        ∃ s', exec (.fence h kind sc) s = .next s' ∧ OnlyRetired s s' ∧
          ∀ u, (s'.thread u).pc = (s.thread u).pc ∧ (s'.thread u).win = (s.thread u).win)

/-- The memory system's own events: a forwarded write that no earlier one of its die meets is performed at its home and
acknowledged; a soft error poisons a sector at its home; a plane goes off; a channel goes to self-refresh (spec/09 R180, R181;
spec/10 R420; spec/16 R341). -/
def Obligations.MemoryEvents : Prop :=
  ∀ s : State,
    (∀ (die : Nat) (f : Fwd) (rest : List Fwd), (s.die die).fwd = f :: rest → (rest.all fun g => g.id != f.id) = true →
      (f.bytes.map (·.1)).Nodup → s.roomy f.bytes.length →
      (∀ c ∈ f.bytes, s.noPath die (secOf c.1 * 64) = false ∧ s.planeOff c.1 = false ∧
        ∀ p ∈ s.cores, secOf c.1 ∉ p.2.owned) →
      ∃ s', exec (.forwardedWriteAck die f.id) s = .next s' ∧ (s'.die die).fwd = rest ∧
        ∀ a, s'.homeByte a = match f.bytes.find? (·.1 == a) with
          | some c => c.2
          | none => s.homeByte a) ∧
    (∀ sec, sec < 2 ^ 47 → installed (sec * 64) = true →
      ∃ s', exec (.softError sec) s = .next s' ∧ s'.homePoison sec = true ∧ SameValues s s') ∧
    (∀ die, die < 6 → ∃ s', exec (.memoryPlaneOff die) s = .next s' ∧ (s'.mdie die).planeOff = true ∧
      (∀ d, d ≠ die → s'.mdie d = s.mdie d) ∧ SameValues s s') ∧
    ∀ die chan, die < 6 → ∃ s', exec (.selfRefreshEntry die chan) s = .next s' ∧ chan ∈ (s'.mdie die).asleep ∧
      (∀ d, d ≠ die → s'.mdie d = s.mdie d) ∧ SameValues s s'

/-! ### Atomics, barriers, semaphores -/

/-- ATOM, ATOMS and RED with accesses that fault on nothing put one operation in flight for the group, RED one for each row,
its lanes in ascending order with operand and compare values read at issue; LDCNT, for RED STCNT, rises (spec/11 R227,
R228). -/
def Obligations.AtomicsStart : Prop :=
  ∀ (s : State) (h : Hdr) (d a b : Reg) (sc : Scope) (s64 : Bool) (op : AOp) (acc : Tid → Acc), s.groupOk = true →
    let n := if s64 then 8 else 4
    let ts := byLane (s.act h)
    let accs := ts.map fun t => { acc t with data := s.rdN t b (n / 4), cmp := s.rdN t d (n / 4) }
    let one := fun (i : Instr) (ord : AOrder) => ∃ s', exec i s = .next s' ∧
      Begun s s' h (some .ld) (if ts = [] then 0 else 1) ∧ SameBytes s s' ∧
      ∀ t, ts.head? = some t → Started s s' t.blk (.atom accs n op ord sc d) ts [] none
    (∀ ord, (∀ t ∈ ts, s.gAcc t (s.rd64 t a) n .rw true = .ok (acc t)) → one (.atom h d a b sc ord s64 op) ord) ∧
    (∀ ord q, (∀ t ∈ ts, ∃ l, s.spadAt t q (s.rd t a).toNat n l ∧
        acc t = { t := t, loc := .spad l.1 l.2, va := (s.rd t a).zeroExtend 64 }) → one (.atoms h d a b sc ord s64 q op) ord) ∧
    ∀ rel, (∀ t ∈ ts, s.gAcc t (s.rd64 t a) n .rw true = .ok (acc t)) →
      let plain := ts.map fun t => { acc t with data := s.rdN t b (n / 4) }
      ∃ s', exec (.red h a b sc rel s64 op) s = .next s' ∧ Begun s s' h (some .st) (rowsOf ts).length ∧ SameBytes s s' ∧
        ∀ t ∈ ts, Started s s' t.blk (.red (rowAccs plain t) n op (if rel then some sc else none))
          ((rowAccs plain t).map (·.t)) [] none

/-- The new value of each atomic operation, on 4 or 8 bytes; FADD is FP32 addition to nearest (spec/11 R226). -/
def Obligations.AtomicValues : Prop :=
  ∀ (n : Nat) (x y z : BitVec (8 * n)), n = 4 ∨ n = 8 →
    let r := fun op => BitVec.ofNat (8 * n) (atomNew n op x.toNat y.toNat z.toNat)
    r .add = x + y ∧ r .min = (if y.slt x then y else x) ∧ r .max = (if x.slt y then y else x) ∧
    r .umin = (if y.ult x then y else x) ∧ r .umax = (if x.ult y then y else x) ∧
    r .and = x &&& y ∧ r .or = x ||| y ∧ r .xor = x ^^^ y ∧ r .xchg = y ∧ r .cas = (if x = z then y else x) ∧
    r .inc = (if y.ule x then 0 else x + 1) ∧ r .dec = (if x = 0 ∨ y.ult x then y else x - 1) ∧
    ∀ u v : Word, atomNew 4 .fadd u.toNat v.toNat 0 = (faddW .rn false u v).toNat

/-- LOAD_COMPLETE of an atomic on the scratchpad that no earlier access precedes, of no or acquire order: lanes that name
different words each give their destination the old value and their word the new one, a CAS whose compare fails none; of two
lanes on one word the lower goes first. (spec/11 R226, R227). -/
def Obligations.AtomicsPerform : Prop :=
  ∀ (s : State) (id : Nat) (o : Op) (accs : List Acc) (op : AOp) (ord : AOrder) (sc : Scope) (d : Reg) (off : Acc → Nat)
    (c : Nat), s.op? id = some o → s.memWf = true → s.firstAccess o = true → o.stage = 0 → o.tids = accs.map (·.t) →
    (∀ u ∈ o.tids, s.has u = true) → o.tids.Nodup → o.kind = .atom accs 4 op ord sc d → o.cnts = o.tids.map (fun u => (u, .ld)) →
    ord = .rlx ∨ ord = .acq → (∀ a ∈ accs, a.loc = .spad c (4 * off a) ∧ s.spadPoison c (4 * off a) 4 = false) →
    let new := fun (a : Acc) (old : Nat) => if op = .cas ∧ old ≠ a.cmp then old else atomNew 4 op old a.data a.cmp
    ((accs.map off).Nodup → ∃ s', exec (.loadComplete id) s = .next s' ∧ Ended s s' o (some .ld) ∧ OnlyRegs s s' o.tids [d] ∧
      (∀ a ∈ accs, writesReg o.tids a.t d = true → d ≠ .xz →
        s'.reg a.t d = BitVec.ofNat 32 (s.spadRead c (4 * off a) 4)) ∧
      (∀ a ∈ accs, s'.spadRead c (4 * off a) 4 = new a (s.spadRead c (4 * off a) 4) % 2 ^ 32) ∧
      ∀ c' k, ¬ (c' = c ∧ k / 4 ∈ accs.map off) → cellRead (s'.core c').spad k = cellRead (s.core c').spad k) ∧
    ∀ a b, accs = [a, b] → off a = off b → (∃ n, d = .x n) → ∃ s', exec (.loadComplete id) s = .next s' ∧
      let x := s.spadRead c (4 * off a) 4
      s'.reg a.t d = BitVec.ofNat 32 x ∧ s'.reg b.t d = BitVec.ofNat 32 (new a x) ∧
      s'.spadRead c (4 * off a) 4 = new b (new a x % 2 ^ 32) % 2 ^ 32

/-- A RED's operation that no earlier access precedes leaves the list at its performing, and changes no register; with a
release it first makes that (spec/11 R227, R228). -/
def Obligations.ReductionsPerform : Prop :=
  ∀ (s : State) (id : Nat) (o : Op) (accs : List Acc) (n : Nat) (op : AOp) (rel : Option Scope), s.op? id = some o →
    s.firstAccess o = true → s.redMates o = [o] → o.tids.Nodup → o.kind = .red accs n op rel → o.cnts = o.tids.map (fun u => (u, .st)) →
    (rel = none → ∃ s', exec (.storePerformed id) s = .next s' ∧ Ended s s' o (some .st) ∧ OnlyRegs s s' [] []) ∧
    (∀ sc, rel = some sc → o.stage = 0 → ∃ s' p, exec (.storePerformed id) s = .next s' ∧ s'.op? id = some p ∧ p.stage = 1 ∧
      OnlyRegs s s' [] []) ∧
    (∀ sc, rel = some sc → o.stage = 1 → s.acked o.core o.after = true →
      ∃ s', exec (.storePerformed id) s = .next s' ∧ Ended s s' o (some .st) ∧ OnlyRegs s s' [] [])

/-- BAR, BARA, BARW and BARN where the level's requirement is met. BAR puts an arrival in flight for each active thread, which
blocks; BARA one, and goes on; BARW gives the result of the last phase, of the recorded one once it has opened, and else
blocks; BARN gives a state word the barrier has now or had at some clock of the last 64, 1,024 at .PKG and .POD (spec/11 R232
to R237). -/
def Obligations.BarriersStart : Prop :=
  ∀ (s : State) (h : Hdr) (p : Pred) (a d : Reg) (cnt : BitVec 14) (ex : Bool) (lvl : BLevel) (id : Fin 16) (b : Tid → BarId),
    s.groupOk = true → (∀ t ∈ s.act h, s.barOf t lvl id.val = some (b t)) →
    let c := fun (t : Tid) => (s.rd t a + cnt.zeroExtend 32).toNat
    (∃ s', exec (.bar h p a cnt ex lvl id) s = .next s' ∧ OpFrame s s' h ∧ FellThrough s s' s.cur.tids ∧ SameBytes s s' ∧
      ∀ t ∈ s.act h, (∀ k, (s'.thread t).cnt k = (s.thread t).cnt k) ∧ ∃ o ∈ s'.ops, o.kind = .barArr t (b t) (c t) ex (some p) ∧
        o.tids = [t] ∧ o.clk = s.clk ∧ o.stage = 0 ∧ (s'.thread t).waitOp = some o.id) ∧
    (∃ s', exec (.bara h a cnt ex lvl id) s = .next s' ∧ Begun s s' h none (s.act h).length ∧
      ∀ t ∈ s.act h, Started s s' t.blk (.barArr t (b t) (c t) ex none) [t] [] none) ∧
    ((∀ t ∈ s.act h, s.arriving t (b t) = false ∧ (s.thread t).bara.find? (·.bar == b t) = none) → s.cur.tids ≠ [] →
      s.givesP h (.barw h p ex lvl id) 4 fun t => [(p, (((s.thread t).lastRes.find? (·.1 == b t)).map (·.2)).getD true)]) ∧
    (∀ t r q, s.act h = [t] → s.cur.tids = [t] → s.arriving t (b t) = false →
      (s.thread t).bara.find? (·.bar == b t) = some r → (s.bar (b t)).results.find? (·.1 == r.phase) = some q → p ≠ 7 →
      ∃ s' w, exec (.barw h p ex lvl id) s = .next s' ∧ w ∈ (s'.thread t).pend ∧ w.dst = 256 + p.val ∧
        w.val = (if q.2 then 1 else 0) ∧ w.due = s.clk + 4 ∧ (s'.thread t).bara = (s.thread t).bara.filter (·.bar != b t) ∧
        (s'.thread t).x = (s.thread t).x) ∧
    (∀ t r, s.act h = [t] → s.cur.tids = [t] → s.arriving t (b t) = false →
      (s.thread t).bara.find? (·.bar == b t) = some r → (s.bar (b t)).results.find? (·.1 == r.phase) = none →
      ∃ s' o, exec (.barw h p ex lvl id) s = .next s' ∧ o ∈ s'.ops ∧ o.kind = .barWait t (b t) r.phase ex p ∧
        (s'.thread t).waitOp = some o.id ∧ (s'.thread t).x = (s.thread t).x) ∧
    ∃ w : Tid → Word, (s.gives h (.barn h d lvl id) 4 fun t => if t ∈ s.act h then [(d, w t)] else []) ∧
      ∀ t ∈ s.act h, ((w t).getLsbD 31 = !(s.bar (b t)).lastOk ∧
        ((w t).extractLsb' 24 7).toNat = (s.bar (b t)).phase % 128 ∧
        ((w t).extractLsb' 0 24).toNat = min (2 ^ 24 - 1) (s.arrivals (b t)).length) ∨
        ∃ q ∈ s.past, (s.now s.cur.core ≤ Tab.getD q.clks s.cur.core 0 + match lvl with
          | .pkg | .pod => 1024
          | _ => 64) ∧ (b t, w t) ∈ q.bars

/-- A barrier's events. An arrival, once its release is complete and its turn in the order of one clock has come, counts in the
phase: it names the count, or marks the phase BROKEN where it names another; its thread waits, or records the phase. A phase
opens with its result and forms waves; a wave frees its threads with the result in their predicates (spec/11 R233, R234, R237;
spec/16 R338). -/
def Obligations.BarriersRun : Prop :=
  ∀ (s : State) (id : Nat) (o : Op) (t : Tid) (b : BarId), s.has t = true →
    (if b.level = .core then (s.blocks.find b.holder).isSome else (s.grids.find b.grid).isSome) = true →
    (∀ c p, s.op? id = some o → o.kind = .barArr t b c true p → o.clk + 1 ≤ s.now o.core → t ∉ (s.bar b).part →
      s.opening b = none → (∀ q ∈ s.ops, q.id ≠ id → ∀ u b' c' e' p', q.kind ≠ .barArr u b' c' e' p') →
      ∃ s', exec (.barrierArrival id) s = .next s' ∧ SameValues s s' ∧ (s'.bar b).part = (s.bar b).part ++ [t] ∧
        ((s.bar b).c0 = none → (s'.bar b).c0 = some c ∧ (s'.bar b).broken = (s.bar b).broken ∧
          (s'.bar b).e = if c = 0 then (s.members b).length else c) ∧
        (∀ x, (s.bar b).c0 = some x → (s'.bar b).c0 = some x ∧ (s'.bar b).e = (s.bar b).e ∧
          (s'.bar b).broken = ((s.bar b).broken || x != c)) ∧
        (∀ k, p = some k → (s'.bar b).waiting = (s.bar b).waiting ++ [id] ∧
          ∃ q, s'.op? id = some q ∧ q.kind = .barWait t b (s.bar b).phase true k) ∧
        (p = none → s'.op? id = none ∧ ⟨b, (s.bar b).phase⟩ ∈ (s'.thread t).bara)) ∧
    (∀ c p, s.op? id = some o → o.kind = .barArr t b c false p → o.stage = 0 → s.earlierDone o.tids o.id = true →
      ∃ s' q, exec (.barrierArrival id) s = .next s' ∧ s'.op? id = some q ∧ q.kind = o.kind ∧ q.stage = 1 ∧ s'.bar b = s.bar b) ∧
    (∀ ok, s.opening b = some ok → ∃ s', exec (.phaseOpen b) s = .next s' ∧ (ok = true → SameValues s s') ∧
      (s'.bar b).phase = (s.bar b).phase + 1 ∧ (s'.bar b).part = [] ∧ (s'.bar b).c0 = none ∧ (s'.bar b).lastOk = ok ∧
      (s'.bar b).waiting = [] ∧ (s'.bar b).waves = (s.bar b).waves ++ s.byArrival (s.bar b) ∧
      ((s.bar b).phase, ok) ∈ (s'.bar b).results ∧ (ok = false → ∀ k ∈ s.memberBlocks b, (s'.block k).faultst.getLsbD 1 = true)) ∧
    ∀ ex p ph ok at_ last, s.op? id = some o → o.kind = .barWait t b ph ex p → o.tids = [t] → o.cnts = [] →
      (s.bar b).waves = [id] → (s.bar b).waveAt = [(o.core, at_, last)] → at_ ≤ s.now o.core →
      (s.bar b).results.find? (·.1 == ph) = some (ph, ok) → (s.grid (s.block t.blk).grid).lrec.trapen.getLsbD 0 = false →
      ∃ s', exec (.barrierWave b) s = .next s' ∧ (s'.thread t).waitOp = none ∧ s'.op? id = none ∧ (s'.bar b).waves = [] ∧
        (s'.thread t).x = (s.thread t).x ∧ (p ≠ 7 → (s'.thread t).preds.getLsbD p.val = ok) ∧
        ∀ k, k ≠ p.val → (s'.thread t).preds.getLsbD k = (s.thread t).preds.getLsbD k

/-- SEMACQ puts its active threads into the semaphore's queue, where they block; SEMREL and SEMTRY put a step in flight for each
active thread; SEMRD gives the state word, and .CLR clears the status bits. Served, the head of the queue takes its units;
SEMTRY takes them and answers true where no thread waits and they are there, else false; SEMREL adds them, clipped at 1,048,575
with OVF set (spec/11 R239 to R243). -/
def Obligations.Semaphores : Prop :=
  (∀ (s : State) (h : Hdr) (sc : Scope) (a d : Reg) (cnt : BitVec 16) (k : Fin 64) (p : Pred), s.groupOk = true →
    let n := fun (t : Tid) => (s.rd t a + cnt.zeroExtend 32).toNat
    (∀ t ∈ s.act h, n t ≤ 1048575) →
    (∃ s', exec (.semacq h sc a cnt k) s = .next s' ∧ FellThrough s s' (s.cur.tids.filter fun t => !s.isActive h t) ∧
      (∀ u, (s'.thread u).still = (s.thread u).still) ∧ SameBytes s s' ∧
      (∃ ids, (s'.sem s.cur.core k.val) = { s.sem s.cur.core k.val with queue := (s.sem s.cur.core k.val).queue ++ ids } ∧
        ids.length = (s.act h).length) ∧
      ∀ t ∈ s.act h, ∃ o ∈ s'.ops, o.kind = .semacq t k.val (n t) sc ∧ o.tids = [t] ∧ (s'.thread t).waitOp = some o.id ∧
        o.id ∈ (s'.sem s.cur.core k.val).queue) ∧
    (∃ s', exec (.semtry h p sc a cnt k) s = .next s' ∧ Begun s s' h (some .ld) (s.act h).length ∧
      ∀ t ∈ s.act h, Started s s' t.blk (.semtry t k.val (n t) p sc) [t] [] none) ∧
    (∀ (q : Option (Fin 4)) (c : Tid → Nat), (∀ t ∈ s.act h, match q with
        | none => c t = s.cur.core
        | some i => ∃ m, s.qmember (s.block t.blk) i.val = some m ∧ c t = m.2.core) →
      ∃ s', exec (.semrel h sc q a cnt k) s = .next s' ∧ Begun s s' h (some .st) (s.act h).length ∧
        ∀ t ∈ s.act h, Started s s' t.blk (.semrel t (c t) k.val (n t) sc) [t] [] none) ∧
    (s.cur.tids ≠ [] → (∀ t ∈ s.cur.tids, s.semBusy t = false) →
      let m := s.sem s.cur.core k.val
      let word := fun (m : Sem) => BitVec.ofNat 32
        (m.count + 2 ^ 20 * m.err.toNat + 2 ^ 21 * m.timeout.toNat + 2 ^ 22 * m.ovf.toNat)
      (s.gives h (.semrd h d false k) 4 fun _ => [(d, word m)]) ∧
      (s.act h ≠ [] → ∃ s', exec (.semrd h d true k) s = .next s' ∧
        s'.sem s.cur.core k.val = { m with err := false, timeout := false, ovf := false } ∧
        (∀ t, (byLane (s.act h)).head? = some t → writesReg (s.act h) t d = true → s'.inFlight t d (word m) (s.clk + 4)) ∧
        FellThrough s s' s.cur.tids))) ∧
  ∀ (s : State) (id : Nat) (o : Op) (t : Tid) (c k n : Nat) (sc : Scope), s.op? id = some o → o.tids = [t] → s.has t = true →
    let m := s.sem c k
    (∀ hk : k < 64, ∀ rest, o.kind = .semacq t k n sc → o.cnts = [] → m.queue = id :: rest → n ≤ m.count → s.ownSemrel o c k = false →
      ∃ s', exec (.semaphoreServe c ⟨k, hk⟩) s = .next s' ∧ s'.sem c k = { m with count := m.count - n, queue := rest } ∧
        s'.op? id = none ∧ (s'.thread t).waitOp = none) ∧
    (∀ p, o.kind = .semtry t k n p sc → o.core = c → o.cnts = [(t, .ld)] → s.firstAccess o = true →
      ∃ s', exec (.loadComplete id) s = .next s' ∧ Ended s s' o (some .ld) ∧
        let takes := m.queue.isEmpty && decide (n ≤ m.count)
        s'.sem c k = (if takes then { m with count := m.count - n } else m) ∧
        (p ≠ 7 → (s'.thread t).preds.getLsbD p.val = takes) ∧ (s'.thread t).x = (s.thread t).x) ∧
    (o.kind = .semrel t c k n sc → o.cnts = [(t, .st)] → s.firstAccess o = true →
      (o.stage = 0 → ∃ s' q, exec (.storePerformed id) s = .next s' ∧ s'.op? id = some q ∧ q.stage = 1 ∧ s'.sem c k = m) ∧
      (o.stage = 1 → s.acked o.core o.after = true → ∃ s', exec (.storePerformed id) s = .next s' ∧ Ended s s' o (some .st) ∧
        s'.sem c k = { m with count := min (m.count + n) 1048575, ovf := m.ovf || decide (1048575 < m.count + n) } ∧
        OnlyRegs s s' [] []))

/-! ### Copies -/

/-- The COPY words whose operands fault on nothing and whose tokens are produced: CPL starts a copy for each active lane, CPT,
CPFILL, CPREM.PUT, CPREM.POST one for each block from its lowest active lane, CPR one that is still to pass its fault point,
TKJ a join; each adds to its token, and all but TKJ to CPCNT. A CPL or CPT whose sources find no miss-status entries stays at
its word (spec/09 R178; spec/12 R246, R255, R257, R260, R263). -/
def Obligations.CopiesStart : Prop :=
  ∀ (s : State) (h : Hdr) (a b : Reg) (k : Toks) (el : CElem) (kind : Tid → OpKind), s.groupOk = true →
    s.produced h k.ins = true →
    let each := fun (i : Instr) (check : Tid → Except Flt OpKind) =>
      (∀ b ∈ blksOf (s.act h), ∀ t, lowLane (s.act h) b = some t → check t = .ok (kind t)) →
      ∃ s', exec i s = .next s' ∧ BlockStarts s s' h k.ins (some k.tko) (some .cp) kind
    let stays := fun (i : Instr) (accs : List Acc) => s.rejects accs = true → ∃ s', exec i s = .next s' ∧ OnlyRetired s s' ∧
      ∀ u, (s'.thread u).pc = (s.thread u).pc ∧ (s'.thread u).win = (s.thread u).win
    ((∀ t ∈ s.act h, s.cplCheck a b el t = .ok (kind t)) → s.rejects (s.cplAccs a b el (s.act h)).1 = false →
      ∃ s', exec (.cpl h a b k el) s = .next s' ∧ LaneStarts s s' h k.ins k.tko .cp kind) ∧
    stays (.cpl h a b k el) (s.cplAccs a b el (s.act h)).1 ∧
    (s.rejects (s.cptAccs a b (s.act h)) = false → each (.cpt h a b k el) (s.cptCheck a b el)) ∧
    stays (.cpt h a b k el) (s.cptAccs a b (s.act h)) ∧
    each (.cpfill h a b k el) (s.cpfillCheck a b el) ∧
    each (.cpremPut h a b k) (s.putCheck a b) ∧
    each (.cpremPost h a b k) (s.postCheck a b) ∧
    ((∀ c ∈ blksOf (s.act h), ∀ t, lowLane (s.act h) c = some t → s.cprRead a b t = .ok (kind t)) →
      ∃ s', exec (.cpr h a b k) s = .next s' ∧ OpFrame s s' h ∧ Counted s s' h (some .cp) ∧ FellThrough s s' s.cur.tids ∧
        ∀ c ∈ blksOf (s.act h), ∀ t, lowLane (s.act h) c = some t → ∃ o ∈ s'.ops, s.nextId ≤ o.id ∧ o.kind = kind t ∧
          o.blk = c ∧ o.tids = (s.act h).filter (·.blk == c) ∧ o.core = s.cur.core ∧ o.pc = s.cur.pc ∧ o.clk = s.clk ∧
          o.stage = cprOpen ∧ (∀ i ∈ k.ins.flatMap (s.tokOps c), i ∈ o.after) ∧ ((s'.block c).tok k.tko).prod = true ∧
          o.id ∈ ((s'.block c).tok k.tko).ops) ∧
    ∃ s', exec (.tkj h k) s = .next s' ∧ BlockStarts s s' h k.ins (some k.tko) none fun _ => .join

/-- What the copy words start: CPL and CPFILL within the scratchpad window, with a control word of plain SPAD ends; a misaligned
operand faults with MISALIGN, a set reserved bit of the control word with ACCESS (spec/12 R247, R248, R255, R256). -/
def Obligations.CopyOperands : Prop :=
  ∀ (s : State) (t : Tid) (a b : Reg) (el : CElem),
    let blk := s.block t.blk
    let e := match el with
      | .e4 => 4
      | .e8 => 8
      | .e16 => 16
    let inPad := fun (v n : Nat) => v % e = 0 ∧ v + n ≤ blk.spadSize
    (s.rd t b = 0x1400 → isSvc blk.core = false → inPad (s.rd t a).toNat e → inPad (s.rd t (a.plus 2)).toNat e →
      s.cplCheck a b el t = .ok (.copy
        [{ dsp := 1, dst := (s.rd t a).toNat, ssp := 1, src := (s.rd t (a.plus 2)).toNat, len := e }] 0x1400 e)) ∧
    (s.rd t b = 0x1000 → isSvc blk.core = false → 0 < (s.rd t (a.plus 2)).toNat → (s.rd t (a.plus 2)).toNat % e = 0 →
      inPad (s.rd t a).toNat (s.rd t (a.plus 2)).toNat →
      s.cpfillCheck a b el t = .ok (.copy
        [{ dsp := 1, dst := (s.rd t a).toNat, pat := some (s.rd t (a.plus 3)).toNat, len := (s.rd t (a.plus 2)).toNat }]
        0x1000 e)) ∧
    ((s.rd t a).toNat % e ≠ 0 → (∃ v, s.cplCheck a b el t = .error ⟨.misalign, v, 0⟩) ∧
      ∃ v, s.cpfillCheck a b el t = .error ⟨.misalign, v, 0⟩) ∧
    ((s.rd t b).toNat / 2 ^ 16 ≠ 0 → (∃ f, s.cplCheck a b el t = .error f ∧ (f.code = .access ∨ f.code = .misalign)) ∧
      ∃ f, s.cpfillCheck a b el t = .error f ∧ (f.code = .access ∨ f.code = .misalign))

/-- CPSTAGE gives each block with an active lane a new ring at its lowest lane's offset; .OFF takes it away; CPADV gives the
stage or the number of open stages and advances the ring once per block, or waits while its condition does not hold (spec/12
R264 to R266). -/
def Obligations.StagingRings : Prop :=
  ∀ (s : State) (h : Hdr) (a d : Reg), s.groupOk = true →
    (∀ (size : BitVec 10) (mn mx : Fin 64), (∀ b ∈ blksOf (s.act h), ∀ t, lowLane (s.act h) b = some t →
        (s.rd t a).toNat % 256 = 0 ∧ (s.rd t a).toNat + mx.val * size.toNat * 256 ≤ (s.block b).spadSize) →
      ∃ s', exec (.cpstage h a size mn mx) s = .next s' ∧ SameValues s s' ∧ FellThrough s s' s.cur.tids ∧ s'.ops = s.ops ∧
        ∀ b ∈ blksOf (s.act h), ∀ t, lowLane (s.act h) b = some t → (s'.block b).ring = some
          { base := (s.rd t a).toNat, size := size.toNat, mn := mn.val, mx := mx.val,
            d := if s.capturing then mx.val else mn.val }) ∧
    (∃ s', exec (.cpstageOff h) s = .next s' ∧ SameValues s s' ∧ FellThrough s s' s.cur.tids ∧ s'.ops = s.ops ∧
      ∀ b ∈ blksOf (s.act h), (s'.block b).ring = none) ∧
    ∀ (r : Tid → Ring), s.cur.tids ≠ [] → (∀ t ∈ s.act h, (s.block t.blk).ring = some (r t)) →
      let opens := fun (t : Tid) => ((r t).head + 2 ^ 32 - (r t).tail) % 2 ^ 32
      let gives := fun (m : AdvMode) (v : Tid → Nat) (ring : Tid → Ring → Prop) => ∃ s', exec (.cpadv h d m) s = .next s' ∧
        s'.ops = s.ops ∧ FellThrough s s' s.cur.tids ∧
        ∀ t ∈ s.act h, (writesReg (s.act h) t d = true → s'.inFlight t d (BitVec.ofNat 32 (v t)) (s.clk + 4)) ∧
          ∃ q, (s'.block t.blk).ring = some q ∧ ring t q
      ((∀ t ∈ s.act h, opens t < (r t).mx) → gives .p (fun t => (r t).head % (r t).mx) fun t q =>
        q.head = ((r t).head + 1) % 2 ^ 32 ∧ q.tail = (r t).tail ∧ q.lastP = some s.clk) ∧
      ((∀ t ∈ s.act h, 0 < opens t) → gives .c (fun t => (r t).tail % (r t).mx) fun t q =>
        q.tail = ((r t).tail + 1) % 2 ^ 32 ∧ q.head = (r t).head) ∧
      gives .n opens (fun t q => q = r t) ∧
      ((∀ t ∈ s.cur.tids, t ∈ s.act h ∧ opens t = 0) → ∃ s', exec (.cpadv h d .c) s = .next s' ∧ OnlyRetired s s' ∧
        ∀ u, (s'.thread u).pc = (s.thread u).pc)

/-- The copy engine. A copy of scratchpad runs moves its elements one by one, and one of runs that do not meet completes with its
bytes moved, CPCNT and its token behind it; a CPREM.PUT sends its bytes, and ends at its acknowledgement, an error or a timeout
marked in FAULTST; a CPREM.POST registers its posting; a CPR passes its fault point two clocks after its issue, with its writes
booked, writes a line at its booked clock, and completes behind the last; a join ends 2 clocks after its last operation; a copy
that waits for a page asks for service, or ends with error at its limit (spec/12 R249 to R252, R255, R257, R259 to R263,
R421). -/
def Obligations.CopyEngine : Prop :=
  ∀ (s : State) (id : Nat) (o : Op) (blk : Block), s.op? id = some o → s.blocks.find o.blk = some blk → blk.ring = none →
    s.startable o = true → (∀ q ∈ s.ops, q.kind ≠ .group) → o.tids ≠ [] → (∀ u ∈ o.tids, s.has u = true) → o.tids.Nodup →
    o.core = blk.core →
    let counted := o.cnts = o.tids.map (fun u => (u, Cnt.cp))
    let pad := fun (s : State) (k : Nat) => cellRead (s.core o.core).spad (blk.spadBase + k)
    (∀ g w el, o.kind = .copy [g] w el → o.stage = 0 → g.dsp = 1 → g.ssp = 1 → el = 4 ∨ el = 8 ∨ el = 16 →
      o.done.length * el < g.len → g.len % el = 0 → g.dst + g.len ≤ blk.spadSize → g.src + g.len ≤ blk.spadSize →
      w.toNat / 2 ^ 14 % 2 = 0 →
      ∃ s' p, exec (.copyOperationStart id) s = .next s' ∧ s'.op? id = some p ∧ p.started = true ∧
        p.done.length = o.done.length + 1 ∧ OnlyRegs s s' [] [] ∧ ∀ pa, s'.homeByte pa = s.homeByte pa) ∧
    (∀ g w el, o.kind = .copy [g] w el → counted → s.memWf = true → o.stage = 0 → o.started = true → o.done = [] → w.toNat / 2 ^ 14 % 4 = 0 →
      g.dsp = 1 → g.ssp = 1 → el = 4 ∨ el = 8 ∨ el = 16 → g.len % el = 0 → g.dst + g.len ≤ blk.spadSize →
      g.src + g.len ≤ blk.spadSize → (g.src + g.len ≤ g.dst ∨ g.dst + g.len ≤ g.src) →
      ∃ s', exec (.copyOperationComplete id) s = .next s' ∧ Ended s s' o (some .cp) ∧
        (g.pat = none → ∀ k, pad s' k = if g.dst ≤ k ∧ k < g.dst + g.len then pad s (g.src + (k - g.dst)) else pad s k) ∧
        (∀ v, g.pat = some v → v < 2 ^ 32 → ∀ k, pad s' k =
          if g.dst ≤ k ∧ k < g.dst + g.len then BitVec.ofNat 8 (v / 2 ^ (8 * ((k - g.dst) % 4))) else pad s k) ∧
        ∀ pa, s'.homeByte pa = s.homeByte pa) ∧
    (∀ src len pod pkg chan w seq, o.kind = .put 1 src len pod pkg chan w seq → o.stage = 0 → len % 4 = 0 →
      src + len ≤ blk.spadSize → ∃ s' p, exec (.copyOperationStart id) s = .next s' ∧ s'.op? id = some p ∧ p.stage = 3 ∧
        s'.outs = s.outs ++ [.put pod pkg chan seq ((List.range len).map fun k => pad s (src + k))
          ((List.range (len / 4)).filter fun k => s.spadPoison o.core (blk.spadBase + src + 4 * k) 4)]) ∧
    (∀ ssp src len pod pkg chan w seq, o.kind = .put ssp src len pod pkg chan w seq → counted → o.stage = 3 →
      w.toNat / 2 ^ 15 % 2 = 0 →
      (∀ err, ∃ s', exec (.putAcknowledge id err) s = .next s' ∧ s'.ops = s.ops.filter (·.id != id) ∧
        (err = true → (s'.block o.blk).faultst.getLsbD 2 = true) ∧ (err = false → Ended s s' o (some .cp))) ∧
      ∃ s', exec (.transferLinkTimeout id) s = .next s' ∧ s'.ops = s.ops.filter (·.id != id) ∧
        (s'.block o.blk).faultst.getLsbD 3 = true) ∧
    (∀ p, o.kind = .post p → counted → ∃ s', exec (.copyOperationComplete id) s = .next s' ∧ Ended s s' o (some .cp) ∧
      s'.fabric.posts = s.fabric.posts ++ [p]) ∧
    (∀ r q, o.kind = .cpr r → o.stage = cprOpen → o.clk + 2 ≤ s.now o.core →
      (s.ops.filter fun p => p.stage == cprOpen && p.core == o.core && p.pc == o.pc && p.clk == o.clk && p.kind.cpr?.isSome) = [o] →
      s.cprDecide (s.core o.core).book o r = .ok q →
      ∃ s' p, exec (.copyOperationStart id) s = .next s' ∧ OnlyRegs s s' [] [] ∧ s'.op? id = some p ∧ p.kind = .cpr q ∧
        p.stage = 0 ∧ ∀ x ∈ (q.pas.map bankOf).zip q.slots, x ∈ (s'.core o.core).book) ∧
    (∀ r pa, o.kind = .cpr r → o.stage = 0 → r.pas[o.prog]? = some pa → r.slots[o.prog]? = some (s.now o.core) →
      ∃ s' p, exec (.cprLineWrite id) s = .next s' ∧ OnlyRegs s s' [] [] ∧ s'.op? id = some p ∧
        p.prog = o.prog + 1 ∧ p.pageAt = s.now o.core) ∧
    (∀ r, o.kind = .cpr r → counted → o.stage = 0 → r.nl ≤ o.prog → r.sem = none →
      o.pageAt + 4 ≤ s.now o.core → ∃ s', exec (.copyOperationComplete id) s = .next s' ∧ Ended s s' o (some .cp)) ∧
    (o.kind = .join → o.cnts = [] → o.clk + 2 ≤ s.now o.core →
      ∃ s', exec (.tokenJoinComplete id) s = .next s' ∧ Ended s s' o none ∧ OnlyRegs s s' [] []) ∧
    (∀ g w el, o.kind = .copy g w el → o.stage = 1 → blk.faultq.length < 16 →
      ∃ s' r p, exec (.enginePageServiceRequest id) s = .next s' ∧ (s'.block o.blk).faultq = blk.faultq ++ [r] ∧
        r.code = 0x09 ∧ r.sub = 3 ∧ r.imp = true ∧ r.susp = false ∧ r.pc = o.pc ∧ r.val = BitVec.ofNat 64 (o.prog / 4096 * 4096) ∧
        s'.op? id = some p ∧ p.stage = 2 ∧ p.page = some r.id) ∧
    ∀ g w el, o.kind = .copy g w el → o.stage = 1 ∨ o.stage = 2 → o.pageAt + o.lim ≤ s.now o.core →
      ∃ s', exec (.copylimExpiry id) s = .next s' ∧ s'.ops = s.ops.filter (·.id != id) ∧
        (s'.block o.blk).faultst.getLsbD 2 = true ∧ ((s.grids.find blk.grid).isSome = true → (s'.grid blk.grid).faulted = true)

/-- A transfer from another package: with a posting on its channel it is placed in the posted buffer, the posting is taken and
acknowledged; one longer than the buffer is refused with COPYERR at the poster; without a posting it is held (spec/12 R261,
R262). -/
def Obligations.InboundTransfers : Prop :=
  ∀ (s : State) (pod pkg chan seq : Nat) (data : List Byte) (bad : List Nat), s.inboundOp pod pkg chan seq = none → s.fw.pkgSusp = false →
    s.fw.sysSusp = false → chan < 4096 → s.capturing = false → s.replaying = false → data.length % 4 = 0 →
    (∀ p blk, s.fabric.posts.find? (·.chan == chan) = some p → s.blocks.find p.blk = some blk → p.dsp = 1 →
      p.ctl.toNat / 2 ^ 14 % 4 = 0 → s.memWf = true → data.length ≤ p.size → p.dst + p.size ≤ blk.spadSize →
      ∃ s', exec (.inboundPut pod pkg chan seq ⟨data, bad⟩) s = .next s' ∧ s'.outs = s.outs ++ [.ack chan seq false] ∧
        s'.fabric.posts = s.fabric.posts.filter (·.chan != chan) ∧
        (∀ k < data.length, some (cellRead (s'.core blk.core).spad (blk.spadBase + p.dst + k)) = data[k]?) ∧
        ∀ c k, ¬ (c = blk.core ∧ blk.spadBase + p.dst ≤ k ∧ k < blk.spadBase + p.dst + data.length) →
          cellRead (s'.core c).spad k = cellRead (s.core c).spad k) ∧
    (∀ p, s.fabric.posts.find? (·.chan == chan) = some p → (s.blocks.find p.blk).isSome = true → p.size < data.length →
      ∃ s', exec (.inboundPut pod pkg chan seq ⟨data, bad⟩) s = .next s' ∧ s'.outs = s.outs ++ [.ack chan seq true] ∧
        (s'.block p.blk).faultst.getLsbD 2 = true) ∧
    ((s.fabric.posts.find? (·.chan == chan)) = none →
      ∃ s' o, exec (.inboundPut pod pkg chan seq ⟨data, bad⟩) s = .next s' ∧ s'.ops = s.ops ++ [o] ∧
        o.kind = .inbound pod pkg chan seq data bad ∧ s'.outs = s.outs ∧ SameValues s s')

/-! ### Matrix and accumulation -/

/-- A sign of MMA or MMAS that begins an epoch, and faults on nothing, puts a request in flight for each block with an active
lane: descriptor registers, command block, and each active lane's fragment at its row of A; it adds to the token, counts in
MTCNT, and goes on; the request enters no table before the clock after its fault point. The premise on the table says that it has
an entry for every request that waits, each waiting sign and each block of the group. A thread whose scratchpad writes are not
performed waits (spec/13 R270, R272 to R274, R285). -/
def Obligations.MatrixSigns : Prop :=
  ∀ (s : State) (h : Hdr) (a : Reg) (n j : Fin 16) (k : Toks) (ru sparse : Bool), s.groupOk = true → s.cur.tids ≠ [] →
    let z := s.useFree
    let i : Instr := if sparse then .mmas h a n j k ru else .mma h a n j k ru
    let queued := s.ops.filter fun o => match o.kind with
      | .mtx r => quadOf o.core == quadOf s.cur.core && (r.entered || r.full.isSome)
      | _ => false
    let waiting := s.blocks.flatMap fun p => p.2.threads.filter fun t => t.2.tabAt.isSome
    (∀ t ∈ z.act h, (s.block t.blk).cvpend = [] ∧ (s.cv t.blk n.val).op = .none ∧ s.signWaits t n.val = false) → s.act h = z.act h →
    ((∀ t ∈ z.act h, (s.cv t.blk n.val).signed = [] ∧ z.windowQuiet t = true ∧
        z.signFault t a n.val j.val (fun _ => false) k sparse ru = none) →
      queued.length + waiting.length + (blksOf (z.act h)).length ≤ 16 →
      ∃ s', exec i s = .next s' ∧ SameValues s s' ∧ FellThrough s s' s.cur.tids ∧
        (∀ t ∈ z.act h, (s'.thread t).mt = (s.thread t).mt + 1) ∧
        ∀ b ∈ blksOf (z.act h), ((s'.block b).tok k.tko).prod = true ∧
          ∃ o ∈ s'.ops, ∃ r, s.nextId ≤ o.id ∧ o.kind = .mtx r ∧ o.id ∈ ((s'.block b).tok k.tko).ops ∧ r.cv = n.val ∧
            r.sparse = sparse ∧ r.ru = ru ∧ r.fs = (s.block b).fs ∧ r.entered = false ∧ r.ready = s.clk + 5 ∧
            ∀ t ∈ z.act h, t.blk = b → (t, .mt) ∈ o.cnts ∧
              (64 * (r.rowIds.takeWhile (· != t.row)).length + t.lane, z.rds t a (spanRegs r.fa sparse r.kch)) ∈ r.frag) ∧
    ((∀ t ∈ z.cur.tids, t ∈ z.act h ∧ z.windowQuiet t = false) →
      ∃ s', exec i s = .next s' ∧ OnlyRetired s s' ∧ ∀ u, (s'.thread u).pc = (s.thread u).pc)

/-- MREL drops the latch of a register, or all, in each block with an active lane, behind what fires at its clock; MFQ gives the
oldest record of the block in four registers, and takes it away unless .PEEK; MQRY gives the counts of the table or the latches, as they are now or were at
some clock of the last 16, or the sizes 32, 16 and 4 (spec/13 R287 to R289). -/
def Obligations.MatrixQueries : Prop :=
  ∀ (s : State) (h : Hdr) (d : Reg) (cv : Option (Fin 16)), s.groupOk = true →
    (∃ s', exec (.mrel h cv) s = .next s' ∧ SameValues s s' ∧ FellThrough s s' s.cur.tids ∧ s'.ops = s.ops ∧
      ∀ b ∈ blksOf (s.act h), (s'.block b).latches = (s.block b).latches ∧ ((s.block b).mrel = [] →
        ∀ l ∈ (s.block b).latches, l.key < 16 →
          (l ∈ ((s'.block b).land (s.clk + 1)).latches ↔ ∃ n, cv = some n ∧ l.key ≠ n.val))) ∧
    let recs := fun (t : Tid) => s.quads.flatMap fun q => q.2.mfq.filter (·.blk == t.blk)
    (∀ head : Tid → Option MRec, (∀ t ∈ s.act h, match head t with
        | some r => r ∈ recs t ∧ ∀ q ∈ recs t, q ≠ r → r.seq < q.seq
        | none => recs t = []) →
    let words := fun (t : Tid) =>
      let lost := 2 ^ 30 * (s.block t.blk).mlost.toNat
      match head t with
      | some r => [(d, BitVec.ofNat 32 (2 ^ 31 + lost + r.cv * 2 ^ 8 + r.code)), (d.plus 1, BitVec.ofNat 32 r.blkid),
        (d.plus 2, r.cmd), (d.plus 3, r.detail)]
      | none => [(d, BitVec.ofNat 32 lost), (d.plus 1, 0), (d.plus 2, 0), (d.plus 3, 0)]
    (s.gives h (.mfq h d true) 6 words) ∧
    (∀ t, s.act h = [t] → ∃ s', exec (.mfq h d false) s = .next s' ∧ FellThrough s s' s.cur.tids ∧
      (∀ p ∈ words t, s'.inFlight t p.1 p.2 (s.clk + 6)) ∧ (s'.block t.blk).mlost = false ∧
      ∀ q, (s'.quad q).mfq = (s.quad q).mfq.filter fun r => head t != some r)) ∧
    (s.gives h (.mqry h d .cfg) 4 fun _ => [(d, 0x00201040)]) ∧
    let held := fun (t : Tid) (f : Word × Word → Word) (w : Word) =>
      ∃ q ∈ s.past, s.now s.cur.core ≤ Tab.getD q.clks s.cur.core 0 + 16 ∧ ∃ v, q.blks.find t.blk = some v ∧ w = f v
    (∃ w : Tid → Word, (s.gives h (.mqry h d .latch) 4 fun t => [(d, w t)]) ∧
      ∀ t, w t = BitVec.ofNat 32 ((s.block t.blk).latches.map fun l => 2 ^ l.key).sum ∨ held t (·.2) (w t)) ∧
    ∃ w : Tid → Word, (s.gives h (.mqry h d .stat) 4 fun t => [(d, w t)]) ∧
      ∀ t, let tab := s.inTable ((s.block t.blk).core / 4)
        tab.length ≤ 16 → (recs t).length ≤ 16 →
        (w t).toNat = (16 - tab.length) * 2 ^ 24 + (tab.filter (·.blk == t.blk)).length * 2 ^ 16 + (recs t).length * 2 ^ 8 ∨
          held t (·.1) (w t)

/-- The matrix engine: a full epoch's request enters the table, behind its last sign's fault point, where an entry is free for it
behind those that came before; the request first in the order of
arbitration is granted a pass while the array is free; a booked line is written at or after its clock; after the last line, or a
failure, whose record is queued, the request completes (spec/13 R270, R271, R284, R285, R288). -/
def Obligations.MatrixEngine : Prop :=
  ∀ (s : State) (id : Nat) (o : Op) (r : MReq), s.op? id = some o → o.kind = .mtx r → (s.blocks.find o.blk).isSome = true →
    o.tids.Nodup → (∀ u ∈ o.tids, s.has u = true) →
    let q := o.core / 4
    (∀ k, r.entered = false → r.ready ≤ s.now o.core → r.full = some k → r.tokOp ≠ some id → (s.block o.blk).core = o.core →
      (s.inTable q).length + (s.ops.filter fun p => match p.kind with
          | .mtx e => p.core / 4 == q && !e.entered && e.full.any fun f => decide (f < k)
          | _ => false).length +
        (s.blocks.flatMap fun p => p.2.threads.filter fun t => t.2.tabAt.any fun f => decide (f < k)).length < 16 →
      ∃ s' p e, exec (.requestEntry id) s = .next s' ∧ s'.op? id = some p ∧ p.clk = s.now o.core ∧ p.kind = .mtx e ∧
        e.entered = true ∧ e.g63 = (s.block o.blk).g.getD 63 0 ∧ e.fs = (s.block o.blk).fs ∧ SameValues s s' ∧
        ∀ i, r.tokOp = some i → s'.op? i = none) ∧
    (r.entered = true → r.passes < r.kch → s.startable o = true → o.clk + 1 ≤ s.now o.core → s.throttled (4 * q) = false → (s.quad q).arrayAt.2 ≤ s.now (s.quad q).arrayAt.1 →
      (∀ p ∈ s.inTable q, p.id = id ∨ s.mReady p = false ∨ s.mRank o < s.mRank p) →
      ∃ s' p e, exec (.passGrant id) s = .next s' ∧ s'.op? id = some p ∧ p.kind = .mtx e ∧
        (s'.quad q).arrayAt = (o.core, s.now o.core + e.passTime) ∧
        ((e.fail = none ∧ e.passes = r.passes + 1) ∨ (e.fail ≠ none ∧ e.passes = r.kch)) ∧ SameValues s s') ∧
    (∀ pa k, r.fail = none → r.passes = r.kch → r.pas[r.lines]? = some pa → (r.slots r.t0)[r.lines]?.map (·.2) = some k →
      k ≤ s.now o.core → ∃ s' p e, exec (.qmeLineWrite id) s = .next s' ∧ s'.op? id = some p ∧ p.kind = .mtx e ∧
        e.lines = r.lines + 1) ∧
    (o.cnts = o.tids.map (fun u => (u, .mt)) → r.entered = true → r.passes = r.kch →
      (r.fail = none → r.lines = r.nl → (∀ k ∈ (r.slots r.t0).map (·.2), k + 4 ≤ s.now o.core) → 4 ≤ s.now o.core →
        ∃ s', exec (.requestComplete id) s = .next s' ∧ Ended s s' o (some .mt) ∧ OnlyRegs s s' [] []) ∧
      (∀ code det, r.fail = some (code, det) → r.pas = [] → s.blockLive o.blk = true → (s.quad q).mfq.length < 16 →
        (s.grid (s.block o.blk).grid).lrec.trapen.getLsbD 2 = false →
        ∃ s' m, exec (.requestComplete id) s = .next s' ∧ Ended s s' o (some .mt) ∧ (s'.quad q).mfq = (s.quad q).mfq ++ [m] ∧
          m.blk = o.blk ∧ m.code = code ∧ m.cv = r.cv ∧ m.detail = BitVec.ofNat 32 det))

/-- The ACC words whose operands fault on nothing and whose tokens are produced: ACCADD starts a contribution for each active
lane, ACCRD a settled read, the others one operation for each block from its lowest active lane (spec/14 R308 to R317). -/
def Obligations.AccumulationStarts : Prop :=
  ∀ (s : State) (h : Hdr) (a b d : Reg) (k : Toks) (kind : Tid → OpKind), s.groupOk = true →
    (s.produced h k.ins = true →
      let each := fun (i : Instr) (check : Tid → Except Flt OpKind) =>
        (∀ b ∈ blksOf (s.act h), ∀ t, lowLane (s.act h) b = some t → check t = .ok (kind t)) →
        ∃ s', exec i s = .next s' ∧ BlockStarts s s' h k.ins (some k.tko) (some .mt) kind
      let lines := fun (owner : Bool) (op : DWord → List Nat → OpKind) (t : Tid) =>
        s.accRange t a b owner op
      ((∀ t ∈ s.act h, s.accaddCheck a b t = .ok (kind t)) →
        ∃ s', exec (.accadd h a b k) s = .next s' ∧ LaneStarts s s' h k.ins k.tko .mt kind) ∧
      each (.accz h a b k) (s.acczCheck a b) ∧ each (.accout h a b k) (s.accoutCheck a b) ∧
      (∀ sc, each (.accset h a b k sc) (lines false fun va pas => .accset va pas sc)) ∧
      each (.accfl h a b k) (lines false fun _ pas => .accfl pas) ∧
      each (.accpoi h a b k) (lines true fun _ pas => .accpoi pas)) ∧
    ∀ (f : RdForm) (acc : Tid → Acc), (∀ t ∈ s.act h, s.accElem t (s.rd64 t a) .r = .ok (acc t)) →
      ∃ s', exec (.accrd h d a f) s = .next s' ∧ Begun s s' h (some .ld) (s.act h).length ∧
        ∀ t ∈ s.act h, Started s s' t.blk (.accrd (acc t) f (if writesReg (s.act h) t d then d else .xz)) [t] [] none

/-- The accumulation lines. ACCZ establishes its line, zero and without copies. A contribution to a FAST line without a
reservation is added at its home, rounded to nearest; with one it stands in a private copy, which a write-back of the block's
least recently used line takes out of the core's store when another line needs its room. ACCRD.F32 of a line not established reads its home's word. ACCPOI
takes a line's poison away (spec/14 R293 to R298, R310 to R317). -/
def Obligations.AccumulationLines : Prop :=
  ∀ (s : State) (id : Nat) (o : Op) (pa : Nat), s.op? id = some o → s.startable o = true → (∀ q ∈ s.ops, q.kind ≠ .group) →
    o.tids.Nodup → (∀ u ∈ o.tids, s.has u = true) → (∀ k < 256, s.planeOff (pa / 256 * 256 + k) = false) →
    s.cut o.core (pa / 256 * 256) = false → s.roomy 256 →
    let ln := pa / 256
    let mt := o.cnts = o.tids.map (fun u => (u, Cnt.mt))
    (∀ ex e, o.kind = .accz [pa] ex e → pa % 256 = 0 → o.prog = 0 → mt →
      ∃ s' l, exec (.engineOperationComplete id) s = .next s' ∧ Ended s s' o (some .mt) ∧ s'.lineAt pa = some l ∧ l.exact = ex ∧
        l.e = e ∧ l.poison = false ∧ l.ovf = false ∧ (∀ v ∈ l.vals, v = 0) ∧ (∀ c, s'.accCopy c ln = none) ∧
        ∀ a, s'.homeByte a = if a / 256 = ln then 0 else s.homeByte a) ∧
    (∀ a v l, o.kind = .accadd a v → a.loc = .mem pa → pa % 4 = 0 → mt → 2 ≤ s.now o.core % 4 →
      (∀ p ∈ s.ops, ∀ x w, p.kind = .accadd x w → p = o) → s.mem.lines.find ln = some l → l.estab ≠ 0 → l.exact = false → l.cap = [] →
      s.accCopy o.core ln = none →
      let e := pa % 256 / 4
      ((s.block o.blk).accLines = 0 →
        ∃ s', exec (.contributionApply id) s = .next s' ∧ Ended s s' o (some .mt) ∧
          (∀ p, s'.homeByte p = if pa ≤ p ∧ p < pa + 4 then BitVec.ofNat 8 ((faddW .rn false
            (BitVec.ofNat 32 (s.homeRead pa 4)) (r32 .rn (v32 v))).toNat / 2 ^ (8 * (p - pa))) else s.homeByte p)) ∧
      ((s.accHeld o.core o.blk).length < (s.block o.blk).accLines →
        ∃ s' k, exec (.contributionApply id) s = .next s' ∧ Ended s s' o (some .mt) ∧ s'.accCopy o.core ln = some k ∧
          k.settled = false ∧ k.estab = l.estab ∧ k.vals[e]? = some ((r32 .rn (v32 v)).toNat : Int) ∧
          k.touched[e]? = some true ∧ ∀ p, s'.homeByte p = s.homeByte p)) ∧
    (∀ a d, o.kind = .accrd a .f32 d → a.loc = .mem pa → pa % 4 = 0 → o.tids = [a.t] → o.cnts = [(a.t, .ld)] →
      s.mem.lines.find ln = none → s.accCopy o.core ln = none → (∀ i < 4, s.homePoison (ln * 4 + i) = false) →
      ∃ s', exec (.loadComplete id) s = .next s' ∧ Ended s s' o (some .ld) ∧ OnlyRegs s s' [a.t] [d] ∧
        (d ≠ .xz → s'.reg a.t d = BitVec.ofNat 32 (s.homeRead pa 4))) ∧
    (∀ l, o.kind = .accpoi [pa] → o.prog = 0 → mt → s.mem.lines.find ln = some l →
      ∃ s', exec (.engineOperationComplete id) s = .next s' ∧ Ended s s' o (some .mt) ∧
        s'.mem.lines.find ln = some { l with poison := false } ∧ ∀ a, s'.homeByte a = s.homeByte a) ∧
    ∀ c k, s.accCopy c ln = some k → k.settled = false → (s.block k.blk).accLines ≤ (s.accHeld c k.blk).length →
      (∀ p ∈ s.accHeld c k.blk, k.age ≤ p.2.age) → o.blk = k.blk → o.core = c → (∃ x, o.nextLine = some x ∧ s.accCopy c x = none) →
      ∃ s', exec (.writeBack c ln) s = .next s' ∧ s'.accCopy c ln = none ∧ s'.ops = s.ops ∧ OnlyRegs s s' [] []

/-! ### Handover and power -/

/-- PGIVE and PTAKE with their tokens produced start one operation for each block, at which its active lanes wait; PQRY.DIES
gives the dies in T and P; PQRY.OWN and PZERO start one operation for each active lane (spec/15 R324, R327 to R329). -/
def Obligations.HandoverStarts : Prop :=
  ∀ (s : State) (h : Hdr) (a b d : Reg) (k : Toks), s.groupOk = true →
    (s.produced h k.ins = true →
      (∀ back move, ∃ s', exec (.pgive h a b k back move) s = .next s' ∧ BlockWaits s s' h k.ins (some k.tko) (some .st)
        fun t => .pgive (s.rds t a 4 ++ s.rds t b 2) t back move) ∧
      ∀ back (kind : Tid → OpKind), (∀ x ∈ blksOf (s.act h), ∀ t, lowLane (s.act h) x = some t → s.ptakeCheck a b back t = .ok (kind t)) →
        ∃ s', exec (.ptake h a b k back) s = .next s' ∧ BlockWaits s s' h k.ins (some k.tko) none kind) ∧
    (∀ n, n = ((List.range 8).filter fun x => (s.die x).partT).length →
      s.gives h (.pqry h d .dies) 4 fun _ => [(d, BitVec.ofNat 32 (16 * n + (8 - n)))]) ∧
    (∀ pa : Tid → Nat, (∀ t ∈ s.act h, s.gAcc t (s.rd64 t a) 1 .r false = .ok { t := t, loc := .mem (pa t), va := s.rd64 t a }) →
      ∃ s', exec (.pqry h d (.own a)) s = .next s' ∧ Begun s s' h (some .ld) (s.act h).length ∧
        ∀ t ∈ s.act h, Started s s' t.blk (.pqry t (pa t) (if writesReg (s.act h) t d then d else .xz)) [t] [] none) ∧
    ∀ owner (kind : Tid → OpKind), (∀ t ∈ s.act h, s.pzeroCheck a b owner t = .ok (kind t)) →
      ∃ s', exec (.pzero h a b owner) s = .next s' ∧ Begun s s' h (some .st) (s.act h).length ∧
        ∀ t ∈ s.act h, Started s s' t.blk (kind t) [t] [] none

/-- The handover's operations. A PGIVE releases, then frees its threads, then hands its pages to the other partition, then stores
the flag, where no other write of the flag's sector is on its way; a PTAKE polls: it goes on once the flag has reached VAL and its partition owns the pages, and else polls again;
PQRY.OWN gives die and owner; PZERO zeroes a page and sets its owner (spec/15 R324 to R329). -/
def Obligations.HandoverRuns : Prop :=
  ∀ (s : State) (id : Nat) (o : Op) (t : Tid) (desc : List Word), s.op? id = some o → s.has t = true → o.tids = [t] →
    s.startable o = true → (∀ q ∈ s.ops, q.kind ≠ .group) → o.id < s.nextId →
    let still := fun (sec : Nat) => (∀ c ∈ s.cores, sec ∉ c.2.owned) ∧
      (∀ f ∈ (s.die (dieOf o.core)).fwd, (∀ x ∈ f.bytes, secOf x.1 ≠ sec) ∧ sec ∉ f.poison) ∧
      ∀ x ∈ (s.core o.core).l1, x.2.dirty = true → secOf x.1 ≠ sec
    (∀ back move, o.kind = .pgive desc t back move → o.stage = 0 →
      ∃ s' p, exec (.engineOperationComplete id) s = .next s' ∧ s'.op? id = some p ∧ p.stage = 1 ∧ p.kind = o.kind ∧
        s'.mem.owner = s.mem.owner) ∧
    (∀ back pas fp, o.kind = .pgive desc t back false → o.stage = 1 → s.acked o.core o.after = true →
      (∀ q ∈ s.ops, q.id = id ∨ q.stage ≠ 2) → s.pgiveCheck desc t back false = .ok (pas, fp) →
      ∃ s' p, exec (.engineOperationComplete id) s = .next s' ∧ s'.op? id = some p ∧ p.kind = o.kind ∧ p.stage = 2 ∧
        p.prog = fp ∧ p.after = [] ∧ p.lim = p.done.length ∧ (∀ x, x ∈ p.done ↔ x ∈ pas.map (· / 65536)) ∧
        (s'.thread t).waitOp = none ∧ SameBytes s s' ∧ s'.mem.owner = s.mem.owner) ∧
    (∀ back move, o.kind = .pgive desc t back move → o.stage = 2 → o.lim = o.done.length →
      ∃ s' p, exec (.engineOperationComplete id) s = .next s' ∧ s'.op? id = some p ∧ p.kind = o.kind ∧ p.stage = 3 ∧
        p.prog = o.prog ∧ SameBytes s s' ∧ ∀ pa, s'.ownerOf pa =
          if pa / 65536 ∈ o.done then (if back then .p else .t) else s.ownerOf pa) ∧
    (∀ back move, o.kind = .pgive desc t back move → o.cnts = [(t, .st)] → o.stage = 3 → s.lineAt o.prog = none →
      (∀ j < 4, s.planeOff (o.prog + j) = false ∧ s.cut o.core (o.prog + j) = false) → still (secOf o.prog) →
      s.roomy 4 → o.prog % 4 = 0 →
      ∃ s', exec (.engineOperationComplete id) s = .next s' ∧ Ended s s' o (some .st) ∧
        ∀ a, s'.homeByte a = if o.prog ≤ a ∧ a < o.prog + 4 then
          BitVec.ofNat 8 ((desc.getD 3 0).toNat / 2 ^ (8 * (a - o.prog))) else s.homeByte a) ∧
    (∀ pas fp back, o.kind = .ptake desc t pas fp back → o.cnts = [] → still (secOf fp) →
      ((desc.getD 3 0).toNat ≤ s.homeRead fp 4 → (s.block t.blk).part = (if back then 0 else 1) →
        (∀ pa ∈ pas, s.ownerOf pa = if back then .p else .t) →
        ∃ s', exec (.ptakeFlagPoll id) s = .next s' ∧ Ended s s' o none ∧ (s'.thread t).waitOp = none ∧ s'.mem.owner = s.mem.owner) ∧
      (s.homeRead fp 4 < (desc.getD 3 0).toNat →
        ∃ s' p, exec (.ptakeFlagPoll id) s = .next s' ∧ s'.op? id = some p ∧ p.kind = o.kind ∧ SameValues s s')) ∧
    (∀ pa d, o.kind = .pqry t pa d → o.cnts = [(t, .ld)] →
      ∃ s', exec (.loadComplete id) s = .next s' ∧ Ended s s' o (some .ld) ∧ OnlyRegs s s' [t] [d] ∧
        (d ≠ .xz → s'.reg t d = BitVec.ofNat 32 (256 * (pa / 2 ^ 40 % 8) + match s.ownerOf pa with
          | .none => 0
          | .p => 1
          | .t => 2
          | .shared => 3))) ∧
    ∀ page w, o.kind = .pzero [page] w → o.prog = 0 → o.cnts = [(t, .st)] → s.planeOff (page * 65536) = false →
      s.cut o.core (page * 65536) = false →
      ∃ s', exec (.engineOperationComplete id) s = .next s' ∧ Ended s s' o (some .st) ∧
        (∀ a, s'.homeByte a = if a / 65536 = page then 0 else s.homeByte a) ∧
        ∀ a, s'.ownerOf a = if a / 65536 = page then w else s.ownerOf a

/-- FILL, PWRH and STRQ. FILL sets the core's request from its lowest active lane, at most 65,535 clocks, 0 ending it; PWRH sets
the class of each block with an active lane; both are NOPs on a service core. STRQ gives deviations, state or limits of the
string as they are now or were at some clock of the last 16, with the core's and block's own fields exact; 0 on a service core
(spec/16 R332, R342). -/
def Obligations.PowerWords : Prop :=
  ∀ (s : State) (h : Hdr) (a d : Reg), s.groupOk = true →
    let c := s.cur.core
    let q := s.quad (c / 4)
    let held := fun (f : Word × Word × Word → Word) (w : Word) => ∃ p ∈ s.past, s.now c ≤ Tab.getD p.clks c 0 + 16 ∧ ∃ v, p.quads.find (c / 4) = some v ∧ w = f v
    (isSvc c = false →
      (∀ kind clocks t, (byLane (s.act h)).head? = some t → ∃ s', exec (.fill h kind a clocks) s = .next s' ∧ SameValues s s' ∧
        s'.ops = s.ops ∧ FellThrough s s' s.cur.tids ∧
        let n := min 65535 ((s.rd t a).toNat + clocks.toNat)
        (s'.core c).fill = if n = 0 then none else some (kind, s.clk + n)) ∧
      (∀ cls, ∃ s', exec (.pwrh h cls) s = .next s' ∧ SameValues s s' ∧ s'.ops = s.ops ∧ FellThrough s s' s.cur.tids ∧
        (∀ b ∈ blksOf (s.act h), (s'.block b).actclass = cls) ∧
        ∀ b, b ∉ blksOf (s.act h) → (s'.block b).actclass = (s.block b).actclass) ∧
      (∀ d0 d1 d2 d3 : BitVec 8, q.dev = [d0.toInt, d1.toInt, d2.toInt, d3.toInt] →
        ∃ w : Tid → Word, (s.gives h (.strq h d .imb) 4 fun t => [(d, w t)]) ∧
          ∀ t ∈ s.act h, w t = d3 ++ d2 ++ d1 ++ d0 ∨ held (·.1) (w t)) ∧
      (∃ w : Tid → Word,
        (s.gives h (.strq h d .st) 4 fun t => [(d, w t + BitVec.ofNat 32 (min 255 (((List.range 1024).filter (s.core c).filler.testBit).length / 4) * 2 ^ 16 + min 255 (s.core c).droop * 2 ^ 8
          + (match (s.block t.blk).actclass with
            | .idle => 0
            | .int => 1
            | .mem => 2
            | .vec => 3
            | .sfu => 4
            | .mtx => 5)))]) ∧
        ∀ t ∈ s.act h, w t = BitVec.ofNat 32 (q.thr * 2 ^ 29 + (match q.mstate with
          | .normal => 0
          | .filler => 1
          | .throttle => 2
          | .gap => 3) * 2 ^ 27) ∨ held (·.2.1) (w t)) ∧
      ∃ w : Tid → Word, (s.gives h (.strq h d .lim) 4 fun t => [(d, w t)]) ∧
        ∀ t ∈ s.act h, w t = BitVec.ofNat 32 (q.cslim % 2 ^ 16 * 2 ^ 16 + max 1 (min 127 q.thrCfg) * 2 ^ 8 + max 1 q.holdCfg) ∨
          held (·.2.2) (w t)) ∧
    (isSvc c = true →
      (∀ kind clocks, ∃ s', exec (.fill h kind a clocks) s = .next s' ∧ OnlyRetired s s' ∧ FellThrough s s' s.cur.tids) ∧
      (∀ cls, ∃ s', exec (.pwrh h cls) s = .next s' ∧ OnlyRetired s s' ∧ FellThrough s s' s.cur.tids) ∧
      ∀ form, s.gives h (.strq h d form) 4 fun _ => [(d, 0)])

/-- The string monitor and the power events. A monitor clock takes the four deviations, over the last 1,024 of these, in 128ths of
the mean, toward zero, at most 127; one beyond 19 throttles the quad at once; within STRTHR a quad in NORMAL stays so. The hold and the decay change THR
by one; a rail-gap excursion brings GAP at THR 7 and its end restores what was; expiries and flags change what they name
(spec/16 R332 to R342). -/
def Obligations.StringMonitor : Prop :=
  ∀ (s : State) (k : Nat) (i0 i1 i2 i3 : Int),
    let q := s.quad k
    let level := fun (j : Nat) => ((([i0, i1, i2, i3] :: q.hist).take 1024).map fun x => x.getD j 0).sum
    let sum := level 0 + level 1 + level 2 + level 3
    let dev := fun (i : Int) => if sum = 0 then 0 else max (-127) (min 127 (((4 * i - sum) * 128).tdiv sum))
    let devs := [dev (level 0), dev (level 1), dev (level 2), dev (level 3)]
    (k < 80 → q.step = 0 → ∃ s', exec (.stringMonitorEval k [i0, i1, i2, i3]) s = .next s' ∧ SameValues s s' ∧
      (s'.quad k).dev = devs ∧ (s'.quad k).mclk = q.mclk + 1 ∧ (∀ j, j ≠ k → s'.quad j = s.quad j) ∧
      (q.mstate = .gap → (s'.quad k).mstate = .gap ∧ (s'.quad k).thr = q.thr) ∧
      (q.mstate ≠ .gap → (∃ x ∈ devs, 19 < x.natAbs) → q.hold + 1 < 256 * max 1 q.holdCfg →
        (s'.quad k).mstate = .throttle ∧ (s'.quad k).thr = max q.thr 4) ∧
      (q.mstate = .normal → (∀ x ∈ devs, x.natAbs ≤ max 1 (min 127 q.thrCfg) ∧ x.natAbs ≤ 19) →
        (s'.quad k).mstate = .normal ∧ (s'.quad k).thr = q.thr ∧ (s'.quad k).hold = 0)) ∧
    (q.step = 1 → ∃ s', exec (.strholdExpiry k) s = .next s' ∧ SameValues s s' ∧ (s'.quad k).step = 0 ∧
      ((∀ x ∈ q.dev, x.natAbs ≤ 19) → (s'.quad k).thr = min 7 (q.thr + 1) ∧ (s'.quad k).mstate = .throttle)) ∧
    (q.step = 2 → ∃ s', exec (.throttleDecay k) s = .next s' ∧ SameValues s s' ∧ (s'.quad k).step = 0 ∧
      (s'.quad k).thr = q.thr - 1 ∧ (s'.quad k).within = 0 ∧ (1 < q.thr → (s'.quad k).mstate = q.mstate) ∧
      (q.thr ≤ 1 → (∀ x ∈ q.dev, x.natAbs ≤ max 1 (min 127 q.thrCfg)) → q.dev.length = 4 → (s'.quad k).mstate = .normal)) ∧
    (∀ c, c < 320 → (s.core c).gap = false → ∃ s', exec (.railGapExcursion c) s = .next s' ∧ (s'.core c).droop = (s.core c).droop + 1 ∧
      (s'.quad (c / 4)).mstate = .gap ∧ ((s.quad (c / 4)).mstate ≠ .gap → (s'.quad (c / 4)).thr = 7 ∧
        (s'.quad (c / 4)).gapSave = some ((s.quad (c / 4)).mstate, (s.quad (c / 4)).thr))) ∧
    (∀ st thr, q.gapSave = some (st, thr) → ∃ s', exec (.railGapEnd k) s = .next s' ∧ (s'.quad k).mstate = st ∧
      (s'.quad k).thr = thr ∧ (s'.quad k).gapSave = none) ∧
    ∀ c, (∀ e, (s.core c).grace = some e → e ≤ (s.quad (c / 4)).mclk → ∃ s', exec (.pwrhGraceEnd c) s = .next s' ∧
        SameValues s s' ∧ (s'.core c).grace = none) ∧
      (∀ f e, (s.core c).fill = some (f, e) → e ≤ s.now c → ∃ s', exec (.fillExpiry c) s = .next s' ∧ SameValues s s' ∧
        (s'.core c).fill = none) ∧
      (∀ n, c < 334 → n ≤ 512 → ∃ s', exec (.frequencyChange c n) s = .next s' ∧ SameValues s s' ∧
        (s'.core c).suppress = s.now c + n ∧ (s'.core c).clk = s.now c) ∧
      (c < 320 → (∃ s', exec (.thermalFlag c) s = .next s' ∧ SameValues s s' ∧ (s'.core c).flagged = true) ∧
        ∃ s', exec (.thermalUnflag c) s = .next s' ∧ SameValues s s' ∧ (s'.core c).flagged = false ∧ (s'.core c).droop = 0)

/-! ### Graphics -/

/-- The GFX words whose operands fault on nothing: RAST, ORDT and TTASK start one operation for each block with an active lane,
TRAV, SAMPLE and OMRG one for each active lane, a SAMPLE whose texels find no miss-status entries none; at WINACQ and TFENCE the active lanes wait for theirs; WINREL hands the buffer of
its side over once its threads' accesses are complete (spec/17 R346, R348, R351, R354, R358, R360, R362). -/
def Obligations.GraphicsStarts : Prop :=
  ∀ (s : State) (h : Hdr) (a b d : Reg) (k : Toks) (tko : Tok) (kind : Tid → OpKind), s.groupOk = true →
    s.produced h k.ins = true →
    let low := fun (check : Tid → Except Flt OpKind) =>
      ∀ b ∈ blksOf (s.act h), ∀ t, lowLane (s.act h) b = some t → check t = .ok (kind t)
    (∀ cull, ∃ s', exec (.rast h a b tko cull) s = .next s' ∧ BlockStarts s s' h [] (some tko) (some .ld) fun t =>
      .rast a (byLane ((s.act h).filter (·.blk == t.blk))) (s.rds t (.g 0) 10) (s.rds t b 2) cull) ∧
    (∃ s', exec (.trav h a b k) s = .next s' ∧ LaneStarts s s' h k.ins k.tko .ld fun t =>
      .trav t a (s.rds t a 16) (s.rds t b 8)) ∧
    ((∀ t ∈ s.act h, s.sampleCheck a b t = .ok (kind t)) → s.rejects (s.sampleAccs a b (s.act h)) = false →
      ∃ s', exec (.sample h a b k) s = .next s' ∧ LaneStarts s s' h k.ins k.tko .ld kind) ∧
    (s.rejects (s.sampleAccs a b (s.act h)) = true →
      ∃ s', exec (.sample h a b k) s = .next s' ∧ OnlyRetired s s' ∧ ∀ u, (s'.thread u).pc = (s.thread u).pc) ∧
    ((∀ t ∈ s.act h, s.omrgCheck a b t = .ok (kind t)) →
      ∃ s', exec (.omrg h a b k) s = .next s' ∧ LaneStarts s s' h k.ins k.tko .st kind) ∧
    (low (s.ttaskCheck a b) → ∃ s', exec (.ttask h a b k) s = .next s' ∧ BlockStarts s s' h k.ins (some k.tko) none kind) ∧
    (∀ fin_, low (s.ordtCheck a b fin_) → ∃ s', exec (.ordt h a b k fin_) s = .next s' ∧ SameValues s s' ∧
      Counted s s' h (some .cp) ∧ FellThrough s s' s.cur.tids ∧
      ∀ x ∈ blksOf (s.act h), ∀ t, lowLane (s.act h) x = some t → (s'.block x).lastSeq = some (s.rd t b).toNat ∧
        (s'.block x).fin = ((s.block x).fin || fin_) ∧
        Started s s' x (kind t) ((s.act h).filter (·.blk == x)) k.ins (some k.tko)) ∧
    (∀ (cons : Bool) (ch : Fin 8), (∀ t ∈ s.act h, s.winFault t cons ch.val false = none) →
      ∃ s', exec (.winacq h d cons ch) s = .next s' ∧ BlockWaits s s' h [] none none fun _ => .winacq d cons ch.val) ∧
    ((∀ t ∈ s.act h, s.tfenceCheck (byLane (s.act h)) a b t = .ok (kind t)) →
      ∃ s', exec (.tfence h a b k) s = .next s' ∧ OpFrame s s' h ∧
        FellThrough s s' (s.cur.tids.filter fun t => !s.isActive h t) ∧
        ∀ t ∈ s.act h, ((s'.block t.blk).tok k.tko).prod = true ∧
          ∃ o ∈ s'.ops, o.kind = kind t ∧ o.tids = [t] ∧ (s'.thread t).waitOp = some o.id) ∧
    ∀ (cons : Bool) (ch : Fin 8) (x : Nat), s.cur.tids ≠ [] → (∀ t ∈ s.act h, s.winFault t cons ch.val true = none ∧
        s.fencedDone t = true) → blksOf (s.act h) = [x] → (s.grids.find (s.block x).grid).isSome = true →
      let c := s.chanOf (s.block x).grid ((s.block x).qgid.getD 0) ch.val
      ∃ s', exec (.winrel h cons ch) s = .next s' ∧ FellThrough s s' s.cur.tids ∧ s'.ops = s.ops ∧
        (∀ u, (s'.thread u).x = (s.thread u).x ∧ (s'.thread u).preds = (s.thread u).preds) ∧
        let c' := s'.chanOf (s.block x).grid ((s.block x).qgid.getD 0) ch.val
        if cons then c'.cidx = !c.cidx ∧ c'.cheld = false ∧ c'.full c.cidx = false ∧ c'.full (!c.cidx) = c.full (!c.cidx) ∧
          c'.pidx = c.pidx ∧ c'.pheld = c.pheld
        else c'.pidx = !c.pidx ∧ c'.pheld = false ∧ c'.full c.pidx = true ∧ c'.full (!c.pidx) = c.full (!c.pidx) ∧
          c'.cidx = c.cidx ∧ c'.cheld = c.cheld

/-- The GFX operations. A served WINACQ holds its side and gives the buffer's QSPAD offset; a TFENCE gives its task's status, 3
when the fence has expired; an ORDT moves the watermarks, then enters the ingress of each region of its mask; a degenerate triangle
gives no sample; a fragment outside its tile, or that fails the depth test, changes no byte; a TRAV runs one issue, or waits for
a page, whatever its ray registers hold (spec/17 R346, R349, R352, R353, R361,
R362). -/
def Obligations.GraphicsRuns : Prop :=
  ∀ (s : State) (id : Nat) (o : Op) (t : Tid) (blk : Block), s.op? id = some o → s.has t = true → o.tids = [t] → o.blk = t.blk →
    s.blocks.find o.blk = some blk → (s.grids.find blk.grid).isSome = true → o.core = blk.core → s.startable o = true →
    (∀ q ∈ s.ops, q.kind ≠ .group) →
    let gone := fun (s' : State) => s'.ops = s.ops.filter (·.id != id)
    let run := exec (.engineOperationComplete id) s
    (∀ n cons c, o.kind = .winacq (.x n) cons c → o.cnts = [] →
      let ch := s.chanOf blk.grid (blk.qgid.getD 0) c
      let k := if cons then ch.cidx else ch.pidx
      let w := (s.grid blk.grid).chan c
      ch.full k = cons → ∃ s' p, run = .next s' ∧ gone s' ∧ (s'.thread t).waitOp = none ∧ p ∈ (s'.thread t).pend ∧
        p.dst = n.val ∧ p.due = s.now o.core + 4 ∧
        p.val = BitVec.ofNat 32 ((w.extractLsb' 27 2).toNat * 2 ^ 22 + 512 * (w.extractLsb' 14 13).toNat +
          if k then 256 * (w.extractLsb' 0 14).toNat else 0) ∧
        let ch' := s'.chanOf blk.grid (blk.qgid.getD 0) c
        (if cons then ch'.cheld else ch'.pheld) = true ∧ ch'.full0 = ch.full0 ∧ ch'.full1 = ch.full1) ∧
    (∀ slot gen ex d, o.kind = .tfence t slot gen ex d → o.cnts = [] →
      let f := (s.grid blk.grid).fences.getD slot {}
      (ex = true → ∃ s', run = .next s' ∧ gone s' ∧ (s'.thread t).waitOp = none ∧ (d ≠ .xz → s'.reg t d = 3)) ∧
      (ex = false → o.stage = 0 → f.gen = gen → f.task = none → ∃ s', run = .next s' ∧ gone s' ∧ (s'.thread t).waitOp = none ∧
        (d ≠ .xz → s'.reg t d = BitVec.ofNat 32 f.status))) ∧
    (∀ off len mask seq fin_ data bad, o.kind = .ordt off len mask seq fin_ data bad → s.earlierOrdt o = false →
      (o.stage = 0 → ∃ s' p, run = .next s' ∧ s'.op? id = some p ∧ p.stage = 1 ∧ SameValues s s' ∧
        ∀ r ∈ (s.grid blk.grid).defRegions,
          let x := (s'.grid blk.grid).regions.getD r {}
          if fin_ then blk.blkid ∈ x.fins else x.marks.find blk.blkid = some seq) ∧
      (o.stage ≠ 0 → o.done = [] → (∀ r, ((s.grid blk.grid).regions.getD r {}).pend.length < 1024) → o.cnts = [(t, .cp)] →
        ∃ s', run = .next s' ∧ Ended s s' o (some .cp) ∧ SameValues s s' ∧
          ∀ r < 16, ((s'.grid blk.grid).regions.getD r {}).pend = ((s.grid blk.grid).regions.getD r {}).pend ++
            if mask / 2 ^ r % 2 = 1 then [{ prod := blk.blkid, seq := seq, fin := fin_, data := data, bad := bad }] else [])) ∧
    (∀ n g sc cull, o.kind = .rast (.x n) [t] g sc cull → rastTri g sc cull = none → n.val + 4 ≤ 191 → o.cnts = [(t, .ld)] →
      ∃ s', run = .next s' ∧ Ended s s' o (some .ld) ∧ s'.reg t (.x n) = 0xFFFFFFFF ∧ s'.reg t (Reg.plus (.x n) 1) = 0xFFFFFFFF ∧
        s'.reg t (Reg.plus (.x n) 2) = 0 ∧ s'.reg t (Reg.plus (.x n) 3) = 0 ∧ s'.reg t (.g 9) = 0) ∧
    (∀ a va pa, o.kind = .sample t a 0 [(va, pa, 65536)] → (s.readLoc o.core (.mem pa) 4).2.1 = false → o.cnts = [(t, .ld)] →
      ∃ s', run = .next s' ∧ Ended s s' o (some .ld) ∧ ∀ k < 4, a.plus k ≠ .xz → s'.reg t (a.plus k) =
        BitVec.ofNat 32 (roundRat f32 .rn false 0 false ((s.readLoc o.core (.mem pa) 4).1 / 2 ^ (8 * k) % 256) 255)) ∧
    (∀ fr ds, o.kind = .omrg t fr ds → o.cnts = [(t, .st)] → (∀ p ∈ s.ops, ∀ u x y, p.kind = .omrg u x y → p = o) →
      let c := ds.getD 3 0
      let x0 := (ds.getD 2 0).toNat % 65536
      let y0 := (ds.getD 2 0).toNat / 65536
      let x := (fr.getD 0 0).toNat
      let y := (fr.getD 1 0).toNat
      let inside := x0 ≤ x ∧ x < x0 + c.toNat % 256 ∧ y0 ≤ y ∧ y < y0 + c.toNat / 256 % 256
      let dep := blk.spadBase + (ds.getD 1 0).toNat + 4 * ((y - y0) * (c.toNat % 256) + (x - x0))
      let passes := depthPass (c.toNat / 2 ^ 20 % 8) (fr.getD 2 0) (BitVec.ofNat 32 (s.spadRead blk.core dep 4))
      ∃ s', run = .next s' ∧ Ended s s' o (some .st) ∧ (¬ inside ∨ passes = false → SameBytes s s') ∧
        (∀ pa, s'.homeByte pa = s.homeByte pa)) ∧
    ∀ a ray ds, o.kind = .trav t a ray ds → o.stage = 0 →
      ∃ s', run = .next s' ∧ (gone s' ∨ ∃ p, s'.op? id = some p ∧ p.stage = 1)

/-- The ingress of a screen region: the next packet that every producer's watermark has passed is delivered into the buffer with
its header of sequence, producer and length; a full, finished or idle buffer is released into its channel with its count, length
and LAST (spec/17 R349, R350). -/
def Obligations.IngressEvents : Prop :=
  ∀ (s : State) (g : Nat) (r : Fin 16) (own : Nat) (blk : Block), s.regOwner g r.val = some (own, blk) →
    (s.grids.find g).isSome = true →
    let reg := (s.grid g).regions.getD r.val {}
    let w := (s.grid g).regWord r.val
    let ch := s.chanOf g (w.toNat % 65536) 7
    let cw := (s.grid g).chan 7
    w.getLsbD 31 = true → reg.last = false → ch.full ch.pidx = false →
    (∀ p, reg.next (s.grid g).nprod = some p → p.seq < 2 ^ 32 → p.prod < 2 ^ 32 → 32 + reg.buf.length + p.data.length ≤ 256 * (cw.toNat % 2 ^ 14) →
      ∃ s', exec (.ingressDelivery g r) s = .next s' ∧ SameValues s s' ∧
        let reg' := (s'.grid g).regions.getD r.val {}
        reg'.pend = reg.pend.erase p ∧ reg'.cnt = reg.cnt + 1 ∧ reg'.buf = reg.buf ++ bytesOf 4 p.seq ++ bytesOf 4 p.prod ++
          bytesOf 8 p.data.length ++ p.data) ∧
    (reg.cnt ≠ 0 → reg.next (s.grid g).nprod = none → reg.at_ + 256 ≤ s.now blk.core → reg.pend ≠ [] → reg.cnt < 2 ^ 32 →
      reg.buf.length + 16 < 2 ^ 32 → reg.buf.length % 16 = 0 → s.memWf = true →
      ∃ s', exec (.ingressRelease g r) s = .next s' ∧
        let reg' := (s'.grid g).regions.getD r.val {}
        let ch' := s'.chanOf g (w.toNat % 65536) 7
        reg'.buf = [] ∧ reg'.cnt = 0 ∧ reg'.last = false ∧ ch'.pidx = !ch.pidx ∧ ch'.full ch.pidx = true ∧
        ∀ k, k < 16 + reg.buf.length → cellRead (s'.core blk.core).spad (blk.spadBase + chBuf cw ch.pidx + k) =
          (bytesOf 4 reg.cnt ++ bytesOf 4 (16 + reg.buf.length) ++ bytesOf 8 0 ++ reg.buf).getD k 0)

/-! ### Special and control registers, and the SYS words -/

/-- MOVSW puts each block's value, or for a mailbox every active lane's value in lane order, in flight to land at issue + 2; a
landed XLWIN is bits [12:0] held between 16 and 4,096, a FAULTST bit is cleared by a 1, the clock of a landed mailbox write is
recorded. CSRR gives every active lane the register's value; CSRW, CSRSET and CSRCLR write the operand of the lowest lane, or
the old value with its bits set or cleared; a value that breaks a rule of its register faults ACCESS. The registers named read
as they were written (spec/04 R99 to R103, spec/18 R366, R367, R376, R389). -/
def Obligations.SpecialRegisters : Prop :=
  ∀ (s : State) (h : Hdr) (d a : Reg), s.groupOk = true →
    let c := s.cur.core
    (∀ (r : SReg) (i : Nat), (r, i) ∈ [(SReg.xlwin, 0), (SReg.taglim, 1), (SReg.faultst, 2)] →
      ∃ s', exec (.movsw h r a) s = .next s' ∧ SameValues s s' ∧ FellThrough s s' s.cur.tids ∧
        ∀ b ∈ blksOf (s.act h), ∀ t, lowLane (s.act h) b = some t →
          (s'.block b).spw = (s.block b).spw ++ [(i, s.rd t a, s.clk + 2)]) ∧
    (∀ k : Fin 16, ∃ s', exec (.movsw h (.mb k) a) s = .next s' ∧ (s.capturing = false → SameValues s s') ∧
      FellThrough s s' s.cur.tids ∧
      (s'.core c).mbPend = (s.core c).mbPend ++ (byLane (s.act h)).map fun t => (k.val, s.rd t a, s.clk + 2)) ∧
    (∀ (b : Block) (v : Word) (now : Nat),
      (b.spw = [(0, v, now)] → (b.land now).xlwin.toNat = max 16 (min 4096 (v.toNat % 8192))) ∧
      (b.spw = [(1, v, now)] → (b.land now).taglim = v) ∧
      (b.spw = [(2, v, now)] → (b.land now).faultst = b.faultst &&& ~~~ v.extractLsb' 2 4)) ∧
    (∀ (k : Core) (i : Nat) (v : Word), k.mbPend = [(i, v, k.clk)] → k.land.mb.find i = some v ∧ k.land.mbAt = some k.clk ∧
      k.land.mbPend = []) ∧
    (∀ r : Csr, s.act h = [] → ∀ i ∈ [Instr.csrr h d r, .csrw h r a, .csrset h d r a, .csrclr h d r a],
      ∃ s', exec i s = .next s' ∧ OnlyRetired s s') ∧
    (∀ (r : Csr) (t : Tid), (byLane (s.act h)).head? = some t →
      let old := s.csrRead c r
      let due := s.clk + csrLatency c r
      let has := fun (s' : State) => ∀ u ∈ s.act h, writesReg (s.act h) u d = true → s'.inFlight u d (old.extractLsb' 0 32) due ∧
        (r.wide = true → writesReg (s.act h) u (d.plus 1) = true → s'.inFlight u (d.plus 1) (old.extractLsb' 32 32) due)
      let opd := if r.wide then s.rd64 t a else (s.rd t a).zeroExtend 64
      let words := [(Instr.csrw h r a, opd, Reg.xz), (.csrset h d r a, old ||| opd, d), (.csrclr h d r a, old &&& ~~~ opd, d)]
      let begun := match r with
        | .qtail _ => (s.release c .sys).modThreads (byLane (s.act h)) fun th =>
            { th with tkSnap := [(1, (s.release c .sys).relWaits c .sys)] }
        | _ => s
      (∃ s', exec (.csrr h d r) s = .next s' ∧ SameValues s s' ∧ has s') ∧
      ((s.thread t).tkSnap = [] → ((∃ q, r = .qtail q) → (s.release c .sys).relWaits c .sys = []) → ∀ w ∈ words,
        (∀ s2, begun.csrWrite c r w.2.1 = some s2 → ∃ s', exec w.1 s = .next s' ∧ s'.pkg = s2.pkg ∧ s'.svcs = s2.svcs ∧
          s'.quads = s2.quads ∧ s'.dies = s2.dies ∧ s'.mdies = s2.mdies ∧ s'.mem = s2.mem ∧ s'.ops = s2.ops ∧
          (s2.blocks = s.blocks → w.2.2 = d → has s')) ∧
        (begun.csrWrite c r w.2.1 = none → exec w.1 s = .next (begun.raise ((byLane (s.act h)).map fun u =>
          (u, ⟨.access, 0, 0⟩)))))) ∧
    ∀ x : DWord, s.outdated c = false →
      let reads := fun (r : Csr) (v : DWord) => ∃ s', s.csrWrite c r x = some s' ∧ s'.csrRead c r = v
      let low := fun (n : Nat) => (x.extractLsb' 0 n).zeroExtend 64
      (∀ r ∈ [Csr.stvec, .sepc, .stval, .ftvec, .fepc, .ftval, .clkcmp, .bsel, .ctxtab], reads r x) ∧
      (∀ r ∈ [Csr.sie, .hbper, .capsize, .copylim, .prelim], reads r (low 32)) ∧
      (∀ r ∈ [Csr.strcfg, .cslimq, .cslimd], reads r (low 16)) ∧
      reads .fstat (low 6) ∧ reads .sstat (low 2 ||| 4) ∧ reads .scause (x &&& 0x80FF7FFF) ∧ reads .fcause (x &&& 0x80FF7FFF) ∧
      (∀ i, reads (.poolbase i) x ∧ reads (.poolnpg i) (low 32)) ∧
      (∀ q, reads (.qctl q) (x &&& 0xF000FFFF) ∧ if x.toNat % 256 = 0 then reads (.qbase q) x else s.csrWrite c (.qbase q) x = none) ∧
      (if x.toNat % 4096 = 0 then reads .capbase x else s.csrWrite c .capbase x = none) ∧
      (if x.toNat % 2 ^ 32 ≤ 4095 then reads .chsel (low 32) else s.csrWrite c .chsel x = none) ∧
      (if x.toNat % 2 ^ 32 ≤ 65535 then reads .chcid (low 32) else s.csrWrite c .chcid x = none) ∧
      if x.toNat % 2 ^ 32 = 0 ∨ x.getLsbD 31 = true then s.csrWrite c .gridnext x = none else reads .gridnext (low 32)

/-- TRAP raises a fault event for each row with an active lane: a record with code 0x0D, the word's address, the immediate and
the lanes, at which they are suspended. On a service pair TRAP takes the trap of R374, to the supervisor or to firmware, once the
writes of earlier words have landed, and a trap in firmware whose IE is 0 halts the pair; ERET restores level, at least the
supervisor's (DEDUCED, log 23), IE and position; HALT stops the pair. TLBINV discards the
translations it names within its scope; RMARK appends its entry to the capture log (spec/18 R370, R371, R374, R375, R379, R380,
R396). -/
def Obligations.SystemWords : Prop :=
  ∀ (s : State) (h : Hdr) (a b c : Reg) (imm : BitVec 22), s.groupOk = true →
    let co := s.cur.core
    let k := co - 320
    let v := s.svc k
    (∀ b, isSvc co = false → (∀ t ∈ s.act h, (s.thread t).pc = s.cur.pc) → s.act h ≠ [] →
      (∀ b ∈ blksOf (s.act h), (s.block b).faultq.length + ((s.act h).filter (·.blk == b)).length ≤ 16) → b ∈ blksOf (s.act h) →
      ∃ s', exec (.trap h imm) s = .next s' ∧ SameValues s s' ∧ s'.ops = s.ops ∧
        (∀ u, u ∉ s.act h → s'.thread u = s.thread u) ∧ (∀ r ∈ (s.block b).faultq, r ∈ (s'.block b).faultq) ∧
        ∀ t ∈ s.act h, t.blk = b → ∃ r ∈ (s'.block b).faultq, (s'.thread t).susp = some r.id ∧ (s'.thread t).pc = s.cur.pc ∧
          r.code = 0x0D ∧ r.sub = 0 ∧ r.pc = s.cur.pc ∧ r.val = imm.zeroExtend 64 ∧ r.susp = true ∧ r.imp = false ∧
          r.blkid = (s.block b).blkid ∧ r.row = t.row ∧
          r.lmask = laneMask ((s.act h).filter fun u => u.blk == b && u.row == t.row)) ∧
    (∀ all sc, ∀ i ∈ [Instr.trap h imm, .eret h, .halt h, .tlbinv h a b c all sc], s.act h = [] → ∃ s', exec i s = .next s' ∧ OnlyRetired s s') ∧
    (∀ t l, isSvc co = true → t = Tid.mk (svcHandle k) 0 → s.act h = t :: l →
      let lv := (s.thread t).level
      let cause := BitVec.ofNat 32 (0x000D0000 + ((s.thread t).skipMask >>> 1).toNat)
      let down := fun (s' : State) => ∀ u, (s'.thread u).x = (s.thread u).x ∧ (s'.thread u).preds = (s.thread u).preds
      (∃ s', exec (.trap h imm) s = .next s' ∧
        (∀ u, u ≠ t → (s'.thread u).x = (s.thread u).x ∧ (s'.thread u).preds = (s.thread u).preds) ∧
        let v' := s'.svc k
        let th := s'.thread t
        let landed := th.x = (s.thread t).landPend.x ∧ th.preds = (s.thread t).landPend.preds ∧ th.pend = [] ∧
          ((s.thread t).pend = [] → down s')
        if lv ≠ .fw ∧ v.sstat.getLsbD 0 = true ∧ v.stvec ≠ 0 then
          landed ∧ th.level = .sup ∧ th.pc = v.stvec ∧ v'.sepc = s.cur.pc + 8 ∧ v'.scause = cause ∧ v'.stval = imm.zeroExtend 64 ∧
          v'.sstat.extractLsb' 0 4 = 6#4 ∧ v'.sstat.extractLsb' 4 28 = v.sstat.extractLsb' 4 28 ∧ v'.fepc = v.fepc ∧ v'.fstat = v.fstat
        else if lv = .fw ∧ v.fstat.getLsbD 0 = false then
          down s' ∧ v'.halted = true ∧ th.pc = (s.thread t).pc ∧ th.level = lv ∧ v'.fepc = v.fepc ∧ v'.fstat = v.fstat
        else landed ∧ th.level = .fw ∧ th.pc = v.ftvec ∧ v'.fepc = s.cur.pc + 8 ∧ v'.fcause = cause ∧ v'.ftval = imm.zeroExtend 64 ∧
          v'.fstat.getLsbD 0 = false ∧ v'.fstat.getLsbD 1 = v.fstat.getLsbD 0 ∧ (v'.fstat.extractLsb' 2 2).toNat = lv.num ∧
          v'.fstat.extractLsb' 4 28 = v.fstat.extractLsb' 4 28 ∧ v'.sepc = v.sepc ∧ v'.sstat = v.sstat) ∧
      (∀ st epc cs, (st, epc, cs) = (if lv = .fw then (v.fstat, v.fepc, v.fcause) else (v.sstat, v.sepc, v.scause)) →
        (st.extractLsb' 2 2).toNat ≤ lv.num → ∃ s', exec (.eret h) s = .next s' ∧ down s' ∧
          let st' := if lv = .fw then (s'.svc k).fstat else (s'.svc k).sstat
          (s'.thread t).pc = epc ∧ (s'.thread t).level.num = max 1 (st.extractLsb' 2 2).toNat ∧
          st'.getLsbD 0 = st.getLsbD 1 ∧ st'.extractLsb' 1 31 = st.extractLsb' 1 31 ∧
          (s'.thread t).win = winOfMask (cs.extractLsb' 0 15)) ∧
      ∃ s', exec (.halt h) s = .next s' ∧ down s' ∧ (s'.svc k).halted = true) ∧
    (∀ (all : Bool) (sc : Scope), s.act h ≠ [] → (∀ t ∈ s.act h, (s.thread t).tkSnap = []) →
      (s.release co sc).relWaits co sc = [] → (∀ o ∈ s.ops, o.kind.placed = false) →
      ∃ s', exec (.tlbinv h a b c all sc) s = .next s' ∧ FellThrough s s' s.cur.tids ∧ s'.ops = s.ops ∧
        (∀ u, (s'.thread u).x = (s.thread u).x ∧ (s'.thread u).preds = (s.thread u).preds) ∧
        (∀ pa, s'.homeByte pa = (s.release co sc).homeByte pa) ∧
        ∀ x e, e ∈ (s'.core x).tlb → e ∈ (s.core x).tlb ∧ (inScope co sc x = true → ∀ t ∈ s.act h,
          ¬ (all = true ∨ (e.cid = (s.rd t c).toNat % 2 ^ 16 ∧ ((s.rd t b).toNat = 0 ∨
            (e.va < (s.rd64 t a).toNat % 2 ^ 57 + (s.rd t b).toNat ∧ (s.rd64 t a).toNat % 2 ^ 57 < e.va + e.size)))))) ∧
    (∃ s', exec (.rmark h a imm) s = .next s' ∧ FellThrough s s' s.cur.tids ∧ s'.ops = s.ops ∧
      (∀ u, (s'.thread u).arch = (s.thread u).arch) ∧ (s.capturing = false → OnlyRetired s s') ∧
      ∀ x t, blksOf (s.act h) = [x] → lowLane (s.act h) x = some t → s.capturing = true → s.replaying = false →
        s.pkg.capctl.getLsbD 29 = false → s.pkg.capctl.toNat % 2 ^ 29 + 1 ≤ 256 * s.pkg.capsize.toNat →
        s'.pkg.caplog = s.pkg.caplog ++ [[(s.sreg t .gridid).truncate 32, (s.sreg t .blkid).truncate 32, imm.zeroExtend 32,
          s.rd t a]])

/-- LAUNCH, CTXSAVE and CTXLOAD start an operation each, their address aligned. A launch releases first; then an off or full queue
or a refused record gives its status, and a record that is taken gives its GRIDID, stands behind the queue's records and moves
the tail. A CTXSAVE whose handle names no grid has status 1; at its end every thread takes the status and STCNT falls (spec/18
R386 to R390). -/
def Obligations.LaunchAndContext : Prop :=
  (∀ (s : State) (h : Hdr) (a b d : Reg) (k : Toks) (kind : Tid → OpKind), s.groupOk = true →
    (s.produced h k.ins = true → (∀ x ∈ blksOf (s.act h), ∀ t, lowLane (s.act h) x = some t → s.launchCheck a b t = .ok (kind t)) →
      ∃ s', exec (.launch h a b k) s = .next s' ∧ BlockStarts s s' h k.ins (some k.tko) (some .cp) kind) ∧
    ∀ t keep, (byLane (s.act h)).head? = some t → (s.rd64 t a).toNat % 4096 = 0 →
      ∀ w ∈ [(Instr.ctxsave h d a b keep, OpKind.ctxsave t d (s.rd64 t a) (s.rd64 t b) keep),
          (.ctxload h d a, .ctxload t d (s.rd64 t a))],
        ∃ s' o, exec w.1 s = .next s' ∧ OpFrame s s' h ∧ Counted s s' h (some .st) ∧ FellThrough s s' s.cur.tids ∧
          s'.ops = s.ops ++ [o] ∧ o.kind = w.2 ∧ o.tids = byLane (s.act h) ∧ o.stage = 0) ∧
  ∀ (s : State) (id : Nat) (o : Op) (t : Tid), s.op? id = some o → s.has t = true → o.tids = [t] → o.blk = t.blk →
    s.startable o = true → o.after = [] →
    let run := exec (.engineOperationComplete id) s
    (∀ pa q d, o.kind = .launch pa q d → o.stage = 0 → ∃ s' p, run = .next s' ∧ OnlyRegs s s' [] [] ∧ s'.op? id = some p ∧
      p.stage = 1 ∧ p.after = s'.relWaits o.core .pkg) ∧
    (∀ pa q n, o.kind = .launch pa q (.x n) → o.stage = 1 → o.cnts = [(t, .cp)] → (s.thread t).level ≠ .user →
      let rec_ := s.readRec o pa
      let named := rec_.2.withGid rec_.1
      let ring := s.ringq q
      let ends := fun (v : Word) => ∃ s', run = .next s' ∧ Ended s s' o (some .cp) ∧ OnlyRegs s s' [t] [.x n] ∧ s'.reg t (.x n) = v
      (ring.ctl.getLsbD 31 = false → ends 0x80000002) ∧
      (ring.ctl.getLsbD 31 = true → ring.ctl.toNat % 2 ^ 16 ≠ 0 → ring.ctl.toNat % 2 ^ 16 ≤ ring.recs.length + 1 → ends 0x80000001) ∧
      (ring.ctl.getLsbD 31 = true → ring.recs.length + 1 < ring.ctl.toNat % 2 ^ 16 →
        (named.2.recRefused q named.1 none = true → ends 0x80000003) ∧
        (named.2.recRefused q named.1 none = false → ∃ s' key, run = .next s' ∧ Ended s s' o (some .cp) ∧
          s'.reg t (.x n) = BitVec.ofNat 32 (recOf named.1).gridid ∧ (s'.ringq q).recs = ring.recs ++ [(key, false)] ∧
          (s'.ringq q).tail = (ring.tail + 1) % (ring.ctl.toNat % 2 ^ 16) ∧ (s'.grid key).lrec = recOf named.1 ∧
          (s'.grid key).queue = q ∧ (s'.grid key).status = .accepted))) ∧
    (∀ d va i keep, o.kind = .ctxsave t d va i keep → o.stage = 0 → s.gridOf (i.toNat % 2 ^ 32) = none →
      ∃ s' p, run = .next s' ∧ OnlyRegs s s' [] [] ∧ s'.op? id = some p ∧ p.stage = 2 ∧ p.prog = 1) ∧
    ∀ d va i keep, o.kind = .ctxsave t d va i keep ∨ o.kind = .ctxload t d va →
      (o.stage = 2 → ∃ s' p, run = .next s' ∧ OnlyRegs s s' [] [] ∧ s'.op? id = some p ∧ p.stage = 3 ∧ p.prog = o.prog) ∧
      (o.stage = 3 → o.cnts = [(t, .st)] → ∃ s', run = .next s' ∧ Ended s s' o (some .st) ∧ OnlyRegs s s' [t] [d] ∧
        (d ≠ .xz → s'.reg t d = BitVec.ofNat 32 o.prog))

/-! ### The issue logic, launches, pre-emption -/

/-- The events of the issue logic. A fetch appends the word at the next address to the thread's window, or faults at it; a word that
decodes to none faults with its code and itself as VAL; room in the fault queue lets held threads reissue; 1,024 clocks of
eligibility make a thread urgent; a demotion and a rejection end; a gather opens, and completes with the threads present (spec/02
R32, R33, R52, spec/03 R65, R85, spec/08 R155, spec/09 R178, spec/18 R370). -/
def Obligations.IssueEvents : Prop :=
  ∀ (s : State) (t : Tid), s.has t = true →
    let th := s.thread t
    let b := s.block t.blk
    let now := s.now b.core
    let only := fun (s' : State) => SameValues s s' ∧ s'.ops = s.ops ∧ ∀ u, u ≠ t → s'.thread u = s.thread u
    (isSvc b.core = false → b.onCore = true → th.status = .live → s.mayFetch t = true → ∀ w, s.fetchWord t th.fetchPc = .ok w →
      ∃ s', exec (.instructionFetch t) s = .next s' ∧ only s' ∧ (s'.thread t).pc = th.pc ∧
        (s'.thread t).win[th.fetchIx]? = some { word := some w } ∧
        (∀ k, k ≠ th.fetchIx → (s'.thread t).win[k]? = th.win[k]?)) ∧
    (isSvc b.core = false → th.win = [] → s.runs t = true → th.trap = none → max th.fpAt th.readyAt ≤ now → b.faultq.length < 16 →
      ∀ f, s.fetchWord t th.pc = .error f → ∃ s', exec (.instructionFetch t) s = .next s' ∧ only s' ∧
        Faulted s s' t.blk [t] f.code.num th.pc f.val) ∧
    (∀ w r l, isSvc b.core = false → th.win = { word := some w, issued := false } :: l → s.runs t = true → th.trap = none →
      th.heldAt = none → max th.fpAt th.readyAt ≤ now → b.faultq.length < 16 → s.decodeWord t w = .error r →
      ∃ s', exec (.decodeFault [t]) s = .next s' ∧ only s' ∧ Faulted s s' t.blk [t] (rejectCode r).num th.pc w) ∧
    (b.held ≠ [] → b.faultq.length < 16 → ∃ s', exec (.faultEventReissue t.blk) s = .next s' ∧ SameValues s s' ∧
      (s'.block t.blk).held = [] ∧ (s'.block t.blk).faultq = b.faultq ∧ s'.thread t = th) ∧
    (∀ w i a l, th.win = { word := some w, issued := false, elig := some a } :: l → s.decodeWord t w = .ok i → s.runs t = true →
      th.trap = none → th.heldAt = none → s.elig t th.pc i = true → a + 1024 ≤ s.stamp b.core → th.urgent = false →
      ∃ s', exec (.urgentAgeing t) s = .next s' ∧ only s' ∧ s'.thread t = { th with urgent := true }) ∧
    (th.yield = 1 → ∃ s', exec (.yieldDemotionEnd t) s = .next s' ∧ only s' ∧ s'.thread t = { th with yield := 0 }) ∧
    (∀ r, th.rejected = some r → r + 8 ≤ now → ∃ s', exec (.mshrRejectRetry t) s = .next s' ∧ SameValues s s' ∧
      s'.thread t = { th with rejected := none } ∧
      ∀ u, s'.thread u = s.thread u ∨ (s'.thread u = { s.thread u with rejected := none } ∧ (s.block u.blk).core = b.core ∧
        (s.thread u).rejected = some r ∧ (s.thread u).pc = th.pc)) ∧
    (∀ pc, s.arrivedAt t = some pc →
      (∀ g ∈ (s.core b.core).gathers, ¬ (g.blk = t.blk ∧ g.row = t.row ∧ g.pc = pc ∧ g.done = none)) →
      ∃ s', exec (.gatherOpen t) s = .next s' ∧ SameValues s s' ∧ (s'.core b.core).gathers = (s.core b.core).gathers ++
        [{ blk := t.blk, row := t.row, pc := pc, since := now, win := b.xlwin.toNat }]) ∧
    ∀ g, s.present g ≠ [] → g.blk = t.blk → g.row = t.row →
      let full := fun (s' : State) => SameValues s s' ∧ ∃ g' ∈ (s'.core b.core).gathers, g' = { g with done := some (s.present g), doneAt := s.stamp b.core }
      (s.openGather t.blk t.row s.rowHere = some g → ∃ s', exec (.gatherComplete t.blk t.row) s = .next s' ∧ full s') ∧
      (s.openGather t.blk t.row (fun x => decide (x.since + x.win ≤ now)) = some g →
        ∃ s', exec (.gatherWindowClose t.blk t.row) s = .next s' ∧ full s')

/-- Mailboxes, threads, blocks and grids. A host's mailbox write lands and wakes; a drained thread is released; a block whose threads
are released completes, its postings withdrawn; a complete grid takes its status and writes it with DONEVAL; a distributor pulls
the first candidate; a block starts with every thread at the entry, zeroed; a tail write takes its records or is refused; GRIDNEXT
is never 0 nor has bit 31 set (spec/01 R21, R28, spec/03 R86, spec/04 R100, spec/12 R261, spec/18 R367, R389). -/
def Obligations.BlocksAndGrids : Prop :=
  ∀ (s : State) (key blk : Nat) (g : Grid) (b : Block), s.grids.find key = some g → s.blocks.find blk = some b →
    (∀ c (k : Fin 16) v, c < 320 → s.capturing = false → s.replaying = false → ∃ s', exec (.hostMailboxWrite c k v) s = .next s' ∧
      SameValues s s' ∧ (s'.core c).mb.find k = some v ∧ (s'.core c).mbAt = some (s.now c)) ∧
    (∀ t : Tid, t.blk = blk → (b.threads.find t.idx).isSome = true → (s.thread t).status = .exited ∨ (s.thread t).status = .killed →
      (∀ c, (s.thread t).cnt c = 0) → (∀ o ∈ s.ops, t ∉ o.tids) → ∃ s', exec (.threadRelease t) s = .next s' ∧ SameValues s s' ∧
        s'.thread t = { s.thread t with status := .released, pend := [], freed := s.now b.core + 1 } ∧ s'.ops = s.ops) ∧
    (isSvc b.core = false → b.bstate = .resident → (∀ p ∈ b.threads, p.2.status = .released) → (∀ o ∈ s.ops, o.blk ≠ blk) →
      ∃ s', exec (.blockComplete blk) s = .next s' ∧ (s'.block blk).bstate = .completed ∧ (s'.block blk).ring = none ∧
        s'.fabric.posts = s.fabric.posts.filter (·.blk != blk) ∧ s'.ops = s.ops ∧ (b.grid = key → b.blkid ∈ (s'.grid key).doneBlks)) ∧
    (g.complete = false → g.refuse = false → g.lrec.nblk ≤ g.nextBlk → g.lrec.nblk ≤ g.doneBlks.length → g.rel = [] →
      let code := if g.killed then 3 else if g.faulted then 2 else 0
      ∃ s', exec (.gridComplete key) s = .next s' ∧
        (s'.grid key).status = (if g.killed then .killed else if g.faulted then .faulted else .done) ∧
        (∀ u, (s'.thread u).x = (s.thread u).x ∧ (s'.thread u).preds = (s.thread u).preds) ∧
        (g.lrec.doneva = 0 → SameBytes s s') ∧
        ∀ pa, g.lrec.doneva ≠ 0 → s.roomy 128 → s.sysAccess g.lrec.cid g.lrec.level g.lrec.doneva 8 .w = some pa →
          (∀ k < 8, s.planeOff (pa + k) = false) →
          ∀ k < 8, s'.homeByte (pa + k) = BitVec.ofNat 8 ((code + g.lrec.doneval.toNat * 2 ^ 32) / 2 ^ (8 * k))) ∧
    (∀ die (q : Fin 16), ∀ p ∈ s.candidates die, die < 8 → s.pkg.suspended = false → (s.grid p.2.1).queue = q.val →
      (∀ r ∈ s.candidates die, r = p ∨ p.1 < r.1) → ∃ s', exec (.recordPull die q) s = .next s' ∧ SameValues s s' ∧
        (s'.die die).job = some (p.2.1, p.2.2) ∧ ∀ d, d ≠ die → s'.die d = s.die d) ∧
    (∀ c base, c < 320 → g.lrec.cores = false → g.lrec.gfx = false → g.lrec.qg = false → g.lrec.dgn = 0 → g.unplaced = true →
      (s.die (c / 40)).job = some (key, none) → s.inPart g.lrec.part (c / 40) = true → s.pkg.suspended = false →
      s.capturing = false → g.nextBlk ∉ g.killedBlks → s.fits [] g.lrec.need c = some base →
      ∃ s', exec (.blockPlacement key [c]) s = .next s' ∧ (s'.die (c / 40)).job = none ∧ (s'.grid key).nextBlk = g.nextBlk + 1 ∧
        (s'.grid key).status = .running ∧
        let hd := handle key g.nextBlk
        let b' := s'.block hd
        b'.core = c ∧ b'.grid = key ∧ b'.blkid = g.nextBlk ∧ b'.spadBase = base ∧ b'.spadSize = g.lrec.spadb ∧ b'.g = [] ∧
        b'.bstate = .resident ∧ b'.fs = g.fs ∧ b'.threads.length = 64 * g.lrec.nrow ∧
        (∀ i < 64 * g.lrec.nrow, let th := s'.thread ⟨hd, i⟩
          th.pc = g.lrec.entry ∧ th.level = g.lrec.level ∧ th.x = [] ∧ th.preds = 0 ∧ th.status = .live ∧ ∀ k, th.cnt k = 0) ∧
        ∀ k < 16, g.lrec.mbmask.getLsbD k = true → (s'.core c).mb.find k = some (g.lrec.mbs.getD k 0)) ∧
    (∀ (q : Fin 16) (v : Word), let r := s.ringq q.val
      let size := r.ctl.toNat % 2 ^ 16
      let n := (v.toNat + size - r.tail % size) % size
      (size ≤ v.toNat → exec (.qtailWrite q v) s = .next { s with outs := s.outs ++ [.hostErr q.val] }) ∧
      (v.toNat < size → size ≤ r.recs.length + n →
        exec (.qtailWrite q v) s = .next { s with outs := s.outs ++ [.hostErr q.val] }) ∧
      (v.toNat < size → r.recs.length + n < size → ∃ s', exec (.qtailWrite q v) s = .next s' ∧ (s'.ringq q.val).tail = v.toNat ∧
        ((s'.ringq q.val).head + (s'.ringq q.val).recs.length) % size = (r.head + r.recs.length + n) % size)) ∧
    ∀ v : Word, (v = 0 ∨ v.getLsbD 31 = true → exec (.gridnextWrite v) s = .next { s with outs := s.outs ++ [.hostErr 0] }) ∧
      (v ≠ 0 → v.getLsbD 31 = false → exec (.gridnextWrite v) s = .next { s with pkg := { s.pkg with gridnext := v } })

/-- Pre-emption. The distributor's request marks the unit; the deferral ends when no barrier holds a partial arrival, or at its
limit; a drained unit is saved and its cores freed; a pulled unit is placed again, its threads with their registers at their
positions and its scratchpad bytes as they were saved (spec/18 R381 to R384). -/
def Obligations.Preemption : Prop :=
  ∀ (s : State) (n : Nat) (b : Block), s.blocks.find n = some b →
    (∀ (q : Nat × Grid) (imgs : List (List (Nat × Nat))), isSvc b.core = false → s.pkg.suspended = false →
      q ∈ s.grids → q.2.unplaced = true → q.2.deps = [] →
      (s.ringq q.2.queue).ctl.getLsbD 31 = true → (s.ringq q.2.queue).ctl.toNat % 2 ^ 16 ≠ 0 →
      s.inPart q.2.lrec.part (b.core / 40) = true → s.inPart ((s.ringq q.2.queue).ctl.toNat / 2 ^ 28 % 4) (b.core / 40) = true →
      1 ≤ (s.grid b.grid).lrec.pcls → (s.grid b.grid).lrec.prio < q.2.lrec.prio → s.unitOf n ≠ [] →
      (∀ h ∈ s.unitOf n, (s.block h).bstate = .resident) → s.saveAreas (s.unitOf n) = some imgs →
      ∃ s' p, exec (.distributorPreempt n) s = .next s' ∧ SameValues s s' ∧ s'.pkg.preempts = s.pkg.preempts ++ [p] ∧
        p.unit = s.unitOf n ∧ p.imgs = imgs ∧ p.phase = 0 ∧ p.since = s.now p.core ∧
        ∀ h ∈ s.unitOf n, (s'.block h).bstate = .preempting) ∧
    (∀ p, s.pkg.preempts.find? (fun p => p.unit.contains n && p.phase == 0) = some p →
      let stopped := fun (s' : State) => SameValues s s' ∧ { p with phase := 1 } ∈ s'.pkg.preempts ∧
        ∀ h ∈ p.unit, ∀ t : Tid, t.blk = h → (s.thread t).fenceIds = none → s'.runs t = false
      (s.partArrived p.unit = false → ∃ s', exec (.preemptDeferEnd n) s = .next s' ∧ stopped s') ∧
      (p.since + (s.core p.core).prelim.toNat ≤ s.now p.core → ∃ s', exec (.prelimExpiry n) s = .next s' ∧ stopped s')) ∧
    (∀ p pages, s.pkg.preempts.find? (fun p => p.unit.contains n && p.phase == 1) = some p → p.unit = [n] → p.imgs = [pages] →
      p.op = none → p.keep = false → s.landAll.drained [n] = true →
      ∃ s' v, exec (.preemptDrainComplete n) s = .next s' ∧ (s'.block n).bstate = .saved ∧
        s'.pkg.preempts = s.pkg.preempts.filter (·.unit != [n]) ∧ s'.pkg.saved = s.pkg.saved ++ [v] ∧ v.blk = n ∧ v.unit = [n] ∧
        v.auto = true ∧ v.size = b.imgSize ∧ s'.fabric.posts = s.fabric.posts.filter (·.blk != n) ∧
        ∀ i, (s'.thread ⟨n, i⟩).x = (s.landAll.thread ⟨n, i⟩).x ∧ (s'.thread ⟨n, i⟩).pc = (s.landAll.thread ⟨n, i⟩).pc ∧
          (s'.thread ⟨n, i⟩).preds = (s.landAll.thread ⟨n, i⟩).preds ∧
          (s'.thread ⟨n, i⟩).skipMask = (s.landAll.thread ⟨n, i⟩).skipMask) ∧
    ∀ v c base, s.pkg.saved.find? (fun v => v.auto && v.unit.contains n) = some v → v.unit = [n] → v.blk = n → v.mig = false →
      s.pkg.saved.find? (fun v => v.auto && v.blk == n) = some v →
      c < 320 → s.pkg.suspended = false → (s.die (c / 40)).job = some (b.grid, some n) → b.qgid = none →
      (b.part == 1) = (s.die (c / 40)).partT → s.fits [] b.need c = some base → b.bstate = .saved →
      ∃ s', exec (.unitRestore n [c]) s = .next s' ∧ (s'.block n).core = c ∧ (s'.block n).bstate = .resident ∧
        (s'.block n).spadBase = base ∧ (s'.die (c / 40)).job = none ∧ (∀ w ∈ s'.pkg.saved, w.auto = true → w.blk ≠ n) ∧
        (∀ i, (s'.thread ⟨n, i⟩).x = (s.thread ⟨n, i⟩).x ∧ (s'.thread ⟨n, i⟩).pc = (s.thread ⟨n, i⟩).pc ∧
          (s'.thread ⟨n, i⟩).preds = (s.thread ⟨n, i⟩).preds ∧ (s'.thread ⟨n, i⟩).skipMask = (s.thread ⟨n, i⟩).skipMask) ∧
        (cellsWf v.spad = true → cellsWf (s.core c).spad = true → (∀ x ∈ v.spad, x.1 < b.spadSize) →
          ∀ k < b.spadSize, cellRead (s'.core c).spad (base + k) = cellRead v.spad k)

/-- The commands of BCTL on the selected block, none waiting. RESUME and SKIP let the head record's threads go on at the word or
behind it, or an engine try its page again; KILLT kills them; KILLB kills every thread; POP removes an imprecise record;
PREEMPT and MIGRATE begin a pre-emption, MIGRATE without deferral; a command that cannot act, or an unused code, sets ERR; on
a block being pre-empted a command waits (spec/18 R372, R373, R381, R385, spec/12 R421). -/
def Obligations.BlockControl : Prop :=
  ∀ (s : State) (g n : Nat) (b : Block), s.pkg.bctl = 0 →
    let hd := handle g n
    let err := fun (i : Instr) => exec i s = .next { s with pkg := { s.pkg with bctlErr := true } }
    let cmds := [Instr.bctlResume, .bctlSkip, .bctlKillt, .bctlKillb, .bctlPreempt, .bctlMigrate, .bctlPop]
    err .bctlInvalid ∧ (s.selected = none → ∀ i ∈ cmds, err i) ∧
    (s.selected = some (g, n) → s.blocks.find hd = some b →
      (b.bstate = .preempting → ∀ k < 7, ∃ i, cmds[k]? = some i ∧ exec i s = .next { s with pkg := { s.pkg with
        bctl := BitVec.ofNat 32 ((k + 1) * 2 ^ 28), bctlSel := hd } }) ∧
      (b.bstate = .saved ∨ b.bstate = .completed → ∀ i ∈ cmds, i ≠ .bctlKillb → err i) ∧
      (b.bstate = .resident → b.faultq = [] → ∀ i ∈ [Instr.bctlResume, .bctlSkip, .bctlKillt, .bctlPop], err i) ∧
      (b.bstate = .resident → (b.threads.map (·.1)).Nodup → ∀ r l, b.faultq = r :: l →
        let on_ := fun (i : Nat) => (s.thread ⟨hd, i⟩).susp = some r.id
        (r.susp = true → ∃ s', exec .bctlResume s = .next s' ∧ SameValues s s' ∧ (s'.block hd).faultq = l ∧
          (∀ i, on_ i → s'.thread ⟨hd, i⟩ = { s.thread ⟨hd, i⟩ with susp := none, since := none }) ∧
          ∀ u : Tid, ¬ (u.blk = hd ∧ on_ u.idx) → s'.thread u = s.thread u) ∧
        (r.susp = true → r.code ≠ 0x0E → r.code ≠ 0x0F → ∃ s', exec .bctlSkip s = .next s' ∧ SameValues s s' ∧ (s'.block hd).faultq = l ∧
          ∀ i, on_ i → (s'.thread ⟨hd, i⟩).susp = none ∧ ((s.thread ⟨hd, i⟩).pc = r.pc →
            (s.thread ⟨hd, i⟩).atLoopEnd r.pc = false → ((s.thread ⟨hd, i⟩).win.drop 1).all (fun w => !w.issued) = true →
            (s'.thread ⟨hd, i⟩).pc = r.pc + 8)) ∧
        (r.susp = true → r.code = 0x0E ∨ r.code = 0x0F → ∃ s', exec .bctlSkip s = .next s' ∧ (s'.block hd).faultq = l ∧
          ∀ i, on_ i → s'.thread ⟨hd, i⟩ = { s.thread ⟨hd, i⟩ with susp := none, since := none }) ∧
        (r.susp = true → ∃ s', exec .bctlKillt s = .next s' ∧ ((s.grids.find b.grid).isSome = true → (s'.grid b.grid).faulted = true) ∧
          ∀ i, on_ i → (b.threads.find i).isSome = true → (s.thread ⟨hd, i⟩).status = .live → (s'.thread ⟨hd, i⟩).status = .killed) ∧
        (r.susp = false → r.op = none → err .bctlResume) ∧ (r.susp = false → err .bctlSkip ∧ err .bctlKillt) ∧
        (∀ i o, r.susp = false → r.op = some i → s.op? i = some o → o.page = some r.id →
          ∃ s' o', exec .bctlResume s = .next s' ∧ SameValues s s' ∧ (s'.block hd).faultq = l ∧ s'.op? i = some o' ∧
            o'.stage = (if o.pageAt + o.lim ≤ s.now o.core then o.stage else if s.pageNow o then 0 else 1) ∧ o'.page = none ∧
            o'.kind = o.kind) ∧
        (r.imp = false → err .bctlPop) ∧
        (r.imp = true → ∃ s', exec .bctlPop s = .next s' ∧ SameValues s s' ∧ (s'.block hd).faultq = l)) ∧
      (b.bstate = .resident → ∃ s', exec .bctlKillb s = .next s' ∧ ((s.grids.find g).isSome = true → (s'.grid g).killed = true) ∧
        ∀ p ∈ b.threads, b.threads.find p.1 = some p.2 → p.2.status = .live → (s'.thread ⟨hd, p.1⟩).status = .killed) ∧
      (b.bstate = .resident → (s.saveAreas (s.unitOf hd) = none → err .bctlPreempt ∧ err .bctlMigrate) ∧
        ∀ imgs, s.saveAreas (s.unitOf hd) = some imgs → s.unitOf hd ≠ [] → (∀ x ∈ s.unitOf hd, (s.block x).bstate = .resident) →
          ∀ mig : Bool, ∃ s' p, exec (if mig then .bctlMigrate else .bctlPreempt) s = .next s' ∧ SameValues s s' ∧
            p ∈ s'.pkg.preempts ∧ p.unit = s.unitOf hd ∧ p.imgs = imgs ∧ p.migrate = mig ∧ p.phase = (if mig then 1 else 0) ∧
            ∀ x ∈ s.unitOf hd, (s'.block x).bstate = .preempting))

/-! ### The package: registers, service pairs, links, hosts, firmware -/

/-- Writes of registers by hosts and firmware, and the tier migration engines. A format slot is written only while no block of the
grid is resident and only to a valid word; PARTCFG gives the named dies to T, and a die that changes lets go what it had pulled;
CAPCTL.ON changes only while no grid is resident; any other register is written as its core writes it; a refused write gets an
error completion; a migration starts or sets ERR, and copies the devices' bytes (spec/01 R26, R27, spec/05 R115, spec/09 R184,
R185, spec/18 R366, R367, R393). -/
def Obligations.RegisterWrites : Prop :=
  ∀ s : State,
    let refused := { s with outs := s.outs ++ [.hostErr 0] }
    (∀ (k : Fin 8) (v : Word),
      (s.selected = none → exec (.bfsWrite k v) s = .next s) ∧
      ∀ g n x, s.selected = some (g, n) → s.grids.find g = some x →
        (s.gridResident g = true ∨ slotValid v = false → exec (.bfsWrite k v) s = .next refused) ∧
        (s.gridResident g = false → slotValid v = true → ∃ s', exec (.bfsWrite k v) s = .next s' ∧ SameValues s s' ∧
          (s'.grid g).fs = x.fs.set k.val v)) ∧
    (∀ (v : Word) (dies : List Nat), v.toNat % 16 ≤ 8 → dies.length = v.toNat % 16 → dies.Nodup → (∀ d ∈ dies, d < 8) →
      ∃ s', exec (.partcfgWrite v dies) s = .next s' ∧ SameValues s s' ∧ s'.pkg.nt = v.toNat % 16 ∧
        ∀ d < 8, (s'.die d).partT = decide (d ∈ dies) ∧ (s'.die d).job =
          if (s.die d).partT = decide (d ∈ dies) then (s.die d).job else none) ∧
    (∀ v : Word, (v.getLsbD 31 ≠ s.capturing → (∃ p ∈ s.blocks, isSvc p.2.core = false ∧ p.2.bstate = .resident) →
        exec (.capctlWrite v) s = .next refused) ∧
      ((∀ p ∈ s.blocks, p.2.onCore = false ∨ isSvc p.2.core = true) → ∃ s', exec (.capctlWrite v) s = .next s' ∧ SameValues s s' ∧
        s'.capturing = v.getLsbD 31 ∧ s'.replaying = v.getLsbD 30 ∧
        (v.getLsbD 31 = true → s.capturing = false → v.getLsbD 30 = false → s'.pkg.caplog = [] ∧ s'.pkg.capctl.toNat % 2 ^ 29 = 0) ∧
        s'.pkg.capctl.getLsbD 29 = (s.pkg.capctl.getLsbD 29 && !v.getLsbD 29))) ∧
    (∀ c r x, r.readOnly = false → Csr.reached c r = true → c < 334 →
      (s.csrWrite c r x = none → exec (.registerWrite c r x) s = .next refused) ∧
      ∀ s', s.csrWrite c r x = some s' → exec (.registerWrite c r x) s = .next s') ∧
    ∀ die, die = 4 ∨ die = 5 → s.fw.pkgSusp = false →
      let m := s.mdie die
      let n := m.migctl.toNat % 2 ^ 16
      let src := m.migsrc.toNat
      let dst := m.migdst.toNat
      (m.migctl.getLsbD 31 = true → m.mig = none →
        (n ≠ 0 → s.migRange m.migsrc n = true → s.migRange m.migdst n = true → (src + n * 65536 ≤ dst ∨ dst + n * 65536 ≤ src) →
          ∃ s', exec (.migrationGo die) s = .next s' ∧ SameValues s s' ∧ s'.mdie die = { m with mig := some (src, dst, n) }) ∧
        (n = 0 ∨ s.migRange m.migsrc n = false ∨ s.migRange m.migdst n = false ∨ (dst < src + n * 65536 ∧ src < dst + n * 65536) →
          ∃ s', exec (.migrationGo die) s = .next s' ∧ SameValues s s' ∧ (s'.mdie die).migctl.getLsbD 31 = false ∧
            (s'.mdie die).migctl.getLsbD 29 = true ∧ (s'.mdie die).mig = none)) ∧
      ∀ a b l, m.mig = some (a, b, l) → ∃ s', exec (.migrationDone die) s = .next s' ∧ (s'.mdie die).mig = none ∧
        (s'.mdie die).migctl.getLsbD 31 = false ∧ (s'.mdie die).migctl.getLsbD 30 = true ∧ s'.blocks = s.blocks ∧
        (l = 1 → s.mem.wf = true → s.planeOff b = false → s.mdPath die (dieCode b) = true →
          ∀ k < 65536, cellRead s'.mem.dev (b + k) = cellRead s.mem.dev (a + k))

/-- The events of the service pairs. An enabled interrupt is taken at the pair's own position: cause with bit 31 and its code, IE
cleared, pc at the vector; CLKCMP without its enable only stays pending. A heartbeat reaches every other pair that has started
and clears its count; a silent period counts, and the third makes HEARTBEAT_LOST pending and holds a silent pair that does not
lead in reset. The candidate claims the next epoch, leads, and enters supervisor level at the registered entry; a pair follows
a higher claim (spec/18 R367, R370, R374, R391, R392). -/
def Obligations.ServiceEvents : Prop :=
  ∀ (s : State) (k : Nat), k < 14 → s.pairRuns k = true →
    let c := 320 + k
    let t : Tid := ⟨svcHandle k, 0⟩
    let v := s.svc k
    let th := s.thread t
    s.has t = true → th.status = .live → th.waitOp = none →
    let sup := fun (s' : State) (code : Nat) =>
      let v' := s'.svc k
      v'.sepc = th.pc ∧ v'.scause = BitVec.ofNat 32 (2 ^ 31 + code * 2 ^ 16 + th.skipMask.toNat) ∧ v'.stval = 0 ∧
      v'.sstat.extractLsb' 0 4 = 6#4 ∧ (s'.thread t).pc = v.stvec ∧ (s'.thread t).level = .sup ∧ (s'.thread t).x = th.landPend.x
    let firm := fun (s' : State) (code val : Nat) =>
      let v' := s'.svc k
      v'.fepc = th.pc ∧ v'.fcause = BitVec.ofNat 32 (2 ^ 31 + code * 2 ^ 16 + th.skipMask.toNat) ∧ v'.ftval = BitVec.ofNat 64 val ∧
      v'.fstat.getLsbD 0 = false ∧ v'.fstat.getLsbD 1 = true ∧ (s'.thread t).pc = v.ftvec ∧ (s'.thread t).level = .fw ∧
      (s'.thread t).x = th.landPend.x
    (v.leads k = true → s.svcPend.isSome = true → v.irq.testBit 2 = true → v.sie.getLsbD 2 = true → v.sstat.getLsbD 0 = true → th.level = .sup → v.stvec ≠ 0 →
      ∃ s', exec (.svcreqEntry c) s = .next s' ∧ sup s' 0x1A) ∧
    (v.clkcmp.toNat ≤ s.now c → (v.irq.testBit 3 = true → v.sie.getLsbD 3 = true → v.sstat.getLsbD 0 = true → th.level = .sup → v.stvec ≠ 0 →
        ∃ s', exec (.clkcmpMatch c) s = .next s' ∧ sup s' 0x1B) ∧
      (v.irq.testBit 3 = false ∨ v.sie.getLsbD 3 = false ∨ v.sstat.getLsbD 0 = false → exec (.clkcmpMatch c) s = .next s) ∧ s.sip k / 8 = 1) ∧
    (v.linkPend = true → v.fstat.getLsbD 0 = true → v.fstat.getLsbD 4 = true →
      ∃ s', exec (.linkEventEntry c) s = .next s' ∧ firm s' 0x18 (s.lowEvent k) ∧ (s'.svc k).linkPend = false) ∧
    (v.hbAt + v.beatPer ≤ s.now c → v.hbPend = false → ∃ s', exec (.heartbeatSend c) s = .next s' ∧
      (s'.svc k).hbAt = s.now c ∧ s'.blocks = s.blocks ∧ ∀ j < 14, j ≠ k →
        if (s.svc j).started then (s'.svc j).heard.find k = some (s.now (320 + j)) ∧ (s'.svc j).missed.find k = some 0
        else s'.svc j = s.svc j) ∧
    (∀ j, j < 14 → j ≠ k → (s.svc j).started = true → v.hbPend = false → v.heard.getD j 0 + 2 * v.beatPer ≤ s.now c →
      let n := v.missed.getD j 0 + 1
      (n ≠ 3 → ∃ s', exec (.heartbeatMissed c j) s = .next s' ∧ (s'.svc k).missed.find j = some n ∧ (s'.svc k).hbPend = false ∧
        s'.svc j = s.svc j) ∧
      (n = 3 → v.fstat.getLsbD 0 = false → ∃ s', exec (.heartbeatMissed c j) s = .next s' ∧ (s'.svc k).hbPend = true ∧
        (s'.svc k).silent = j ∧ (s'.svc j).inReset = ((s.svc j).inReset || j != v.leadSlot)) ∧
      (n = 3 → v.fstat.getLsbD 0 = true → v.fstat.getLsbD 5 = true → ∃ s', exec (.heartbeatMissed c j) s = .next s' ∧
        firm s' 0x19 j ∧ (s'.svc k).hbPend = false)) ∧
    (s.candidate k = true → v.epoch + 1 < 2 ^ 24 → ∃ s', exec (.takeover k) s = .next s' ∧ (s'.svc k).epoch = v.epoch + 1 ∧
      (s'.svc k).leadSlot = k ∧ (s'.svc v.leadSlot).inReset = true ∧ (s'.svc k).scause = 0x80190000 ∧
      (s'.svc k).stval = BitVec.ofNat 64 ((v.epoch + 1) * 2 ^ 8) ∧ (s'.svc k).stvec = v.entry ∧ (s'.thread t).pc = v.entry ∧
      (s'.thread t).level = .sup) ∧
    ∀ a, a < 14 → a ≠ k → (s.svc a).leads a = true → (∀ b, b < 14 → b ≠ k → (s.svc b).leads b = true → b = a ∨ s.claimOver a b = true) →
      (∀ b, b < 14 → b ≠ k → b ≠ a → (s.svc b).leads b = true → s.claimOver b a = false) →
      v.epoch < (s.svc a).epoch → ∃ s', exec (.leaderClaim k) s = .next s' ∧ (s'.svc k).epoch = (s.svc a).epoch ∧
        (s'.svc k).leadSlot = a ∧ (s'.svc k).leads k = false ∧ ∀ j, j ≠ k → s'.svc j = s.svc j

/-- The events of a link between two dies. A failed flit is resent and counted; a lane's error is recorded and raises LANE; PAUSE and
RETRAIN take an ACTIVE link into DRAIN, RETRAIN a PAUSED or FAILED one into TRAIN, clearing the last PAUSE a PAUSED one to ACTIVE;
a drain ends in TRAIN, PAUSED or ACTIVE; training ends in ACTIVE or PAUSED with the width and map asked for, or in FAILED with the
FAIL event at both ends (spec/19 R399, R400, R402). -/
def Obligations.LinkEvents : Prop :=
  ∀ (s : State) (k : Nat), isLinkEnd k = true → s.fw.pkgSusp = false →
    let j := linkOther k
    let l := s.link? k
    let m := s.link? j
    let both := fun (s' : State) (st : LState) => SameValues s s' ∧ (s'.link? k).state = st ∧ (s'.link? j).state = st
    (l.state ∈ [LState.train, .active, .drain, .paused] →
      ∃ s', exec (.flitCrcRetry k) s = .next s' ∧ SameValues s s' ∧
        (s'.link? k).retry = (if l.retry = 0xFFFFFFFF then l.retry else l.retry + 1) ∧
        (l.fails < 15 → (s'.link? k).state = l.state ∧ (s'.link? j).state = m.state) ∧
        (l.clk < l.winAt + l.window → l.win + 1 = l.thr.toNat / 2 ^ 16 → (s'.link? k).evt.getLsbD 0 = true)) ∧
    (∀ lane < 68, l.state ≠ .down → ∃ s', exec (.laneError k lane) s = .next s' ∧ SameValues s s' ∧ (s'.link? k).lasterr = lane ∧
      (s'.link? k).evt.getLsbD 1 = true ∧ (l.evt.getLsbD 1 = false → (s'.svc (k / 256)).linkPend = true) ∧
      (lane < 64 → (s'.link? k).derr.getLsbD lane = true ∧ (s'.link? k).serr = l.serr) ∧
      (64 ≤ lane → (s'.link? k).serr.getLsbD (lane - 64) = true ∧ (s'.link? k).derr = l.derr)) ∧
    (l.pause = false → l.state = .active → l.twidth < 4 → ∃ s', exec (.lkctlPauseSet k) s = .next s' ∧ both s' .drain ∧
      (s'.link? k).pause = true) ∧
    (l.pause = true → l.retrain = false → l.state = .paused → l.twidth < 4 → ∃ s', exec (.lkctlPauseClear k) s = .next s' ∧
      (s'.link? k).pause = false ∧ (m.pause = false → both s' .active) ∧ (m.pause = true → (s'.link? k).state = .paused)) ∧
    (l.retrain = false → l.twidth < 4 → ∃ s', exec (.lkctlRetrain k) s = .next s' ∧ (s'.link? k).retrain = true ∧
      (l.state = .active → both s' .drain) ∧ (l.state = .paused ∨ l.state = .failed → both s' .train)) ∧
    (l.state = .drain → ∃ s', exec (.linkDrainComplete k) s = .next s' ∧
      both s' (if l.retrain || m.retrain then .train else if l.pause || m.pause then .paused else .active)) ∧
    (l.state = .train → let w := s.link? (s.trainEnd k)
      ∃ s', exec (.linkTrainComplete k) s = .next s' ∧ both s' (if l.pause || m.pause then .paused else .active) ∧
        ∀ e ∈ [k, j], (s'.link? e).width = w.twidth ∧ (s'.link? e).map = w.remap ∧ (s'.link? e).retrain = false) ∧
    (l.state = .train → ∃ s', exec (.linkTrainFail k) s = .next s' ∧ both s' .failed ∧
      ∀ e ∈ [k, j], (s'.link? e).evt.getLsbD 2 = true ∧ (m.state = .train → (s'.link? e).retrain = false))

/-- What comes from outside the package: accesses of hosts and the display; contributions to an in-switch reduction, whose sum
the last one sends on; power-up, the loading of a bundle, the switch of banks, attestation; suspend and resume (spec/09 R199,
spec/19 R404 to R410). -/
def Obligations.OutsideEvents : Prop :=
  ∀ s : State, (exec .packagePowerUp s = .next { State.reset with
      agenda := s.agenda, free := s.free, nextId := s.nextId, order := s.order, outs := s.outs
      pkg := { State.reset.pkg with pkgNo := s.pkg.pkgNo, podNo := s.pkg.podNo } }) ∧
    (s.fw.pkgSusp = true → ∃ s', exec .packageResume s = .next s' ∧ SameValues s s' ∧ s'.fw.pkgSusp = false ∧
      s'.pkg.suspended = s.fw.sysSusp ∧ ∀ u, (s'.thread u).pc = (s.thread u).pc) ∧
    (s.fw.pkgSusp = false →
      (s.fw.sysSusp = true → ∃ s', exec .systemResume s = .next s' ∧ SameValues s s' ∧ s'.fw.sysSusp = false ∧
        s'.pkg.suspended = false ∧ s'.ops = s.ops) ∧
      (∀ len, len < 2 ^ 64 →
        let s2 := s.homeWrite (cellsAt (s.bootBase + bootBytes - 8) 8 len) [] []
        ∃ s', exec (.bundleLengthWrite len) s = .next s' ∧ s'.fw.status = s2.bundleStatus len ∧
          (∀ u, (s'.thread u).arch = (s.thread u).arch) ∧
          (bootBytes - 8 < len → s'.fw.status = 4) ∧
          (s2.bundleStatus len ≠ 1 → s'.fw.loaded = s.fw.loaded ∧ s'.fw.banks = s.fw.banks ∧ s'.svcs = s.svcs) ∧
          (s2.bundleStatus len = 1 → s.fw.loaded = false → s'.fw.loaded = true ∧ s'.fw.active = 0 ∧
            s'.fw.banks = [some (s2.bundleVersion len), none] ∧ s'.fw.rollback = s2.bundleVersion len ∧
            ∀ k < 14, (s'.svc k).started = true ∧ (s'.svc k).epoch = 1 ∧ (s'.svc k).leadSlot = 0) ∧
          (s2.bundleStatus len = 1 → s.fw.loaded = true → s'.fw.banks = s.fw.banks.set (1 - s.fw.active) (some (s2.bundleVersion len)) ∧
            s'.fw.active = s.fw.active ∧ s'.fw.rollback = s.fw.rollback)) ∧
      (∀ a data, s.fw.loaded = false → data.length = 8 → a = s.bootBase + bootBytes - 8 →
        ∃ s', exec (.hostAccess (.store a data) false) s = .next s' ∧ s'.outs = s.outs ++ [.hostOk a] ∧
          (bootBytes - 8 < ofBytes data → s'.fw.status = 4)) ∧
      (∀ a n, s.fw.loaded = false → exec (.hostAccess (.load a n) false) s = .next { s with outs := s.outs ++ [.hostErr a] }) ∧
      (s.fw.loaded = true →
        (∀ a n, s.hostReach a n = true → s.planeOff a = false → (∀ x ∈ secsOf a n, s.homePoison x = false) → s.roomy (n + 128) →
          ∃ s', exec (.hostAccess (.load a n) true) s = .next s' ∧ SameValues s s' ∧
            s'.outs = s.outs ++ [.hostLoad a ((List.range n).map fun i => s.homeByte (a + i))]) ∧
        (∀ a data nodir, s.hostReach a data.length = true → s.capturing = false → s.replaying = false → s.roomy (data.length + 128) →
          (∀ i < data.length, s.planeOff (a + i) = false) →
          ∃ s', exec (.hostAccess (.store a data) nodir) s = .next s' ∧ s'.outs = s.outs ++ [.hostOk a] ∧
            s'.blocks = s.blocks ∧ ∀ i < data.length, some (s'.homeByte (a + i)) = data[i]?) ∧
        (∀ a s64 op b cmp, let n := if s64 then 8 else 4
          let old := (s.recall (a / 64)).homeRead a n
          s.hostReach a n = true → a % n = 0 → s.capturing = false → s.replaying = false → (∀ i < n, s.planeOff (a + i) = false) →
          (s.recall (a / 64)).homePoison (a / 64) = false → s.roomy 64 →
          ∃ s', exec (.hostAccess (.atomic a s64 op b cmp) false) s = .next s' ∧ s'.outs = s.outs ++ [.hostLoad a (bytesOf n old)] ∧
            (atomWrites op old cmp.toNat = true → ∀ i < n, s'.homeByte (a + i) =
              BitVec.ofNat 8 (atomNew n op old b.toNat cmp.toNat / 2 ^ (8 * i)))) ∧
        (∀ a n, s.hostReach a n = false → exec (.hostAccess (.load a n) true) s = .next { s with outs := s.outs ++ [.hostErr a] }) ∧
        (∀ a n, s.hostReach a n = true → s.planeOff a = false → (∀ x ∈ secsOf a n, x ∉ s.mem.devPoison) →
          exec (.displayScanout a n) s = .next { s with
            outs := s.outs ++ [.frame a ((List.range n).map fun i => cellRead s.mem.dev (a + i))] }) ∧
        (∀ nonce < 2 ^ 48, exec (.attestationRequest nonce) s = .next { s with
          outs := s.outs ++ [.report nonce s.fw.banks s.fw.active s.fw.rollback (Config.report nonce)] }) ∧
        (∀ v, s.fw.banks.getD (1 - s.fw.active) none = some v →
          (∀ k < 14, (s.svc k).depth = 0 ∧ s.wakes k = false ∧ s.pairBusy k = false) →
          (s.fw.rollback ≤ v → exec .bankSwitch s = .next { s with fw := { s.fw with active := 1 - s.fw.active, rollback := v } }) ∧
          (v < s.fw.rollback → exec .bankSwitch s = .next s)) ∧
        (s.pkg.suspended = false → ∃ s', exec .packageSuspend s = .next s' ∧ SameValues s s' ∧ s'.pkg.suspended = true ∧
          ∀ u, isSvc (s'.block u.blk).core = false → s'.runs u = false) ∧
        (s.pkg.suspended = true → s.landAll.drainedAll = true → s.landAll.linksMoving = false →
          ∃ s', exec .packageSuspend s = .next s' ∧ s'.fw.pkgSusp = true ∧ (∀ u, s'.runs u = false) ∧
            ∀ k, isLinkEnd k = true → (s.link? k).state = .active → (s'.link? k).state = .paused) ∧
        (s.fw.sysSusp = false → ∃ s', exec .systemSuspend s = .next s' ∧ s'.fw.sysSusp = true ∧ s'.pkg.suspended = true ∧
          s'.fabric.reds = []))) ∧
    ∀ (grp src : Nat) (data : List Byte) (bad : List Nat), s.fw.pkgSusp = false → s.fw.sysSusp = false → src ≠ s.pkg.pkgNo →
      let run := exec (.reductionContribution grp src ⟨data, bad⟩) s
      let rest := s.fabric.reds.filter (·.id != grp)
      (s.fabric.reds.find? (·.id == grp) = none → ∃ s' r, run = .next s' ∧ SameValues s s' ∧ s'.fabric.reds = rest ++ [r] ∧
        r.id = grp ∧ r.got = [(src, data)] ∧ r.bad = bad) ∧
      (∀ r, s.fabric.reds.find? (·.id == grp) = some r → (∀ p ∈ r.got, p.1 ≠ src) → r.got.length + 1 = redMembers grp →
        data.length = Config.redLength grp → (∀ p ∈ r.got, p.2.length = data.length) → s.redPuts grp = [] →
        (grp / 2 ^ 12 ≠ s.pkg.pkgNo → ∃ s', run = .next s' ∧ SameValues s s' ∧ s'.fabric.reds = rest ∧ s'.ops = s.ops) ∧
        (grp / 2 ^ 12 = s.pkg.pkgNo → s.fabric.posts = [] → s.inboundOp s.pkg.podNo src (grp % 2 ^ 12) s.order = none →
          ∃ s' o, run = .next s' ∧ SameValues s s' ∧ s'.fabric.reds = rest ∧ s'.ops = s.ops ++ [o] ∧
            o.kind = .inbound s.pkg.podNo src (grp % 2 ^ 12) s.order (redSum (Config.redFloat grp) (r.got ++ [(src, data)])) (r.bad ++ bad))) ∧
      (s.fabric.reds.any (·.id == grp) = true → s.redPuts grp = [] → ∃ s', exec (.reductionTimeout grp) s = .next s' ∧
        SameValues s s' ∧ s'.fabric.reds = rest ∧ s'.ops = s.ops)

/-! ### The machine as a whole -/

/-- The state after power-up: every memory is in the model's canonical form and lists nothing (log 3); every compute die serves
partition P; every page is SHARED; no pair has started and no firmware is loaded; the registers named, to which the spec gives
a reset value, hold it (FSTAT and FCAUSE as SSTAT and SCAUSE, log 47) (spec/01 R26, spec/09 R183, spec/12 R252, spec/15 R320,
spec/16 R333, R338, spec/18 R367, R371 to R374, R389, R393, spec/19 R402, R406). -/
def Obligations.ResetState : Prop :=
  let s := State.reset
  s.memWf = true ∧ s.gridnextOk = true ∧ s.mem.dev = [] ∧ s.grids = [] ∧ s.ops = [] ∧ s.fw.loaded = false ∧
  (∀ k < 14, (s.svc k).started = false) ∧
  (∀ d < 8, (s.die d).partT = false) ∧ s.csrRead 320 .partcfg = 0 ∧
  (∀ pa, s.ownerOf pa = .shared) ∧
  s.csrRead 320 .gridnext = 1 ∧ s.csrRead 320 .capctl = 0 ∧
  (∀ q, s.csrRead 320 (.qctl q) = 0) ∧
  (∀ k, 320 ≤ k → k < 334 → s.csrRead k .hbper = 2000000 ∧ s.csrRead k .sstat = 4 ∧ s.csrRead k .fstat = 4 ∧
    s.csrRead k .scause = 0 ∧ s.csrRead k .fcause = 0) ∧
  (∀ c < 320, s.csrRead c .copylim = 0x01000000 ∧ s.csrRead c .prelim = 400000 ∧ s.csrRead c .strcfg = 13 * 2 ^ 8 + 16 ∧
    s.csrRead c .cslimq = 1024 ∧ s.csrRead c .cslimd = 4096) ∧
  (∀ k < 6, s.csrRead (328 + k) (.qoscls 0) = 0xFFFF24C0 ∧ ∀ c : Fin 7, c ≠ 0 → s.csrRead (328 + k) (.qoscls c) = 0xFFFF2440) ∧
  ∀ k, let l := s.link? k
    l.read 0x00 = 0x4400FF00 ∧ l.read 0x08 = 0 ∧ l.read 0x10 = 0 ∧ l.read 0x18 = 0 ∧ l.read 0x20 = 0x004003E8 ∧ l.read 0x28 = 0 ∧
    l.read 0x30 = 0 ∧ l.read 0x38 = 0

/-- A step runs the decoded instruction. Writes that are due land first; then the head of the agenda happens. Where it issues a
word and the issue logic may choose that word's entry, the step is `exec` of the instruction on the threads it selects: each holds
the word as an eligible one, and no entry of its class that holds a thread comes before theirs. A thread with an empty window takes
the eight bytes at the translated address of its pc, lowest address first, as it sees them, and where they decode to `i`, and it is
the one thread of its core with an eligible word, the step is `exec i` of that thread. An event is `exec` of the event. A clock
passes on the islands named where no event is due and no word is owed, and no step otherwise; what BARN, MQRY and STRQ show is kept
for 1,024 clocks (spec/02 R32 to R34, R52, R56, spec/03 R65 to R67; the agenda is the model's, log 1). -/
def Obligations.StepRunsTheReadyWord : Prop :=
  ∀ (s : State) (r : List Turn),
    let q : State := { s.landAll with agenda := r }
    (s.landAll.agenda = [] →
      (∀ i, s.landAll.due [] = some i → step s = exec i s.landAll.retryHeld) ∧
      (s.landAll.due [] = none → s.landAll.nextIssue = none → step s = s.landAll.tickAll [] 1) ∧
      ∀ g, s.landAll.due [] = none → s.landAll.nextIssue = some g → step s = s.landAll.issueWith exec g) ∧
    (∀ n who, s.landAll.agenda = .tick n who :: r → step s = q.tickAll who n) ∧
    (∀ who, s.fw.pkgSusp = false →
      (s.mayTick who = true → ∃ s', s.tickAll who 1 = .next s' ∧
        (∀ b ∈ s.blocks, s'.now b.2.core = s.now b.2.core + if inTick who b.2.core then 1 else 0) ∧
        s'.past.getLast? = some s.shown ∧
        (∀ p ∈ s'.past, p = s.shown ∨ (p ∈ s.past ∧ ∃ k ∈ p.clks, s.now k.1 < k.2 + 1024)) ∧
        ∀ p ∈ s.past.dropLast, (∃ k ∈ p.clks, s.now k.1 < k.2 + 1024) → p ∈ s'.past) ∧
      ((s.due who).isSome = true ∨ (∃ b ∈ s.blocks, inTick who b.2.core = true ∧ s.owes b.2.core = true) →
        s.tickAll who 1 = .refused (.notEnabled "TICK"))) ∧
    (∀ i, s.landAll.agenda = .event i :: r → i.isWord = false → step s = exec i q.retryHeld) ∧
    (∀ i, s.landAll.agenda = .event i :: r → i.isWord = true → step s = .refused .notAnEvent) ∧
    ∀ g, s.landAll.agenda = .issue g :: r →
      let p := q.prepare g
      (∀ t w i, p.leads g = some (t, .go w i) →
        let ts := p.select g.core (p.kern t, g.pc.toNat) i
        (ts ≠ [] → step s = exec i { p with cur := { core := g.core, pc := g.pc, tids := ts } }) ∧
        (ts = [] → step s = .refused (.notEnabled "ISSUE")) ∧
        ∀ u ∈ ts, ∃ k ∈ p.cands g.core, k.t = u ∧ k.pc = g.pc ∧ k.i = i ∧
          ∃ e ∈ entriesOf (p.choices g.core i.cls).1, e.key = k.key ∧
            ∀ e' ∈ entriesOf (p.choices g.core i.cls).1, e'.before e = false) ∧
      ∀ t pa i, q.groupOf g = [t] →
        let b := q.block t.blk
        let th := q.thread t
        let w := BitVec.ofNat 64 (ofBytes ((List.range 8).map fun k => q.codeByte th.iseen (pa + k)))
        th.win = [] → th.lbuf = [] → th.pc = g.pc → q.gAccess b.core b th.level g.pc 8 .x false = .ok pa → q.cut b.core pa = false →
        (∀ x ∈ secsOf pa 8, q.homePoison x = false) →
        ((∀ e ∈ q.mem.old, e.1 ≤ th.iseen) → ∀ k < 8, w.extractLsb' (8 * k) 8 = q.homeByte (pa + k)) ∧
        (p.thread t).win = [{ word := some w }] ∧
        (decodeFor b.core b.regs th.level w = .ok i →
          (b.regs ≤ 191 → decode w = .ok i) ∧ i.isWord = true ∧
          (p.runs t = true → th.trap = none → th.heldAt ≠ some (g.pc, p.now b.core) → p.mayIssue t g.pc i = true → i.gathers = false →
            (∃ k, p.cands g.core = [k] ∧ k.t = t ∧ k.pc = g.pc ∧ k.i = i) →
            step s = exec i { p with cur := { core := g.core, pc := g.pc, tids := [t] } }))

/-- Decoding undoes encoding: every well-formed instruction word decodes to itself from its encoding, whatever its operands and
header; and a word that decodes is the encoding of a well-formed instruction (spec/02 R31, R42, R47 to R50, R52). -/
def Obligations.EncodeDecode : Prop :=
  (∀ (i : Instr) (w : BitVec 64), i.wf = true → encode i = some w → decode w = .ok i) ∧
  (∀ (i : Instr), (encode i).isSome = i.isWord) ∧
  ∀ (w : BitVec 64) (i : Instr), decode w = .ok i → i.wf = true ∧ encode i = some w

/-- An invariant of every step, from every state and whatever the agenda holds: the memory devices and every scratchpad keep their
canonical form (the model's, log 3), and GRIDNEXT is neither 0 nor has bit 31 set (spec/18 R367, R390). -/
def Obligations.StepKeepsForm : Prop :=
  ∀ s s' : State, s.memWf = true → s.gridnextOk = true → steps s s' → s'.memWf = true ∧ s'.gridnextOk = true

/-- Words whose bits the spec writes out decode to the instructions they stand for, and two that it rejects are rejected by name
(spec/02 R31, R47, R52, spec/03 R79 and the worked encodings of spec/05 to spec/18). -/
def Obligations.DecodeWords : Prop :=
  let p7 : Hdr := ⟨0, 7, false⟩
  let x := Reg.x
  let g := Reg.g
  (decode 0x00000780FFFFFF40 = .ok (.bra p7 (-3))) ∧
  (decode 0x0000178041400003 = .ok (.loop p7 1 (x 5) 3)) ∧
  (decode 0x0010038000000000 = .ok (.nop { p7 with idle := 4 })) ∧
  (decode 0x10107781B0010002 = .ok (.lea { p7 with idle := 4 } (x 6) (g 0) (x 4) 2 false)) ∧
  (decode 0x20000F82804080C0 = .ok (.ffma p7 (x 10) (x 1) (x 2) (x 3) .rn false false false false)) ∧
  (decode 0x20004F8102AFEFC3 = .ok (.cvtpk p7 (x 4) (x 10) .xz .xz 3)) ∧
  (decode 0x3000278141300000 = .ok (.tlu p7 (x 5) (x 4) (g 0))) ∧
  (decode 0x4000078141190100 = .ok (.xrdi p7 (x 5) (x 4) .xor .zero (.w 1))) ∧
  (decode 0x50001B8201801010 = .ok (.ldg p7 (x 8) (x 6) 64 .b32)) ∧
  (decode 0x600003800000001B = .ok (.fence p7 .sc .pkg)) ∧
  (decode 0x60001B80AFC00011 = .ok (.bar p7 2 .xz 0 false .quad 1)) ∧
  (decode 0x700007B2B306110C = .ok (.cpt p7 (g 10) (g 12) ⟨3, 1, 2, 3⟩ .e4)) ∧
  (decode 0x800003840C8A4294 = .ok (.mma p7 (x 16) 3 2 ⟨5, 4, 5, 5⟩ false)) ∧
  (decode 0x90000B8201800000 = .ok (.accrd p7 (x 8) (x 6) .f32)) ∧
  (decode 0xA0000FB30000000A = .ok (.winacq p7 (g 12) true 2)) ∧
  (decode 0xB000038000000005 = .ok (.trap p7 5)) ∧
  (decode 0xC00003806FC007D0 = .ok (.fill p7 .v .xz 2000)) ∧
  (decode 0xD00003B4330A4294 = .ok (.pgive p7 (g 16) (g 12) ⟨5, 4, 5, 5⟩ false false)) ∧
  (decode 0xE000000000000000 = .error .illegalClass) ∧
  (decode 0x20000F82804080C8 = .error .illegalReg)
end

