-- ==== Sys2Proof/Laws/Tab.lean ====
section
/-!
SUPPORT. Laws/Tab.lean: reading a table after a write. No order of the keys is needed: `find` reads the first entry of
a key, and `put` and `upd` change that one.
-/

namespace Sys2Proof

variable {α : Type}

@[simp] theorem Tab.find_nil (n : Nat) : Tab.find ([] : Tab α) n = none := rfl

theorem Tab.find_cons (k : Nat) (v : α) (t : Tab α) (n : Nat) :
    Tab.find ((k, v) :: t) n = if k = n then some v else Tab.find t n := rfl

@[simp] theorem Tab.find_put_self (t : Tab α) (n : Nat) (v : α) : (Tab.put t n v).find n = some v := by
  induction t with
  | nil => simp [Tab.put, Tab.find]
  | cons p t ih =>
    simp only [Tab.put]
    split
    · simp [Tab.find]
    · split
      · simp [Tab.find]
      · rename_i h1 h2
        simp [Tab.find, Ne.symm h2, ih]

theorem Tab.find_put_ne (t : Tab α) {n m : Nat} (v : α) (h : m ≠ n) : (Tab.put t n v).find m = t.find m := by
  induction t with
  | nil => simp [Tab.put, Tab.find, Ne.symm h]
  | cons p t ih =>
    simp only [Tab.put]
    split
    · simp [Tab.find, Ne.symm h]
    · split
      · rename_i h1 h2
        subst h2
        simp [Tab.find, Ne.symm h]
      · simp [Tab.find, ih]

theorem Tab.find_put (t : Tab α) (n m : Nat) (v : α) : (Tab.put t n v).find m = if m = n then some v else t.find m := by
  split
  · subst m; simp
  · exact Tab.find_put_ne t v ‹_›

theorem Tab.find_upd_self (t : Tab α) (n : Nat) (f : α → α) : (Tab.upd f t n).find n = (t.find n).map f := by
  induction t with
  | nil => rfl
  | cons p t ih =>
    simp only [Tab.upd]
    split
    · rename_i h; simp [Tab.find, h]
    · rename_i h; simp [Tab.find, h, ih]

theorem Tab.find_upd_ne (t : Tab α) {n m : Nat} (f : α → α) (h : m ≠ n) : (Tab.upd f t n).find m = t.find m := by
  induction t with
  | nil => rfl
  | cons p t ih =>
    simp only [Tab.upd]
    split
    · rename_i hk; subst hk; simp [Tab.find, Ne.symm h]
    · simp [Tab.find, ih]

theorem Tab.find_upd (t : Tab α) (n m : Nat) (f : α → α) :
    (Tab.upd f t n).find m = if m = n then (t.find n).map f else t.find m := by
  split
  · subst m; exact Tab.find_upd_self t n f
  · exact Tab.find_upd_ne t f ‹_›

@[simp] theorem Tab.getD_put_self (t : Tab α) (n : Nat) (v d : α) : (Tab.put t n v).getD n d = v := by
  simp [Tab.getD]

theorem Tab.getD_put (t : Tab α) (n m : Nat) (v d : α) :
    (Tab.put t n v).getD m d = if m = n then v else t.getD m d := by
  simp only [Tab.getD, Tab.find_put]
  split <;> rfl

theorem Tab.getD_put_ne (t : Tab α) {n m : Nat} (v d : α) (h : m ≠ n) : (Tab.put t n v).getD m d = t.getD m d := by
  simp [Tab.getD_put, h]

theorem Tab.getD_upd_ne (t : Tab α) {n m : Nat} (f : α → α) (d : α) (h : m ≠ n) :
    (Tab.upd f t n).getD m d = t.getD m d := by
  simp [Tab.getD, Tab.find_upd, h]

/-- A change at a listed key reads as the change of what was there. -/
theorem Tab.getD_upd_self (t : Tab α) (n : Nat) (f : α → α) (d : α) (h : (t.find n).isSome = true) :
    (Tab.upd f t n).getD n d = f (t.getD n d) := by
  cases hf : t.find n with
  | none => simp [hf] at h
  | some v => simp [Tab.getD, Tab.find_upd, hf]

/-- A change that keeps a projection keeps it at every key. -/
theorem Tab.getD_upd_proj {β : Type} (t : Tab α) (n m : Nat) (f : α → α) (d : α) (g : α → β) (h : ∀ v, g (f v) = g v) :
    g ((Tab.upd f t n).getD m d) = g (t.getD m d) := by
  by_cases e : m = n
  · subst e
    cases hf : t.find m with
    | none => simp [Tab.getD, Tab.find_upd, hf]
    | some v => simp [Tab.getD, Tab.find_upd, hf, h]
  · rw [Tab.getD_upd_ne t f d e]

@[simp] theorem Tab.find_upd_isSome (t : Tab α) (n m : Nat) (f : α → α) :
    ((Tab.upd f t n).find m).isSome = (t.find m).isSome := by
  rw [Tab.find_upd]
  split
  · subst m; simp
  · rfl

end Sys2Proof
end

