-- ==== Sys2Proof/Laws/State.lean ====
section
/-!
SUPPORT. Laws/State.lean: what every named update of the state leaves alone, one lemma a field, and what it makes of
the part it changes.
-/

namespace Sys2Proof.Machine

variable (s : State)

@[simp] theorem State.modCore_cur (c : Nat) (f : Core → Core) : (s.modCore c f).cur = s.cur := rfl
@[simp] theorem State.modCore_agenda (c : Nat) (f : Core → Core) : (s.modCore c f).agenda = s.agenda := rfl
@[simp] theorem State.modCore_free (c : Nat) (f : Core → Core) : (s.modCore c f).free = s.free := rfl
@[simp] theorem State.modCore_nextId (c : Nat) (f : Core → Core) : (s.modCore c f).nextId = s.nextId := rfl
@[simp] theorem State.modCore_order (c : Nat) (f : Core → Core) : (s.modCore c f).order = s.order := rfl
@[simp] theorem State.modCore_quads (c : Nat) (f : Core → Core) : (s.modCore c f).quads = s.quads := rfl
@[simp] theorem State.modCore_dies (c : Nat) (f : Core → Core) : (s.modCore c f).dies = s.dies := rfl
@[simp] theorem State.modCore_mdies (c : Nat) (f : Core → Core) : (s.modCore c f).mdies = s.mdies := rfl
@[simp] theorem State.modCore_svcs (c : Nat) (f : Core → Core) : (s.modCore c f).svcs = s.svcs := rfl
@[simp] theorem State.modCore_blocks (c : Nat) (f : Core → Core) : (s.modCore c f).blocks = s.blocks := rfl
@[simp] theorem State.modCore_grids (c : Nat) (f : Core → Core) : (s.modCore c f).grids = s.grids := rfl
@[simp] theorem State.modCore_ops (c : Nat) (f : Core → Core) : (s.modCore c f).ops = s.ops := rfl
@[simp] theorem State.modCore_mem (c : Nat) (f : Core → Core) : (s.modCore c f).mem = s.mem := rfl
@[simp] theorem State.modCore_pkg (c : Nat) (f : Core → Core) : (s.modCore c f).pkg = s.pkg := rfl
@[simp] theorem State.modCore_links (c : Nat) (f : Core → Core) : (s.modCore c f).links = s.links := rfl
@[simp] theorem State.modCore_fabric (c : Nat) (f : Core → Core) : (s.modCore c f).fabric = s.fabric := rfl
@[simp] theorem State.modCore_fw (c : Nat) (f : Core → Core) : (s.modCore c f).fw = s.fw := rfl
@[simp] theorem State.modCore_outs (c : Nat) (f : Core → Core) : (s.modCore c f).outs = s.outs := rfl
@[simp] theorem State.modCore_past (c : Nat) (f : Core → Core) : (s.modCore c f).past = s.past := rfl

@[simp] theorem State.modQuad_cur (q : Nat) (f : Quad → Quad) : (s.modQuad q f).cur = s.cur := rfl
@[simp] theorem State.modQuad_agenda (q : Nat) (f : Quad → Quad) : (s.modQuad q f).agenda = s.agenda := rfl
@[simp] theorem State.modQuad_free (q : Nat) (f : Quad → Quad) : (s.modQuad q f).free = s.free := rfl
@[simp] theorem State.modQuad_nextId (q : Nat) (f : Quad → Quad) : (s.modQuad q f).nextId = s.nextId := rfl
@[simp] theorem State.modQuad_order (q : Nat) (f : Quad → Quad) : (s.modQuad q f).order = s.order := rfl
@[simp] theorem State.modQuad_cores (q : Nat) (f : Quad → Quad) : (s.modQuad q f).cores = s.cores := rfl
@[simp] theorem State.modQuad_dies (q : Nat) (f : Quad → Quad) : (s.modQuad q f).dies = s.dies := rfl
@[simp] theorem State.modQuad_mdies (q : Nat) (f : Quad → Quad) : (s.modQuad q f).mdies = s.mdies := rfl
@[simp] theorem State.modQuad_svcs (q : Nat) (f : Quad → Quad) : (s.modQuad q f).svcs = s.svcs := rfl
@[simp] theorem State.modQuad_blocks (q : Nat) (f : Quad → Quad) : (s.modQuad q f).blocks = s.blocks := rfl
@[simp] theorem State.modQuad_grids (q : Nat) (f : Quad → Quad) : (s.modQuad q f).grids = s.grids := rfl
@[simp] theorem State.modQuad_ops (q : Nat) (f : Quad → Quad) : (s.modQuad q f).ops = s.ops := rfl
@[simp] theorem State.modQuad_mem (q : Nat) (f : Quad → Quad) : (s.modQuad q f).mem = s.mem := rfl
@[simp] theorem State.modQuad_pkg (q : Nat) (f : Quad → Quad) : (s.modQuad q f).pkg = s.pkg := rfl
@[simp] theorem State.modQuad_links (q : Nat) (f : Quad → Quad) : (s.modQuad q f).links = s.links := rfl
@[simp] theorem State.modQuad_fabric (q : Nat) (f : Quad → Quad) : (s.modQuad q f).fabric = s.fabric := rfl
@[simp] theorem State.modQuad_fw (q : Nat) (f : Quad → Quad) : (s.modQuad q f).fw = s.fw := rfl
@[simp] theorem State.modQuad_outs (q : Nat) (f : Quad → Quad) : (s.modQuad q f).outs = s.outs := rfl
@[simp] theorem State.modQuad_past (q : Nat) (f : Quad → Quad) : (s.modQuad q f).past = s.past := rfl

@[simp] theorem State.modDie_cur (d : Nat) (f : Die → Die) : (s.modDie d f).cur = s.cur := rfl
@[simp] theorem State.modDie_agenda (d : Nat) (f : Die → Die) : (s.modDie d f).agenda = s.agenda := rfl
@[simp] theorem State.modDie_free (d : Nat) (f : Die → Die) : (s.modDie d f).free = s.free := rfl
@[simp] theorem State.modDie_nextId (d : Nat) (f : Die → Die) : (s.modDie d f).nextId = s.nextId := rfl
@[simp] theorem State.modDie_order (d : Nat) (f : Die → Die) : (s.modDie d f).order = s.order := rfl
@[simp] theorem State.modDie_cores (d : Nat) (f : Die → Die) : (s.modDie d f).cores = s.cores := rfl
@[simp] theorem State.modDie_quads (d : Nat) (f : Die → Die) : (s.modDie d f).quads = s.quads := rfl
@[simp] theorem State.modDie_mdies (d : Nat) (f : Die → Die) : (s.modDie d f).mdies = s.mdies := rfl
@[simp] theorem State.modDie_svcs (d : Nat) (f : Die → Die) : (s.modDie d f).svcs = s.svcs := rfl
@[simp] theorem State.modDie_blocks (d : Nat) (f : Die → Die) : (s.modDie d f).blocks = s.blocks := rfl
@[simp] theorem State.modDie_grids (d : Nat) (f : Die → Die) : (s.modDie d f).grids = s.grids := rfl
@[simp] theorem State.modDie_ops (d : Nat) (f : Die → Die) : (s.modDie d f).ops = s.ops := rfl
@[simp] theorem State.modDie_mem (d : Nat) (f : Die → Die) : (s.modDie d f).mem = s.mem := rfl
@[simp] theorem State.modDie_pkg (d : Nat) (f : Die → Die) : (s.modDie d f).pkg = s.pkg := rfl
@[simp] theorem State.modDie_links (d : Nat) (f : Die → Die) : (s.modDie d f).links = s.links := rfl
@[simp] theorem State.modDie_fabric (d : Nat) (f : Die → Die) : (s.modDie d f).fabric = s.fabric := rfl
@[simp] theorem State.modDie_fw (d : Nat) (f : Die → Die) : (s.modDie d f).fw = s.fw := rfl
@[simp] theorem State.modDie_outs (d : Nat) (f : Die → Die) : (s.modDie d f).outs = s.outs := rfl
@[simp] theorem State.modDie_past (d : Nat) (f : Die → Die) : (s.modDie d f).past = s.past := rfl

@[simp] theorem State.modMDie_cur (d : Nat) (f : MDie → MDie) : (s.modMDie d f).cur = s.cur := rfl
@[simp] theorem State.modMDie_agenda (d : Nat) (f : MDie → MDie) : (s.modMDie d f).agenda = s.agenda := rfl
@[simp] theorem State.modMDie_free (d : Nat) (f : MDie → MDie) : (s.modMDie d f).free = s.free := rfl
@[simp] theorem State.modMDie_nextId (d : Nat) (f : MDie → MDie) : (s.modMDie d f).nextId = s.nextId := rfl
@[simp] theorem State.modMDie_order (d : Nat) (f : MDie → MDie) : (s.modMDie d f).order = s.order := rfl
@[simp] theorem State.modMDie_cores (d : Nat) (f : MDie → MDie) : (s.modMDie d f).cores = s.cores := rfl
@[simp] theorem State.modMDie_quads (d : Nat) (f : MDie → MDie) : (s.modMDie d f).quads = s.quads := rfl
@[simp] theorem State.modMDie_dies (d : Nat) (f : MDie → MDie) : (s.modMDie d f).dies = s.dies := rfl
@[simp] theorem State.modMDie_svcs (d : Nat) (f : MDie → MDie) : (s.modMDie d f).svcs = s.svcs := rfl
@[simp] theorem State.modMDie_blocks (d : Nat) (f : MDie → MDie) : (s.modMDie d f).blocks = s.blocks := rfl
@[simp] theorem State.modMDie_grids (d : Nat) (f : MDie → MDie) : (s.modMDie d f).grids = s.grids := rfl
@[simp] theorem State.modMDie_ops (d : Nat) (f : MDie → MDie) : (s.modMDie d f).ops = s.ops := rfl
@[simp] theorem State.modMDie_mem (d : Nat) (f : MDie → MDie) : (s.modMDie d f).mem = s.mem := rfl
@[simp] theorem State.modMDie_pkg (d : Nat) (f : MDie → MDie) : (s.modMDie d f).pkg = s.pkg := rfl
@[simp] theorem State.modMDie_links (d : Nat) (f : MDie → MDie) : (s.modMDie d f).links = s.links := rfl
@[simp] theorem State.modMDie_fabric (d : Nat) (f : MDie → MDie) : (s.modMDie d f).fabric = s.fabric := rfl
@[simp] theorem State.modMDie_fw (d : Nat) (f : MDie → MDie) : (s.modMDie d f).fw = s.fw := rfl
@[simp] theorem State.modMDie_outs (d : Nat) (f : MDie → MDie) : (s.modMDie d f).outs = s.outs := rfl
@[simp] theorem State.modMDie_past (d : Nat) (f : MDie → MDie) : (s.modMDie d f).past = s.past := rfl

@[simp] theorem State.modSvc_cur (k : Nat) (f : Svc → Svc) : (s.modSvc k f).cur = s.cur := rfl
@[simp] theorem State.modSvc_agenda (k : Nat) (f : Svc → Svc) : (s.modSvc k f).agenda = s.agenda := rfl
@[simp] theorem State.modSvc_free (k : Nat) (f : Svc → Svc) : (s.modSvc k f).free = s.free := rfl
@[simp] theorem State.modSvc_nextId (k : Nat) (f : Svc → Svc) : (s.modSvc k f).nextId = s.nextId := rfl
@[simp] theorem State.modSvc_order (k : Nat) (f : Svc → Svc) : (s.modSvc k f).order = s.order := rfl
@[simp] theorem State.modSvc_cores (k : Nat) (f : Svc → Svc) : (s.modSvc k f).cores = s.cores := rfl
@[simp] theorem State.modSvc_quads (k : Nat) (f : Svc → Svc) : (s.modSvc k f).quads = s.quads := rfl
@[simp] theorem State.modSvc_dies (k : Nat) (f : Svc → Svc) : (s.modSvc k f).dies = s.dies := rfl
@[simp] theorem State.modSvc_mdies (k : Nat) (f : Svc → Svc) : (s.modSvc k f).mdies = s.mdies := rfl
@[simp] theorem State.modSvc_blocks (k : Nat) (f : Svc → Svc) : (s.modSvc k f).blocks = s.blocks := rfl
@[simp] theorem State.modSvc_grids (k : Nat) (f : Svc → Svc) : (s.modSvc k f).grids = s.grids := rfl
@[simp] theorem State.modSvc_ops (k : Nat) (f : Svc → Svc) : (s.modSvc k f).ops = s.ops := rfl
@[simp] theorem State.modSvc_mem (k : Nat) (f : Svc → Svc) : (s.modSvc k f).mem = s.mem := rfl
@[simp] theorem State.modSvc_pkg (k : Nat) (f : Svc → Svc) : (s.modSvc k f).pkg = s.pkg := rfl
@[simp] theorem State.modSvc_links (k : Nat) (f : Svc → Svc) : (s.modSvc k f).links = s.links := rfl
@[simp] theorem State.modSvc_fabric (k : Nat) (f : Svc → Svc) : (s.modSvc k f).fabric = s.fabric := rfl
@[simp] theorem State.modSvc_fw (k : Nat) (f : Svc → Svc) : (s.modSvc k f).fw = s.fw := rfl
@[simp] theorem State.modSvc_outs (k : Nat) (f : Svc → Svc) : (s.modSvc k f).outs = s.outs := rfl
@[simp] theorem State.modSvc_past (k : Nat) (f : Svc → Svc) : (s.modSvc k f).past = s.past := rfl

@[simp] theorem State.modBlock_cur (b : Nat) (f : Block → Block) : (s.modBlock b f).cur = s.cur := rfl
@[simp] theorem State.modBlock_agenda (b : Nat) (f : Block → Block) : (s.modBlock b f).agenda = s.agenda := rfl
@[simp] theorem State.modBlock_free (b : Nat) (f : Block → Block) : (s.modBlock b f).free = s.free := rfl
@[simp] theorem State.modBlock_nextId (b : Nat) (f : Block → Block) : (s.modBlock b f).nextId = s.nextId := rfl
@[simp] theorem State.modBlock_order (b : Nat) (f : Block → Block) : (s.modBlock b f).order = s.order := rfl
@[simp] theorem State.modBlock_cores (b : Nat) (f : Block → Block) : (s.modBlock b f).cores = s.cores := rfl
@[simp] theorem State.modBlock_quads (b : Nat) (f : Block → Block) : (s.modBlock b f).quads = s.quads := rfl
@[simp] theorem State.modBlock_dies (b : Nat) (f : Block → Block) : (s.modBlock b f).dies = s.dies := rfl
@[simp] theorem State.modBlock_mdies (b : Nat) (f : Block → Block) : (s.modBlock b f).mdies = s.mdies := rfl
@[simp] theorem State.modBlock_svcs (b : Nat) (f : Block → Block) : (s.modBlock b f).svcs = s.svcs := rfl
@[simp] theorem State.modBlock_grids (b : Nat) (f : Block → Block) : (s.modBlock b f).grids = s.grids := rfl
@[simp] theorem State.modBlock_ops (b : Nat) (f : Block → Block) : (s.modBlock b f).ops = s.ops := rfl
@[simp] theorem State.modBlock_mem (b : Nat) (f : Block → Block) : (s.modBlock b f).mem = s.mem := rfl
@[simp] theorem State.modBlock_pkg (b : Nat) (f : Block → Block) : (s.modBlock b f).pkg = s.pkg := rfl
@[simp] theorem State.modBlock_links (b : Nat) (f : Block → Block) : (s.modBlock b f).links = s.links := rfl
@[simp] theorem State.modBlock_fabric (b : Nat) (f : Block → Block) : (s.modBlock b f).fabric = s.fabric := rfl
@[simp] theorem State.modBlock_fw (b : Nat) (f : Block → Block) : (s.modBlock b f).fw = s.fw := rfl
@[simp] theorem State.modBlock_outs (b : Nat) (f : Block → Block) : (s.modBlock b f).outs = s.outs := rfl
@[simp] theorem State.modBlock_past (b : Nat) (f : Block → Block) : (s.modBlock b f).past = s.past := rfl

@[simp] theorem State.modGrid_cur (g : Nat) (f : Grid → Grid) : (s.modGrid g f).cur = s.cur := rfl
@[simp] theorem State.modGrid_agenda (g : Nat) (f : Grid → Grid) : (s.modGrid g f).agenda = s.agenda := rfl
@[simp] theorem State.modGrid_free (g : Nat) (f : Grid → Grid) : (s.modGrid g f).free = s.free := rfl
@[simp] theorem State.modGrid_nextId (g : Nat) (f : Grid → Grid) : (s.modGrid g f).nextId = s.nextId := rfl
@[simp] theorem State.modGrid_order (g : Nat) (f : Grid → Grid) : (s.modGrid g f).order = s.order := rfl
@[simp] theorem State.modGrid_cores (g : Nat) (f : Grid → Grid) : (s.modGrid g f).cores = s.cores := rfl
@[simp] theorem State.modGrid_quads (g : Nat) (f : Grid → Grid) : (s.modGrid g f).quads = s.quads := rfl
@[simp] theorem State.modGrid_dies (g : Nat) (f : Grid → Grid) : (s.modGrid g f).dies = s.dies := rfl
@[simp] theorem State.modGrid_mdies (g : Nat) (f : Grid → Grid) : (s.modGrid g f).mdies = s.mdies := rfl
@[simp] theorem State.modGrid_svcs (g : Nat) (f : Grid → Grid) : (s.modGrid g f).svcs = s.svcs := rfl
@[simp] theorem State.modGrid_blocks (g : Nat) (f : Grid → Grid) : (s.modGrid g f).blocks = s.blocks := rfl
@[simp] theorem State.modGrid_ops (g : Nat) (f : Grid → Grid) : (s.modGrid g f).ops = s.ops := rfl
@[simp] theorem State.modGrid_mem (g : Nat) (f : Grid → Grid) : (s.modGrid g f).mem = s.mem := rfl
@[simp] theorem State.modGrid_pkg (g : Nat) (f : Grid → Grid) : (s.modGrid g f).pkg = s.pkg := rfl
@[simp] theorem State.modGrid_links (g : Nat) (f : Grid → Grid) : (s.modGrid g f).links = s.links := rfl
@[simp] theorem State.modGrid_fabric (g : Nat) (f : Grid → Grid) : (s.modGrid g f).fabric = s.fabric := rfl
@[simp] theorem State.modGrid_fw (g : Nat) (f : Grid → Grid) : (s.modGrid g f).fw = s.fw := rfl
@[simp] theorem State.modGrid_outs (g : Nat) (f : Grid → Grid) : (s.modGrid g f).outs = s.outs := rfl
@[simp] theorem State.modGrid_past (g : Nat) (f : Grid → Grid) : (s.modGrid g f).past = s.past := rfl

@[simp] theorem State.modThread_cur (t : Tid) (f : Thread → Thread) : (s.modThread t f).cur = s.cur := rfl
@[simp] theorem State.modThread_agenda (t : Tid) (f : Thread → Thread) : (s.modThread t f).agenda = s.agenda := rfl
@[simp] theorem State.modThread_free (t : Tid) (f : Thread → Thread) : (s.modThread t f).free = s.free := rfl
@[simp] theorem State.modThread_nextId (t : Tid) (f : Thread → Thread) : (s.modThread t f).nextId = s.nextId := rfl
@[simp] theorem State.modThread_order (t : Tid) (f : Thread → Thread) : (s.modThread t f).order = s.order := rfl
@[simp] theorem State.modThread_cores (t : Tid) (f : Thread → Thread) : (s.modThread t f).cores = s.cores := rfl
@[simp] theorem State.modThread_quads (t : Tid) (f : Thread → Thread) : (s.modThread t f).quads = s.quads := rfl
@[simp] theorem State.modThread_dies (t : Tid) (f : Thread → Thread) : (s.modThread t f).dies = s.dies := rfl
@[simp] theorem State.modThread_mdies (t : Tid) (f : Thread → Thread) : (s.modThread t f).mdies = s.mdies := rfl
@[simp] theorem State.modThread_svcs (t : Tid) (f : Thread → Thread) : (s.modThread t f).svcs = s.svcs := rfl
@[simp] theorem State.modThread_grids (t : Tid) (f : Thread → Thread) : (s.modThread t f).grids = s.grids := rfl
@[simp] theorem State.modThread_ops (t : Tid) (f : Thread → Thread) : (s.modThread t f).ops = s.ops := rfl
@[simp] theorem State.modThread_mem (t : Tid) (f : Thread → Thread) : (s.modThread t f).mem = s.mem := rfl
@[simp] theorem State.modThread_pkg (t : Tid) (f : Thread → Thread) : (s.modThread t f).pkg = s.pkg := rfl
@[simp] theorem State.modThread_links (t : Tid) (f : Thread → Thread) : (s.modThread t f).links = s.links := rfl
@[simp] theorem State.modThread_fabric (t : Tid) (f : Thread → Thread) : (s.modThread t f).fabric = s.fabric := rfl
@[simp] theorem State.modThread_fw (t : Tid) (f : Thread → Thread) : (s.modThread t f).fw = s.fw := rfl
@[simp] theorem State.modThread_outs (t : Tid) (f : Thread → Thread) : (s.modThread t f).outs = s.outs := rfl
@[simp] theorem State.modThread_past (t : Tid) (f : Thread → Thread) : (s.modThread t f).past = s.past := rfl

@[simp] theorem State.modOp_cur (i : Nat) (f : Op → Op) : (s.modOp i f).cur = s.cur := rfl
@[simp] theorem State.modOp_agenda (i : Nat) (f : Op → Op) : (s.modOp i f).agenda = s.agenda := rfl
@[simp] theorem State.modOp_free (i : Nat) (f : Op → Op) : (s.modOp i f).free = s.free := rfl
@[simp] theorem State.modOp_nextId (i : Nat) (f : Op → Op) : (s.modOp i f).nextId = s.nextId := rfl
@[simp] theorem State.modOp_order (i : Nat) (f : Op → Op) : (s.modOp i f).order = s.order := rfl
@[simp] theorem State.modOp_cores (i : Nat) (f : Op → Op) : (s.modOp i f).cores = s.cores := rfl
@[simp] theorem State.modOp_quads (i : Nat) (f : Op → Op) : (s.modOp i f).quads = s.quads := rfl
@[simp] theorem State.modOp_dies (i : Nat) (f : Op → Op) : (s.modOp i f).dies = s.dies := rfl
@[simp] theorem State.modOp_mdies (i : Nat) (f : Op → Op) : (s.modOp i f).mdies = s.mdies := rfl
@[simp] theorem State.modOp_svcs (i : Nat) (f : Op → Op) : (s.modOp i f).svcs = s.svcs := rfl
@[simp] theorem State.modOp_blocks (i : Nat) (f : Op → Op) : (s.modOp i f).blocks = s.blocks := rfl
@[simp] theorem State.modOp_grids (i : Nat) (f : Op → Op) : (s.modOp i f).grids = s.grids := rfl
@[simp] theorem State.modOp_mem (i : Nat) (f : Op → Op) : (s.modOp i f).mem = s.mem := rfl
@[simp] theorem State.modOp_pkg (i : Nat) (f : Op → Op) : (s.modOp i f).pkg = s.pkg := rfl
@[simp] theorem State.modOp_links (i : Nat) (f : Op → Op) : (s.modOp i f).links = s.links := rfl
@[simp] theorem State.modOp_fabric (i : Nat) (f : Op → Op) : (s.modOp i f).fabric = s.fabric := rfl
@[simp] theorem State.modOp_fw (i : Nat) (f : Op → Op) : (s.modOp i f).fw = s.fw := rfl
@[simp] theorem State.modOp_outs (i : Nat) (f : Op → Op) : (s.modOp i f).outs = s.outs := rfl
@[simp] theorem State.modOp_past (i : Nat) (f : Op → Op) : (s.modOp i f).past = s.past := rfl

@[simp] theorem State.useFree_cur : (s.useFree).cur = s.cur := rfl
@[simp] theorem State.useFree_agenda : (s.useFree).agenda = s.agenda := rfl
@[simp] theorem State.useFree_nextId : (s.useFree).nextId = s.nextId := rfl
@[simp] theorem State.useFree_order : (s.useFree).order = s.order := rfl
@[simp] theorem State.useFree_cores : (s.useFree).cores = s.cores := rfl
@[simp] theorem State.useFree_quads : (s.useFree).quads = s.quads := rfl
@[simp] theorem State.useFree_dies : (s.useFree).dies = s.dies := rfl
@[simp] theorem State.useFree_mdies : (s.useFree).mdies = s.mdies := rfl
@[simp] theorem State.useFree_svcs : (s.useFree).svcs = s.svcs := rfl
@[simp] theorem State.useFree_blocks : (s.useFree).blocks = s.blocks := rfl
@[simp] theorem State.useFree_grids : (s.useFree).grids = s.grids := rfl
@[simp] theorem State.useFree_ops : (s.useFree).ops = s.ops := rfl
@[simp] theorem State.useFree_mem : (s.useFree).mem = s.mem := rfl
@[simp] theorem State.useFree_pkg : (s.useFree).pkg = s.pkg := rfl
@[simp] theorem State.useFree_links : (s.useFree).links = s.links := rfl
@[simp] theorem State.useFree_fabric : (s.useFree).fabric = s.fabric := rfl
@[simp] theorem State.useFree_fw : (s.useFree).fw = s.fw := rfl
@[simp] theorem State.useFree_outs : (s.useFree).outs = s.outs := rfl
@[simp] theorem State.useFree_past : (s.useFree).past = s.past := rfl

@[simp] theorem State.useOrder_cur : (s.useOrder).cur = s.cur := rfl
@[simp] theorem State.useOrder_agenda : (s.useOrder).agenda = s.agenda := rfl
@[simp] theorem State.useOrder_free : (s.useOrder).free = s.free := rfl
@[simp] theorem State.useOrder_nextId : (s.useOrder).nextId = s.nextId := rfl
@[simp] theorem State.useOrder_cores : (s.useOrder).cores = s.cores := rfl
@[simp] theorem State.useOrder_quads : (s.useOrder).quads = s.quads := rfl
@[simp] theorem State.useOrder_dies : (s.useOrder).dies = s.dies := rfl
@[simp] theorem State.useOrder_mdies : (s.useOrder).mdies = s.mdies := rfl
@[simp] theorem State.useOrder_svcs : (s.useOrder).svcs = s.svcs := rfl
@[simp] theorem State.useOrder_blocks : (s.useOrder).blocks = s.blocks := rfl
@[simp] theorem State.useOrder_grids : (s.useOrder).grids = s.grids := rfl
@[simp] theorem State.useOrder_ops : (s.useOrder).ops = s.ops := rfl
@[simp] theorem State.useOrder_mem : (s.useOrder).mem = s.mem := rfl
@[simp] theorem State.useOrder_pkg : (s.useOrder).pkg = s.pkg := rfl
@[simp] theorem State.useOrder_links : (s.useOrder).links = s.links := rfl
@[simp] theorem State.useOrder_fabric : (s.useOrder).fabric = s.fabric := rfl
@[simp] theorem State.useOrder_fw : (s.useOrder).fw = s.fw := rfl
@[simp] theorem State.useOrder_outs : (s.useOrder).outs = s.outs := rfl
@[simp] theorem State.useOrder_past : (s.useOrder).past = s.past := rfl

@[simp] theorem State.narrow_agenda (ts : List Tid) : (s.narrow ts).agenda = s.agenda := rfl
@[simp] theorem State.narrow_free (ts : List Tid) : (s.narrow ts).free = s.free := rfl
@[simp] theorem State.narrow_nextId (ts : List Tid) : (s.narrow ts).nextId = s.nextId := rfl
@[simp] theorem State.narrow_order (ts : List Tid) : (s.narrow ts).order = s.order := rfl
@[simp] theorem State.narrow_cores (ts : List Tid) : (s.narrow ts).cores = s.cores := rfl
@[simp] theorem State.narrow_quads (ts : List Tid) : (s.narrow ts).quads = s.quads := rfl
@[simp] theorem State.narrow_dies (ts : List Tid) : (s.narrow ts).dies = s.dies := rfl
@[simp] theorem State.narrow_mdies (ts : List Tid) : (s.narrow ts).mdies = s.mdies := rfl
@[simp] theorem State.narrow_svcs (ts : List Tid) : (s.narrow ts).svcs = s.svcs := rfl
@[simp] theorem State.narrow_blocks (ts : List Tid) : (s.narrow ts).blocks = s.blocks := rfl
@[simp] theorem State.narrow_grids (ts : List Tid) : (s.narrow ts).grids = s.grids := rfl
@[simp] theorem State.narrow_ops (ts : List Tid) : (s.narrow ts).ops = s.ops := rfl
@[simp] theorem State.narrow_mem (ts : List Tid) : (s.narrow ts).mem = s.mem := rfl
@[simp] theorem State.narrow_pkg (ts : List Tid) : (s.narrow ts).pkg = s.pkg := rfl
@[simp] theorem State.narrow_links (ts : List Tid) : (s.narrow ts).links = s.links := rfl
@[simp] theorem State.narrow_fabric (ts : List Tid) : (s.narrow ts).fabric = s.fabric := rfl
@[simp] theorem State.narrow_fw (ts : List Tid) : (s.narrow ts).fw = s.fw := rfl
@[simp] theorem State.narrow_outs (ts : List Tid) : (s.narrow ts).outs = s.outs := rfl
@[simp] theorem State.narrow_past (ts : List Tid) : (s.narrow ts).past = s.past := rfl

@[simp] theorem State.useFree_free : s.useFree.free = s.free + 1 := rfl
@[simp] theorem State.useOrder_order : s.useOrder.order = s.order + 1 := rfl
@[simp] theorem State.narrow_cur (ts : List Tid) : (s.narrow ts).cur = { s.cur with tids := ts } := rfl

/-! ### The part an update changes -/

theorem State.core_modCore (c d : Nat) (f : Core → Core) :
    (s.modCore c f).core d = if d = c then f (s.core c) else s.core d := by
  simp [State.core, State.modCore, Tab.getD_put]
theorem State.quad_modQuad (c d : Nat) (f : Quad → Quad) :
    (s.modQuad c f).quad d = if d = c then f (s.quad c) else s.quad d := by
  simp [State.quad, State.modQuad, Tab.getD_put]
theorem State.die_modDie (c d : Nat) (f : Die → Die) :
    (s.modDie c f).die d = if d = c then f (s.die c) else s.die d := by
  simp [State.die, State.modDie, Tab.getD_put]
theorem State.mdie_modMDie (c d : Nat) (f : MDie → MDie) :
    (s.modMDie c f).mdie d = if d = c then f (s.mdie c) else s.mdie d := by
  simp [State.mdie, State.modMDie, Tab.getD_put]
theorem State.svc_modSvc (c d : Nat) (f : Svc → Svc) :
    (s.modSvc c f).svc d = if d = c then f (s.svc c) else s.svc d := by
  simp [State.svc, State.modSvc, Tab.getD_put]

theorem State.find_modBlock (b c : Nat) (f : Block → Block) :
    (s.modBlock b f).blocks.find c = if c = b then (s.blocks.find b).map f else s.blocks.find c := by
  simp [State.modBlock, Tab.find_upd]
theorem State.block_modBlock_ne {b c : Nat} (f : Block → Block) (h : c ≠ b) : (s.modBlock b f).block c = s.block c := by
  simp [State.block, State.modBlock, Tab.getD_upd_ne _ _ _ h]
theorem State.block_modBlock_self (b : Nat) (f : Block → Block) (h : (s.blocks.find b).isSome = true) :
    (s.modBlock b f).block b = f (s.block b) := by
  simp [State.block, State.modBlock, Tab.getD_upd_self _ _ _ _ h]
/-- A change of a block that keeps a projection keeps it for every block. -/
theorem State.block_modBlock_proj {β : Type} (b c : Nat) (f : Block → Block) (g : Block → β) (h : ∀ v, g (f v) = g v) :
    g ((s.modBlock b f).block c) = g (s.block c) :=
  Tab.getD_upd_proj s.blocks b c f _ g h

theorem State.grid_modGrid_ne {b c : Nat} (f : Grid → Grid) (h : c ≠ b) : (s.modGrid b f).grid c = s.grid c := by
  simp [State.grid, State.modGrid, Tab.getD_upd_ne _ _ _ h]
theorem State.grid_modGrid_self (b : Nat) (f : Grid → Grid) (h : (s.grids.find b).isSome = true) :
    (s.modGrid b f).grid b = f (s.grid b) := by
  simp [State.grid, State.modGrid, Tab.getD_upd_self _ _ _ _ h]

@[simp] theorem State.core_modBlock (b : Nat) (f : Block → Block) (c : Nat) : (s.modBlock b f).core c = s.core c := rfl
@[simp] theorem State.core_modThread (t : Tid) (f : Thread → Thread) (c : Nat) :
    (s.modThread t f).core c = s.core c := rfl
@[simp] theorem State.block_modCore (c : Nat) (f : Core → Core) (b : Nat) : (s.modCore c f).block b = s.block b := rfl
@[simp] theorem State.thread_modCore (c : Nat) (f : Core → Core) (t : Tid) : (s.modCore c f).thread t = s.thread t := rfl
@[simp] theorem State.core_useFree (c : Nat) : s.useFree.core c = s.core c := rfl
@[simp] theorem State.block_useFree (b : Nat) : s.useFree.block b = s.block b := rfl
@[simp] theorem State.thread_useFree (t : Tid) : s.useFree.thread t = s.thread t := rfl
@[simp] theorem State.core_narrow (ts : List Tid) (c : Nat) : (s.narrow ts).core c = s.core c := rfl
@[simp] theorem State.block_narrow (ts : List Tid) (b : Nat) : (s.narrow ts).block b = s.block b := rfl
@[simp] theorem State.thread_narrow (ts : List Tid) (t : Tid) : (s.narrow ts).thread t = s.thread t := rfl

/-- Is there such a thread in the state? -/
theorem State.thread_modThread_ne {t u : Tid} (f : Thread → Thread) (h : u ≠ t) :
    (s.modThread t f).thread u = s.thread u := by
  simp only [State.thread, State.modThread]
  by_cases hb : u.blk = t.blk
  · have hi : u.idx ≠ t.idx := fun e => h (by cases u; cases t; simp_all)
    have := s.block_modBlock_proj t.blk u.blk (fun b => { b with threads := b.threads.upd f t.idx })
      (fun b => b.threads.getD u.idx {}) (fun v => Tab.getD_upd_ne v.threads f _ hi)
    exact this
  · rw [State.block_modBlock_ne s _ hb]

/-- A change of a thread that exists. -/
theorem State.thread_modThread_self (t : Tid) (f : Thread → Thread) (hb : (s.blocks.find t.blk).isSome = true)
    (ht : ((s.block t.blk).threads.find t.idx).isSome = true) : (s.modThread t f).thread t = f (s.thread t) := by
  simp only [State.thread, State.modThread]
  rw [State.block_modBlock_self s t.blk _ hb]
  exact Tab.getD_upd_self _ _ _ _ ht

/-- A change of a thread that keeps a projection keeps it for every thread. -/
theorem State.thread_modThread_proj {β : Type} (t u : Tid) (f : Thread → Thread) (g : Thread → β)
    (h : ∀ v, g (f v) = g v) : g ((s.modThread t f).thread u) = g (s.thread u) := by
  simp only [State.thread, State.modThread]
  exact s.block_modBlock_proj t.blk u.blk (fun b => { b with threads := b.threads.upd f t.idx })
    (fun b => g (b.threads.getD u.idx {})) (fun v => Tab.getD_upd_proj v.threads t.idx u.idx f _ g h)

/-- A change of a thread leaves the rest of every block. -/
theorem State.block_modThread_proj {β : Type} (t : Tid) (b : Nat) (f : Thread → Thread) (g : Block → β)
    (h : ∀ v ts, g { v with threads := ts } = g v) : g ((s.modThread t f).block b) = g (s.block b) :=
  s.block_modBlock_proj t.blk b _ g fun v => h v _

theorem State.find_modThread_isSome (t : Tid) (f : Thread → Thread) (b : Nat) :
    ((s.modThread t f).blocks.find b).isSome = (s.blocks.find b).isSome := by
  simp [State.modThread, State.modBlock]

end Sys2Proof.Machine
end

