-- ==== Sys2Proof/Laws/Ops.lean ====
section
/-!
SUPPORT. Laws/Ops.lean: what the shared operations of Machine/Ops.lean do, once for each: retiring a word, and the
fixed-latency words.
-/

namespace Sys2Proof.Machine

variable (s : State)

/-! ### Sequences of thread changes -/

theorem State.modThreads_cons (t : Tid) (ts : List Tid) (f : Thread → Thread) :
    s.modThreads (t :: ts) f = (s.modThread t f).modThreads ts f := rfl

@[simp] theorem State.modThreads_nil (f : Thread → Thread) : s.modThreads [] f = s := rfl

/-- What single thread changes keep, a sequence of them keeps. -/
theorem State.modThreads_keeps {β : Type} (g : State → β) (f : Thread → Thread)
    (h : ∀ s t, g (State.modThread s t f) = g s) (ts : List Tid) : ∀ s : State, g (s.modThreads ts f) = g s := by
  induction ts with
  | nil => intro s; rfl
  | cons t ts ih => intro s; rw [State.modThreads_cons, ih, h]

@[simp] theorem State.modThreads_cur (ts : List Tid) (f : Thread → Thread) : (s.modThreads ts f).cur = s.cur :=
  State.modThreads_keeps (·.cur) f (fun _ _ => rfl) ts s
@[simp] theorem State.modThreads_ops (ts : List Tid) (f : Thread → Thread) : (s.modThreads ts f).ops = s.ops :=
  State.modThreads_keeps (·.ops) f (fun _ _ => rfl) ts s
@[simp] theorem State.modThreads_nextId (ts : List Tid) (f : Thread → Thread) : (s.modThreads ts f).nextId = s.nextId :=
  State.modThreads_keeps (·.nextId) f (fun _ _ => rfl) ts s
@[simp] theorem State.modThreads_free (ts : List Tid) (f : Thread → Thread) : (s.modThreads ts f).free = s.free :=
  State.modThreads_keeps (·.free) f (fun _ _ => rfl) ts s
@[simp] theorem State.modThreads_mem (ts : List Tid) (f : Thread → Thread) : (s.modThreads ts f).mem = s.mem :=
  State.modThreads_keeps (·.mem) f (fun _ _ => rfl) ts s
@[simp] theorem State.modThreads_rest (ts : List Tid) (f : Thread → Thread) : (s.modThreads ts f).rest = s.rest :=
  State.modThreads_keeps State.rest f (fun _ _ => rfl) ts s
@[simp] theorem State.modThreads_core (ts : List Tid) (f : Thread → Thread) (c : Nat) :
    (s.modThreads ts f).core c = s.core c :=
  State.modThreads_keeps (State.core · c) f (fun _ _ => rfl) ts s
@[simp] theorem State.modThreads_cores (ts : List Tid) (f : Thread → Thread) : (s.modThreads ts f).cores = s.cores :=
  State.modThreads_keeps (·.cores) f (fun _ _ => rfl) ts s

theorem State.modThreads_thread_proj {β : Type} (g : Thread → β) (f : Thread → Thread) (h : ∀ v, g (f v) = g v)
    (ts : List Tid) (u : Tid) : g ((s.modThreads ts f).thread u) = g (s.thread u) :=
  State.modThreads_keeps (fun s => g (State.thread s u)) f (fun s t => s.thread_modThread_proj t u f g h) ts s

theorem State.modThreads_block_proj {β : Type} (g : Block → β) (f : Thread → Thread)
    (h : ∀ v ts, g { v with threads := ts } = g v) (ts : List Tid) (b : Nat) :
    g ((s.modThreads ts f).block b) = g (s.block b) :=
  State.modThreads_keeps (fun s => g (State.block s b)) f (fun s t => s.block_modThread_proj t b f g h) ts s

theorem State.modThreads_thread_notin (ts : List Tid) (f : Thread → Thread) (u : Tid) (h : u ∉ ts) :
    (s.modThreads ts f).thread u = s.thread u := by
  induction ts generalizing s with
  | nil => rfl
  | cons t ts ih =>
    rw [State.modThreads_cons, ih _ (fun e => h (List.mem_cons_of_mem _ e)),
      State.thread_modThread_ne _ _ (fun e => h (by rw [e]; exact List.mem_cons_self))]

theorem State.has_modThread (t u : Tid) (f : Thread → Thread) : (s.modThread t f).has u = s.has u := by
  have h1 := s.find_modThread_isSome t f u.blk
  have h2 : (((s.modThread t f).block u.blk).threads.find u.idx).isSome = ((s.block u.blk).threads.find u.idx).isSome := by
    by_cases hb : u.blk = t.blk
    · exact s.block_modBlock_proj t.blk u.blk (fun b => { b with threads := b.threads.upd f t.idx })
        (fun b => (b.threads.find u.idx).isSome) (fun v => Tab.find_upd_isSome v.threads t.idx u.idx f)
    · simp only [State.modThread]; rw [State.block_modBlock_ne _ _ hb]
  simp only [State.has, h1, h2]

theorem State.has_iff (t : Tid) : s.has t = true ↔
    (s.blocks.find t.blk).isSome = true ∧ ((s.block t.blk).threads.find t.idx).isSome = true := by
  simp [State.has]

theorem State.thread_modThread_has (t : Tid) (f : Thread → Thread) (h : s.has t = true) :
    (s.modThread t f).thread t = f (s.thread t) :=
  s.thread_modThread_self t f ((s.has_iff t).1 h).1 ((s.has_iff t).1 h).2

/-- Each of distinct threads that exist is changed once. -/
theorem State.modThreads_thread_in (ts : List Tid) (f : Thread → Thread) (u : Tid) (hu : u ∈ ts) (hn : ts.Nodup)
    (hh : s.has u = true) : (s.modThreads ts f).thread u = f (s.thread u) := by
  induction ts generalizing s with
  | nil => cases hu
  | cons t ts ih =>
    rw [State.modThreads_cons]
    rcases List.nodup_cons.1 hn with ⟨ht, hn'⟩
    rcases List.mem_cons.1 hu with rfl | hu'
    · rw [State.modThreads_thread_notin _ _ _ _ ht, State.thread_modThread_has _ _ _ hh]
    · have hne : u ≠ t := fun e => ht (e ▸ hu')
      rw [ih _ hu' hn' (by rw [State.has_modThread]; exact hh), State.thread_modThread_ne _ _ hne]

/-! ### Retiring a word -/

@[simp] theorem State.issued_cur (q : Nat) : (s.issued q).cur = s.cur := rfl
@[simp] theorem State.issued_blocks (q : Nat) : (s.issued q).blocks = s.blocks := rfl
@[simp] theorem State.issued_thread (q : Nat) (t : Tid) : (s.issued q).thread t = s.thread t := rfl
@[simp] theorem State.issued_block (q b : Nat) : (s.issued q).block b = s.block b := rfl
@[simp] theorem State.issued_ops (q : Nat) : (s.issued q).ops = s.ops := rfl
@[simp] theorem State.issued_mem (q : Nat) : (s.issued q).mem = s.mem := rfl
@[simp] theorem State.issued_nextId (q : Nat) : (s.issued q).nextId = s.nextId := rfl
@[simp] theorem State.issued_free (q : Nat) : (s.issued q).free = s.free := rfl
@[simp] theorem State.issued_rest (q : Nat) : (s.issued q).rest = s.rest := rfl
theorem State.issued_core (q c : Nat) : ((s.issued q).core c).arch = (s.core c).arch := by
  simp only [State.issued, State.core_modCore]
  split
  · subst c; rfl
  · rfl
theorem State.issued_now (q c : Nat) : (s.issued q).now c = s.now c := by
  simp only [State.issued, State.now, State.core_modCore]
  split
  · subst c; rfl
  · rfl
@[simp] theorem State.issued_clk (q : Nat) : (s.issued q).clk = s.clk := s.issued_now q _
@[simp] theorem State.modThread_clk (t : Tid) (f : Thread → Thread) : (s.modThread t f).clk = s.clk := rfl
@[simp] theorem State.modThreads_clk (ts : List Tid) (f : Thread → Thread) : (s.modThreads ts f).clk = s.clk := by
  simp [State.clk, State.now]

/-- Retiring is one change of every thread of the group. -/
theorem State.retireFp_eq (q fp : Nat) :
    s.retireFp q fp = (s.issued q).modThreads s.cur.tids (Thread.retire s.cur.pc q s.clk fp) := by
  have h : ∀ (ts : List Tid) (x : State), x.cur.pc = s.cur.pc → x.clk = s.clk →
      ts.foldl (fun s t => s.modThread t (Thread.retire s.cur.pc q s.clk fp)) x
        = x.modThreads ts (Thread.retire s.cur.pc q s.clk fp) := by
    intro ts
    induction ts with
    | nil => intros; rfl
    | cons t ts ih =>
      intro x hp hc
      simp only [List.foldl_cons, hp, hc, State.modThreads_cons]
      exact ih _ hp hc
  exact h _ _ rfl (s.issued_clk q)

@[simp] theorem Thread.head_pc (now : Nat) (th : Thread) : (Thread.head now th).pc = th.pc := rfl
@[simp] theorem Thread.head_loops (now : Nat) (th : Thread) : (Thread.head now th).loops = th.loops := rfl
@[simp] theorem Thread.head_win (now : Nat) (th : Thread) : (Thread.head now th).win = th.win := rfl
@[simp] theorem Thread.head_readyAt (now : Nat) (th : Thread) : (Thread.head now th).readyAt = th.readyAt := rfl
@[simp] theorem Thread.head_arch (now : Nat) (th : Thread) : (Thread.head now th).arch = th.arch := rfl
@[simp] theorem Thread.syncCode_arch (th : Thread) : th.syncCode.arch = th.arch := rfl

theorem Thread.retire_arch (pc : DWord) (q now fp : Nat) (th : Thread) : (Thread.retire pc q now fp th).arch = th.arch := by
  simp only [Thread.retire]
  split
  · split
    · rfl
    · simp only [Thread.trimBuf, Thread.head]; split <;> rfl
  · split <;> rfl

/-- A thread at the word, no back edge there and nothing behind it issued, falls through. -/
theorem Thread.retire_falls (pc : DWord) (q now fp : Nat) (th : Thread) (hp : th.pc = pc)
    (hl : th.atLoopEnd pc = false) (hw : (th.win.drop 1).all (fun w => !w.issued) = true) :
    (Thread.retire pc q now fp th).pc = pc + 8 ∧ (Thread.retire pc q now fp th).loops = th.loops := by
  subst hp
  simp only [Thread.atLoopEnd] at hl
  simp only [Thread.retire, Thread.atLoopEnd, hl, Thread.winIx, BitVec.sub_self, BitVec.toNat_zero, Nat.zero_div]
  cases hwin : th.win with
  | nil => simp [markIssued, popIssued]
  | cons w ws =>
    simp only [hwin, List.drop_succ_cons, List.drop_zero] at hw
    cases ws with
    | nil => simp [markIssued, popIssued]
    | cons v vs =>
      simp only [List.all_cons, Bool.and_eq_true, Bool.not_eq_true'] at hw
      simp [markIssued, popIssued, hw.1]

theorem State.retireFp_thread_arch (q fp : Nat) (u : Tid) : ((s.retireFp q fp).thread u).arch = (s.thread u).arch := by
  rw [State.retireFp_eq, State.modThreads_thread_proj (g := Thread.arch) (h := Thread.retire_arch _ _ _ _)]
  rfl
theorem State.retireFp_thread_notin (q fp : Nat) (u : Tid) (h : u ∉ s.cur.tids) :
    (s.retireFp q fp).thread u = s.thread u := by
  rw [State.retireFp_eq, State.modThreads_thread_notin _ _ _ _ h]; rfl
theorem State.retireFp_block (q fp b : Nat) : { (s.retireFp q fp).block b with threads := [] } = { s.block b with threads := [] } := by
  rw [State.retireFp_eq]
  exact State.modThreads_block_proj (s.issued q) (fun x => { x with threads := [] }) _ (fun _ _ => rfl) _ b
@[simp] theorem State.retireFp_ops (q fp : Nat) : (s.retireFp q fp).ops = s.ops := by rw [State.retireFp_eq]; simp
@[simp] theorem State.retireFp_nextId (q fp : Nat) : (s.retireFp q fp).nextId = s.nextId := by rw [State.retireFp_eq]; simp
@[simp] theorem State.retireFp_cur (q fp : Nat) : (s.retireFp q fp).cur = s.cur := by rw [State.retireFp_eq]; simp
@[simp] theorem State.retireFp_mem (q fp : Nat) : (s.retireFp q fp).mem = s.mem := by rw [State.retireFp_eq]; simp
@[simp] theorem State.retireFp_rest (q fp : Nat) : (s.retireFp q fp).rest = s.rest := by rw [State.retireFp_eq]; simp
theorem State.retireFp_core (q fp c : Nat) : ((s.retireFp q fp).core c).arch = (s.core c).arch := by
  rw [State.retireFp_eq, State.modThreads_core]; exact s.issued_core q c
@[simp] theorem State.retireFp_clk (q fp : Nat) : (s.retireFp q fp).clk = s.clk := by
  rw [State.retireFp_eq, State.modThreads_clk]; simp

theorem State.has_retireFp (q fp : Nat) (u : Tid) : (s.retireFp q fp).has u = s.has u := by
  rw [State.retireFp_eq,
    State.modThreads_keeps (fun x => State.has x u) _ (fun x t => State.has_modThread x t u _)]
  rfl

theorem State.retireFp_falls (q fp : Nat) (hn : s.cur.tids.Nodup) (hh : ∀ t ∈ s.cur.tids, s.has t = true) :
    FellThrough s (s.retireFp q fp) s.cur.tids := by
  intro t ht hp hl hw
  rw [State.retireFp_eq, State.modThreads_thread_in (s.issued q) _ _ t ht hn (hh t ht)]
  exact Thread.retire_falls _ _ _ _ _ hp hl hw

theorem sameBytes_of {s s' : State} (hm : s'.mem = s.mem) (hc : ∀ c, (s'.core c).spad = (s.core c).spad) : SameBytes s s' :=
  ⟨fun pa => by simp [State.homeByte, hm], fun c o => by rw [hc]⟩

/-- What leaves the rest and the cores leaves every byte. -/
theorem sameRest_of {s s' : State} (hr : s'.rest = s.rest) (hc : ∀ c, (s'.core c).arch = (s.core c).arch) : SameRest s s' :=
  ⟨hr, hc, sameBytes_of (show s'.rest.mem = s.rest.mem by rw [hr]) fun c => show (s'.core c).arch.spad = (s.core c).arch.spad by rw [hc]⟩

/-- A word that only retires. -/
theorem State.retireFp_onlyRetired (q fp : Nat) : OnlyRetired s (s.retireFp q fp) :=
  ⟨s.retireFp_thread_arch q fp, s.retireFp_thread_notin q fp, s.retireFp_block q fp, by simp,
    sameRest_of (by simp) (s.retireFp_core q fp)⟩

theorem State.groupOk_nodup (h : s.groupOk = true) : s.cur.tids.Nodup := by
  simp only [State.groupOk, Bool.and_eq_true, decide_eq_true_eq] at h; exact h.1
theorem State.groupOk_has (h : s.groupOk = true) : ∀ t ∈ s.cur.tids, s.has t = true := by
  simp only [State.groupOk, Bool.and_eq_true, List.all_eq_true] at h
  exact fun t ht => (h.2 t ht).1
theorem State.act_sub (h : Hdr) : ∀ t ∈ s.act h, t ∈ s.cur.tids := fun _ ht => (List.mem_filter.1 ht).1

/-- A waiting word whose condition holds for every thread of the group goes on. -/
theorem State.waitFor_all (ok : Tid → Bool) (go : State → Out State) (h : ∀ t ∈ s.cur.tids, ok t = true)
    (hn : s.cur.tids ≠ []) : s.waitFor ok go = go s := by
  have h1 : s.cur.tids.filter ok = s.cur.tids := List.filter_eq_self.2 h
  have h2 : s.cur.tids.filter (fun t => !ok t) = [] := by
    rw [List.filter_eq_nil_iff]; intro t ht; simp [h t ht]
  have h3 : s.cur.tids.isEmpty = false := by cases he : s.cur.tids <;> simp_all
  simp only [State.waitFor, h1, h2, h3]
  rfl

/-! ### One change for each thread of a list -/

/-- Each thread of a list changed by a function of its own. -/
def State.modEach (s : State) (ts : List Tid) (f : Tid → Thread → Thread) : State :=
  ts.foldl (fun s t => s.modThread t (f t)) s

theorem State.modEach_keeps {β : Type} (g : State → β) (f : Tid → Thread → Thread)
    (h : ∀ s t, g (State.modThread s t (f t)) = g s) (ts : List Tid) : ∀ s : State, g (s.modEach ts f) = g s := by
  induction ts with
  | nil => intro s; rfl
  | cons t ts ih => intro s; exact (ih _).trans (h s t)

theorem State.modEach_thread_proj {β : Type} (g : Thread → β) (f : Tid → Thread → Thread) (h : ∀ t v, g (f t v) = g v)
    (ts : List Tid) (u : Tid) : g ((s.modEach ts f).thread u) = g (s.thread u) :=
  State.modEach_keeps (fun s => g (State.thread s u)) f (fun s t => s.thread_modThread_proj t u (f t) g (h t)) ts s

theorem State.modEach_block_proj {β : Type} (g : Block → β) (f : Tid → Thread → Thread)
    (h : ∀ v ts, g { v with threads := ts } = g v) (ts : List Tid) (b : Nat) :
    g ((s.modEach ts f).block b) = g (s.block b) :=
  State.modEach_keeps (fun s => g (State.block s b)) f (fun s t => s.block_modThread_proj t b (f t) g h) ts s

theorem State.has_modEach (ts : List Tid) (f : Tid → Thread → Thread) (u : Tid) : (s.modEach ts f).has u = s.has u :=
  State.modEach_keeps (State.has · u) f (fun s t => State.has_modThread s t u _) ts s

/-- Each of distinct threads that exist is changed once; the others are as before. -/
theorem State.modEach_thread (ts : List Tid) (f : Tid → Thread → Thread) (hn : ts.Nodup) (u : Tid)
    (hh : u ∈ ts → s.has u = true) :
    (s.modEach ts f).thread u = if u ∈ ts then f u (s.thread u) else s.thread u := by
  induction ts generalizing s with
  | nil => rfl
  | cons t ts ih =>
    rcases List.nodup_cons.1 hn with ⟨ht, hn⟩
    show (State.modEach (s.modThread t (f t)) ts f).thread u = _
    rw [ih _ hn (fun hu => by rw [State.has_modThread]; exact hh (List.mem_cons_of_mem _ hu))]
    by_cases hu : u = t
    · subst hu
      rw [if_neg ht, if_pos List.mem_cons_self, State.thread_modThread_has _ _ _ (hh List.mem_cons_self)]
    · rw [State.thread_modThread_ne _ _ hu]
      simp only [List.mem_cons, hu, false_or]

/-! ### Taken control transfers -/

/-- A thread of the group after the word: it jumps, or falls through and waits two clocks. -/
def Thread.jumpOr (pc : DWord) (q now : Nat) (tgt : Option DWord) (th : Thread) : Thread := match tgt with
  | some d => Thread.jump pc d q now th
  | none => { (Thread.retire pc q now 0 th).syncCode with readyAt := Nat.max (Thread.retire pc q now 0 th).readyAt (now + 2) }

theorem State.retireJump_eq (q : Nat) (tgts : List (Tid × DWord)) :
    s.retireJump q tgts = (s.issued q).modEach s.cur.tids fun t =>
      Thread.jumpOr s.cur.pc q s.clk ((tgts.find? (·.1 == t)).map (·.2)) := by
  have h : ∀ (ts : List Tid) (x : State), x.cur.pc = s.cur.pc → x.clk = s.clk →
      ts.foldl (fun s' t => match tgts.find? (·.1 == t) with
        | some p => s'.modThread t (Thread.jump s.cur.pc p.2 q s.clk)
        | none => s'.modThread t fun th =>
          { (Thread.retire s.cur.pc q s.clk 0 th).syncCode with readyAt := Nat.max (Thread.retire s.cur.pc q s.clk 0 th).readyAt (s.clk + 2) }) x
        = x.modEach ts fun t => Thread.jumpOr s.cur.pc q s.clk ((tgts.find? (·.1 == t)).map (·.2)) := by
    intro ts
    induction ts with
    | nil => intros; rfl
    | cons t ts ih =>
      intro x hp hc
      have e : (match tgts.find? (·.1 == t) with
        | some p => x.modThread t (Thread.jump s.cur.pc p.2 q s.clk)
        | none => x.modThread t fun th =>
          { (Thread.retire s.cur.pc q s.clk 0 th).syncCode with readyAt := Nat.max (Thread.retire s.cur.pc q s.clk 0 th).readyAt (s.clk + 2) })
          = x.modThread t (Thread.jumpOr s.cur.pc q s.clk ((tgts.find? (·.1 == t)).map (·.2))) := by
        cases tgts.find? (·.1 == t) <;> rfl
      simp only [List.foldl_cons, State.modEach, e]
      exact ih _ hp hc
  have hg : ∀ (ts : List Tid) (x : State), x.cur.pc = s.cur.pc → x.clk = s.clk →
      ts.foldl (fun s t => match tgts.find? (·.1 == t) with
        | some p => s.modThread t (Thread.jump s.cur.pc p.2 q s.clk)
        | none => s.modThread t fun th =>
          { (Thread.retire s.cur.pc q s.clk 0 th).syncCode with readyAt := Nat.max (Thread.retire s.cur.pc q s.clk 0 th).readyAt (s.clk + 2) }) x
        = ts.foldl (fun s' t => match tgts.find? (·.1 == t) with
        | some p => s'.modThread t (Thread.jump s.cur.pc p.2 q s.clk)
        | none => s'.modThread t fun th =>
          { (Thread.retire s.cur.pc q s.clk 0 th).syncCode with readyAt := Nat.max (Thread.retire s.cur.pc q s.clk 0 th).readyAt (s.clk + 2) }) x := by
    intro ts
    induction ts with
    | nil => intros; rfl
    | cons t ts ih =>
      intro x hp hc
      simp only [List.foldl_cons, hp, hc]
      apply ih
      · cases tgts.find? (·.1 == t) <;> exact hp
      · cases tgts.find? (·.1 == t) <;> exact hc
  exact (hg s.cur.tids (s.issued q) rfl (s.issued_clk q)).trans (h s.cur.tids (s.issued q) rfl (s.issued_clk q))

theorem Thread.jumpOr_arch (pc : DWord) (q now : Nat) (d : Option DWord) (th : Thread) :
    (Thread.jumpOr pc q now d th).arch = th.arch := by
  cases d with
  | none => have := Thread.retire_arch pc q now 0 th; exact this
  | some d => rfl

theorem State.retireJump_arch (q : Nat) (tgts : List (Tid × DWord)) (u : Tid) :
    ((s.retireJump q tgts).thread u).arch = (s.thread u).arch := by
  rw [State.retireJump_eq]
  exact State.modEach_thread_proj (s.issued q) Thread.arch _ (fun _ _ => Thread.jumpOr_arch _ _ _ _ _) _ u
theorem State.retireJump_block (q : Nat) (tgts : List (Tid × DWord)) (b : Nat) :
    { (s.retireJump q tgts).block b with threads := [] } = { s.block b with threads := [] } := by
  rw [State.retireJump_eq]
  exact State.modEach_block_proj (s.issued q) (fun x => { x with threads := [] }) _ (fun _ _ => rfl) _ b
theorem State.retireJump_ops (q : Nat) (tgts : List (Tid × DWord)) : (s.retireJump q tgts).ops = s.ops := by
  rw [State.retireJump_eq, State.modEach_keeps (·.ops) _ (fun _ _ => rfl)]; rfl
theorem State.retireJump_cur (q : Nat) (tgts : List (Tid × DWord)) : (s.retireJump q tgts).cur = s.cur := by
  rw [State.retireJump_eq, State.modEach_keeps (·.cur) _ (fun _ _ => rfl)]; rfl
theorem State.retireJump_rest (q : Nat) (tgts : List (Tid × DWord)) : (s.retireJump q tgts).rest = s.rest := by
  rw [State.retireJump_eq, State.modEach_keeps State.rest _ (fun _ _ => rfl)]; rfl
theorem State.retireJump_core (q : Nat) (tgts : List (Tid × DWord)) (c : Nat) :
    ((s.retireJump q tgts).core c).arch = (s.core c).arch := by
  rw [State.retireJump_eq, State.modEach_keeps (State.core · c) _ (fun _ _ => rfl)]; exact s.issued_core q c
theorem State.retireJump_sameRest (q : Nat) (tgts : List (Tid × DWord)) : SameRest s (s.retireJump q tgts) :=
  sameRest_of (s.retireJump_rest q tgts) (s.retireJump_core q tgts)
theorem State.retireJump_thread (q : Nat) (tgts : List (Tid × DWord)) (hg : s.groupOk = true) (u : Tid) :
    (s.retireJump q tgts).thread u = if u ∈ s.cur.tids then
      Thread.jumpOr s.cur.pc q s.clk ((tgts.find? (·.1 == u)).map (·.2)) (s.thread u) else s.thread u := by
  rw [State.retireJump_eq]
  exact State.modEach_thread (s.issued q) _ _ (s.groupOk_nodup hg) u fun h => s.groupOk_has hg u h

/-- Retiring with fault points, thread by thread. -/
theorem State.retireFp_thread (q fp : Nat) (hg : s.groupOk = true) (u : Tid) :
    (s.retireFp q fp).thread u = if u ∈ s.cur.tids then Thread.retire s.cur.pc q s.clk fp (s.thread u) else s.thread u := by
  rw [State.retireFp_eq]
  split
  · exact State.modThreads_thread_in (s.issued q) _ _ u ‹_› (s.groupOk_nodup hg) (s.groupOk_has hg u ‹_›)
  · exact State.modThreads_thread_notin (s.issued q) _ _ u ‹_›

end Sys2Proof.Machine
end

