-- ==== Sys2Proof/Laws/Fixed.lean ====
section
/-!
SUPPORT. Laws/Fixed.lean: what the shared shape of the fixed-latency words does (`State.fixed`, `State.fixedP`), said
once: `State.fixed_spec` and `State.fixedP_spec`.
-/

namespace Sys2Proof.Machine

/-! ### Writes in flight -/

theorem mem_insPend (p q : PendW) (l : List PendW) : q ∈ insPend p l ↔ q = p ∨ q ∈ l := by
  induction l with
  | nil => simp [insPend]
  | cons r l ih =>
    simp only [insPend]
    split
    · simp
    · simp only [List.mem_cons, ih]
      exact ⟨fun h => h.elim (fun h => .inr (.inl h)) fun h => h.elim .inl fun h => .inr (.inr h),
        fun h => h.elim (fun h => .inr (.inl h)) fun h => h.elim .inl fun h => .inr (.inr h)⟩

/-- What a sequence of register and predicate writes in flight does: `A` says which register writes, `B` which predicate
writes. -/
structure WroteAt (s s' : State) (due : Nat) (A : Tid → Reg × Word → Prop) (B : Tid → Pred × Bool → Prop) : Prop where
  old : ∀ u, ∀ p ∈ (s.thread u).pend, p ∈ (s'.thread u).pend
  new : ∀ u, ∀ p ∈ (s'.thread u).pend, p ∈ (s.thread u).pend ∨ (p.due = due ∧
    ((∃ w, A u w ∧ ∃ n, w.1 = .x n ∧ p.dst = n.val ∧ p.val = w.2) ∨
     (∃ w, B u w ∧ w.1 ≠ 7 ∧ p.dst = 256 + w.1.val ∧ p.val = if w.2 then 1 else 0)))
  gold : ∀ b, ∀ p ∈ (s.block b).gpend, p ∈ (s'.block b).gpend
  gnew : ∀ b, ∀ p ∈ (s'.block b).gpend, p ∈ (s.block b).gpend ∨ (p.due = due ∧
    ∃ t w, A t w ∧ t.blk = b ∧ ∃ n, w.1 = .g n ∧ p.dst = 192 + n.val ∧ p.val = w.2)
  thr : ∀ u, { s'.thread u with pend := [] } = { s.thread u with pend := [] }
  blk : ∀ b, { s'.block b with threads := [], gpend := [] } = { s.block b with threads := [], gpend := [] }
  cur : s'.cur = s.cur
  ops : s'.ops = s.ops
  rest : s'.rest = s.rest
  core : ∀ c, s'.core c = s.core c
  has : ∀ u, s'.has u = s.has u

theorem WroteAt.refl (s : State) (due : Nat) (A B) : WroteAt s s due A B where
  old _ _ h := h
  new _ _ h := .inl h
  gold _ _ h := h
  gnew _ _ h := .inl h
  thr _ := rfl
  blk _ := rfl
  cur := rfl
  ops := rfl
  rest := rfl
  core _ := rfl
  has _ := rfl

theorem WroteAt.trans {s s' s'' : State} {due : Nat} {A B} (h : WroteAt s s' due A B) (k : WroteAt s' s'' due A B) :
    WroteAt s s'' due A B where
  old u p hp := k.old u p (h.old u p hp)
  new u p hp := (k.new u p hp).elim (h.new u p) .inr
  gold b p hp := k.gold b p (h.gold b p hp)
  gnew b p hp := (k.gnew b p hp).elim (h.gnew b p) .inr
  thr u := (k.thr u).trans (h.thr u)
  blk b := (k.blk b).trans (h.blk b)
  cur := k.cur.trans h.cur
  ops := k.ops.trans h.ops
  rest := k.rest.trans h.rest
  core c := (k.core c).trans (h.core c)
  has u := (k.has u).trans (h.has u)

/-- A write of one more pending value to a thread. -/
theorem wroteAt_thread (s : State) (t : Tid) (w : PendW) (due : Nat) (A B) (hd : w.due = due)
    (hA : (∃ r, A t r ∧ ∃ n, r.1 = .x n ∧ w.dst = n.val ∧ w.val = r.2) ∨
      (∃ r, B t r ∧ r.1 ≠ 7 ∧ w.dst = 256 + r.1.val ∧ w.val = if r.2 then 1 else 0)) :
    WroteAt s (s.modThread t fun th => { th with pend := insPend w th.pend }) due A B where
  old u p hp := by
    by_cases hu : u = t
    · subst hu
      by_cases hh : s.has u = true
      · rw [State.thread_modThread_has _ _ _ hh]; exact (mem_insPend _ _ _).2 (.inr hp)
      · have : s.thread u = {} := by
          simp only [State.has, Bool.and_eq_true, not_and, Bool.not_eq_true, Option.isSome_eq_false_iff,
            Option.isNone_iff_eq_none] at hh
          simp only [State.thread, Tab.getD]
          cases hb : s.blocks.find u.blk with
          | none => simp [State.block, Tab.getD, hb]
          | some b => rw [hh (by simp [hb])]; rfl
        rw [this] at hp; cases hp
    · rw [State.thread_modThread_ne _ _ hu]; exact hp
  new u p hp := by
    by_cases hu : u = t
    · subst hu
      by_cases hh : s.has u = true
      · rw [State.thread_modThread_has _ _ _ hh] at hp
        rcases (mem_insPend _ _ _).1 hp with rfl | hp
        · exact .inr ⟨hd, hA⟩
        · exact .inl hp
      · have : (s.modThread u fun th => { th with pend := insPend w th.pend }).thread u = {} := by
          rw [← State.has_modThread s u u (fun th => { th with pend := insPend w th.pend })] at hh
          generalize (s.modThread u fun th => { th with pend := insPend w th.pend }) = x at *
          simp only [State.has, Bool.and_eq_true, not_and, Bool.not_eq_true, Option.isSome_eq_false_iff,
            Option.isNone_iff_eq_none] at hh
          simp only [State.thread, Tab.getD]
          cases hb : x.blocks.find u.blk with
          | none => simp [State.block, Tab.getD, hb]
          | some b => rw [hh (by simp [hb])]; rfl
        rw [this] at hp; cases hp
    · rw [State.thread_modThread_ne _ _ hu] at hp; exact .inl hp
  gold b p hp := by
    rw [s.block_modThread_proj t b _ (·.gpend) (fun _ _ => rfl)]; exact hp
  gnew b p hp := by
    rw [s.block_modThread_proj t b _ (·.gpend) (fun _ _ => rfl)] at hp; exact .inl hp
  thr u := s.thread_modThread_proj t u (fun th => { th with pend := insPend w th.pend }) (fun v => { v with pend := [] }) (fun _ => rfl)
  blk b := s.block_modThread_proj t b (fun th => { th with pend := insPend w th.pend }) (fun v => { v with threads := [], gpend := [] }) (fun _ _ => rfl)
  cur := rfl
  ops := rfl
  rest := rfl
  core _ := rfl
  has u := State.has_modThread _ _ _ _

theorem wroteAt_wrAt (s : State) (t : Tid) (r : Reg) (v : Word) (due q : Nat) (A B) (hA : A t (r, v)) :
    WroteAt s (s.wrAt t r v due q) due A B := by
  cases r with
  | xz => exact .refl _ _ _ _
  | x n => exact wroteAt_thread s t _ due A B rfl (.inl ⟨_, hA, n, rfl, rfl, rfl⟩)
  | g n =>
    simp only [State.wrAt]
    generalize hw : (⟨192 + n.val, v, due, q, _⟩ : PendW) = w
    have hw1 : w.dst = 192 + n.val ∧ w.val = v ∧ w.due = due := by subst hw; exact ⟨rfl, rfl, rfl⟩
    exact
    { old := fun u p hp => by
        rw [show (State.thread (s.modBlock t.blk fun b => { b with gpend := insPend w b.gpend }) u).pend = (s.thread u).pend from
          s.block_modBlock_proj t.blk u.blk (fun b => { b with gpend := insPend w b.gpend }) (fun b => (b.threads.getD u.idx {}).pend) (fun _ => rfl)]; exact hp
      new := fun u p hp => by
        rw [show (State.thread (s.modBlock t.blk fun b => { b with gpend := insPend w b.gpend }) u).pend = (s.thread u).pend from
          s.block_modBlock_proj t.blk u.blk (fun b => { b with gpend := insPend w b.gpend }) (fun b => (b.threads.getD u.idx {}).pend) (fun _ => rfl)] at hp
        exact .inl hp
      gold := fun b p hp => by
        by_cases hb : b = t.blk
        · subst hb
          cases hf : s.blocks.find t.blk with
          | none => simp only [State.block, Tab.getD, hf] at hp; cases hp
          | some k =>
            rw [s.block_modBlock_self _ _ (by simp [hf])]
            exact (mem_insPend _ _ _).2 (.inr hp)
        · rw [s.block_modBlock_ne _ hb]; exact hp
      gnew := fun b p hp => by
        by_cases hb : b = t.blk
        · subst hb
          cases hf : s.blocks.find t.blk with
          | none => simp [State.block, State.modBlock, Tab.getD, Tab.find_upd, hf] at hp
          | some k =>
            rw [s.block_modBlock_self _ _ (by simp [hf])] at hp
            rcases (mem_insPend _ _ _).1 hp with rfl | hp
            · exact .inr ⟨hw1.2.2, t, (.g n, v), hA, rfl, n, rfl, hw1.1, hw1.2.1⟩
            · exact .inl hp
        · rw [s.block_modBlock_ne _ hb] at hp; exact .inl hp
      thr := fun u => s.block_modBlock_proj t.blk u.blk (fun b => { b with gpend := insPend w b.gpend }) (fun b => { (b.threads.getD u.idx {} : Thread) with pend := [] }) (fun _ => rfl)
      blk := fun b => s.block_modBlock_proj t.blk b (fun b => { b with gpend := insPend w b.gpend }) (fun b => { b with threads := [], gpend := [] }) (fun _ => rfl)
      cur := rfl
      ops := rfl
      rest := rfl
      core := fun _ => rfl
      has := fun u => by
        have h1 : ((s.modBlock t.blk fun b => { b with gpend := insPend w b.gpend }).blocks.find u.blk).isSome
            = (s.blocks.find u.blk).isSome := by simp [State.modBlock]
        have h2 := s.block_modBlock_proj t.blk u.blk (fun b => { b with gpend := insPend w b.gpend })
          (fun b => (b.threads.find u.idx).isSome) (fun _ => rfl)
        simp only [State.has, h1, h2] }

theorem wroteAt_wrPAt (s : State) (t : Tid) (p : Pred) (v : Bool) (due q : Nat) (A B) (hB : B t (p, v)) :
    WroteAt s (s.wrPAt t p v due q) due A B := by
  simp only [State.wrPAt]
  split
  · exact .refl _ _ _ _
  · exact wroteAt_thread s t _ due A B rfl (.inr ⟨_, hB, ‹_›, rfl, rfl⟩)

/-- A fold of steps that each only add writes adds only writes. -/
theorem wroteAt_foldl {β : Type} (g : State → β → State) (due : Nat) (A B) (l : List β)
    (h : ∀ s, ∀ x ∈ l, WroteAt s (g s x) due A B) : ∀ s, WroteAt s (l.foldl g s) due A B := by
  induction l with
  | nil => exact fun s => .refl _ _ _ _
  | cons x l ih =>
    intro s
    exact (h s x List.mem_cons_self).trans (ih (fun s y hy => h s y (List.mem_cons_of_mem _ hy)) _)

theorem WroteAt.inFlight {s s' : State} {due : Nat} {A B} (h : WroteAt s s' due A B) {t : Tid} {r : Reg} {v : Word}
    {d : Nat} (hf : s.inFlight t r v d) : s'.inFlight t r v d := by
  cases r with
  | xz => trivial
  | x n => obtain ⟨p, hp, hr⟩ := hf; exact ⟨p, h.old _ p hp, hr⟩
  | g n => obtain ⟨p, hp, hr⟩ := hf; exact ⟨p, h.gold _ p hp, hr⟩

/-- A write of a thread that exists is in flight after it. -/
theorem State.wrAt_inFlight (s : State) (t : Tid) (r : Reg) (v : Word) (due q : Nat) (hh : s.has t = true) :
    (s.wrAt t r v due q).inFlight t r v due := by
  cases r with
  | xz => trivial
  | x n =>
    simp only [State.wrAt, State.inFlight, State.thread_modThread_has _ _ _ hh]
    exact ⟨_, (mem_insPend _ _ _).2 (.inl rfl), rfl, rfl, rfl⟩
  | g n =>
    simp only [State.wrAt, State.inFlight, State.block_modBlock_self _ _ _ ((s.has_iff t).1 hh).1]
    exact ⟨_, (mem_insPend _ _ _).2 (.inl rfl), rfl, rfl, rfl⟩

theorem State.wrPAt_inFlight (s : State) (t : Tid) (p : Pred) (v : Bool) (due q : Nat) (hh : s.has t = true) (hp : p ≠ 7) :
    ∃ w ∈ ((s.wrPAt t p v due q).thread t).pend, w.dst = 256 + p.val ∧ w.val = (if v then 1 else 0) ∧ w.due = due := by
  simp only [State.wrPAt, if_neg hp, State.thread_modThread_has _ _ _ hh]
  exact ⟨_, (mem_insPend _ _ _).2 (.inl rfl), rfl, rfl, rfl⟩

/-- What a fold of writing steps leaves in flight for one of its items. -/
theorem foldl_inFlight {β : Type} (g : State → β → State) (due : Nat) (A B) (P : State → Prop) (l : List β) (x : β)
    (hx : x ∈ l) (h : ∀ s, ∀ y ∈ l, WroteAt s (g s y) due A B) (hk : ∀ s s', WroteAt s s' due A B → P s → P s')
    (H : State → Prop) (hH : ∀ s s', WroteAt s s' due A B → H s → H s') (hg : ∀ s, H s → P (g s x)) :
    ∀ s, H s → P (l.foldl g s) := by
  induction l with
  | nil => cases hx
  | cons y l ih =>
    intro s hs
    have h' : ∀ s, ∀ z ∈ l, WroteAt s (g s z) due A B := fun s z hz => h s z (List.mem_cons_of_mem _ hz)
    simp only [List.foldl_cons]
    rcases List.mem_cons.1 hx with rfl | hx
    · exact hk _ _ (wroteAt_foldl g due A B l h' _) (hg s hs)
    · exact ih hx h' _ (hH _ _ (h s y List.mem_cons_self) hs)

/-! ### The fixed-latency words -/

/-- The writes of a fixed-latency word, before it retires. -/
def State.fixedWrites (s : State) (q : Nat) (h : Hdr) (due : Nat) (f : Tid → List (Reg × Word)) : State :=
  (s.act h).foldl (fun s' t =>
    (f t).foldl (fun s' p => if writesReg (s.act h) t p.1 then s'.wrAt t p.1 p.2 due q else s') s') s

theorem State.fixed_eq (s : State) (q : Nat) (h : Hdr) (lat : Nat) (f : Tid → List (Reg × Word)) :
    s.fixed q h lat f = ((s.fixedWrites q h (s.clk + lat) f).retire q).useFree := rfl

theorem State.fixedWrites_wrote (s : State) (q : Nat) (h : Hdr) (due : Nat) (f : Tid → List (Reg × Word)) :
    WroteAt s (s.fixedWrites q h due f) due
      (fun t w => t ∈ s.act h ∧ w ∈ f t ∧ writesReg (s.act h) t w.1 = true) (fun _ _ => False) := by
  refine wroteAt_foldl _ _ _ _ _ (fun x t ht => wroteAt_foldl _ _ _ _ _ (fun y p hp => ?_) x) s
  split
  · exact wroteAt_wrAt _ _ _ _ _ _ _ _ ⟨ht, hp, ‹_›⟩
  · exact .refl _ _ _ _

theorem State.fixedWrites_inFlight (s : State) (q : Nat) (h : Hdr) (due : Nat) (f : Tid → List (Reg × Word)) (t : Tid)
    (ht : t ∈ s.act h) (hh : s.has t = true) (p : Reg × Word) (hp : p ∈ f t) (hw : writesReg (s.act h) t p.1 = true) :
    (s.fixedWrites q h due f).inFlight t p.1 p.2 due := by
  let A := fun (t : Tid) (w : Reg × Word) => t ∈ s.act h ∧ w ∈ f t ∧ writesReg (s.act h) t w.1 = true
  let B := fun (_ : Tid) (_ : Pred × Bool) => False
  have step : ∀ (t : Tid) (ht : t ∈ s.act h) (x : State), ∀ w ∈ f t,
      WroteAt x (if writesReg (s.act h) t w.1 then x.wrAt t w.1 w.2 due q else x) due A B := by
    intro t ht x w hw
    split
    · exact wroteAt_wrAt _ _ _ _ _ _ _ _ ⟨ht, hw, ‹_›⟩
    · exact .refl _ _ _ _
  refine foldl_inFlight _ due A B (fun x => x.inFlight t p.1 p.2 due) _ t ht
    (fun x u hu => wroteAt_foldl _ _ _ _ _ (step u hu) x) (fun _ _ k hf => k.inFlight hf) (fun x => x.has t = true)
    (fun _ _ k hx => (k.has t).trans hx) ?_ s hh
  intro x hx
  refine foldl_inFlight _ due A B (fun x => x.inFlight t p.1 p.2 due) _ p hp (step t ht) (fun _ _ k hf => k.inFlight hf)
    (fun x => x.has t = true) (fun _ _ k hx => (k.has t).trans hx) ?_ x hx
  intro y hy
  rw [if_pos hw]
  exact State.wrAt_inFlight _ _ _ _ _ _ hy

theorem State.inFlight_retire (s : State) (q fp : Nat) (t : Tid) (r : Reg) (v : Word) (d : Nat) :
    ((s.retireFp q fp).useFree).inFlight t r v d ↔ s.inFlight t r v d := by
  have h1 : ((s.retireFp q fp).thread t).pend = (s.thread t).pend := by
    have := congrArg Thread.pend (s.retireFp_thread_arch q fp t); exact this
  have h2 : ((s.retireFp q fp).block t.blk).gpend = (s.block t.blk).gpend := by
    have := congrArg Block.gpend (s.retireFp_block q fp t.blk); exact this
  cases r <;> simp [State.inFlight, h1, h2]

/-- A fixed-latency word has the effect of its results and no other. -/
theorem State.fixed_spec (s : State) (q : Nat) (h : Hdr) (lat : Nat) (f : Tid → List (Reg × Word))
    (hg : s.groupOk = true) : Fixed s (s.fixed q h lat f) h lat f := by
  have w := s.fixedWrites_wrote q h (s.clk + lat) f
  have hh := s.groupOk_has hg
  rw [State.fixed_eq]
  generalize hx : s.fixedWrites q h (s.clk + lat) f = x at w
  have ha := x.retireFp_thread_arch q 0
  have hb := x.retireFp_block q 0
  have hp : ∀ u, ((x.retireFp q 0).thread u).pend = (x.thread u).pend := fun u => by
    have := congrArg Thread.pend (ha u); exact this
  have hgp : ∀ b, ((x.retireFp q 0).block b).gpend = (x.block b).gpend := fun b => by
    have := congrArg Block.gpend (hb b); exact this
  refine ⟨?_, ⟨?_, ?_, ?_, ?_⟩, ?_, ?_, ?_, ?_, ?_, ?_⟩
  · intro t ht p hp hw
    exact (State.inFlight_retire _ _ _ _ _ _ _).2
      (hx ▸ s.fixedWrites_inFlight q h _ f t ht (hh t (s.act_sub h t ht)) p hp hw)
  · intro u p hpm
    show p ∈ ((x.retireFp q 0).thread u).pend
    rw [hp]; exact w.old u p hpm
  · intro u p hpm
    replace hpm : p ∈ ((x.retireFp q 0).thread u).pend := hpm
    rw [hp] at hpm
    rcases w.new u p hpm with h1 | ⟨hd, ⟨r, ⟨ht, hr, _⟩, n, e⟩ | ⟨_, hf, _⟩⟩
    · exact .inl h1
    · exact .inr ⟨ht, hd, r, hr, n, e⟩
    · exact hf.elim
  · intro b p hpm
    show p ∈ ((x.retireFp q 0).block b).gpend
    rw [hgp]; exact w.gold b p hpm
  · intro b p hpm
    replace hpm : p ∈ ((x.retireFp q 0).block b).gpend := hpm
    rw [hgp] at hpm
    rcases w.gnew b p hpm with h1 | ⟨hd, t, r, ⟨ht, hr, hw⟩, hb, n, e⟩
    · exact .inl h1
    · refine .inr ⟨hd, t, ht, hb, ?_, r, hr, n, e⟩
      rw [e.1] at hw
      simp only [writesReg, beq_iff_eq] at hw
      rw [← hb]; exact hw
  · intro u
    show { ((x.retireFp q 0).thread u).arch with pend := [] } = _
    rw [ha u]
    have := congrArg Thread.arch (w.thr u); exact this
  · intro u hu
    show (x.retireFp q 0).thread u = s.thread u
    rw [State.retireFp_thread_notin _ _ _ _ (by rw [w.cur]; exact hu)]
    have he : (x.thread u).pend = (s.thread u).pend := by
      rw [← hx, State.fixedWrites]
      refine List.foldlRecOn (s.act h) _ (motive := fun x => (State.thread x u).pend = (s.thread u).pend) rfl ?_
      intro y hy t ht
      have hne : u ≠ t := fun e => hu (e ▸ s.act_sub h t ht)
      refine List.foldlRecOn (f t) _ (motive := fun x => (State.thread x u).pend = (s.thread u).pend) hy ?_
      intro z hz r hr
      split
      · rw [← hz]
        cases r.1 with
        | xz => rfl
        | x n => simp only [State.wrAt, State.thread_modThread_ne _ _ hne]
        | g n =>
          exact z.block_modBlock_proj t.blk u.blk _ (fun b => (b.threads.getD u.idx {}).pend) (fun _ => rfl)
      · exact hz
    have := w.thr u
    cases hxu : x.thread u; cases hsu : s.thread u
    simp_all
  · intro b
    show { (x.retireFp q 0).block b with threads := [], gpend := [] } = _
    have h1 := congrArg (fun k : Block => { k with gpend := [] }) (hb b)
    exact h1.trans (w.blk b)
  · show (x.retireFp q 0).ops = _
    rw [State.retireFp_ops]; exact w.ops
  · refine sameRest_of ?_ fun c => ?_
    · show (x.retireFp q 0).rest = _
      rw [State.retireFp_rest]; exact w.rest
    · show ((x.retireFp q 0).core c).arch = _
      rw [State.retireFp_core, w.core]
  · intro t ht hpc hl hw
    have hf := x.retireFp_falls q 0 (by rw [w.cur]; exact s.groupOk_nodup hg)
      (fun t ht => (w.has t).trans (hh t (by rw [w.cur] at ht; exact ht))) t (by rw [w.cur]; exact ht)
    have e := w.thr t
    have e1 : (x.thread t).pc = (s.thread t).pc := by have := congrArg Thread.pc e; exact this
    have e2 : (x.thread t).loops = (s.thread t).loops := by have := congrArg Thread.loops e; exact this
    have e3 : (x.thread t).win = (s.thread t).win := by have := congrArg Thread.win e; exact this
    rw [w.cur, e1, e2, e3] at hf
    exact hf hpc (by simpa [Thread.atLoopEnd, e2] using hl) hw

/-- A word's predicate writes, thread by thread. -/
def State.predWrites (s : State) (q : Nat) (ts : List Tid) (due : Nat) (f : Tid → List (Pred × Bool)) : State :=
  ts.foldl (fun s' t => (f t).foldl (fun s' p => s'.wrPAt t p.1 p.2 due q) s') s

theorem State.predWrites_wrote (s : State) (q : Nat) (ts : List Tid) (due : Nat) (f : Tid → List (Pred × Bool)) :
    WroteAt s (s.predWrites q ts due f) due (fun _ _ => False) (fun t w => t ∈ ts ∧ w ∈ f t) := by
  refine wroteAt_foldl _ _ _ _ _ (fun x t ht => wroteAt_foldl _ _ _ _ _ (fun y p hp => ?_) x) s
  exact wroteAt_wrPAt _ _ _ _ _ _ _ _ ⟨ht, hp⟩

/-- The predicate words: their writes, then the word retires. -/
theorem State.predWrites_spec (s : State) (q : Nat) (h : Hdr) (lat : Nat) (f : Tid → List (Pred × Bool))
    (hg : s.groupOk = true) : FixedP s (((s.predWrites q (s.act h) (s.clk + lat) f).retire q).useFree) h lat f := by
  have w := s.predWrites_wrote q (s.act h) (s.clk + lat) f
  have hh := s.groupOk_has hg
  generalize hx : s.predWrites q (s.act h) (s.clk + lat) f = x at w
  have ha := x.retireFp_thread_arch q 0
  have hb := x.retireFp_block q 0
  have hp : ∀ u, ((x.retireFp q 0).thread u).pend = (x.thread u).pend := fun u => by
    have := congrArg Thread.pend (ha u); exact this
  refine ⟨?_, ?_, ?_, ?_, ?_, ?_, ?_, ?_, ?_⟩
  · intro t ht p hpm hne
    show ∃ w ∈ ((x.retireFp q 0).thread t).pend, _
    rw [hp, ← hx]
    let A := fun (_ : Tid) (_ : Reg × Word) => False
    let B := fun (t : Tid) (w : Pred × Bool) => t ∈ s.act h ∧ w ∈ f t
    let P := fun (x : State) => ∃ w ∈ (x.thread t).pend, w.dst = 256 + p.1.val ∧ w.val = (if p.2 then 1 else 0) ∧
      w.due = s.clk + lat
    have hk : ∀ y z, WroteAt y z (s.clk + lat) A B → P y → P z := fun y z k ⟨w, hw, e⟩ => ⟨w, k.old _ w hw, e⟩
    refine foldl_inFlight _ (s.clk + lat) A B P _ t ht
      (fun y u hu => wroteAt_foldl _ _ _ _ _ (fun z w hw => wroteAt_wrPAt _ _ _ _ _ _ _ _ ⟨hu, hw⟩) y) hk
      (fun y => y.has t = true) (fun _ _ k hy => (k.has t).trans hy) ?_ s (hh t (s.act_sub h t ht))
    intro y hy
    exact foldl_inFlight _ (s.clk + lat) A B P _ p hpm
      (fun z w hw => wroteAt_wrPAt _ _ _ _ _ _ _ _ ⟨ht, hw⟩) hk (fun y => y.has t = true)
      (fun _ _ k hy => (k.has t).trans hy) (fun z hz => State.wrPAt_inFlight _ _ _ _ _ _ hz hne) y hy
  · intro u p hpm
    show p ∈ ((x.retireFp q 0).thread u).pend
    rw [hp]; exact w.old u p hpm
  · intro u p hpm
    replace hpm : p ∈ ((x.retireFp q 0).thread u).pend := hpm
    rw [hp] at hpm
    rcases w.new u p hpm with h1 | ⟨hd, ⟨_, hf, _⟩ | ⟨r, ⟨ht, hr⟩, e⟩⟩
    · exact .inl h1
    · exact hf.elim
    · exact .inr ⟨ht, hd, r, hr, e⟩
  · intro u
    show { ((x.retireFp q 0).thread u).arch with pend := [] } = _
    rw [ha u]
    have := congrArg Thread.arch (w.thr u); exact this
  · intro u hu
    show (x.retireFp q 0).thread u = s.thread u
    rw [State.retireFp_thread_notin _ _ _ _ (by rw [w.cur]; exact hu), ← hx, State.predWrites]
    refine List.foldlRecOn (s.act h) _ (motive := fun x => State.thread x u = s.thread u) rfl ?_
    intro y hy t ht
    have hne : u ≠ t := fun e => hu (e ▸ s.act_sub h t ht)
    refine List.foldlRecOn (f t) _ (motive := fun x => State.thread x u = s.thread u) hy ?_
    intro z hz r hr
    simp only [State.wrPAt]
    split
    · exact hz
    · rw [State.thread_modThread_ne _ _ hne]; exact hz
  · intro b
    show { (x.retireFp q 0).block b with threads := [] } = _
    have hgp : (x.block b).gpend = (s.block b).gpend := by
      rw [← hx, State.predWrites]
      refine List.foldlRecOn (s.act h) _ (motive := fun x => (State.block x b).gpend = (s.block b).gpend) rfl ?_
      intro y hy t ht
      refine List.foldlRecOn (f t) _ (motive := fun x => (State.block x b).gpend = (s.block b).gpend) hy ?_
      intro z hz r hr
      simp only [State.wrPAt]
      split
      · exact hz
      · rw [z.block_modThread_proj t b _ (·.gpend) (fun _ _ => rfl)]; exact hz
    rw [hb b]
    have := w.blk b
    cases hxb : x.block b; cases hsb : s.block b
    simp_all
  · show (x.retireFp q 0).ops = _
    rw [State.retireFp_ops]; exact w.ops
  · refine sameRest_of ?_ fun c => ?_
    · show (x.retireFp q 0).rest = _
      rw [State.retireFp_rest]; exact w.rest
    · show ((x.retireFp q 0).core c).arch = _
      rw [State.retireFp_core, w.core]
  · intro t ht hpc hl hw
    have hf := x.retireFp_falls q 0 (by rw [w.cur]; exact s.groupOk_nodup hg)
      (fun t ht => (w.has t).trans (hh t (by rw [w.cur] at ht; exact ht))) t (by rw [w.cur]; exact ht)
    have e := w.thr t
    have e1 : (x.thread t).pc = (s.thread t).pc := by have := congrArg Thread.pc e; exact this
    have e2 : (x.thread t).loops = (s.thread t).loops := by have := congrArg Thread.loops e; exact this
    have e3 : (x.thread t).win = (s.thread t).win := by have := congrArg Thread.win e; exact this
    rw [w.cur, e1, e2, e3] at hf
    exact hf hpc (by simpa [Thread.atLoopEnd, e2] using hl) hw

/-- A word that writes one predicate. -/
theorem State.fixedP_spec (s : State) (q : Nat) (h : Hdr) (lat : Nat) (p : Pred) (f : Tid → Bool)
    (hg : s.groupOk = true) : FixedP s (s.fixedP q h lat p f) h lat fun t => [(p, f t)] :=
  s.predWrites_spec q h lat (fun t => [(p, f t)]) hg

/-- What follows a word in its core's bookkeeping alone leaves it complete. -/
theorem Fixed.modCore {s s' : State} {h : Hdr} {lat : Nat} {f : Tid → List (Reg × Word)} (k : Fixed s s' h lat f) (c : Nat)
    (g : Core → Core) (hg : ∀ x, (g x).arch = x.arch) : Fixed s (s'.modCore c g) h lat f := by
  obtain ⟨h1, h2, h3, h4, h5, h6, h7, h8⟩ := k
  refine ⟨h1, h2, h3, h4, h5, h6, sameRest_of h7.1 fun d => ?_, h8⟩
  rw [State.core_modCore]
  split
  · subst d; rw [hg]; exact h7.2.1 c
  · exact h7.2.1 d

theorem FixedP.modCore {s s' : State} {h : Hdr} {lat : Nat} {f : Tid → List (Pred × Bool)} (k : FixedP s s' h lat f) (c : Nat)
    (g : Core → Core) (hg : ∀ x, (g x).arch = x.arch) : FixedP s (s'.modCore c g) h lat f := by
  obtain ⟨h1, h2, h3, h4, h5, h6, h7, h8, h9⟩ := k
  refine ⟨h1, h2, h3, h4, h5, h6, h7, sameRest_of h8.1 fun d => ?_, h9⟩
  rw [State.core_modCore]
  split
  · subst d; rw [hg]; exact h8.2.1 c
  · exact h8.2.1 d

/-- A word that is a fixed-latency word, perhaps followed by bookkeeping of its core, gives its results. -/
theorem State.gives_of (s : State) {h : Hdr} {i : Instr} {lat q : Nat} {f g : Tid → List (Reg × Word)} {s' : State}
    (hg : s.groupOk = true) (he : exec i s = .next s') (hs : Fixed s (s.fixed q h lat f) h lat f → Fixed s s' h lat f)
    (hf : ∀ t, f t = g t) : s.gives h i lat g := by
  have : f = g := funext hf
  subst this
  exact ⟨s', he, hs (s.fixed_spec q h lat f hg)⟩

/-- As `gives_of`, for the words with predicate results. -/
theorem State.givesP_of (s : State) {h : Hdr} {i : Instr} {lat : Nat} {f g : Tid → List (Pred × Bool)} {s' : State}
    (he : exec i s = .next s') (hs : FixedP s s' h lat f) (hf : ∀ t, f t = g t) : s.givesP h i lat g := by
  have : f = g := funext hf
  subst this
  exact ⟨s', he, hs⟩

end Sys2Proof.Machine
end

