-- ==== Sys2Proof/Laws/Int.lean ====
section
/-!
SUPPORT. Laws/Int.lean: the values of the integer words (Machine/Int.lean, Machine/Flags.lean) as the operations of core
Lean on bit vectors.
-/

namespace Sys2Proof.Machine

theorem wordOf_add (x y : Word) : wordOf (x.toInt + y.toInt) = x + y := by
  simp [wordOf, BitVec.ofInt_add]
theorem wordOf_sub (x y : Word) : wordOf (x.toInt - y.toInt) = x - y := by
  apply BitVec.eq_of_toInt_eq
  simp [wordOf, BitVec.toInt_ofInt, BitVec.toInt_sub]
theorem wordOf_mad (x y z : Word) : wordOf (x.toInt * y.toInt + z.toInt) = x * y + z := by
  simp [wordOf, BitVec.ofInt_add, BitVec.ofInt_mul]
theorem clampInt_signed (v : Int) : clampInt false v = BitVec.ofInt 32 (max (-2 ^ 31) (min (2 ^ 31 - 1) v)) := by
  unfold clampInt wordOf
  simp only [Bool.false_eq_true, if_false]
  split
  · rw [show max (-2 ^ 31) (min (2 ^ 31 - 1) v) = -2^31 by omega]; decide
  · split
    · rw [show max (-2 ^ 31) (min (2 ^ 31 - 1) v) = 2^31-1 by omega]; decide
    · rw [show max (-2 ^ 31) (min (2 ^ 31 - 1) v) = v by omega]
theorem clampInt_unsigned (v : Int) : clampInt true v = BitVec.ofInt 32 (max 0 (min (2 ^ 32 - 1) v)) := by
  unfold clampInt wordOf
  simp only [if_true]
  split
  · rw [show max 0 (min (2 ^ 32 - 1) v) = 0 by omega]; decide
  · split
    · rw [show max 0 (min (2 ^ 32 - 1) v) = 2^32-1 by omega]; decide
    · rw [show max 0 (min (2 ^ 32 - 1) v) = v by omega]
theorem mulHigh_unsigned (x y : Word) : mulHigh true x y = (x.zeroExtend 64 * y.zeroExtend 64).extractLsb' 32 32 := by
  unfold mulHigh
  simp only [if_true]
  apply BitVec.eq_of_toNat_eq
  have hx := x.isLt; have hy := y.isLt
  have : x.toNat * y.toNat < 2^64 := Nat.lt_of_lt_of_le (Nat.mul_lt_mul'' hx hy) (by decide)
  have h : x.toNat * y.toNat % 18446744073709551616 = x.toNat * y.toNat := Nat.mod_eq_of_lt this
  have h1 : x.toNat % 18446744073709551616 = x.toNat := Nat.mod_eq_of_lt (by omega)
  have h2 : y.toNat % 18446744073709551616 = y.toNat := Nat.mod_eq_of_lt (by omega)
  simp [BitVec.toNat_mul, Nat.shiftRight_eq_div_pow, h, h1, h2]
theorem mulHigh_signed (x y : Word) : mulHigh false x y = (x.signExtend 64 * y.signExtend 64).extractLsb' 32 32 := by
  unfold mulHigh
  simp only [Bool.false_eq_true, if_false]
  have key : (x.signExtend 64 * y.signExtend 64) = BitVec.ofInt 64 (x.toInt * y.toInt) := by
    rw [BitVec.ofInt_mul]
    congr 1 <;> simp [BitVec.signExtend]
  rw [key]
  apply BitVec.eq_of_toNat_eq
  generalize x.toInt * y.toInt = v
  simp only [BitVec.extractLsb'_toNat, BitVec.toNat_ofInt, Nat.shiftRight_eq_div_pow]
  omega
theorem imin_signed (x y : Word) : (if compareInt x y .le false = true then x else y) = if x.slt y then x else y := by
  simp only [compareInt, Bool.false_eq_true, if_false, decide_eq_true_eq, BitVec.slt]
  split <;> split <;> try rfl
  · apply BitVec.eq_of_toInt_eq; omega
  · omega
theorem imin_unsigned (x y : Word) : (if compareInt x y .le true = true then x else y) = if x.ult y then x else y := by
  simp only [compareInt, if_true, decide_eq_true_eq, BitVec.ult]
  split <;> split <;> try rfl
  · apply BitVec.eq_of_toNat_eq; omega
  · omega
theorem imax_signed (x y : Word) : (if compareInt x y .ge false = true then x else y) = if x.slt y then y else x := by
  simp only [compareInt, Bool.false_eq_true, if_false, decide_eq_true_eq, BitVec.slt]
  split <;> split <;> try rfl
  · omega
  · apply BitVec.eq_of_toInt_eq; omega
theorem imax_unsigned (x y : Word) : (if compareInt x y .ge true = true then x else y) = if x.ult y then y else x := by
  simp only [compareInt, if_true, decide_eq_true_eq, BitVec.ult]
  split <;> split <;> try rfl
  · omega
  · apply BitVec.eq_of_toNat_eq; omega
theorem bitOf_31 (x : Word) : bitOf x 31 = x.msb := by
  simp only [bitOf, BitVec.msb_eq_getLsbD_last, BitVec.getLsbD, Nat.testBit_eq_decide_div_mod_eq]
  rfl
theorem absInt_wrap (x : Word) : absInt false x = x.abs := by
  unfold absInt BitVec.abs
  simp only [bitOf_31, Bool.false_eq_true, if_false]
  split
  · subst_vars; decide
  · simp
theorem absInt_sat (x : Word) : absInt true x = if x = 0x80000000 then 0x7FFFFFFF else x.abs := by
  unfold absInt BitVec.abs
  simp only [bitOf_31, if_true]
  split
  · rfl
  · simp
theorem shiftLeft_eq (x n : Word) : shiftLeft x n = x <<< n.toNat := by
  unfold shiftLeft; split
  · rw [BitVec.shiftLeft_eq_zero ‹_›]; rfl
  · rfl
theorem shiftRight_eq (x n : Word) : shiftRight x n = x >>> n.toNat := by
  unfold shiftRight; split
  · rw [BitVec.ushiftRight_eq_zero ‹_›]; rfl
  · rfl
theorem shiftArith_eq (x n : Word) : shiftArith x n = x.sshiftRight n.toNat := by
  unfold shiftArith
  by_cases h : n.toNat ≤ 32
  · rw [show Nat.min 32 n.toNat = n.toNat from Nat.min_eq_right h]
  · rw [show Nat.min 32 n.toNat = 32 from Nat.min_eq_left (by omega)]
    ext i hi
    simp only [BitVec.getElem_sshiftRight]
    have : ¬ (n.toNat + i < 32) := by omega
    have : ¬ (32 + i < 32) := by omega
    simp [*]
theorem rotLeft_eq (x n : Word) : rotLeft x n = x.rotateLeft (n.toNat % 32) := by
  simp [rotLeft, fld]
theorem popcount_eq (x : Word) : BitVec.ofNat 32 (popcount x) = x.cpop := by
  have : ∀ n acc, (List.range n).foldl (fun k i => k + if x.getLsbD i then 1 else 0) acc = x.cpopNatRec n acc := by
    intro n
    induction n with
    | zero => intro acc; simp
    | succ n ih =>
      intro acc
      rw [List.range_succ, List.foldl_append, ih, BitVec.cpopNatRec_succ]
      simp only [List.foldl_cons, List.foldl_nil]
      have h1 := @BitVec.cpopNatRec_eq 32 x n (acc + (x.getLsbD n).toNat)
      have h2 := @BitVec.cpopNatRec_eq 32 x n acc
      rw [h1, h2]
      cases x.getLsbD n <;> rfl
  simp only [popcount, this, BitVec.cpop]
theorem leadZeros_eq (x : Word) : BitVec.ofNat 32 (leadZeros x) = x.clz := by
  apply BitVec.eq_of_toNat_eq
  unfold leadZeros
  split
  · subst_vars; decide
  · have h : x ≠ 0 := ‹_›
    have h1 := @BitVec.two_pow_sub_clz_le_toNat_of_ne_zero 32 x (by decide) h
    have h2 := @BitVec.toNat_lt_two_pow_sub_clz 32 x
    have h3 : x.clz.toNat < 32 := by
      have := BitVec.clz_lt_iff_ne_zero.2 h
      simpa [BitVec.lt_def] using this
    have h0 : x.toNat ≠ 0 := fun e => h (BitVec.eq_of_toNat_eq (by simpa using e))
    have a := (Nat.le_log2 h0).2 h1
    have b := (Nat.log2_lt h0).2 h2
    simp only [BitVec.toNat_ofNat]
    omega
theorem bitRev_eq (x : Word) : bitRev x = x.reverse := by
  have : ∀ n ≤ 32, ∀ k, ((List.range n).foldl (fun (r : Word) i => if x.getLsbD (31 - i) then r ||| BitVec.ofNat 32 (1 <<< i) else r) 0#32).getLsbD k
      = (decide (k < n) && x.getLsbD (31 - k)) := by
    intro n
    induction n with
    | zero => simp
    | succ n ih =>
      intro hn k
      rw [List.range_succ, List.foldl_append]
      simp only [List.foldl_cons, List.foldl_nil]
      have e := ih (by omega) k
      have hb : (BitVec.ofNat 32 (1 <<< n)).getLsbD k = (decide (k < 32) && decide (n = k)) := by
        rw [BitVec.getLsbD_ofNat, Nat.one_shiftLeft, Nat.testBit_two_pow]
      by_cases hk : k = n
      · subst hk
        split
        · rw [BitVec.getLsbD_or, e, hb]; simp [*]; omega
        · rw [e]; simp [*]
      · have hlt : (k < n + 1) = (k < n) := by simp; omega
        split
        · rw [BitVec.getLsbD_or, e, hb]; simp [hlt, Ne.symm hk]
        · rw [e]; simp [hlt]
  apply BitVec.eq_of_getLsbD_eq
  intro i hi
  simp [bitRev, this 32 (Nat.le_refl _), BitVec.getLsbD_reverse, BitVec.getMsbD]

theorem bits_div (n i : Nat) : decide (n / 2 ^ i % 2 = 1) = n.testBit i := by
  rw [Nat.testBit_eq_decide_div_mod_eq]

/-- An extracted field, bit by bit. -/
theorem fld_testBit (x : Word) (lo w k : Nat) : (fld x lo w).testBit k = (decide (k < w) && x.getLsbD (lo + k)) := by
  simp only [fld, Nat.testBit_mod_two_pow, BitVec.getLsbD, Nat.testBit_div_two_pow]
  rw [Nat.add_comm]
theorem bfx_bit (x : Word) (p w k : Nat) (hk : k < 32) : (BitVec.ofNat 32 (fld x p w)).getLsbD k = (decide (k < w) && x.getLsbD (p + k)) := by
  rw [BitVec.getLsbD_ofNat, fld_testBit]; simp [hk]
theorem sext_eq (w n : Nat) (hw : 0 < w) : sext w n = (BitVec.ofNat w n).toInt := by
  rw [BitVec.toInt_eq_toNat_cond, BitVec.toNat_ofNat, sext]
  have : (2 ^ w : Nat) = 2 * 2 ^ (w - 1) := by rw [← Nat.pow_succ']; congr 1; omega
  split <;> split <;> omega
theorem bfxs_bit (x : Word) (p w k : Nat) (hw : 0 < w) (hk : k < 32) : (wordOf (sext w (fld x p w))).getLsbD k = x.getLsbD (p + min k (w - 1)) := by
  rw [sext_eq _ _ hw, wordOf]
  have : BitVec.ofInt 32 (BitVec.ofNat w (fld x p w)).toInt = (BitVec.ofNat w (fld x p w)).signExtend 32 := rfl
  rw [this, BitVec.getLsbD_signExtend, BitVec.msb_eq_getLsbD_last]
  simp only [BitVec.getLsbD_ofNat, fld_testBit, hk, decide_true, Bool.true_and]
  by_cases h : k < w
  · simp [h, show min k (w - 1) = k by omega]
  · simp [h, show min k (w - 1) = w - 1 by omega]; omega
theorem bfi_bit (x z : Word) (p w k : Nat) (hk : k < 32) :
    (BitVec.ofNat 32 (z.toNat % 2 ^ p + fld x 0 w * 2 ^ p + z.toNat / 2 ^ (p + w) * 2 ^ (p + w))).getLsbD k =
      if p ≤ k ∧ k < p + w then x.getLsbD (k - p) else z.getLsbD k := by
  have e : z.toNat % 2 ^ p + fld x 0 w * 2 ^ p + z.toNat / 2 ^ (p + w) * 2 ^ (p + w)
      = 2 ^ p * (2 ^ w * (z.toNat / 2 ^ (p + w)) + fld x 0 w) + z.toNat % 2 ^ p := by
    rw [Nat.pow_add]; simp only [Nat.mul_add, Nat.mul_comm, Nat.mul_assoc]; omega
  have hf : fld x 0 w < 2 ^ w := Nat.mod_lt _ (Nat.two_pow_pos w)
  rw [BitVec.getLsbD_ofNat, e, Nat.testBit_two_pow_mul_add _ (Nat.mod_lt _ (Nat.two_pow_pos p))]
  by_cases h1 : k < p
  · simp [h1, hk, show ¬ (p ≤ k) by omega, BitVec.getLsbD, Nat.testBit_mod_two_pow]
  · rw [if_neg h1, Nat.testBit_two_pow_mul_add _ hf]
    by_cases h2 : k - p < w
    · simp [h2, hk, show p ≤ k by omega, show k < p + w by omega, fld_testBit]
    · simp only [h2, if_false, hk, decide_true, Bool.true_and, show ¬ (k < p + w) by omega, and_false,
        Nat.testBit_div_two_pow, BitVec.getLsbD]
      congr 1; omega

theorem predWord_bit (s : State) (t : Tid) (k : Nat) (hk : k < 32) :
    (s.predWord t).getLsbD k = if k < 7 then s.rdP t (fin 8 k) else decide (k = 7) := by
  have : ∀ n ≤ 7, ((List.range n).foldl (fun (w : Word) k => if s.rdP t (fin 8 k) then w ||| BitVec.ofNat 32 (2 ^ k) else w) 0x80#32).getLsbD k
      = if k < n then s.rdP t (fin 8 k) else decide (k = 7) := by
    intro n
    induction n with
    | zero =>
      intro _
      have : ∀ k < 32, (0x80#32).getLsbD k = decide (k = 7) := by decide
      simpa using this k hk
    | succ n ih =>
      intro hn
      rw [List.range_succ, List.foldl_append]
      simp only [List.foldl_cons, List.foldl_nil]
      have e := ih (by omega)
      have hb : (BitVec.ofNat 32 (2 ^ n)).getLsbD k = (decide (k < 32) && decide (n = k)) := by
        rw [BitVec.getLsbD_ofNat, Nat.testBit_two_pow]
      by_cases h : k = n
      · subst h
        split
        · rw [BitVec.getLsbD_or, e, hb]; simp [*]
        · rw [e]; simp [*]; omega
      · have hlt : (k < n + 1) = (k < n) := by simp; omega
        split
        · rw [BitVec.getLsbD_or, e, hb]; simp [hlt, Ne.symm h]
        · rw [e]; simp [hlt]
  exact this 7 (Nat.le_refl _)
theorem movhi_eq (i : BitVec 16) (x : Word) : (i ++ BitVec.truncate 16 x : BitVec 32) = i.zeroExtend 32 <<< 16 ||| x &&& 0xFFFF := by
  apply BitVec.eq_of_getLsbD_eq
  intro k hk
  simp only [BitVec.getLsbD_append, BitVec.getLsbD_or, BitVec.getLsbD_and, BitVec.getLsbD_shiftLeft, BitVec.getLsbD_setWidth, BitVec.truncate_eq_setWidth]
  have : (0xFFFF : Word).getLsbD k = decide (k < 16) := by revert hk; revert k; decide
  rw [this]
  by_cases h : k < 16
  · simp [h]
  · simp [h, hk]; intro; omega
theorem truncate_low (v : DWord) : BitVec.truncate 32 v = v.extractLsb' 0 32 := by
  apply BitVec.eq_of_getLsbD_eq; intro k hk; simp [hk, BitVec.truncate_eq_setWidth]
theorem truncate_high (v : DWord) : BitVec.truncate 32 (v >>> 32) = v.extractLsb' 32 32 := by
  apply BitVec.eq_of_getLsbD_eq; intro k hk; simp [hk, BitVec.truncate_eq_setWidth]
theorem compareInt_signed (x y : Word) (c : Cmp) : compareInt x y c false = (match c with
      | .eq => (x == y) | .ne => !(x == y) | .lt => x.slt y | .le => x.slt y || (x == y) | .gt => !(x.slt y) && !(x == y) | .ge => !(x.slt y)) := by
  have hb : (x == y) = (x.toInt == y.toInt) := by
    by_cases h : x = y
    · subst h; simp
    · have : x.toInt ≠ y.toInt := fun e => h (BitVec.eq_of_toInt_eq e)
      rw [beq_eq_false_iff_ne.2 h, beq_eq_false_iff_ne.2 this]
  cases c <;> simp only [compareInt, hb, BitVec.slt, Bool.false_eq_true, if_false]
  all_goals grind
theorem compareInt_unsigned (x y : Word) (c : Cmp) : compareInt x y c true = (match c with
      | .eq => (x == y) | .ne => !(x == y) | .lt => x.ult y | .le => x.ult y || (x == y) | .gt => !(x.ult y) && !(x == y) | .ge => !(x.ult y)) := by
  have hb : (x == y) = ((x.toNat : Int) == y.toNat) := by
    by_cases h : x = y
    · subst h; simp
    · have : (x.toNat : Int) ≠ y.toNat := fun e => h (BitVec.eq_of_toNat_eq (by omega))
      rw [beq_eq_false_iff_ne.2 h, beq_eq_false_iff_ne.2 this]
  cases c <;> simp only [compareInt, hb, BitVec.ult, if_true]
  all_goals grind

theorem pput_eq (x : State) (t : Tid) (w : Word) (mask : BitVec 7) (due q : Nat) :
    (List.range 7).foldl (fun (s' : State) k => if mask.getLsbD k then s'.wrPAt t (fin 8 k) (w.getLsbD k) due q else s') x =
    ((([0, 1, 2, 3, 4, 5, 6] : List Pred).filter fun k => mask.getLsbD k.val).map fun k => (k, w.getLsbD k.val)).foldl
      (fun s' p => s'.wrPAt t p.1 p.2 due q) x := by
  rw [List.foldl_map, List.foldl_filter]
  rfl

end Sys2Proof.Machine
end

