-- ==== Sys2Proof/Laws/Start.lean ====
section
/-!
SUPPORT. Laws/Start.lean: what the shared shapes of the words that start operations do, said once:
`State.blockWord_spec`, `State.laneWord_spec`, and the steps they are made of.
-/

namespace Sys2Proof.Machine

/-! ### Lists of threads -/

theorem mem_insNat (n m : Nat) (l : List Nat) : m ∈ insNat n l ↔ m = n ∨ m ∈ l := by
  induction l with
  | nil => simp [insNat]
  | cons k l ih =>
    simp only [insNat]
    split
    · simp
    · split
      · subst_vars; simp
      · simp only [List.mem_cons, ih]
        exact ⟨fun h => h.elim (fun h => .inr (.inl h)) fun h => h.elim .inl fun h => .inr (.inr h),
          fun h => h.elim (fun h => .inr (.inl h)) fun h => h.elim .inl fun h => .inr (.inr h)⟩

theorem pairwise_insNat (n : Nat) (l : List Nat) (h : l.Pairwise (· < ·)) : (insNat n l).Pairwise (· < ·) := by
  induction l with
  | nil => simp [insNat]
  | cons k l ih =>
    rcases List.pairwise_cons.1 h with ⟨h1, h2⟩
    simp only [insNat]
    split
    · refine List.pairwise_cons.2 ⟨fun m hm => ?_, h⟩
      rcases List.mem_cons.1 hm with rfl | hm
      · assumption
      · exact Nat.lt_trans ‹_› (h1 m hm)
    · split
      · exact h
      · refine List.pairwise_cons.2 ⟨fun m hm => ?_, ih h2⟩
        rcases (mem_insNat _ _ _).1 hm with rfl | hm
        · omega
        · exact h1 m hm

theorem pairwise_sortNat (l : List Nat) : (sortNat l).Pairwise (· < ·) := by
  have : ∀ (l a : List Nat), a.Pairwise (· < ·) → (l.foldl (fun a n => insNat n a) a).Pairwise (· < ·) := by
    intro l
    induction l with
    | nil => exact fun _ h => h
    | cons n l ih => exact fun a h => ih _ (pairwise_insNat n a h)
  exact this l [] List.Pairwise.nil

theorem mem_sortNat (n : Nat) (l : List Nat) : n ∈ sortNat l ↔ n ∈ l := by
  have : ∀ (l a : List Nat), n ∈ l.foldl (fun a n => insNat n a) a ↔ n ∈ l ∨ n ∈ a := by
    intro l
    induction l with
    | nil => simp
    | cons m l ih =>
      intro a
      simp only [List.foldl_cons, ih, mem_insNat, List.mem_cons]
      exact ⟨fun h => h.elim (fun h => .inl (.inr h)) fun h => h.elim (fun h => .inl (.inl h)) .inr,
        fun h => h.elim (fun h => h.elim (fun h => .inr (.inl h)) .inl) fun h => .inr (.inr h)⟩
  simpa [sortNat] using this l []

theorem nodup_sortNat (l : List Nat) : (sortNat l).Nodup :=
  (pairwise_sortNat l).imp fun h => Nat.ne_of_lt h

theorem mem_blksOf (b : Nat) (ts : List Tid) : b ∈ blksOf ts ↔ ∃ t ∈ ts, t.blk = b := by
  simp [blksOf, mem_sortNat]

theorem nodup_blksOf (ts : List Tid) : (blksOf ts).Nodup := nodup_sortNat _

/-- The lowest lane of a block is one of its threads. -/
theorem lowLane_mem (ts : List Tid) (b : Nat) (t : Tid) (h : lowLane ts b = some t) : t ∈ ts ∧ t.blk = b := by
  have : ∀ (l : List Tid) (o : Option Tid), (∀ u, o = some u → u ∈ ts ∧ u.blk = b) → (∀ u ∈ l, u ∈ ts ∧ u.blk = b) →
      ∀ u, l.foldl (fun o t => match o with
        | none => some t
        | some u => if t.lane < u.lane ∨ (t.lane = u.lane ∧ t.idx < u.idx) then some t else some u) o = some u →
      u ∈ ts ∧ u.blk = b := by
    intro l
    induction l with
    | nil => exact fun o ho _ u hu => ho u hu
    | cons x l ih =>
      intro o ho hl u hu
      refine ih _ ?_ (fun v hv => hl v (List.mem_cons_of_mem _ hv)) u hu
      intro v hv
      cases o with
      | none => cases hv; exact hl _ List.mem_cons_self
      | some w =>
        simp only at hv
        split at hv <;> cases hv
        · exact hl _ List.mem_cons_self
        · exact ho _ rfl
  refine this _ none (by simp) (fun u hu => ?_) t h
  simpa using List.mem_filter.1 hu

theorem lowLane_some (ts : List Tid) (b : Nat) (h : b ∈ blksOf ts) : ∃ t, lowLane ts b = some t := by
  obtain ⟨t, ht, hb⟩ := (mem_blksOf b ts).1 h
  have : ∀ (l : List Tid) (o : Option Tid), (o.isSome = true ∨ l ≠ []) → ∃ u, l.foldl (fun o t => match o with
        | none => some t
        | some u => if t.lane < u.lane ∨ (t.lane = u.lane ∧ t.idx < u.idx) then some t else some u) o = some u := by
    intro l
    induction l with
    | nil =>
      intro o ho
      rcases ho with ho | ho
      · exact Option.isSome_iff_exists.1 ho
      · exact absurd rfl ho
    | cons x l ih =>
      intro o _
      refine ih _ (.inl ?_)
      cases o with
      | none => rfl
      | some w => simp only; split <;> rfl
  refine this _ none (.inr ?_)
  intro he
  have : t ∈ ts.filter (·.blk == b) := List.mem_filter.2 ⟨ht, by simp [hb]⟩
  rw [he] at this; cases this

theorem mem_byLane (t : Tid) (ts : List Tid) : t ∈ byLane ts ↔ t ∈ ts := by
  have : ∀ (l a : List Tid), t ∈ l.foldl (fun a t => (a.filter fun u => u.lane < t.lane ∨ (u.lane = t.lane ∧ u.idx ≤ t.idx)) ++ [t]
      ++ a.filter fun u => !(decide (u.lane < t.lane ∨ (u.lane = t.lane ∧ u.idx ≤ t.idx)))) a ↔ t ∈ l ∨ t ∈ a := by
    intro l
    induction l with
    | nil => simp
    | cons x l ih =>
      intro a
      simp only [List.foldl_cons, ih, List.mem_append, List.mem_filter, List.mem_cons, List.not_mem_nil, or_false]
      by_cases hx : (t.lane < x.lane ∨ (t.lane = x.lane ∧ t.idx ≤ x.idx)) <;> simp [hx] <;> grind
  simpa [byLane] using this ts []

theorem nodup_byLane (ts : List Tid) (h : ts.Nodup) : (byLane ts).Nodup := by
  have : ∀ (l a : List Tid), a.Nodup → l.Nodup → (∀ t ∈ l, t ∉ a) →
      (l.foldl (fun a t => (a.filter fun u => u.lane < t.lane ∨ (u.lane = t.lane ∧ u.idx ≤ t.idx)) ++ [t]
      ++ a.filter fun u => !(decide (u.lane < t.lane ∨ (u.lane = t.lane ∧ u.idx ≤ t.idx)))) a).Nodup := by
    intro l
    induction l with
    | nil => exact fun _ h _ _ => h
    | cons x l ih =>
      intro a ha hl hd
      rcases List.nodup_cons.1 hl with ⟨hx, hl⟩
      refine ih _ ?_ hl ?_
      · simp only [List.append_assoc, List.singleton_append]
        refine List.nodup_append.2 ⟨ha.filter _, ?_, ?_⟩
        · refine List.nodup_cons.2 ⟨?_, ha.filter _⟩
          intro hm; exact hd x List.mem_cons_self (List.mem_filter.1 hm).1
        · intro u hu v hv e
          subst e
          rcases List.mem_cons.1 hv with rfl | hv
          · exact hd _ List.mem_cons_self (List.mem_filter.1 hu).1
          · have h1 := (List.mem_filter.1 hu).2
            have h2 := (List.mem_filter.1 hv).2
            simp only [Bool.not_eq_true'] at h2
            rw [h2] at h1; cases h1
      · intro t ht hm
        simp only [List.append_assoc, List.singleton_append, List.mem_append, List.mem_cons, List.mem_filter] at hm
        rcases hm with hm | rfl | hm
        · exact hd t (List.mem_cons_of_mem _ ht) hm.1
        · exact hx ht
        · exact hd t (List.mem_cons_of_mem _ ht) hm.1
  exact this ts [] List.nodup_nil h (by simp)

/-- With no fault among them, the lanes' answers. -/
theorem splitFaults_ok {α : Type} (l : List (Tid × Except Flt α)) (K : Tid → α) (h : ∀ p ∈ l, p.2 = .ok (K p.1)) :
    splitFaults l = ([], l.map fun p => (p.1, K p.1)) := by
  induction l with
  | nil => rfl
  | cons p l ih =>
    have e := h p List.mem_cons_self
    have := ih fun q hq => h q (List.mem_cons_of_mem _ hq)
    simp only [splitFaults, List.foldr_cons] at this ⊢
    rw [this, e]; rfl

theorem State.staleFaults_nil (s : State) (ts : List Tid) (ins : List Tok)
    (h : ∀ t ∈ ts, ∀ k ∈ ins, ((s.block t.blk).tok k).prod = true) : s.staleFaults ts ins = [] := by
  simp only [State.staleFaults, List.filterMap_eq_nil_iff, State.staleOf]
  intro t ht
  rw [List.find?_eq_none.2]
  · rfl
  · intro k hk; simp [h t ht k hk]

theorem State.produced_iff (s : State) (h : Hdr) (ins : List Tok) : s.produced h ins = true ↔
    ∀ t ∈ s.act h, ∀ k ∈ ins, ((s.block t.blk).tok k).prod = true := by
  simp [State.produced]

/-! ### Steps of such words -/

/-- What the steps of a word that starts operations leave alone. -/
structure OpStep (s s' : State) : Prop where
  still : ∀ u, (s'.thread u).still = (s.thread u).still
  win : ∀ u, (s'.thread u).pc = (s.thread u).pc ∧ (s'.thread u).win = (s.thread u).win ∧
    (s'.thread u).loops = (s.thread u).loops
  blk : ∀ b, { s'.block b with threads := [], toks := [] } = { s.block b with threads := [], toks := [] }
  ops : ∀ o ∈ s.ops, o ∈ s'.ops
  ids : s.nextId ≤ s'.nextId
  rest : s'.rest = s.rest
  core : ∀ c, (s'.core c).arch = (s.core c).arch
  now : ∀ c, s'.now c = s.now c
  cur : s'.cur = s.cur
  has : ∀ u, s'.has u = s.has u
  fnd : ∀ b, (s'.blocks.find b).isSome = (s.blocks.find b).isSome

theorem OpStep.refl (s : State) : OpStep s s :=
  ⟨fun _ => rfl, fun _ => ⟨rfl, rfl, rfl⟩, fun _ => rfl, fun _ h => h, Nat.le_refl _, rfl, fun _ => rfl, fun _ => rfl, rfl,
    fun _ => rfl, fun _ => rfl⟩

theorem OpStep.trans {s s' s'' : State} (h : OpStep s s') (k : OpStep s' s'') : OpStep s s'' where
  still u := (k.still u).trans (h.still u)
  win u := ⟨(k.win u).1.trans (h.win u).1, (k.win u).2.1.trans (h.win u).2.1, (k.win u).2.2.trans (h.win u).2.2⟩
  blk b := (k.blk b).trans (h.blk b)
  ops o ho := k.ops o (h.ops o ho)
  ids := Nat.le_trans h.ids k.ids
  rest := k.rest.trans h.rest
  core c := (k.core c).trans (h.core c)
  now c := (k.now c).trans (h.now c)
  cur := k.cur.trans h.cur
  has u := (k.has u).trans (h.has u)
  fnd b := (k.fnd b).trans (h.fnd b)

theorem OpStep.clk {s s' : State} (h : OpStep s s') : s'.clk = s.clk := by
  simp only [State.clk, h.cur, h.now]

theorem OpStep.foldl {β : Type} (g : State → β → State) (l : List β) (h : ∀ s, ∀ x ∈ l, OpStep s (g s x)) :
    ∀ s, OpStep s (l.foldl g s) := by
  induction l with
  | nil => exact OpStep.refl
  | cons x l ih =>
    exact fun s => (h s x List.mem_cons_self).trans (ih (fun s y hy => h s y (List.mem_cons_of_mem _ hy)) _)

theorem OpStep.modCore (s : State) (c : Nat) (g : Core → Core) (hg : ∀ x, (g x).arch = x.arch) : OpStep s (s.modCore c g) where
  still _ := rfl
  win _ := ⟨rfl, rfl, rfl⟩
  blk _ := rfl
  ops _ h := h
  ids := Nat.le_refl _
  rest := rfl
  core d := by
    rw [State.core_modCore]
    split
    · subst d; exact hg _
    · rfl
  now d := by
    simp only [State.now, State.core_modCore]
    split
    · subst d; have := congrArg Core.clk (hg (s.core c)); exact this
    · rfl
  cur := rfl
  has _ := rfl
  fnd _ := rfl

theorem OpStep.modThread (s : State) (t : Tid) (f : Thread → Thread) (hf : ∀ x, (f x).still = x.still)
    (hw : ∀ x, (f x).pc = x.pc ∧ (f x).win = x.win ∧ (f x).loops = x.loops) : OpStep s (s.modThread t f) where
  still u := s.thread_modThread_proj t u f Thread.still hf
  win u := ⟨s.thread_modThread_proj t u f (·.pc) fun x => (hw x).1, s.thread_modThread_proj t u f (·.win) fun x => (hw x).2.1,
    s.thread_modThread_proj t u f (·.loops) fun x => (hw x).2.2⟩
  blk b := s.block_modThread_proj t b f (fun v => { v with threads := [], toks := [] }) fun _ _ => rfl
  ops _ h := h
  ids := Nat.le_refl _
  rest := rfl
  core _ := rfl
  now _ := rfl
  cur := rfl
  has _ := State.has_modThread _ _ _ _
  fnd _ := State.find_modThread_isSome _ _ _ _

theorem Thread.up_still (c : Cnt) (th : Thread) : (Thread.up c th).still = th.still := by cases c <;> rfl
theorem Thread.up_win (c : Cnt) (th : Thread) : (Thread.up c th).pc = th.pc ∧ (Thread.up c th).win = th.win ∧
    (Thread.up c th).loops = th.loops := by cases c <;> exact ⟨rfl, rfl, rfl⟩

theorem OpStep.modToks (s : State) (b : Nat) (g : Block → Tab TokSt) : OpStep s (s.modBlock b fun k => { k with toks := g k }) where
  still u := s.block_modBlock_proj b u.blk (fun k => { k with toks := g k }) (fun k => (k.threads.getD u.idx {} : Thread).still) fun _ => rfl
  win u := ⟨s.block_modBlock_proj b u.blk (fun k => { k with toks := g k }) (fun k => (k.threads.getD u.idx {} : Thread).pc) fun _ => rfl,
    s.block_modBlock_proj b u.blk (fun k => { k with toks := g k }) (fun k => (k.threads.getD u.idx {} : Thread).win) fun _ => rfl,
    s.block_modBlock_proj b u.blk (fun k => { k with toks := g k }) (fun k => (k.threads.getD u.idx {} : Thread).loops) fun _ => rfl⟩
  blk c := s.block_modBlock_proj b c (fun k => { k with toks := g k }) (fun v => { v with threads := [], toks := [] }) fun _ => rfl
  ops _ h := h
  ids := Nat.le_refl _
  rest := rfl
  core _ := rfl
  now _ := rfl
  cur := rfl
  has u := by
    have h1 : ((s.modBlock b fun k => { k with toks := g k }).blocks.find u.blk).isSome = (s.blocks.find u.blk).isSome := by
      simp [State.modBlock]
    have h2 := s.block_modBlock_proj b u.blk (fun k => { k with toks := g k })
      (fun k => (k.threads.find u.idx).isSome) (fun _ => rfl)
    simp only [State.has, h1, h2]
  fnd c := by simp [State.modBlock]

theorem OpStep.thread_modToks (s : State) (b : Nat) (g : Block → Tab TokSt) (u : Tid) :
    (s.modBlock b fun k => { k with toks := g k }).thread u = s.thread u :=
  s.block_modBlock_proj b u.blk (fun k => { k with toks := g k }) (fun k => (k.threads.getD u.idx {} : Thread)) fun _ => rfl

/-! ### Putting an operation in flight -/

theorem State.addOp_step (s : State) (o : Op) : OpStep s (s.addOp o) := by
  refine OpStep.trans (s' := { s with ops := s.ops ++ [s.numbered o], nextId := s.nextId + 1 }) ?_ ?_
  · exact ⟨fun _ => rfl, fun _ => ⟨rfl, rfl, rfl⟩, fun _ => rfl, fun _ h => List.mem_append_left _ h, Nat.le_succ _, rfl,
      fun _ => rfl, fun _ => rfl, rfl, fun _ => rfl, fun _ => rfl⟩
  · exact OpStep.foldl _ _ (fun x p _ => OpStep.modThread x p.1 _ (Thread.up_still p.2) (Thread.up_win p.2)) _

theorem State.addOp_ops (s : State) (o : Op) : (s.addOp o).ops = s.ops ++ [s.numbered o] := by
  have : ∀ (l : List (Tid × Cnt)) (x : State), (l.foldl (fun s p => s.modThread p.1 (Thread.up p.2)) x).ops = x.ops := by
    intro l; induction l with
    | nil => intro x; rfl
    | cons p l ih => intro x; rw [List.foldl_cons, ih]; rfl
  exact this _ _

theorem State.addOp_nextId (s : State) (o : Op) : (s.addOp o).nextId = s.nextId + 1 := by
  have : ∀ (l : List (Tid × Cnt)) (x : State), (l.foldl (fun s p => s.modThread p.1 (Thread.up p.2)) x).nextId = x.nextId := by
    intro l; induction l with
    | nil => intro x; rfl
    | cons p l ih => intro x; rw [List.foldl_cons, ih]; rfl
  exact this _ _

theorem State.addOp_mem (s : State) (o : Op) : s.numbered o ∈ (s.addOp o).ops := by
  rw [State.addOp_ops]; simp

theorem State.addOp_block (s : State) (o : Op) (b : Nat) (k : Tok) : ((s.addOp o).block b).tok k = (s.block b).tok k := by
  have : ∀ (l : List (Tid × Cnt)) (x : State), ((l.foldl (fun s p => s.modThread p.1 (Thread.up p.2)) x).block b).tok k
      = (x.block b).tok k := by
    intro l; induction l with
    | nil => intro x; rfl
    | cons p l ih =>
      intro x; rw [List.foldl_cons, ih]
      exact x.block_modThread_proj p.1 b _ (fun v => v.tok k) fun _ _ => rfl
  exact this _ _

/-- The counter of each thread that exists and is listed once rises by one; other threads are as before. -/
theorem State.addOp_thread (s : State) (o : Op) (c : Cnt) (l : List Tid) (hc : o.cnts = l.map fun t => (t, c)) (hn : l.Nodup)
    (u : Tid) (hh : s.has u = true) : (s.addOp o).thread u = if u ∈ l then Thread.up c (s.thread u) else s.thread u := by
  have e : s.addOp o = State.modThreads { s with ops := s.ops ++ [s.numbered o], nextId := s.nextId + 1 } l
      (Thread.up c) := by
    have : ∀ (l : List Tid) (x : State), (l.map fun t => (t, c)).foldl (fun s p => s.modThread p.1 (Thread.up p.2)) x
        = x.modThreads l (Thread.up c) := by
      intro l; induction l with
      | nil => intro x; rfl
      | cons t l ih => intro x; exact ih _
    simp only [State.addOp, hc, this]
  rw [e]
  split
  · exact State.modThreads_thread_in _ l _ u ‹_› hn hh
  · exact State.modThreads_thread_notin _ l _ u ‹_›

theorem State.addOp_thread_none (s : State) (o : Op) (hc : o.cnts = []) (u : Tid) : (s.addOp o).thread u = s.thread u := by
  simp only [State.addOp, hc]; rfl

/-! ### Producing a token -/

theorem State.produce_step (s : State) (b : Nat) (k : Tok) (ids : List Nat) : OpStep s (s.produce b k ids) :=
  OpStep.modToks s b fun blk => blk.toks.put k.val { prod := true, ops := s.tokOps b k ++ ids }
theorem State.produceAll_step (s : State) (k : Tok) : OpStep s (s.produceAll k) :=
  OpStep.foldl _ _ (fun x b _ => x.produce_step b k []) s
theorem State.addTok_step (s : State) (b : Nat) (k : Tok) (i : Nat) : OpStep s (s.addTok b k i) :=
  OpStep.modToks s b fun blk => blk.toks.put k.val { prod := true, ops := (blk.tok k).ops ++ [i] }

theorem State.produceAll_thread (s : State) (k : Tok) (u : Tid) : (s.produceAll k).thread u = s.thread u := by
  simp only [State.produceAll]
  refine List.foldlRecOn (blksOf s.cur.tids) _ (motive := fun x => State.thread x u = s.thread u) rfl ?_
  intro x hx b _
  rw [← hx]
  exact OpStep.thread_modToks x b _ u
theorem State.addTok_thread (s : State) (b : Nat) (k : Tok) (i : Nat) (u : Tid) : (s.addTok b k i).thread u = s.thread u :=
  OpStep.thread_modToks s b _ u
theorem State.produceAll_nextId (s : State) (k : Tok) : (s.produceAll k).nextId = s.nextId := by
  simp only [State.produceAll]
  exact List.foldlRecOn (blksOf s.cur.tids) _ (motive := fun x => State.nextId x = s.nextId) rfl fun x hx b _ => hx
@[simp] theorem State.addTok_nextId (s : State) (b : Nat) (k : Tok) (i : Nat) : (s.addTok b k i).nextId = s.nextId := rfl
@[simp] theorem State.addTok_ops (s : State) (b : Nat) (k : Tok) (i : Nat) : (s.addTok b k i).ops = s.ops := rfl

/-- A token keeps what it holds when an operation is added to any token. -/
theorem State.addTok_keeps (s : State) (b c : Nat) (k n : Tok) (i j : Nat)
    (h : ((s.block c).tok n).prod = true ∧ j ∈ ((s.block c).tok n).ops) :
    (((s.addTok b k i).block c).tok n).prod = true ∧ j ∈ (((s.addTok b k i).block c).tok n).ops := by
  by_cases hb : c = b
  · subst hb
    by_cases hf : (s.blocks.find c).isSome = true
    · rw [State.addTok, State.block_modBlock_self _ _ _ hf]
      by_cases hk : n = k
      · subst hk
        simp only [Block.tok, Tab.getD_put_self] at h ⊢
        exact ⟨trivial, List.mem_append_left _ h.2⟩
      · have : n.val ≠ k.val := fun e => hk (Fin.ext e)
        simp only [Block.tok, Tab.getD_put_ne _ _ _ this] at h ⊢
        exact h
    · simp only [Bool.not_eq_true, Option.isSome_eq_false_iff, Option.isNone_iff_eq_none] at hf
      have : (s.block c).tok n = {} := by simp [State.block, Tab.getD, hf, Block.tok]
      rw [this] at h; cases h.1
  · rw [State.addTok, State.block_modBlock_ne _ _ hb]; exact h

/-- An operation added to a token of a block that exists. -/
theorem State.addTok_holds (s : State) (b : Nat) (k : Tok) (i : Nat) (hf : (s.blocks.find b).isSome = true) :
    (((s.addTok b k i).block b).tok k).prod = true ∧ i ∈ (((s.addTok b k i).block b).tok k).ops := by
  rw [State.addTok, State.block_modBlock_self _ _ _ hf]
  simp [Block.tok]

/-- A thread that does not exist reads as an empty one. -/
theorem State.thread_of_not_has (z : State) {u : Tid} (hz : z.has u = false) : z.thread u = {} := by
  simp only [State.has, Bool.and_eq_false_iff, Option.isSome_eq_false_iff, Option.isNone_iff_eq_none] at hz
  simp only [State.thread, Tab.getD]
  rcases hz with hz | hz
  · simp [State.block, Tab.getD, hz]
  · rw [hz]; rfl

/-! ### Retiring after the operations are in flight -/

theorem Thread.still_of_arch {a b : Thread} (h : a.arch = b.arch) : a.still = b.still := by
  simp only [Thread.still, h]

/-- After the steps of such a word, retiring it completes the frame. -/
theorem OpStep.frame {s x : State} (k : OpStep s x) (q fp : Nat) (h : Hdr)
    (hx : ∀ u, u ∉ s.act h → (x.thread u).arch = (s.thread u).arch) : OpFrame s (x.retireFp q fp).useFree h := by
  refine ⟨fun u => ?_, fun u hu => ?_, fun b => ?_, fun o ho => ?_, sameRest_of ?_ fun c => ?_⟩
  · exact (Thread.still_of_arch (x.retireFp_thread_arch q fp u)).trans (k.still u)
  · exact (x.retireFp_thread_arch q fp u).trans (hx u hu)
  · have := congrArg (fun v : Block => { v with toks := [] }) (x.retireFp_block q fp b)
    exact Eq.trans this (k.blk b)
  · show o ∈ (x.retireFp q fp).ops
    rw [State.retireFp_ops]; exact k.ops o ho
  · exact (x.retireFp_rest q fp).trans k.rest
  · exact (x.retireFp_core q fp c).trans (k.core c)

theorem OpStep.falls {s x : State} (k : OpStep s x) (q fp : Nat) (hg : s.groupOk = true) :
    FellThrough s (x.retireFp q fp).useFree s.cur.tids := by
  intro t ht hpc hl hw
  have hf := x.retireFp_falls q fp (by rw [k.cur]; exact s.groupOk_nodup hg)
    (fun t ht => (k.has t).trans (s.groupOk_has hg t (by rw [k.cur] at ht; exact ht))) t (by rw [k.cur]; exact ht)
  rw [k.cur, (k.win t).1, (k.win t).2.1, (k.win t).2.2] at hf
  exact hf hpc (by simpa [Thread.atLoopEnd, (k.win t).2.2] using hl) hw

theorem State.retireFp_tok (s : State) (q fp b : Nat) (n : Tok) :
    ((s.retireFp q fp).useFree.block b).tok n = (s.block b).tok n := by
  have := congrArg Block.toks (s.retireFp_block q fp b)
  have e : ((s.retireFp q fp).block b).toks = (s.block b).toks := this
  show ((s.retireFp q fp).block b).tok n = _
  simp only [Block.tok, e]

/-- What is started in a state is started after later steps, as long as its token keeps it. -/
theorem Started.retire {s x : State} {b : Nat} {k : OpKind} {ts : List Tid} {ins : List Tok} {tko : Option Tok}
    (h : Started s x b k ts ins tko) (q fp : Nat) : Started s (x.retireFp q fp).useFree b k ts ins tko := by
  obtain ⟨o, ho, h1, h2, h3, h4, h5, h6, h7, h8, h9, h10⟩ := h
  refine ⟨o, ?_, h1, h2, h3, h4, h5, h6, h7, h8, h9, fun n hn => ?_⟩
  · show o ∈ (x.retireFp q fp).ops
    rw [State.retireFp_ops]; exact ho
  · rw [State.retireFp_tok]; exact h10 n hn

theorem Started.addOp {s x : State} {b : Nat} {k : OpKind} {ts : List Tid} {ins : List Tok} {tko : Option Tok}
    (h : Started s x b k ts ins tko) (o : Op) : Started s (x.addOp o) b k ts ins tko := by
  obtain ⟨p, ho, h1, h2, h3, h4, h5, h6, h7, h8, h9, h10⟩ := h
  refine ⟨p, (x.addOp_step o).ops p ho, h1, h2, h3, h4, h5, h6, h7, h8, h9, fun n hn => ?_⟩
  rw [State.addOp_block]; exact h10 n hn

theorem Started.addTok {s x : State} {b : Nat} {k : OpKind} {ts : List Tid} {ins : List Tok} {tko : Option Tok}
    (h : Started s x b k ts ins tko) (c : Nat) (n : Tok) (i : Nat) : Started s (x.addTok c n i) b k ts ins tko := by
  obtain ⟨p, ho, h1, h2, h3, h4, h5, h6, h7, h8, h9, h10⟩ := h
  exact ⟨p, ho, h1, h2, h3, h4, h5, h6, h7, h8, h9, fun m hm => x.addTok_keeps c b n m i p.id (h10 m hm)⟩

/-! ### One operation for each block -/

/-- One block's step of `blockWord`. -/
def State.blockStep (s : State) (ts : List Tid) (ins : List Tok) (tko : Option Tok) (cnt : Option Cnt) (s' : State)
    (p : Tid × OpKind) : State :=
  let s'' := s'.addOp { s.opOf p.1 p.2 with
    tids := ts.filter (·.blk == p.1.blk)
    cnts := (ts.filter (·.blk == p.1.blk)).filterMap (fun t => cnt.map fun c => (t, c))
    after := if p.2 == .join then ins.flatMap (s.tokOps p.1.blk) else s.startAfter p.1.blk (ts.filter (·.blk == p.1.blk)) ins }
  match tko with
  | some k => s''.addTok p.1.blk k s'.nextId
  | none => s''

theorem State.blockStep_step (s : State) (ts ins tko cnt) (x : State) (p : Tid × OpKind) :
    OpStep x (s.blockStep ts ins tko cnt x p) := by
  simp only [State.blockStep]
  cases tko with
  | none => exact x.addOp_step _
  | some k => exact (x.addOp_step _).trans (State.addTok_step _ _ _ _)

theorem State.blockStep_keeps (s : State) (ts ins tko cnt) (x : State) (p : Tid × OpKind) {b k us is n}
    (h : Started s x b k us is n) : Started s (s.blockStep ts ins tko cnt x p) b k us is n := by
  simp only [State.blockStep]
  cases tko with
  | none => exact h.addOp _
  | some k => exact (h.addOp _).addTok _ _ _

theorem State.blockStep_starts (s : State) (ts ins tko cnt) (x : State) (p : Tid × OpKind) (hid : s.nextId ≤ x.nextId)
    (hf : (x.blocks.find p.1.blk).isSome = true) :
    Started s (s.blockStep ts ins tko cnt x p) p.1.blk p.2 (ts.filter (·.blk == p.1.blk)) ins tko := by
  simp only [State.blockStep]
  have hm := State.addOp_mem x { s.opOf p.1 p.2 with
    tids := ts.filter (·.blk == p.1.blk)
    cnts := (ts.filter (·.blk == p.1.blk)).filterMap (fun t => cnt.map fun c => (t, c))
    after := if p.2 == .join then ins.flatMap (s.tokOps p.1.blk) else s.startAfter p.1.blk (ts.filter (·.blk == p.1.blk)) ins }
  have ha : ∀ i ∈ ins.flatMap (s.tokOps p.1.blk), i ∈ (if (p.2 == .join) = true then ins.flatMap (s.tokOps p.1.blk)
      else s.startAfter p.1.blk (ts.filter (·.blk == p.1.blk)) ins) := by
    intro i hi
    split
    · exact hi
    · exact List.mem_append_right _ hi
  cases tko with
  | none => exact ⟨_, hm, hid, rfl, rfl, rfl, rfl, rfl, rfl, rfl, ha, fun n hn => by cases hn⟩
  | some k =>
    refine ⟨_, hm, hid, rfl, rfl, rfl, rfl, rfl, rfl, rfl, ha, fun n hn => ?_⟩
    cases hn
    exact State.addTok_holds _ _ _ _ (by rw [(x.addOp_step _).fnd]; exact hf)

theorem State.blockStep_thread (s : State) (ts : List Tid) (ins tko) (cnt : Option Cnt) (x : State) (p : Tid × OpKind)
    (hn : ts.Nodup) (u : Tid) (hh : x.has u = true) : (s.blockStep ts ins tko cnt x p).thread u =
      if u ∈ ts ∧ u.blk = p.1.blk then (match cnt with | some c => Thread.up c (x.thread u) | none => x.thread u)
      else x.thread u := by
  have hb : ∀ (o : Op), (match tko with
      | some k => (x.addOp o).addTok p.1.blk k x.nextId
      | none => x.addOp o).thread u = (x.addOp o).thread u := by
    intro o; cases tko with
    | none => rfl
    | some k => exact State.addTok_thread _ _ _ _ _
  simp only [State.blockStep, hb]
  cases cnt with
  | none =>
    rw [State.addOp_thread_none _ _ (by simp)]
    split <;> rfl
  | some c =>
    rw [State.addOp_thread x _ c (ts.filter (·.blk == p.1.blk)) (by simp) (hn.filter _) u hh]
    simp [List.mem_filter]

/-- The tokens of the group's blocks are produced before the operations join them. -/
def State.prodOpt (s : State) : Option Tok → State
  | some k => s.produceAll k
  | none => s

theorem State.prodOpt_step (s : State) (o : Option Tok) : OpStep s (s.prodOpt o) := by
  cases o with
  | none => exact .refl s
  | some k => exact s.produceAll_step k

theorem State.prodOpt_thread (s : State) (o : Option Tok) (u : Tid) : (s.prodOpt o).thread u = s.thread u := by
  cases o with
  | none => rfl
  | some k => exact s.produceAll_thread k u

/-- A word that starts one operation for each block: with its tokens produced and no block at fault it answers a next
state, in which it has done so. -/
theorem State.blockWord_spec (s : State) (q fp : Nat) (h : Hdr) (ins : List Tok) (tko : Option Tok) (cnt : Option Cnt)
    (check : Tid → Except Flt OpKind) (kind : Tid → OpKind) (hg : s.groupOk = true) (hp : s.produced h ins = true)
    (hc : ∀ t, lowLane (s.act h) t.blk = some t → check t = .ok (kind t)) :
    ∃ s', s.blockWord q fp h ins tko cnt check = .next s' ∧ BlockStarts s s' h ins tko cnt kind := by
  have hts : (s.act h).Nodup := (s.groupOk_nodup hg).filter _
  have hhas : ∀ t ∈ s.act h, s.has t = true := fun t ht => s.groupOk_has hg t (s.act_sub h t ht)
  let L : List Tid := (blksOf (s.act h)).filterMap fun b => lowLane (s.act h) b
  have hL : (blksOf (s.act h)).filterMap (fun b => (lowLane (s.act h) b).map fun t => (t, check t))
      = L.map fun t => (t, check t) := by simp [L, List.map_filterMap]
  have hlow : ∀ t ∈ L, lowLane (s.act h) t.blk = some t ∧ t ∈ s.act h := by
    intro t ht
    obtain ⟨b, _, hb⟩ := List.mem_filterMap.1 ht
    have := lowLane_mem _ _ _ hb
    exact ⟨by rw [this.2]; exact hb, this.1⟩
  have hsp : splitFaults ((blksOf (s.act h)).filterMap fun b => (lowLane (s.act h) b).map fun t => (t, check t))
      = ([], L.map fun t => (t, kind t)) := by
    rw [hL, splitFaults_ok _ kind]
    · simp
    · intro p hp
      obtain ⟨t, ht, rfl⟩ := List.mem_map.1 hp
      exact hc t (hlow t ht).1
  have hLn : (L.map (·.blk)).Nodup := by
    have : L.map (·.blk) = (blksOf (s.act h)).filterMap fun b => (lowLane (s.act h) b).map (·.blk) := by
      simp [L, List.map_filterMap]
    rw [this]
    have hid : ∀ b ∈ blksOf (s.act h), (lowLane (s.act h) b).map (·.blk) = some b := by
      intro b hb
      obtain ⟨t, ht⟩ := lowLane_some _ _ hb
      rw [ht]; simp [(lowLane_mem _ _ _ ht).2]
    have e : ∀ l : List Nat, (∀ b ∈ l, (lowLane (s.act h) b).map (·.blk) = some b) →
        l.filterMap (fun b => (lowLane (s.act h) b).map (·.blk)) = l := by
      intro l
      induction l with
      | nil => intro _; rfl
      | cons b l ih =>
        intro hl
        rw [List.filterMap_cons, hl b List.mem_cons_self, ih fun c hc => hl c (List.mem_cons_of_mem _ hc)]
    rw [e _ hid]; exact nodup_blksOf _
  -- the fold over the blocks
  have fold : ∀ (l : List Tid), (∀ t ∈ l, t ∈ s.act h) → (l.map (·.blk)).Nodup → ∀ x : State, OpStep s x →
      OpStep s ((l.map fun t => (t, kind t)).foldl (s.blockStep (s.act h) ins tko cnt) x) ∧
      (∀ b k us is n, Started s x b k us is n →
        Started s ((l.map fun t => (t, kind t)).foldl (s.blockStep (s.act h) ins tko cnt) x) b k us is n) ∧
      (∀ t ∈ l, Started s ((l.map fun t => (t, kind t)).foldl (s.blockStep (s.act h) ins tko cnt) x) t.blk (kind t)
        ((s.act h).filter (·.blk == t.blk)) ins tko) ∧
      (∀ u, s.has u = true → ((l.map fun t => (t, kind t)).foldl (s.blockStep (s.act h) ins tko cnt) x).thread u =
        if u ∈ s.act h ∧ u.blk ∈ l.map (·.blk) then
          (match cnt with | some c => Thread.up c (x.thread u) | none => x.thread u) else x.thread u) := by
    intro l
    induction l with
    | nil => exact fun _ _ x hx => ⟨hx, fun _ _ _ _ _ h => h, by simp, by simp⟩
    | cons t l ih =>
      intro hl hnd x hx
      rcases List.nodup_cons.1 hnd with ⟨hnt, hnd⟩
      let y := s.blockStep (s.act h) ins tko cnt x (t, kind t)
      have hxy : OpStep s y := hx.trans (s.blockStep_step (s.act h) ins tko cnt x (t, kind t))
      obtain ⟨i1, i2, i3, i4⟩ := ih (fun u hu => hl u (List.mem_cons_of_mem _ hu)) hnd y hxy
      refine ⟨i1, fun b k us is n hs => i2 b k us is n (s.blockStep_keeps _ _ _ _ _ _ hs), ?_, ?_⟩
      · intro u hu
        rcases List.mem_cons.1 hu with rfl | hu
        · refine i2 _ _ _ _ _ (s.blockStep_starts (s.act h) ins tko cnt x (u, kind u) hx.ids ?_)
          rw [hx.fnd]; exact ((s.has_iff u).1 (hhas u (hl u List.mem_cons_self))).1
        · exact i3 u hu
      · intro u hu
        show (List.foldl _ y _).thread u = _
        rw [i4 u hu, s.blockStep_thread (s.act h) ins tko cnt x (t, kind t) hts u ((hx.has u).trans hu)]
        by_cases h1 : u ∈ s.act h
        · by_cases h2 : u.blk = t.blk
          · have : u.blk ∉ l.map (·.blk) := by rw [h2]; exact hnt
            simp only [List.map_cons, List.mem_cons]
            rw [if_neg (fun e => this e.2), if_pos ⟨h1, h2⟩, if_pos ⟨h1, .inl h2⟩]
          · simp only [List.map_cons, List.mem_cons]
            by_cases h3 : u.blk ∈ l.map (·.blk)
            · rw [if_pos ⟨h1, h3⟩, if_neg (fun e => h2 e.2), if_pos ⟨h1, .inr h3⟩]
            · rw [if_neg (fun e => h3 e.2), if_neg (fun e => h2 e.2), if_neg (fun e => e.2.elim h2 h3)]
        · rw [if_neg (fun e => h1 e.1), if_neg (fun e => h1 e.1), if_neg (fun e => h1 e.1)]
  obtain ⟨f1, _, f3, f4⟩ := fold L (fun t ht => (hlow t ht).2) hLn (s.prodOpt tko) (s.prodOpt_step tko)
  generalize hy : (L.map fun t => (t, kind t)).foldl (s.blockStep (s.act h) ins tko cnt) (s.prodOpt tko) = y at f1 f3 f4
  have hmem : ∀ u ∈ s.act h, u.blk ∈ L.map (·.blk) := by
    intro u hu
    have hb : u.blk ∈ blksOf (s.act h) := (mem_blksOf _ _).2 ⟨u, hu, rfl⟩
    obtain ⟨t, ht⟩ := lowLane_some _ _ hb
    exact List.mem_map.2 ⟨t, List.mem_filterMap.2 ⟨_, hb, ht⟩, (lowLane_mem _ _ _ ht).2⟩
  have hnot : ∀ u, u ∉ s.act h → (y.thread u).arch = (s.thread u).arch := by
    intro u hu
    by_cases hh : s.has u = true
    · rw [f4 u hh, if_neg (fun e => hu e.1), State.prodOpt_thread]
    · rw [State.thread_of_not_has y ((f1.has u).trans (by simpa using hh)), State.thread_of_not_has s (by simpa using hh)]
  refine ⟨(y.retireFp q (fp + 1)).useFree, ?_, ?_, ?_, ?_, ?_⟩
  · simp only [State.blockWord, s.staleFaults_nil _ _ ((s.produced_iff h ins).1 hp), hsp]
    rw [← hy]
    cases tko <;> rfl
  · exact f1.frame q (fp + 1) h hnot
  · intro u hu
    have e := f4 u (hhas u hu)
    rw [if_pos ⟨hu, hmem u hu⟩, State.prodOpt_thread] at e
    show ((y.retireFp q (fp + 1)).thread u).arch = _
    rw [State.retireFp_thread_arch, e]
    all_goals (cases cnt <;> rfl)
  · exact f1.falls q (fp + 1) hg
  · intro b hb t ht
    have htL : t ∈ L := List.mem_filterMap.2 ⟨b, hb, ht⟩
    have := (f3 t htL).retire q (fp + 1)
    rwa [(lowLane_mem _ _ _ ht).2] at this

/-! ### One operation for each lane -/

/-- One lane's step of `laneWord`. -/
def State.laneAdd (s : State) (b : Nat) (acts : List Tid) (ins : List Tok) (cnt : Cnt) (x : State) (p : Tid × OpKind) : State :=
  x.addOp { s.opOf p.1 p.2 with cnts := [(p.1, cnt)], acts := acts, after := s.startAfter b [p.1] ins }

/-- One block's step of `laneWord`. -/
def State.laneStep (s : State) (ok : List (Tid × OpKind)) (ins : List Tok) (tko : Tok) (cnt : Cnt) (x : State) (b : Nat) :
    State :=
  let y := (ok.filter (·.1.blk == b)).foldl (s.laneAdd b ((ok.filter (·.1.blk == b)).map (·.1)) ins cnt) x
  match (ok.filter (·.1.blk == b)).head? with
  | none => y
  | some p => (y.addOp { s.opOf p.1 .group with
      tids := (ok.filter (·.1.blk == b)).map (·.1)
      after := (List.range (ok.filter (·.1.blk == b)).length).map (x.nextId + ·) }).addTok b tko y.nextId

theorem State.laneAdd_starts (s : State) (acts ins cnt) (x : State) (p : Tid × OpKind) (hid : s.nextId ≤ x.nextId) :
    Started s (s.laneAdd p.1.blk acts ins cnt x p) p.1.blk p.2 [p.1] ins none :=
  ⟨_, State.addOp_mem x _, hid, rfl, rfl, rfl, rfl, rfl, rfl, rfl, fun _ hi => List.mem_append_right _ hi,
    fun n hn => by cases hn⟩

theorem State.laneAdd_thread (s : State) (b : Nat) (acts ins cnt) (x : State) (p : Tid × OpKind) (u : Tid) (hh : x.has u = true) :
    (s.laneAdd b acts ins cnt x p).thread u = if u = p.1 then Thread.up cnt (x.thread u) else x.thread u := by
  rw [State.laneAdd, State.addOp_thread x _ cnt [p.1] rfl (by simp) u hh]
  simp

/-- The lanes of one block. -/
theorem State.laneAdds_spec (s : State) (b : Nat) (acts : List Tid) (ins : List Tok) (cnt : Cnt) (l : List (Tid × OpKind))
    (hb : ∀ p ∈ l, p.1.blk = b) (hn : (l.map (·.1)).Nodup) : ∀ x : State, OpStep s x →
    OpStep s (l.foldl (s.laneAdd b acts ins cnt) x) ∧
    (∀ b' k us is n, Started s x b' k us is n → Started s (l.foldl (s.laneAdd b acts ins cnt) x) b' k us is n) ∧
    (∀ p ∈ l, Started s (l.foldl (s.laneAdd b acts ins cnt) x) p.1.blk p.2 [p.1] ins none) ∧
    ∀ u, s.has u = true → (l.foldl (s.laneAdd b acts ins cnt) x).thread u =
      if u ∈ l.map (·.1) then Thread.up cnt (x.thread u) else x.thread u := by
  induction l with
  | nil => exact fun x hx => ⟨hx, fun _ _ _ _ _ h => h, by simp, by simp⟩
  | cons p l ih =>
    intro x hx
    rcases List.nodup_cons.1 hn with ⟨hp, hn⟩
    let y := s.laneAdd b acts ins cnt x p
    have hy : OpStep s y := hx.trans (x.addOp_step _)
    obtain ⟨i1, i2, i3, i4⟩ := ih (fun q hq => hb q (List.mem_cons_of_mem _ hq)) hn y hy
    refine ⟨i1, fun b' k us is n h => i2 b' k us is n (h.addOp _), ?_, ?_⟩
    · intro q hq
      rcases List.mem_cons.1 hq with rfl | hq
      · refine i2 _ _ _ _ _ ?_
        have := s.laneAdd_starts acts ins cnt x q hx.ids
        rw [hb q List.mem_cons_self] at this ⊢
        exact this
      · exact i3 q hq
    · intro u hu
      show (List.foldl _ y l).thread u = _
      rw [i4 u hu, s.laneAdd_thread b acts ins cnt x p u ((hx.has u).trans hu)]
      by_cases h1 : u = p.1
      · subst h1
        rw [if_neg hp, if_pos rfl, if_pos (by simp)]
      · simp only [List.map_cons, List.mem_cons, h1, false_or, if_false]

/-- A word that starts one operation for each lane: with its tokens produced and no lane at fault it answers a next
state, in which it has done so. -/
theorem State.laneWord_spec (s : State) (q fp : Nat) (h : Hdr) (ins : List Tok) (tko : Tok) (cnt : Cnt)
    (check : Tid → Except Flt OpKind) (kind : Tid → OpKind) (hg : s.groupOk = true) (hp : s.produced h ins = true)
    (hc : ∀ t ∈ s.act h, check t = .ok (kind t)) :
    ∃ s', s.laneWord q fp h ins tko cnt check = .next s' ∧ LaneStarts s s' h ins tko cnt kind := by
  have hts : (byLane (s.act h)).Nodup := nodup_byLane _ ((s.groupOk_nodup hg).filter _)
  have hhas : ∀ t ∈ s.act h, s.has t = true := fun t ht => s.groupOk_has hg t (s.act_sub h t ht)
  let ok : List (Tid × OpKind) := (byLane (s.act h)).map fun t => (t, kind t)
  have hsp : splitFaults ((byLane (s.act h)).map fun t => (t, check t)) = ([], ok) := by
    rw [splitFaults_ok _ kind]
    · simp [ok]
    · intro p hp
      obtain ⟨t, ht, rfl⟩ := List.mem_map.1 hp
      exact hc t ((mem_byLane _ _).1 ht)
  have hmine : ∀ b, (ok.filter (·.1.blk == b)).map (·.1) = (byLane (s.act h)).filter (·.blk == b) := by
    intro b
    simp only [ok, List.filter_map, List.map_map]
    exact List.map_id' _
  -- one block
  have one : ∀ (b : Nat) (x : State), OpStep s x →
      OpStep s (s.laneStep ok ins tko cnt x b) ∧
      (∀ b' k us is n, Started s x b' k us is n → Started s (s.laneStep ok ins tko cnt x b) b' k us is n) ∧
      (b ∈ blksOf (byLane (s.act h)) →
        (∀ t ∈ s.act h, t.blk = b → Started s (s.laneStep ok ins tko cnt x b) t.blk (kind t) [t] ins none) ∧
        Started s (s.laneStep ok ins tko cnt x b) b .group ((byLane (s.act h)).filter (·.blk == b)) [] (some tko)) ∧
      ∀ u, s.has u = true → (s.laneStep ok ins tko cnt x b).thread u =
        if u ∈ s.act h ∧ u.blk = b then Thread.up cnt (x.thread u) else x.thread u := by
    intro b x hx
    obtain ⟨j1, j2, j3, j4⟩ := s.laneAdds_spec b ((ok.filter (·.1.blk == b)).map (·.1)) ins cnt (ok.filter (·.1.blk == b))
      (fun p hp => by simpa using (List.mem_filter.1 hp).2) (by rw [hmine]; exact hts.filter _) x hx
    generalize hy : (ok.filter (·.1.blk == b)).foldl (s.laneAdd b ((ok.filter (·.1.blk == b)).map (·.1)) ins cnt) x = y at j1 j2 j3 j4
    have hthr : ∀ u, s.has u = true → y.thread u =
        if u ∈ s.act h ∧ u.blk = b then Thread.up cnt (x.thread u) else x.thread u := by
      intro u hu
      rw [j4 u hu, hmine]
      simp only [List.mem_filter, mem_byLane, beq_iff_eq]
    cases hd : (ok.filter (·.1.blk == b)).head? with
    | none =>
      have e : s.laneStep ok ins tko cnt x b = y := by simp only [State.laneStep, hy, hd]
      rw [e]
      refine ⟨j1, j2, fun hb => ?_, hthr⟩
      obtain ⟨t, ht, hb⟩ := (mem_blksOf _ _).1 hb
      have : (t, kind t) ∈ ok.filter (·.1.blk == b) := List.mem_filter.2 ⟨List.mem_map.2 ⟨t, ht, rfl⟩, by simp [hb]⟩
      rw [List.head?_eq_none_iff.1 hd] at this; cases this
    | some p =>
      have hp : p ∈ ok.filter (·.1.blk == b) := List.mem_of_head? hd
      have hpb : p.1.blk = b := by simpa using (List.mem_filter.1 hp).2
      let o : Op := { s.opOf p.1 .group with
        tids := (ok.filter (·.1.blk == b)).map (·.1)
        after := (List.range (ok.filter (·.1.blk == b)).length).map (x.nextId + ·) }
      have e : s.laneStep ok ins tko cnt x b = (y.addOp o).addTok b tko y.nextId := by
        simp only [State.laneStep, hy, hd, o]
      rw [e]
      refine ⟨j1.trans ((y.addOp_step o).trans (State.addTok_step _ _ _ _)),
        fun b' k us is n h => ((j2 b' k us is n h).addOp o).addTok b tko _, fun hb => ⟨?_, ?_⟩, ?_⟩
      · intro t ht hb
        have : (t, kind t) ∈ ok.filter (·.1.blk == b) :=
          List.mem_filter.2 ⟨List.mem_map.2 ⟨t, (mem_byLane _ _).2 ht, rfl⟩, by simp [hb]⟩
        exact ((j3 _ this).addOp o).addTok b tko _
      · refine ⟨y.numbered o, State.addOp_mem y o, j1.ids, rfl, hpb, hmine b, rfl, rfl, rfl, rfl,
          by simp, fun n hn => ?_⟩
        cases hn
        refine State.addTok_holds _ _ _ _ ?_
        rw [(y.addOp_step o).fnd, j1.fnd]
        obtain ⟨t, ht, hb⟩ := (mem_blksOf _ _).1 hb
        rw [← hb]
        exact ((s.has_iff t).1 (hhas t ((mem_byLane _ _).1 ht))).1
      · intro u hu
        rw [State.addTok_thread, State.addOp_thread_none _ _ rfl, hthr u hu]
  have fold : ∀ (l : List Nat), (∀ b ∈ l, b ∈ blksOf (byLane (s.act h))) → l.Nodup → ∀ x : State, OpStep s x →
      OpStep s (l.foldl (s.laneStep ok ins tko cnt) x) ∧
      (∀ b k us is n, Started s x b k us is n → Started s (l.foldl (s.laneStep ok ins tko cnt) x) b k us is n) ∧
      (∀ b ∈ l,
        (∀ t ∈ s.act h, t.blk = b → Started s (l.foldl (s.laneStep ok ins tko cnt) x) t.blk (kind t) [t] ins none) ∧
        Started s (l.foldl (s.laneStep ok ins tko cnt) x) b .group ((byLane (s.act h)).filter (·.blk == b)) [] (some tko)) ∧
      ∀ u, s.has u = true → (l.foldl (s.laneStep ok ins tko cnt) x).thread u =
        if u ∈ s.act h ∧ u.blk ∈ l then Thread.up cnt (x.thread u) else x.thread u := by
    intro l
    induction l with
    | nil => exact fun _ _ x hx => ⟨hx, fun _ _ _ _ _ h => h, by simp, by simp⟩
    | cons b l ih =>
      intro hl hn x hx
      rcases List.nodup_cons.1 hn with ⟨hbl, hn⟩
      obtain ⟨o1, o2, o3, o4⟩ := one b x hx
      obtain ⟨i1, i2, i3, i4⟩ := ih (fun c hc => hl c (List.mem_cons_of_mem _ hc)) hn _ o1
      refine ⟨i1, fun b' k us is n h => i2 _ _ _ _ _ (o2 b' k us is n h), ?_, ?_⟩
      · intro c hc
        rcases List.mem_cons.1 hc with rfl | hc
        · obtain ⟨p1, p2⟩ := o3 (hl c List.mem_cons_self)
          exact ⟨fun t ht hb => i2 _ _ _ _ _ (p1 t ht hb), i2 _ _ _ _ _ p2⟩
        · exact i3 c hc
      · intro u hu
        show State.thread (List.foldl _ (s.laneStep ok ins tko cnt x b) l) u = _
        rw [i4 u hu, o4 u hu]
        by_cases h1 : u ∈ s.act h <;> by_cases h2 : u.blk = b <;> by_cases h3 : u.blk ∈ l <;>
          simp only [h1, h2, h3, List.mem_cons, true_and, false_and, true_or, false_or, if_true, if_false, and_true, and_false]
        · exact absurd (h2 ▸ h3) hbl
        all_goals simp_all
  obtain ⟨f1, _, f3, f4⟩ := fold (blksOf (byLane (s.act h))) (fun _ hb => hb) (nodup_blksOf _) (s.produceAll tko)
    (s.produceAll_step tko)
  generalize hy : (blksOf (byLane (s.act h))).foldl (s.laneStep ok ins tko cnt) (s.produceAll tko) = y at f1 f3 f4
  have hbm : ∀ u ∈ s.act h, u.blk ∈ blksOf (byLane (s.act h)) :=
    fun u hu => (mem_blksOf _ _).2 ⟨u, (mem_byLane _ _).2 hu, rfl⟩
  refine ⟨(y.retireFp q (fp + 1)).useFree, ?_, f1.frame q (fp + 1) h ?_, ?_, f1.falls q (fp + 1) hg, ?_, ?_⟩
  · have hst : s.staleFaults (byLane (s.act h)) ins = [] :=
      s.staleFaults_nil _ _ fun t ht => (s.produced_iff h ins).1 hp t ((mem_byLane _ _).1 ht)
    simp only [State.laneWord, hst, hsp]
    rw [← hy]
    rfl
  · intro u hu
    by_cases hh : s.has u = true
    · rw [f4 u hh, if_neg (fun e => hu e.1), State.produceAll_thread]
    · rw [State.thread_of_not_has y ((f1.has u).trans (by simpa using hh)), State.thread_of_not_has s (by simpa using hh)]
  · intro u hu
    show ((y.retireFp q (fp + 1)).thread u).arch = _
    rw [State.retireFp_thread_arch, f4 u (hhas u hu), if_pos ⟨hu, hbm u hu⟩, State.produceAll_thread]
  · intro t ht
    exact ((f3 t.blk (hbm t ht)).1 t ht rfl).retire q (fp + 1)
  · intro b hb
    obtain ⟨t, ht, rfl⟩ := (mem_blksOf _ _).1 hb
    exact (f3 t.blk (hbm t ht)).2.retire q (fp + 1)

end Sys2Proof.Machine
end

