-- ==== Sys2Proof/Laws/Ctrl.lean ====
section
/-!
SUPPORT. Laws/Ctrl.lean: what the shared operations of the control words do: branches, serialising words, and the skeleton
(cores, blocks and threads, and their clocks) that every word keeps.
-/

namespace Sys2Proof.Machine

/-- Cores, blocks and threads are those of before: who exists, where, and the clocks. -/
structure Skel (s x : State) : Prop where
  core : ∀ b, (x.block b).core = (s.block b).core
  has : ∀ u, x.has u = s.has u
  now : ∀ c, x.now c = s.now c
theorem Skel.refl (s : State) : Skel s s := ⟨fun _ => rfl, fun _ => rfl, fun _ => rfl⟩
theorem Skel.trans {s x y : State} (h : Skel s x) (k : Skel x y) : Skel s y :=
  ⟨fun b => (k.core b).trans (h.core b), fun u => (k.has u).trans (h.has u), fun c => (k.now c).trans (h.now c)⟩
theorem Skel.narrow (s : State) (ts : List Tid) : Skel s (s.narrow ts) := ⟨fun _ => rfl, fun _ => rfl, fun _ => rfl⟩
theorem Skel.issued (s : State) (q : Nat) : Skel s (s.issued q) := ⟨fun _ => rfl, fun _ => rfl, s.issued_now q⟩
theorem Skel.modEach (s : State) (ts : List Tid) (f) : Skel s (s.modEach ts f) :=
  ⟨State.modEach_block_proj s (·.core) f (fun _ _ => rfl) ts, State.has_modEach s ts f,
   fun c => State.modEach_keeps (State.now · c) f (fun _ _ => rfl) ts s⟩
theorem Skel.modThreads (s : State) (ts : List Tid) (f) : Skel s (s.modThreads ts f) := Skel.modEach s ts fun _ => f
theorem Skel.retireFp (s : State) (q fp : Nat) : Skel s (s.retireFp q fp) := by
  rw [State.retireFp_eq]; exact (Skel.issued s q).trans (Skel.modThreads _ _ _)
theorem Skel.retireJump (s : State) (q : Nat) (l) : Skel s (s.retireJump q l) := by
  rw [State.retireJump_eq]; exact (Skel.issued s q).trans (Skel.modEach _ _ _)
theorem Skel.groupOk {s x : State} (k : Skel s x) (hg : s.groupOk = true) (hc : x.cur.core = s.cur.core) (hn : x.cur.tids.Nodup)
    (hs : ∀ t ∈ x.cur.tids, t ∈ s.cur.tids) : x.groupOk = true := by
  simp only [State.groupOk, Bool.and_eq_true, decide_eq_true_eq, List.all_eq_true, beq_iff_eq] at hg ⊢
  exact ⟨hn, fun t ht => ⟨(k.has t).trans (hg.2 t (hs t ht)).1, by rw [k.core, hc]; exact (hg.2 t (hs t ht)).2⟩⟩
theorem modThreads_thread (s : State) (ts : List Tid) (f) (hn : ts.Nodup) (u : Tid) (hh : u ∈ ts → s.has u = true) :
    (s.modThreads ts f).thread u = if u ∈ ts then f (s.thread u) else s.thread u := State.modEach_thread s ts (fun _ => f) hn u hh
theorem retireSerial_thread (s : State) (q : Nat) (hg : s.groupOk = true) (u : Tid) :
    (s.retireSerial q).thread u = if u ∈ s.cur.tids then
      (let th := Thread.retire s.cur.pc q s.clk 0 (s.thread u); { th with readyAt := Nat.max th.readyAt (s.clk + 1) })
      else s.thread u := by
  have e : s.retireSerial q = (s.retireFp q 0).modThreads s.cur.tids fun th => { th with readyAt := Nat.max th.readyAt (s.clk + 1) } := by
    show (s.retireFp q 0).modThreads _ (fun th => { th with readyAt := Nat.max th.readyAt (s.clk + 1) }) = _
    rfl
  rw [e, modThreads_thread _ _ _ (s.groupOk_nodup hg) u (fun h => by rw [State.has_retireFp]; exact s.groupOk_has hg u h), State.retireFp_thread _ _ _ hg]
  split <;> rfl
/-- The word behind a serialising word waits for the next clock. -/
def Thread.after (c : Nat) (th : Thread) : Thread := { th with readyAt := Nat.max th.readyAt c }
theorem retireSerial_eq (s : State) (q : Nat) : s.retireSerial q = (s.retireFp q 0).modThreads s.cur.tids (Thread.after (s.clk + 1)) :=
  rfl
theorem onlyRetired_after {s x : State} (h : OnlyRetired s x) (ts : List Tid) (f : Thread → Thread) (hf : ∀ th, (f th).arch = th.arch)
    (hts : ∀ t ∈ ts, t ∈ s.cur.tids) : OnlyRetired s (x.modThreads ts f) := by
  refine ⟨fun u => ?_, fun u hu => ?_, fun b => ?_, ?_, sameRest_of ?_ fun c => ?_⟩
  · exact (x.modThreads_thread_proj Thread.arch f hf ts u).trans (h.1 u)
  · exact (x.modThreads_thread_notin ts f u fun e => hu (hts u e)).trans (h.2.1 u hu)
  · exact (x.modThreads_block_proj (fun k => { k with threads := [] }) f (fun _ _ => rfl) ts b).trans (h.2.2.1 b)
  · rw [State.modThreads_ops]; exact h.2.2.2.1
  · rw [State.modThreads_rest]; exact h.2.2.2.2.1
  · rw [State.modThreads_core]; exact h.2.2.2.2.2.1 c
theorem retireSerial_onlyRetired (s : State) (q : Nat) : OnlyRetired s (s.retireSerial q) :=
  onlyRetired_after (s.retireFp_onlyRetired q 0) _ (Thread.after (s.clk + 1)) (fun _ => rfl) fun _ h => h
theorem retireSerial_falls (s : State) (q : Nat) (hg : s.groupOk = true) : FellThrough s (s.retireSerial q) s.cur.tids ∧
    ∀ t ∈ s.cur.tids, s.clk + 1 ≤ ((s.retireSerial q).thread t).readyAt := by
  refine ⟨fun t ht hp hl hw => ?_, fun t ht => ?_⟩
  · rw [retireSerial_thread s q hg, if_pos ht]; exact Thread.retire_falls _ _ _ _ _ hp hl hw
  · rw [retireSerial_thread s q hg, if_pos ht]; exact Nat.le_max_right _ _
theorem skel_serial (s : State) (q : Nat) : Skel s (s.retireSerial q) := (Skel.retireFp s q 0).trans (Skel.modThreads _ _ _)

theorem find_map (ts : List Tid) (g : Tid → DWord) (u : Tid) :
    ((ts.map fun t => (t, g t)).find? (·.1 == u)).map (·.2) = if u ∈ ts then some (g u) else none := by
  induction ts with
  | nil => rfl
  | cons t ts ih =>
    simp only [List.map_cons, List.find?_cons]
    by_cases h : t = u
    · subst h; simp
    · rw [beq_eq_false_iff_ne.2 h, ih]; simp [Ne.symm h]
theorem jumped_of (s x : State) (q : Nat) (h : Hdr) (g : Tid → DWord) (hc : x.cur = s.cur) (hclk : x.clk = s.clk)
    (hx : ∀ u, (x.thread u).pc = (s.thread u).pc ∧ (x.thread u).win = (s.thread u).win ∧ (x.thread u).loops = (s.thread u).loops)
    (hxg : x.groupOk = true) :
    Jumped s (x.retireJump q ((s.act h).map fun t => (t, g t))).useFree h g := by
  have e : ∀ u, (x.retireJump q ((s.act h).map fun t => (t, g t))).thread u = if u ∈ s.cur.tids then
      Thread.jumpOr s.cur.pc q s.clk (if u ∈ s.act h then some (g u) else none) (x.thread u) else x.thread u := by
    intro u; rw [State.retireJump_thread _ _ _ hxg, find_map, hc, hclk]
  refine ⟨fun t ht => ?_, fun t ht hpc hl hw => ?_⟩
  · have := e t
    rw [if_pos (s.act_sub h t ht), if_pos ht] at this
    show ((x.retireJump q _).thread t).pc = _ ∧ ((x.retireJump q _).thread t).loops = _ ∧ _ ≤ ((x.retireJump q _).thread t).readyAt
    rw [this]
    refine ⟨rfl, (hx t).2.2, ?_⟩
    simp only [Thread.jumpOr, Thread.jump]; split <;> omega
  · have hm := List.mem_filter.1 ht
    have := e t
    rw [if_pos hm.1, if_neg (fun h' => by have := (List.mem_filter.1 h').2; simp_all)] at this
    show ((x.retireJump q _).thread t).pc = _ ∧ ((x.retireJump q _).thread t).loops = _
    rw [this]
    have f := Thread.retire_falls s.cur.pc q s.clk 0 (x.thread t) (by rw [(hx t).1, hpc]) (by simpa [Thread.atLoopEnd, (hx t).2.2] using hl) (by rw [(hx t).2.1]; exact hw)
    exact ⟨f.1, f.2.trans (hx t).2.2⟩
theorem legal_fault (d : DWord) (h : legalTarget d) : targetFault d = none := by
  simp [targetFault, fld, h.1, h.2]
theorem branch_ok (s : State) (h : Hdr) (g : Tid → DWord) (before : State → State) (hl : ∀ t ∈ s.act h, legalTarget (g t)) :
    s.branch h g before = ((before s).retireJump qCtrl ((s.act h).map fun t => (t, g t))).useFree := by
  have : (s.act h).filterMap (fun t => (targetFault (g t)).map fun f => (t, f)) = [] := by
    rw [List.filterMap_eq_nil_iff]; intro t ht; rw [legal_fault _ (hl t ht)]; rfl
  simp only [State.branch, this, List.isEmpty_nil, if_true]
theorem onlyRetired_jump (s : State) (q : Nat) (l) (hg : s.groupOk = true) : OnlyRetired s (s.retireJump q l).useFree :=
  ⟨s.retireJump_arch q l, fun u hu => by
    show (s.retireJump q l).thread u = _
    rw [State.retireJump_thread _ _ _ hg, if_neg hu], s.retireJump_block q l, s.retireJump_ops q l, s.retireJump_sameRest q l⟩

theorem wrote_ids {s x : State} {due A B} (w : WroteAt s x due A B) (hg : s.groupOk = true) : x.cur = s.cur ∧ x.clk = s.clk ∧ x.groupOk = true ∧
    ∀ u, (x.thread u).pc = (s.thread u).pc ∧ (x.thread u).win = (s.thread u).win ∧ (x.thread u).loops = (s.thread u).loops := by
  refine ⟨w.cur, ?_, ?_, fun u => ?_⟩
  · simp only [State.clk, State.now, w.cur, w.core]
  · have hb : ∀ b, (x.block b).core = (s.block b).core := fun b => by have := congrArg Block.core (w.blk b); exact this
    simp only [State.groupOk, w.cur, w.has, hb] at hg ⊢; exact hg
  · have e := w.thr u
    exact ⟨by have := congrArg Thread.pc e; exact this, by have := congrArg Thread.win e; exact this, by have := congrArg Thread.loops e; exact this⟩

end Sys2Proof.Machine
end

