-- ==== Sys2Proof/Laws/Access.lean ====
section
/-!
SUPPORT. Laws/Access.lean: words that put operations in flight at once (loads, stores, atomics, tag and semaphore words):
what a row of `addOp` steps does, and that retiring after it completes the word.
-/

namespace Sys2Proof.Machine

/-- Keeping translations and occupying the pipe start nothing. -/
theorem State.keepTlb_step (s : State) (c cid : Nat) (vas : List Nat) : OpStep s (s.keepTlb c cid vas) := by
  simp only [State.keepTlb]
  refine OpStep.foldl _ _ (fun x va _ => ?_) s
  split
  · exact .refl x
  · split
    · exact OpStep.modCore x c _ fun _ => rfl
    · exact .refl x

theorem State.warm_step (s : State) (vas : List (Tid × DWord)) : OpStep s (s.warm vas) := by
  simp only [State.warm]
  refine OpStep.foldl _ _ (fun x p _ => ?_) s
  split
  · exact x.keepTlb_step _ _ _
  · exact .refl x

theorem State.occupy_step (s : State) (n : Nat) : OpStep s (s.occupy n) := OpStep.modCore s _ _ fun _ => rfl

/-- Taking miss-status entries starts nothing. -/
theorem State.takeMshr_step (s : State) (accs : List Acc) : OpStep s (s.takeMshr accs) := by
  simp only [State.takeMshr]
  split
  · exact .refl s
  · exact OpStep.modCore s _ _ fun _ => rfl

/-- A step that only touches cores leaves blocks and operations as they are. -/
structure CoreStep (s s' : State) : Prop where
  blocks : s'.blocks = s.blocks
  ops : s'.ops = s.ops
  ids : s'.nextId = s.nextId

theorem State.keepTlb_core (s : State) (c cid : Nat) (vas : List Nat) : CoreStep s (s.keepTlb c cid vas) := by
  simp only [State.keepTlb]
  refine List.foldlRecOn vas _ (motive := CoreStep s) ⟨rfl, rfl, rfl⟩ fun x hx va _ => ?_
  split
  · exact hx
  · split
    · exact ⟨hx.blocks, hx.ops, hx.ids⟩
    · exact hx

theorem State.warm_core (s : State) (vas : List (Tid × DWord)) : CoreStep s (s.warm vas) := by
  simp only [State.warm]
  refine List.foldlRecOn vas _ (motive := CoreStep s) ⟨rfl, rfl, rfl⟩ fun x hx p _ => ?_
  split
  · exact ⟨(x.keepTlb_core _ _ _).blocks.trans hx.blocks, (x.keepTlb_core _ _ _).ops.trans hx.ops,
      (x.keepTlb_core _ _ _).ids.trans hx.ids⟩
  · exact hx

theorem State.takeMshr_core (s : State) (accs : List Acc) : CoreStep s (s.takeMshr accs) := by
  simp only [State.takeMshr]
  split <;> exact ⟨rfl, rfl, rfl⟩

theorem CoreStep.trans {s s' s'' : State} (h : CoreStep s s') (k : CoreStep s' s'') : CoreStep s s'' :=
  ⟨k.blocks.trans h.blocks, k.ops.trans h.ops, k.ids.trans h.ids⟩

theorem State.occupy_core (s : State) (n : Nat) : CoreStep s (s.occupy n) := ⟨rfl, rfl, rfl⟩

/-- Operations put in flight one after another: each is in the list, and each thread's counter has risen once. -/
theorem State.addOps_spec {α : Type} (s : State) (c : Option Cnt) (mk : α → Op) (mine : α → List Tid) (l : List α)
    (hc : ∀ a ∈ l, (mk a).cnts = match c with
      | some k => (mine a).map fun t => (t, k)
      | none => [])
    (hn : ∀ a ∈ l, (mine a).Nodup) (hd : l.Pairwise fun a b => ∀ t ∈ mine a, t ∉ mine b) :
    ∀ x : State, OpStep s x →
      OpStep s (l.foldl (fun x a => x.addOp (mk a)) x) ∧
      (l.foldl (fun x a => x.addOp (mk a)) x).ops.length = x.ops.length + l.length ∧
      (∀ o ∈ x.ops, o ∈ (l.foldl (fun x a => x.addOp (mk a)) x).ops) ∧
      (∀ a ∈ l, ∃ i k, s.nextId ≤ i ∧ { mk a with id := i, vclk := k } ∈ (l.foldl (fun x a => x.addOp (mk a)) x).ops) ∧
      ∀ u, s.has u = true → (l.foldl (fun x a => x.addOp (mk a)) x).thread u = match c with
        | some k => if ∃ a ∈ l, u ∈ mine a then Thread.up k (x.thread u) else x.thread u
        | none => x.thread u := by
  induction l with
  | nil => intro x hx; cases c <;> simp [hx]
  | cons a l ih =>
    intro x hx
    rcases List.pairwise_cons.1 hd with ⟨hda, hd⟩
    obtain ⟨i1, i2, i3, i4, i5⟩ := ih (fun b hb => hc b (List.mem_cons_of_mem _ hb))
      (fun b hb => hn b (List.mem_cons_of_mem _ hb)) hd (x.addOp (mk a)) (hx.trans (x.addOp_step _))
    refine ⟨i1, ?_, ?_, ?_, ?_⟩
    · rw [List.foldl_cons, i2, State.addOp_ops]; simp; omega
    · intro o ho
      exact i3 o ((x.addOp_step _).ops o ho)
    · intro b hb
      rcases List.mem_cons.1 hb with rfl | hb
      · exact ⟨x.nextId, _, hx.ids, i3 _ (State.addOp_mem x _)⟩
      · exact i4 b hb
    · intro u hu
      have hxu : x.has u = true := (hx.has u).trans hu
      rw [List.foldl_cons, i5 u hu]
      have hca := hc a List.mem_cons_self
      cases c with
      | none => simp only at hca ⊢; exact State.addOp_thread_none x _ hca u
      | some k =>
        simp only at hca ⊢
        rw [State.addOp_thread x _ k (mine a) hca (hn a List.mem_cons_self) u hxu]
        by_cases h1 : u ∈ mine a
        · have h2 : ¬ ∃ b ∈ l, u ∈ mine b := fun ⟨b, hb, hub⟩ => hda b hb u h1 hub
          rw [if_pos h1, if_neg h2, if_pos ⟨a, List.mem_cons_self, h1⟩]
        · by_cases h2 : ∃ b ∈ l, u ∈ mine b
          · rw [if_pos h2, if_neg h1, if_pos (by obtain ⟨b, hb, hub⟩ := h2; exact ⟨b, List.mem_cons_of_mem _ hb, hub⟩)]
          · rw [if_neg h2, if_neg h1, if_neg]
            rintro ⟨b, hb, hub⟩
            rcases List.mem_cons.1 hb with rfl | hb
            · exact h1 hub
            · exact h2 ⟨b, hb, hub⟩

/-- A word that puts operations in flight at once, after a preparation that touches cores only, has completed when it
retires. -/
theorem State.begun_of {α : Type} (s x : State) (q fp : Nat) (h : Hdr) (c : Option Cnt) (mk : α → Op) (mine : α → List Tid)
    (l : List α) (hg : s.groupOk = true) (hx : OpStep s x) (hk : CoreStep s x)
    (hc : ∀ a ∈ l, (mk a).cnts = match c with
      | some k => (mine a).map fun t => (t, k)
      | none => [])
    (hn : ∀ a ∈ l, (mine a).Nodup) (hd : l.Pairwise fun a b => ∀ t ∈ mine a, t ∉ mine b)
    (hm : ∀ t, t ∈ s.act h ↔ ∃ a ∈ l, t ∈ mine a) :
    Begun s ((l.foldl (fun x a => x.addOp (mk a)) x).retireFp q fp).useFree h c l.length ∧
    ∀ a ∈ l, ∃ i k, s.nextId ≤ i ∧
      { mk a with id := i, vclk := k } ∈ ((l.foldl (fun x a => x.addOp (mk a)) x).retireFp q fp).useFree.ops := by
  obtain ⟨f1, f2, f3, f4, f5⟩ := s.addOps_spec c mk mine l hc hn hd x hx
  have hxt : ∀ u, x.thread u = s.thread u := fun u => by simp only [State.thread, State.block, hk.blocks]
  generalize l.foldl (fun x a => x.addOp (mk a)) x = y at f1 f2 f3 f4 f5
  have hhas : ∀ t ∈ s.act h, s.has t = true := fun t ht => s.groupOk_has hg t (s.act_sub h t ht)
  have hnot : ∀ u, u ∉ s.act h → (y.thread u).arch = (s.thread u).arch := by
    intro u hu
    by_cases hh : s.has u = true
    · rw [f5 u hh]
      cases c with
      | none => rw [hxt]
      | some k => simp only; rw [if_neg (fun e => hu ((hm u).2 e)), hxt]
    · rw [State.thread_of_not_has y ((f1.has u).trans (by simpa using hh)), State.thread_of_not_has s (by simpa using hh)]
  refine ⟨⟨f1.frame q fp h hnot, fun u hu => ?_, f1.falls q fp hg, ?_⟩, fun a ha => ?_⟩
  · have e := f5 u (hhas u hu)
    show ((y.retireFp q fp).thread u).arch = _
    rw [State.retireFp_thread_arch, e]
    cases c with
    | none => simp only; rw [hxt]
    | some k => simp only; rw [if_pos ((hm u).1 hu), hxt]
  · show (y.retireFp q fp).ops.length = _
    rw [State.retireFp_ops, f2, hk.ops]
  · obtain ⟨i, k, hi, ho⟩ := f4 a ha
    refine ⟨i, k, hi, ?_⟩
    show _ ∈ (y.retireFp q fp).ops
    rw [State.retireFp_ops]; exact ho

/-- An operation in the list is one the word has started. -/
theorem Started.of_mem {s s' : State} {o : Op} (hm : o ∈ s'.ops) (hi : s.nextId ≤ o.id) (hc : o.core = s.cur.core)
    (hp : o.pc = s.cur.pc) (hk : o.clk = s.clk) (hs : o.stage = 0) : Started s s' o.blk o.kind o.tids [] none :=
  ⟨o, hm, hi, rfl, rfl, rfl, hc, hp, hk, hs, fun _ h => by simp at h, fun n h => by cases h⟩

/-- LDS, LDG, LDA: one load for each active lane. -/
theorem State.loadWord_spec (s : State) (q fp : Nat) (h : Hdr) (lane : Tid → Except Flt Acc) (acc : Tid → Acc) (n : Nat) (d : Reg)
    (acq : Option Scope) (hg : s.groupOk = true) (hl : ∀ t ∈ s.act h, lane t = .ok (acc t))
    (hr : s.rejects ((s.act h).map acc) = false) :
    ∃ s', s.loadWord q fp ((s.act h).map fun t => (t, lane t)) n d acq = .next s' ∧
      Begun s s' h (some .ld) (s.act h).length ∧
      ∀ t ∈ s.act h, Started s s' t.blk (.load (acc t) n (lanesReg (s.act h) t d) acq) [t] [] none := by
  have hsp : splitFaults ((s.act h).map fun t => (t, lane t)) = ([], (s.act h).map fun t => (t, acc t)) := by
    rw [splitFaults_ok _ acc]
    · simp
    · intro p hp
      obtain ⟨t, ht, rfl⟩ := List.mem_map.1 hp
      exact hl t ht
  have e1 : ((s.act h).map fun t => (t, acc t)).map (·.2) = (s.act h).map acc := by simp
  have e2 : ((s.act h).map fun t => (t, acc t)).map (·.1) = s.act h := by simp [Function.comp_def]
  simp only [State.loadWord, hsp, e1, e2, hr, Bool.false_eq_true, if_false, List.foldl_map]
  refine ⟨_, rfl, ?_⟩
  generalize hx : ((s.takeMshr _).warm _).occupy _ = x
  have hxs : OpStep s x := by rw [← hx]; exact (s.takeMshr_step _).trans ((State.warm_step _ _).trans (State.occupy_step _ _))
  have hxk : CoreStep s x := by rw [← hx]; exact (s.takeMshr_core _).trans ((State.warm_core _ _).trans (State.occupy_core _ _))
  have hnd : (s.act h).Nodup := (s.groupOk_nodup hg).filter _
  obtain ⟨b, m⟩ := s.begun_of x q (fp + 1) h (some .ld)
    (fun t => { s.opOf t (.load (acc t) n (lanesReg (s.act h) t d) acq) with cnts := [(t, .ld)] }) (fun t => [t]) (s.act h) hg hxs hxk
    (fun _ _ => rfl) (fun _ _ => by simp) (hnd.imp fun h t ht => by simp_all) (fun t => by simp)
  refine ⟨b, fun t ht => ?_⟩
  obtain ⟨i, k, hi, ho⟩ := m t ht
  exact Started.of_mem ho hi rfl rfl rfl rfl

end Sys2Proof.Machine
end

