-- ==== Sys2Proof/Laws/Copy.lean ====
section
/-!
SUPPORT. Laws/Copy.lean: the order in which a copy moves its elements is one of all its elements.
-/

namespace Sys2Proof.Machine

/-- A free order of a list without repeats is that list in some order. -/
theorem freeOrder_perm (free k n : Nat) (l : List Nat) (h : l.Nodup) (hn : l.length = n) : (freeOrder free k n l).Perm l := by
  induction n generalizing l with
  | zero => simp [List.length_eq_zero_iff.mp hn, freeOrder]
  | succ n ih =>
    have hi : Config.pick free (k + n) % Nat.max 1 l.length < l.length := by
      rw [show Nat.max 1 l.length = l.length from max_eq_right (by omega)]; exact Nat.mod_lt _ (by omega)
    rw [freeOrder]
    set e := l.getD (Config.pick free (k + n) % Nat.max 1 l.length) 0 with he
    have hm : e ∈ l := by rw [he, List.getD_eq_getElem _ _ hi]; exact List.getElem_mem hi
    rw [← h.erase_eq_filter]
    exact ((ih (l.erase e) (h.erase e) (by rw [List.length_erase_of_mem hm]; omega)).cons e).trans (List.perm_cons_erase hm).symm

/-- The elements left of a copy are those not yet moved, in some order. -/
theorem State.leftEls_perm (s : State) (o : Op) (n : Nat) :
    (s.leftEls o n).Perm ((List.range n).filter fun i => !o.done.contains i) :=
  freeOrder_perm _ _ _ _ (List.nodup_range.filter _) rfl

end Sys2Proof.Machine
end

