-- ==== Sys2Proof/Laws/Decode.lean ====
section
/-!
SUPPORT. Laws/Decode.lean: the fields of an assembled word (spec/02 R31, R42), a register from its own code, and what `parse`
reads from a word put together from class, opcode, header and operand fields.
-/

namespace Sys2Proof

@[simp] theorem flag_bit (b : Bool) : flag (bit b) = b := by cases b <;> rfl
theorem bit_lt (b : Bool) : bit b < 2 := by cases b <;> decide
@[simp] theorem fin_val {n : Nat} [NeZero n] (x : Fin n) : fin n x.val = x := by
  apply Fin.ext
  simp [fin]

/-- A register's code is 8 bits wide. -/
theorem Reg.code_lt : ∀ r : Reg, r.code < 256
  | .x n => by have := n.isLt; simp only [Reg.code]; omega
  | .xz => by decide
  | .g n => by have := n.isLt; simp only [Reg.code]; omega

/-- A register's code names it (spec/02 R47). -/
@[simp] theorem Reg.ofCode_code : ∀ r : Reg, Reg.ofCode r.code = r
  | .x n => by simp [Reg.ofCode, Reg.code]
  | .xz => by decide
  | .g n => by revert n; decide

/-- The bounds of the fields of each layout (spec/02 R42). -/
def Fields.inRange : Fields → Prop
  | .A d a b c m => d < 2 ^ 8 ∧ a < 2 ^ 8 ∧ b < 2 ^ 8 ∧ c < 2 ^ 8 ∧ m < 2 ^ 6
  | .I d a i => d < 2 ^ 8 ∧ a < 2 ^ 8 ∧ i < 2 ^ 22
  | .L d i => d < 2 ^ 8 ∧ i < 2 ^ 30
  | .B m o x => m < 2 ^ 6 ∧ o < 2 ^ 26 ∧ x < 2 ^ 6
  | .M d b o z p => d < 2 ^ 8 ∧ b < 2 ^ 8 ∧ o < 2 ^ 16 ∧ z < 2 ^ 3 ∧ p < 2 ^ 3
  | .T a b k t0 t1 t2 m => a < 2 ^ 8 ∧ b < 2 ^ 8 ∧ k < 2 ^ 5 ∧ t0 < 2 ^ 5 ∧ t1 < 2 ^ 5 ∧ t2 < 2 ^ 5 ∧ m < 2 ^ 2
  | .W ld st cp mt z => ld < 2 ^ 6 ∧ st < 2 ^ 6 ∧ cp < 2 ^ 6 ∧ mt < 2 ^ 6 ∧ z < 2 ^ 14

/-- The operand fields take 38 bits. -/
theorem Fields.join_lt (f : Fields) (h : f.inRange) : f.join < 2 ^ 38 := by
  cases f <;> simp only [Fields.inRange] at h <;> simp only [Fields.join] <;> omega

/-- Cutting the joined operand fields gives them back (spec/02 R42). -/
theorem Fields.split_join (f : Fields) (h : f.inRange) : f.fmt.split f.join = f := by
  cases f <;> simp only [Fields.inRange] at h <;>
    simp only [Fields.fmt, Fmt.split, Fields.join, bitsAt, Fields.A.injEq, Fields.I.injEq, Fields.L.injEq, Fields.B.injEq,
      Fields.M.injEq, Fields.T.injEq, Fields.W.injEq]
  all_goals refine ⟨?_, ?_⟩ <;> first | omega | refine ⟨?_, ?_⟩ <;> first | omega | refine ⟨?_, ?_⟩ <;> first | omega | refine ⟨?_, ?_⟩ <;> first | omega | refine ⟨?_, ?_⟩ <;> first | omega | refine ⟨?_, ?_⟩ <;> omega

/-- A word put together. -/
def assemble (cls op : Nat) (h : Hdr) (f : Fields) : Nat := cls * 2 ^ 60 + op * 2 ^ 42 + h.code + f.join

/-- The fields of a word put together (spec/02 R31). -/
theorem assemble_fields (cls op : Nat) (h : Hdr) (f : Fields) (hc : cls < 16) (ho : op < 256) (hf : f.inRange) :
    let w := assemble cls op h f
    w < 2 ^ 64 ∧ wordClass w = cls ∧ wordOp w = op ∧ wordHdr w = h ∧ bitsAt w 0 38 = f.join := by
  have hj := f.join_lt hf
  obtain ⟨idle, guard, neg⟩ := h
  have hi := idle.isLt
  have hg := guard.isLt
  have hn := bit_lt neg
  simp only [assemble, Hdr.code, wordClass, wordOp, wordHdr, bitsAt]
  refine ⟨by omega, by omega, by omega, ?_, by omega⟩
  have e1 : (cls * 2 ^ 60 + op * 2 ^ 42 + (idle.toNat * 2 ^ 50 + guard.val * 2 ^ 39 + bit neg * 2 ^ 38) + f.join) / 2 ^ 50 % 2 ^ 10
      = idle.toNat := by omega
  have e2 : (cls * 2 ^ 60 + op * 2 ^ 42 + (idle.toNat * 2 ^ 50 + guard.val * 2 ^ 39 + bit neg * 2 ^ 38) + f.join) / 2 ^ 39 % 2 ^ 3
      = guard.val := by omega
  have e3 : (cls * 2 ^ 60 + op * 2 ^ 42 + (idle.toNat * 2 ^ 50 + guard.val * 2 ^ 39 + bit neg * 2 ^ 38) + f.join) / 2 ^ 38 % 2
      = bit neg := by omega
  rw [e1, e2]
  congr 1
  · simp
  · simp
  · simp only [flag, e3]; cases neg <;> rfl
/-- `parse` of a word whose fields are known. -/
theorem parse_of (w cls op : Nat) (h : Hdr) (f : Fields) (hc : cls < 0xE) (h1 : wordClass w = cls) (h2 : wordOp w = op)
    (h3 : wordHdr w = h) (h4 : f.fmt.split (bitsAt w 0 38) = f) (hm : formatOf cls op = some f.fmt) (i : Instr)
    (hi : parseFields cls h op f = some i) : parse w = .ok i := by
  unfold parse
  rw [h1, h2, h3, hm, if_neg (Nat.not_le.2 hc)]
  simp only [h4, hi]

/-- What `parse` reads from a word put together: the operand tables of its class and opcode on its own fields. -/
theorem parse_assemble (cls op : Nat) (h : Hdr) (f : Fields) (hc : cls < 0xE) (ho : op < 256) (hf : f.inRange)
    (hm : formatOf cls op = some f.fmt) (i : Instr) (hi : parseFields cls h op f = some i) :
    parse (assemble cls op h f) = .ok i := by
  have hh := assemble_fields cls op h f (by omega) ho hf
  exact parse_of _ cls op h f hc hh.2.1 hh.2.2.1 hh.2.2.2.1 (by rw [hh.2.2.2.2]; exact f.split_join hf) hm i hi

/-- `decode` of a word whose parse is a well-formed instruction. -/
theorem decode_of (n : Nat) (hn : n < 2 ^ 64) (i : Instr) (hp : parse n = .ok i) (hw : i.wf = true) :
    decode (BitVec.ofNat 64 n) = .ok i := by
  have hg : i.opds.all (Opd.ok 191) = true := by
    simp only [Instr.wf, Bool.and_eq_true] at hw
    exact hw.2
  have ht : (BitVec.ofNat 64 n).toNat = n := Nat.mod_eq_of_lt hn
  unfold decode
  rw [ht, hp]
  simp only [hg, if_true]

/-- A word put together decodes to the instruction of its fields, where that is well formed. -/
theorem decode_assemble (cls op : Nat) (h : Hdr) (f : Fields) (hc : cls < 0xE) (ho : op < 256) (hf : f.inRange)
    (hm : formatOf cls op = some f.fmt) (i : Instr) (hi : parseFields cls h op f = some i) (hw : i.wf = true) :
    decode (BitVec.ofNat 64 (assemble cls op h f)) = .ok i :=
  decode_of _ (assemble_fields cls op h f (by omega) ho hf).1 i (parse_assemble cls op h f hc ho hf hm i hi) hw

/-- An instruction of known fields decodes from its encoding. -/
theorem decode_encode_of (i : Instr) (cls op : Nat) (h : Hdr) (f : Fields) (ht : i.toFields = some (cls, op, f))
    (hh : i.hdr? = some h) (hc : cls < 0xE) (ho : op < 256) (hf : f.inRange) (hm : formatOf cls op = some f.fmt)
    (hi : parseFields cls h op f = some i) (hw : i.wf = true) (w : BitVec 64) (he : encode i = some w) : decode w = .ok i := by
  unfold encode at he
  rw [ht, hh] at he
  have he : BitVec.ofNat 64 (assemble cls op h f) = w := Option.some.inj he
  rw [← he]
  exact decode_assemble cls op h f hc ho hf hm i hi hw

end Sys2Proof
end

