-- ==== Sys2Proof/Laws/Memory.lean ====
section
/-!
SUPPORT. Laws/Memory.lean: reading a byte store after a write, and that every operation over the memory devices and the
scratchpads keeps their canonical form.
-/

namespace Sys2Proof.Machine

/-! ### Byte stores -/

/-- In a store in canonical form from `lo` on, every address below `lo` reads as unwritten. -/
theorem cellRead_below : ∀ (m : List Host.Cell) (lo a : Nat), cellsWfFrom lo m = true → a < lo → cellRead m a = emptyByte
  | [], _, _, _, _ => rfl
  | (k, v) :: t, lo, a, h, ha => by
    simp only [cellsWfFrom, Bool.and_eq_true, decide_eq_true_eq] at h
    simp only [cellRead]
    rw [if_neg (by omega)]
    exact cellRead_below t (k + 1) a h.2 (by omega)

/-- A read after a write gives the byte written there, and the byte of before elsewhere. -/
theorem cellRead_cellWrite : ∀ (m : List Host.Cell) (lo a b : Nat) (v : Byte), cellsWfFrom lo m = true →
    cellRead (cellWrite m a v) b = if b = a then v else cellRead m b
  | [], _, a, b, v, _ => by
    simp only [cellWrite]
    by_cases hv : v = emptyByte <;> by_cases hb : b = a <;> simp [hv, hb, cellRead, Ne.symm]
  | (k, u) :: t, lo, a, b, v, h => by
    simp only [cellsWfFrom, Bool.and_eq_true, decide_eq_true_eq] at h
    have hb := cellRead_below t (k + 1)
    have ih := cellRead_cellWrite t (k + 1) a b v h.2
    simp only [cellWrite]
    split
    · rename_i hlt
      split
      · rename_i hv
        subst hv
        by_cases e : b = a
        · subst e
          simp only [cellRead, if_true]
          rw [if_neg (by omega), hb b h.2 (by omega)]
        · simp [e]
      · by_cases e : b = a
        · subst e; simp [cellRead]
        · simp only [cellRead, e, if_false]
          rw [if_neg (fun x => e x.symm)]
    · split
      · rename_i hk
        subst hk
        split
        · rename_i hv
          subst hv
          by_cases e : b = a
          · subst e; simp [hb b h.2 (by omega)]
          · simp only [cellRead, e, if_false]
            rw [if_neg (fun x => e x.symm)]
        · by_cases e : b = a
          · subst e; simp [cellRead]
          · simp only [cellRead, e, if_false]
            rw [if_neg (fun x => e x.symm), if_neg (fun x => e x.symm)]
      · simp only [cellRead, ih]
        split <;> split <;> first | rfl | omega

/-- A lower bound may be lowered. -/
theorem cellsWfFrom_le : ∀ (m : List Host.Cell) (lo lo' : Nat), lo' ≤ lo → cellsWfFrom lo m = true → cellsWfFrom lo' m = true
  | [], _, _, _, _ => rfl
  | (k, v) :: t, lo, lo', hl, h => by
    simp only [cellsWfFrom, Bool.and_eq_true, decide_eq_true_eq] at h ⊢
    exact ⟨⟨by omega, h.1.2⟩, h.2⟩

/-- A write keeps the canonical form. -/
theorem cellWrite_wfFrom : ∀ (m : List Host.Cell) (lo a : Nat) (v : Byte), lo ≤ a → cellsWfFrom lo m = true →
    cellsWfFrom lo (cellWrite m a v) = true
  | [], lo, a, v, ha, _ => by
    simp only [cellWrite]
    split
    · rfl
    · rename_i hv; simp [cellsWfFrom, ha, hv]
  | (k, u) :: t, lo, a, v, ha, h => by
    have h0 := h
    simp only [cellsWfFrom, Bool.and_eq_true, decide_eq_true_eq] at h
    simp only [cellWrite]
    split
    · split
      · exact h0
      · rename_i hlt hv
        simp only [cellsWfFrom, Bool.and_eq_true, decide_eq_true_eq]
        exact ⟨⟨ha, hv⟩, ⟨⟨hlt, h.1.2⟩, h.2⟩⟩
    · split
      · split
        · exact cellsWfFrom_le t _ _ (by omega) h.2
        · rename_i hk hv
          subst hk
          simp only [cellsWfFrom, Bool.and_eq_true, decide_eq_true_eq]
          exact ⟨⟨ha, hv⟩, h.2⟩
      · simp only [cellsWfFrom, Bool.and_eq_true, decide_eq_true_eq]
        exact ⟨h.1, cellWrite_wfFrom t (k + 1) a v (by omega) h.2⟩

theorem cellWrite_wf (m : List Host.Cell) (a : Nat) (v : Byte) (h : cellsWf m = true) : cellsWf (cellWrite m a v) = true :=
  cellWrite_wfFrom m 0 a v (Nat.zero_le _) h

/-- Writing many bytes keeps the canonical form. -/
theorem cellsPut_wf (cs : List Host.Cell) : ∀ m : List Host.Cell, cellsWf m = true → cellsWf (cellsPut m cs) = true := by
  induction cs with
  | nil => exact fun m h => h
  | cons c cs ih => exact fun m h => ih _ (cellWrite_wf m c.1 c.2 h)

/-- Taking bytes away keeps the canonical form. -/
theorem cellsWfFrom_filter (p : Host.Cell → Bool) : ∀ (m : List Host.Cell) (lo : Nat), cellsWfFrom lo m = true →
    cellsWfFrom lo (m.filter p) = true
  | [], _, _ => rfl
  | (k, v) :: t, lo, h => by
    simp only [cellsWfFrom, Bool.and_eq_true, decide_eq_true_eq] at h
    have ih := cellsWfFrom_filter p t (k + 1) h.2
    simp only [List.filter]
    split
    · simp only [cellsWfFrom, Bool.and_eq_true, decide_eq_true_eq]
      exact ⟨h.1, ih⟩
    · exact cellsWfFrom_le _ _ _ (by omega) ih

theorem cellsWf_filter (p : Host.Cell → Bool) (m : List Host.Cell) (h : cellsWf m = true) : cellsWf (m.filter p) = true :=
  cellsWfFrom_filter p m 0 h

/-! ### The stores of the package -/

/-- The form of the whole: the devices' bytes and each listed core's scratchpad. -/
theorem State.memWf_iff (s : State) :
    s.memWf = true ↔ cellsWf s.mem.dev = true ∧ ∀ p ∈ s.cores, cellsWf p.2.spad = true := by
  simp [State.memWf, Mem.wf, List.all_eq_true]

/-- An entry of a table after a write is the new one or one of before. -/
theorem Tab.mem_put {α : Type} (t : Tab α) (n : Nat) (v : α) (p : Nat × α) (h : p ∈ Tab.put t n v) : p = (n, v) ∨ p ∈ t := by
  induction t with
  | nil => simp [Tab.put] at h; exact .inl h
  | cons q t ih =>
    simp only [Tab.put] at h
    split at h
    · simp only [List.mem_cons] at h ⊢
      exact h
    · split at h
      · simp only [List.mem_cons] at h ⊢
        exact h.imp id .inr
      · simp only [List.mem_cons] at h ⊢
        rcases h with h | h
        · exact .inr (.inl h)
        · rcases ih h with h | h
          · exact .inl h
          · exact .inr (.inr h)

/-- A key that a table lists names one of its entries. -/
theorem Tab.find_mem {α : Type} (t : Tab α) (n : Nat) (v : α) (h : t.find n = some v) : (n, v) ∈ t := by
  induction t with
  | nil => simp [Tab.find] at h
  | cons q t ih =>
    rw [show q = (q.1, q.2) from rfl, Tab.find_cons] at h
    split at h
    · rename_i e; simp only [Option.some.injEq] at h; subst h; subst e; exact List.mem_cons_self ..
    · exact List.mem_cons_of_mem _ (ih h)

/-- Every core reads with a scratchpad in canonical form. -/
theorem State.core_spad_wf (s : State) (h : s.memWf = true) (c : Nat) : cellsWf (s.core c).spad = true := by
  rw [State.memWf_iff] at h
  unfold State.core
  cases e : s.cores.find c with
  | none => simp [Tab.getD, e]; rfl
  | some v => simp only [Tab.getD, e, Option.getD_some]; exact h.2 _ (Tab.find_mem _ _ _ e)

/-- A change of one core that keeps the form of its scratchpad keeps the form of all. -/
theorem State.memWf_modCore (s : State) (c : Nat) (f : Core → Core) (h : s.memWf = true)
    (hf : ∀ k : Core, cellsWf k.spad = true → cellsWf (f k).spad = true) : (s.modCore c f).memWf = true := by
  have hc := hf _ (s.core_spad_wf h c)
  rw [State.memWf_iff] at h ⊢
  refine ⟨h.1, fun p hp => ?_⟩
  rcases Tab.mem_put _ _ _ _ hp with rfl | hp
  · exact hc
  · exact h.2 p hp

/-- A state with the same devices' bytes and the same cores has the form. -/
theorem State.memWf_of {s s' : State} (h : s.memWf = true) (hd : s'.mem.dev = s.mem.dev) (hc : s'.cores = s.cores) :
    s'.memWf = true := by
  rw [State.memWf_iff] at h ⊢
  rw [hd, hc]
  exact h

/-- Writing scratchpad bytes keeps the form. -/
theorem State.spadPut_memWf (s : State) (c : Nat) (cs : List Host.Cell) (taint whole : List Nat) (h : s.memWf = true) :
    (s.spadPut c cs taint whole).memWf = true :=
  s.memWf_modCore c _ h fun k hk => cellsPut_wf cs k.spad hk

/-- Cleaning a home L2's sector keeps the form. -/
theorem State.l2Flush_memWf (s : State) (sec : Nat) (h : s.memWf = true) : (s.l2Flush sec).memWf = true := by
  unfold State.l2Flush
  split
  · exact h
  · rw [State.memWf_iff] at h ⊢
    exact ⟨cellsPut_wf _ _ h.1, h.2⟩

/-- Keeping what fetches may still see changes no store. -/
@[simp] theorem State.keepOld_dev (s : State) (was : List Host.Cell) : (s.keepOld was).mem.dev = s.mem.dev := by
  unfold State.keepOld; split <;> rfl
@[simp] theorem State.keepOld_cores (s : State) (was : List Host.Cell) : (s.keepOld was).cores = s.cores := by
  unfold State.keepOld; split <;> rfl

/-- Copying bytes of the devices keeps the form. -/
theorem State.copyDev_memWf (s : State) (src dst n : Nat) (a b : Bool) (h : s.memWf = true) : (s.copyDev src dst n a b).memWf = true := by
  unfold State.copyDev
  split
  · exact h
  · rw [State.memWf_iff] at h ⊢
    simp only [State.keepOld_dev, State.keepOld_cores]
    exact ⟨cellsPut_wf _ _ (cellsWf_filter _ _ h.1), h.2⟩

/-- A core that passes to a context keeps the form. -/
theorem State.enterCtx_memWf (s : State) (c cid : Nat) (h : s.memWf = true) : (s.enterCtx c cid).memWf = true := by
  unfold State.enterCtx
  split
  · exact h
  · exact s.memWf_modCore c _ h fun _ _ => rfl

/-- Zeroing a page keeps the form. -/
theorem State.zeroPage_memWf (s : State) (p : Nat) (w : Owner) (h : s.memWf = true) : (s.zeroPage p w).memWf = true := by
  rw [State.memWf_iff] at h ⊢
  simp only [State.zeroPage, State.keepOld_dev, State.keepOld_cores]
  refine ⟨?_, fun q hq => ?_⟩
  · split
    · exact h.1
    · exact cellsWf_filter _ _ h.1
  · simp only [State.setOwner, State.purgeAll, State.purge, List.mem_map] at hq
    obtain ⟨r, ⟨u, hu, rfl⟩, rfl⟩ := hq
    exact h.2 u hu

/-- The state after power-up has the form. -/
theorem State.reset_memWf : State.reset.memWf = true := rfl

end Sys2Proof.Machine
end

