-- ==== Sys2Proof/Laws/PerInstr.lean ====
section
/-!
SUPPORT. Laws/PerInstr.lean: what is said of each instruction as syntax. `LayoutOk`: the class and opcode of a word are
in range and its operand fields have the layout that spec/02 R50 gives its opcode; an event has no word.
-/

namespace Sys2Proof.Laws.LayoutOk

/-- The class and opcode are in range and the fields have the opcode's layout (spec/02 R42, R50); an event has none. -/
def Statement (i : Instr) : Prop :=
  match i.toFields with
  | some (cls, op, f) => cls < 0xE ∧ op < 256 ∧ formatOf cls op = some f.fmt
  | none => i.isWord = false

theorem nop : ∀ x0, Statement (.nop x0) := fun _ => ⟨by decide, by decide, rfl⟩
theorem bra : ∀ x0 x1, Statement (.bra x0 x1) := fun _ _ => ⟨by decide, by decide, rfl⟩
theorem brx : ∀ x0 x1 x2, Statement (.brx x0 x1 x2) := fun _ _ _ => ⟨by decide, by decide, rfl⟩
theorem call : ∀ x0 x1 x2, Statement (.call x0 x1 x2) := fun _ _ _ => ⟨by decide, by decide, rfl⟩
theorem ret : ∀ x0 x1, Statement (.ret x0 x1) := fun _ _ => ⟨by decide, by decide, rfl⟩
theorem loop : ∀ x0 x1 x2 x3, Statement (.loop x0 x1 x2 x3) := fun _ _ _ _ => ⟨by decide, by decide, rfl⟩
theorem loopi : ∀ x0 x1 x2 x3, Statement (.loopi x0 x1 x2 x3) := fun _ _ _ _ => ⟨by decide, by decide, rfl⟩
theorem brkl : ∀ x0 x1 x2, Statement (.brkl x0 x1 x2) := fun _ _ _ => ⟨by decide, by decide, rfl⟩
theorem yield : ∀ x0, Statement (.yield x0) := fun _ => ⟨by decide, by decide, rfl⟩
theorem cvset : ∀ x0 x1 x2 x3 x4, Statement (.cvset x0 x1 x2 x3 x4) := by
  intro x0 x1 x2 x3 x4
  cases x3 <;> exact ⟨by decide, by decide, rfl⟩
theorem sign : ∀ x0 x1, Statement (.sign x0 x1) := fun _ _ => ⟨by decide, by decide, rfl⟩
theorem start : ∀ x0, Statement (.start x0) := fun _ => ⟨by decide, by decide, rfl⟩
theorem waitc : ∀ x0 x1 x2 x3 x4, Statement (.waitc x0 x1 x2 x3 x4) := fun _ _ _ _ _ => ⟨by decide, by decide, rfl⟩
theorem tkw : ∀ x0 x1 x2, Statement (.tkw x0 x1 x2) := fun _ _ _ => ⟨by decide, by decide, rfl⟩
theorem exit : ∀ x0, Statement (.exit x0) := fun _ => ⟨by decide, by decide, rfl⟩
theorem sleep : ∀ x0 x1 x2 x3, Statement (.sleep x0 x1 x2 x3) := fun _ _ _ _ => ⟨by decide, by decide, rfl⟩
theorem iadd : ∀ x0 x1 x2 x3 x4, Statement (.iadd x0 x1 x2 x3 x4) := fun _ _ _ _ _ => ⟨by decide, by decide, rfl⟩
theorem isub : ∀ x0 x1 x2 x3 x4, Statement (.isub x0 x1 x2 x3 x4) := fun _ _ _ _ _ => ⟨by decide, by decide, rfl⟩
theorem imul : ∀ x0 x1 x2 x3, Statement (.imul x0 x1 x2 x3) := fun _ _ _ _ => ⟨by decide, by decide, rfl⟩
theorem imulh : ∀ x0 x1 x2 x3 x4, Statement (.imulh x0 x1 x2 x3 x4) := fun _ _ _ _ _ => ⟨by decide, by decide, rfl⟩
theorem imad : ∀ x0 x1 x2 x3 x4 x5, Statement (.imad x0 x1 x2 x3 x4 x5) :=
  fun _ _ _ _ _ _ => ⟨by decide, by decide, rfl⟩
theorem imin : ∀ x0 x1 x2 x3 x4, Statement (.imin x0 x1 x2 x3 x4) := fun _ _ _ _ _ => ⟨by decide, by decide, rfl⟩
theorem imax : ∀ x0 x1 x2 x3 x4, Statement (.imax x0 x1 x2 x3 x4) := fun _ _ _ _ _ => ⟨by decide, by decide, rfl⟩
theorem iabs : ∀ x0 x1 x2 x3, Statement (.iabs x0 x1 x2 x3) := fun _ _ _ _ => ⟨by decide, by decide, rfl⟩
theorem and : ∀ x0 x1 x2 x3, Statement (.and x0 x1 x2 x3) := fun _ _ _ _ => ⟨by decide, by decide, rfl⟩
theorem or : ∀ x0 x1 x2 x3, Statement (.or x0 x1 x2 x3) := fun _ _ _ _ => ⟨by decide, by decide, rfl⟩
theorem xor : ∀ x0 x1 x2 x3, Statement (.xor x0 x1 x2 x3) := fun _ _ _ _ => ⟨by decide, by decide, rfl⟩
theorem andn : ∀ x0 x1 x2 x3, Statement (.andn x0 x1 x2 x3) := fun _ _ _ _ => ⟨by decide, by decide, rfl⟩
theorem shl : ∀ x0 x1 x2 x3, Statement (.shl x0 x1 x2 x3) := fun _ _ _ _ => ⟨by decide, by decide, rfl⟩
theorem shr : ∀ x0 x1 x2 x3, Statement (.shr x0 x1 x2 x3) := fun _ _ _ _ => ⟨by decide, by decide, rfl⟩
theorem sar : ∀ x0 x1 x2 x3, Statement (.sar x0 x1 x2 x3) := fun _ _ _ _ => ⟨by decide, by decide, rfl⟩
theorem rol : ∀ x0 x1 x2 x3, Statement (.rol x0 x1 x2 x3) := fun _ _ _ _ => ⟨by decide, by decide, rfl⟩
theorem bfx : ∀ x0 x1 x2 x3 x4, Statement (.bfx x0 x1 x2 x3 x4) := fun _ _ _ _ _ => ⟨by decide, by decide, rfl⟩
theorem bfi : ∀ x0 x1 x2 x3 x4, Statement (.bfi x0 x1 x2 x3 x4) := fun _ _ _ _ _ => ⟨by decide, by decide, rfl⟩
theorem popc : ∀ x0 x1 x2, Statement (.popc x0 x1 x2) := fun _ _ _ => ⟨by decide, by decide, rfl⟩
theorem clz : ∀ x0 x1 x2, Statement (.clz x0 x1 x2) := fun _ _ _ => ⟨by decide, by decide, rfl⟩
theorem brev : ∀ x0 x1 x2, Statement (.brev x0 x1 x2) := fun _ _ _ => ⟨by decide, by decide, rfl⟩
theorem isetp : ∀ x0 x1 x2 x3 x4 x5 x6, Statement (.isetp x0 x1 x2 x3 x4 x5 x6) :=
  fun _ _ _ _ _ _ _ => ⟨by decide, by decide, rfl⟩
theorem plop : ∀ x0 x1 x2 x3 x4 x5, Statement (.plop x0 x1 x2 x3 x4 x5) :=
  fun _ _ _ _ _ _ => ⟨by decide, by decide, rfl⟩
theorem sel : ∀ x0 x1 x2 x3 x4 x5, Statement (.sel x0 x1 x2 x3 x4 x5) :=
  fun _ _ _ _ _ _ => ⟨by decide, by decide, rfl⟩
theorem mov : ∀ x0 x1 x2, Statement (.mov x0 x1 x2) := fun _ _ _ => ⟨by decide, by decide, rfl⟩
theorem movi : ∀ x0 x1 x2, Statement (.movi x0 x1 x2) := fun _ _ _ => ⟨by decide, by decide, rfl⟩
theorem movhi : ∀ x0 x1 x2, Statement (.movhi x0 x1 x2) := fun _ _ _ => ⟨by decide, by decide, rfl⟩
theorem movs : ∀ x0 x1 x2, Statement (.movs x0 x1 x2) := fun _ _ _ => ⟨by decide, by decide, rfl⟩
theorem movsw : ∀ x0 x1 x2, Statement (.movsw x0 x1 x2) := fun _ _ _ => ⟨by decide, by decide, rfl⟩
theorem lea : ∀ x0 x1 x2 x3 x4 x5, Statement (.lea x0 x1 x2 x3 x4 x5) :=
  fun _ _ _ _ _ _ => ⟨by decide, by decide, rfl⟩
theorem iadd64 : ∀ x0 x1 x2 x3, Statement (.iadd64 x0 x1 x2 x3) := fun _ _ _ _ => ⟨by decide, by decide, rfl⟩
theorem pget : ∀ x0 x1, Statement (.pget x0 x1) := fun _ _ => ⟨by decide, by decide, rfl⟩
theorem pput : ∀ x0 x1 x2, Statement (.pput x0 x1 x2) := fun _ _ _ => ⟨by decide, by decide, rfl⟩
theorem iaddi : ∀ x0 x1 x2 x3, Statement (.iaddi x0 x1 x2 x3) := fun _ _ _ _ => ⟨by decide, by decide, rfl⟩
theorem andi : ∀ x0 x1 x2 x3, Statement (.andi x0 x1 x2 x3) := fun _ _ _ _ => ⟨by decide, by decide, rfl⟩
theorem ori : ∀ x0 x1 x2 x3, Statement (.ori x0 x1 x2 x3) := fun _ _ _ _ => ⟨by decide, by decide, rfl⟩
theorem xori : ∀ x0 x1 x2 x3, Statement (.xori x0 x1 x2 x3) := fun _ _ _ _ => ⟨by decide, by decide, rfl⟩
theorem isetpi : ∀ x0 x1 x2 x3 x4 x5, Statement (.isetpi x0 x1 x2 x3 x4 x5) :=
  fun _ _ _ _ _ _ => ⟨by decide, by decide, rfl⟩
theorem fadd : ∀ x0 x1 x2 x3 x4 x5 x6, Statement (.fadd x0 x1 x2 x3 x4 x5 x6) :=
  fun _ _ _ _ _ _ _ => ⟨by decide, by decide, rfl⟩
theorem fsub : ∀ x0 x1 x2 x3 x4 x5 x6, Statement (.fsub x0 x1 x2 x3 x4 x5 x6) :=
  fun _ _ _ _ _ _ _ => ⟨by decide, by decide, rfl⟩
theorem fmul : ∀ x0 x1 x2 x3 x4 x5 x6, Statement (.fmul x0 x1 x2 x3 x4 x5 x6) :=
  fun _ _ _ _ _ _ _ => ⟨by decide, by decide, rfl⟩
theorem ffma : ∀ x0 x1 x2 x3 x4 x5 x6 x7 x8 x9, Statement (.ffma x0 x1 x2 x3 x4 x5 x6 x7 x8 x9) :=
  fun _ _ _ _ _ _ _ _ _ _ => ⟨by decide, by decide, rfl⟩
theorem fmin : ∀ x0 x1 x2 x3 x4 x5, Statement (.fmin x0 x1 x2 x3 x4 x5) :=
  fun _ _ _ _ _ _ => ⟨by decide, by decide, rfl⟩
theorem fmax : ∀ x0 x1 x2 x3 x4 x5, Statement (.fmax x0 x1 x2 x3 x4 x5) :=
  fun _ _ _ _ _ _ => ⟨by decide, by decide, rfl⟩
theorem fabs : ∀ x0 x1 x2 x3, Statement (.fabs x0 x1 x2 x3) := fun _ _ _ _ => ⟨by decide, by decide, rfl⟩
theorem fneg : ∀ x0 x1 x2 x3, Statement (.fneg x0 x1 x2 x3) := fun _ _ _ _ => ⟨by decide, by decide, rfl⟩
theorem fsetp : ∀ x0 x1 x2 x3 x4 x5, Statement (.fsetp x0 x1 x2 x3 x4 x5) :=
  fun _ _ _ _ _ _ => ⟨by decide, by decide, rfl⟩
theorem frnd : ∀ x0 x1 x2 x3, Statement (.frnd x0 x1 x2 x3) := fun _ _ _ _ => ⟨by decide, by decide, rfl⟩
theorem fclamp : ∀ x0 x1 x2 x3 x4 x5, Statement (.fclamp x0 x1 x2 x3 x4 x5) :=
  fun _ _ _ _ _ _ => ⟨by decide, by decide, rfl⟩
theorem f2i : ∀ x0 x1 x2 x3 x4, Statement (.f2i x0 x1 x2 x3 x4) := fun _ _ _ _ _ => ⟨by decide, by decide, rfl⟩
theorem i2f : ∀ x0 x1 x2 x3 x4, Statement (.i2f x0 x1 x2 x3 x4) := fun _ _ _ _ _ => ⟨by decide, by decide, rfl⟩
theorem hadd2 : ∀ x0 x1 x2 x3 x4 x5 x6, Statement (.hadd2 x0 x1 x2 x3 x4 x5 x6) :=
  fun _ _ _ _ _ _ _ => ⟨by decide, by decide, rfl⟩
theorem hmul2 : ∀ x0 x1 x2 x3 x4 x5 x6, Statement (.hmul2 x0 x1 x2 x3 x4 x5 x6) :=
  fun _ _ _ _ _ _ _ => ⟨by decide, by decide, rfl⟩
theorem hfma2 : ∀ x0 x1 x2 x3 x4 x5 x6 x7, Statement (.hfma2 x0 x1 x2 x3 x4 x5 x6 x7) :=
  fun _ _ _ _ _ _ _ _ => ⟨by decide, by decide, rfl⟩
theorem dot2 : ∀ x0 x1 x2 x3 x4 x5 x6, Statement (.dot2 x0 x1 x2 x3 x4 x5 x6) :=
  fun _ _ _ _ _ _ _ => ⟨by decide, by decide, rfl⟩
theorem dot4 : ∀ x0 x1 x2 x3 x4 x5 x6, Statement (.dot4 x0 x1 x2 x3 x4 x5 x6) :=
  fun _ _ _ _ _ _ _ => ⟨by decide, by decide, rfl⟩
theorem cvt : ∀ x0 x1 x2 x3 x4 x5, Statement (.cvt x0 x1 x2 x3 x4 x5) :=
  fun _ _ _ _ _ _ => ⟨by decide, by decide, rfl⟩
theorem cvtpk : ∀ x0 x1 x2 x3 x4 x5, Statement (.cvtpk x0 x1 x2 x3 x4 x5) :=
  fun _ _ _ _ _ _ => ⟨by decide, by decide, rfl⟩
theorem cvtup : ∀ x0 x1 x2 x3 x4, Statement (.cvtup x0 x1 x2 x3 x4) := fun _ _ _ _ _ => ⟨by decide, by decide, rfl⟩
theorem fscl : ∀ x0 x1 x2 x3 x4, Statement (.fscl x0 x1 x2 x3 x4) := fun _ _ _ _ _ => ⟨by decide, by decide, rfl⟩
theorem fclass : ∀ x0 x1 x2 x3, Statement (.fclass x0 x1 x2 x3) := fun _ _ _ _ => ⟨by decide, by decide, rfl⟩
theorem rcp : ∀ x0 x1 x2, Statement (.rcp x0 x1 x2) := fun _ _ _ => ⟨by decide, by decide, rfl⟩
theorem rsq : ∀ x0 x1 x2, Statement (.rsq x0 x1 x2) := fun _ _ _ => ⟨by decide, by decide, rfl⟩
theorem sqrt : ∀ x0 x1 x2 x3, Statement (.sqrt x0 x1 x2 x3) := fun _ _ _ _ => ⟨by decide, by decide, rfl⟩
theorem exp2 : ∀ x0 x1 x2, Statement (.exp2 x0 x1 x2) := fun _ _ _ => ⟨by decide, by decide, rfl⟩
theorem log2 : ∀ x0 x1 x2, Statement (.log2 x0 x1 x2) := fun _ _ _ => ⟨by decide, by decide, rfl⟩
theorem sin : ∀ x0 x1 x2, Statement (.sin x0 x1 x2) := fun _ _ _ => ⟨by decide, by decide, rfl⟩
theorem cos : ∀ x0 x1 x2, Statement (.cos x0 x1 x2) := fun _ _ _ => ⟨by decide, by decide, rfl⟩
theorem sincos : ∀ x0 x1 x2, Statement (.sincos x0 x1 x2) := fun _ _ _ => ⟨by decide, by decide, rfl⟩
theorem tanh : ∀ x0 x1 x2, Statement (.tanh x0 x1 x2) := fun _ _ _ => ⟨by decide, by decide, rfl⟩
theorem tlu : ∀ x0 x1 x2 x3, Statement (.tlu x0 x1 x2 x3) := fun _ _ _ _ => ⟨by decide, by decide, rfl⟩
theorem dropm : ∀ x0 x1 x2 x3, Statement (.dropm x0 x1 x2 x3) := fun _ _ _ _ => ⟨by decide, by decide, rfl⟩
theorem csamp : ∀ x0 x1 x2 x3, Statement (.csamp x0 x1 x2 x3) := fun _ _ _ _ => ⟨by decide, by decide, rfl⟩
theorem rng : ∀ x0 x1 x2 x3, Statement (.rng x0 x1 x2 x3) := fun _ _ _ _ => ⟨by decide, by decide, rfl⟩
theorem fdiv : ∀ x0 x1 x2 x3 x4, Statement (.fdiv x0 x1 x2 x3 x4) := fun _ _ _ _ _ => ⟨by decide, by decide, rfl⟩
theorem xrd : ∀ x0 x1 x2 x3 x4 x5, Statement (.xrd x0 x1 x2 x3 x4 x5) :=
  fun _ _ _ _ _ _ => ⟨by decide, by decide, rfl⟩
theorem xrdi : ∀ x0 x1 x2 x3 x4 x5, Statement (.xrdi x0 x1 x2 x3 x4 x5) :=
  fun _ _ _ _ _ _ => ⟨by decide, by decide, rfl⟩
theorem xred : ∀ x0 x1 x2 x3, Statement (.xred x0 x1 x2 x3) := fun _ _ _ _ => ⟨by decide, by decide, rfl⟩
theorem xscan : ∀ x0 x1 x2 x3 x4, Statement (.xscan x0 x1 x2 x3 x4) := fun _ _ _ _ _ => ⟨by decide, by decide, rfl⟩
theorem xvote : ∀ x0 x1 x2 x3 x4, Statement (.xvote x0 x1 x2 x3 x4) := fun _ _ _ _ _ => ⟨by decide, by decide, rfl⟩
theorem xpred : ∀ x0 x1 x2 x3 x4, Statement (.xpred x0 x1 x2 x3 x4) := fun _ _ _ _ _ => ⟨by decide, by decide, rfl⟩
theorem xcmp : ∀ x0 x1 x2 x3 x4 x5, Statement (.xcmp x0 x1 x2 x3 x4 x5) :=
  fun _ _ _ _ _ _ => ⟨by decide, by decide, rfl⟩
theorem xexp : ∀ x0 x1 x2 x3 x4 x5, Statement (.xexp x0 x1 x2 x3 x4 x5) :=
  fun _ _ _ _ _ _ => ⟨by decide, by decide, rfl⟩
theorem xmatch : ∀ x0 x1 x2 x3, Statement (.xmatch x0 x1 x2 x3) := fun _ _ _ _ => ⟨by decide, by decide, rfl⟩
theorem lds : ∀ x0 x1 x2 x3 x4 x5, Statement (.lds x0 x1 x2 x3 x4 x5) :=
  fun _ _ _ _ _ _ => ⟨by decide, by decide, rfl⟩
theorem sts : ∀ x0 x1 x2 x3 x4 x5, Statement (.sts x0 x1 x2 x3 x4 x5) :=
  fun _ _ _ _ _ _ => ⟨by decide, by decide, rfl⟩
theorem ldsf : ∀ x0 x1 x2 x3 x4 x5 x6, Statement (.ldsf x0 x1 x2 x3 x4 x5 x6) :=
  fun _ _ _ _ _ _ _ => ⟨by decide, by decide, rfl⟩
theorem stse : ∀ x0 x1 x2 x3 x4 x5, Statement (.stse x0 x1 x2 x3 x4 x5) :=
  fun _ _ _ _ _ _ => ⟨by decide, by decide, rfl⟩
theorem tags : ∀ x0 x1 x2 x3 x4, Statement (.tags x0 x1 x2 x3 x4) := fun _ _ _ _ _ => ⟨by decide, by decide, rfl⟩
theorem tagr : ∀ x0 x1 x2 x3, Statement (.tagr x0 x1 x2 x3) := fun _ _ _ _ => ⟨by decide, by decide, rfl⟩
theorem ldg : ∀ x0 x1 x2 x3 x4, Statement (.ldg x0 x1 x2 x3 x4) := fun _ _ _ _ _ => ⟨by decide, by decide, rfl⟩
theorem stg : ∀ x0 x1 x2 x3 x4, Statement (.stg x0 x1 x2 x3 x4) := fun _ _ _ _ _ => ⟨by decide, by decide, rfl⟩
theorem ldu : ∀ x0 x1 x2 x3 x4, Statement (.ldu x0 x1 x2 x3 x4) := fun _ _ _ _ _ => ⟨by decide, by decide, rfl⟩
theorem pref : ∀ x0 x1 x2 x3, Statement (.pref x0 x1 x2 x3) := fun _ _ _ _ => ⟨by decide, by decide, rfl⟩
theorem cmaint : ∀ x0 x1 x2 x3 x4, Statement (.cmaint x0 x1 x2 x3 x4) := fun _ _ _ _ _ => ⟨by decide, by decide, rfl⟩
theorem fence : ∀ x0 x1 x2, Statement (.fence x0 x1 x2) := fun _ _ _ => ⟨by decide, by decide, rfl⟩
theorem lda : ∀ x0 x1 x2 x3 x4 x5 x6, Statement (.lda x0 x1 x2 x3 x4 x5 x6) :=
  fun _ _ _ _ _ _ _ => ⟨by decide, by decide, rfl⟩
theorem stl : ∀ x0 x1 x2 x3 x4 x5 x6, Statement (.stl x0 x1 x2 x3 x4 x5 x6) :=
  fun _ _ _ _ _ _ _ => ⟨by decide, by decide, rfl⟩
theorem atom : ∀ x0 x1 x2 x3 x4 x5 x6 x7, Statement (.atom x0 x1 x2 x3 x4 x5 x6 x7) :=
  fun _ _ _ _ _ _ _ _ => ⟨by decide, by decide, rfl⟩
theorem atoms : ∀ x0 x1 x2 x3 x4 x5 x6 x7 x8, Statement (.atoms x0 x1 x2 x3 x4 x5 x6 x7 x8) :=
  fun _ _ _ _ _ _ _ _ _ => ⟨by decide, by decide, rfl⟩
theorem red : ∀ x0 x1 x2 x3 x4 x5 x6, Statement (.red x0 x1 x2 x3 x4 x5 x6) :=
  fun _ _ _ _ _ _ _ => ⟨by decide, by decide, rfl⟩
theorem bar : ∀ x0 x1 x2 x3 x4 x5 x6, Statement (.bar x0 x1 x2 x3 x4 x5 x6) :=
  fun _ _ _ _ _ _ _ => ⟨by decide, by decide, rfl⟩
theorem bara : ∀ x0 x1 x2 x3 x4 x5, Statement (.bara x0 x1 x2 x3 x4 x5) :=
  fun _ _ _ _ _ _ => ⟨by decide, by decide, rfl⟩
theorem barw : ∀ x0 x1 x2 x3 x4, Statement (.barw x0 x1 x2 x3 x4) := fun _ _ _ _ _ => ⟨by decide, by decide, rfl⟩
theorem barn : ∀ x0 x1 x2 x3, Statement (.barn x0 x1 x2 x3) := fun _ _ _ _ => ⟨by decide, by decide, rfl⟩
theorem semacq : ∀ x0 x1 x2 x3 x4, Statement (.semacq x0 x1 x2 x3 x4) := fun _ _ _ _ _ => ⟨by decide, by decide, rfl⟩
theorem semrel : ∀ x0 x1 x2 x3 x4 x5, Statement (.semrel x0 x1 x2 x3 x4 x5) := by
  intro x0 x1 x2 x3 x4 x5
  cases x2 <;> exact ⟨by decide, by decide, rfl⟩
theorem semtry : ∀ x0 x1 x2 x3 x4 x5, Statement (.semtry x0 x1 x2 x3 x4 x5) :=
  fun _ _ _ _ _ _ => ⟨by decide, by decide, rfl⟩
theorem semrd : ∀ x0 x1 x2 x3, Statement (.semrd x0 x1 x2 x3) := fun _ _ _ _ => ⟨by decide, by decide, rfl⟩
theorem cpl : ∀ x0 x1 x2 x3 x4, Statement (.cpl x0 x1 x2 x3 x4) := fun _ _ _ _ _ => ⟨by decide, by decide, rfl⟩
theorem cpt : ∀ x0 x1 x2 x3 x4, Statement (.cpt x0 x1 x2 x3 x4) := fun _ _ _ _ _ => ⟨by decide, by decide, rfl⟩
theorem cpr : ∀ x0 x1 x2 x3, Statement (.cpr x0 x1 x2 x3) := fun _ _ _ _ => ⟨by decide, by decide, rfl⟩
theorem cpstage : ∀ x0 x1 x2 x3 x4, Statement (.cpstage x0 x1 x2 x3 x4) :=
  fun _ _ _ _ _ => ⟨by decide, by decide, rfl⟩
theorem cpstageOff : ∀ x0, Statement (.cpstageOff x0) := fun _ => ⟨by decide, by decide, rfl⟩
theorem cpadv : ∀ x0 x1 x2, Statement (.cpadv x0 x1 x2) := fun _ _ _ => ⟨by decide, by decide, rfl⟩
theorem cpremPut : ∀ x0 x1 x2 x3, Statement (.cpremPut x0 x1 x2 x3) := fun _ _ _ _ => ⟨by decide, by decide, rfl⟩
theorem cpremPost : ∀ x0 x1 x2 x3, Statement (.cpremPost x0 x1 x2 x3) := fun _ _ _ _ => ⟨by decide, by decide, rfl⟩
theorem tkj : ∀ x0 x1, Statement (.tkj x0 x1) := fun _ _ => ⟨by decide, by decide, rfl⟩
theorem cpfill : ∀ x0 x1 x2 x3 x4, Statement (.cpfill x0 x1 x2 x3 x4) := fun _ _ _ _ _ => ⟨by decide, by decide, rfl⟩
theorem mma : ∀ x0 x1 x2 x3 x4 x5, Statement (.mma x0 x1 x2 x3 x4 x5) :=
  fun _ _ _ _ _ _ => ⟨by decide, by decide, rfl⟩
theorem mmas : ∀ x0 x1 x2 x3 x4 x5, Statement (.mmas x0 x1 x2 x3 x4 x5) :=
  fun _ _ _ _ _ _ => ⟨by decide, by decide, rfl⟩
theorem mrel : ∀ x0 x1, Statement (.mrel x0 x1) := by
  intro x0 x1
  cases x1 <;> exact ⟨by decide, by decide, rfl⟩
theorem mfq : ∀ x0 x1 x2, Statement (.mfq x0 x1 x2) := fun _ _ _ => ⟨by decide, by decide, rfl⟩
theorem mqry : ∀ x0 x1 x2, Statement (.mqry x0 x1 x2) := fun _ _ _ => ⟨by decide, by decide, rfl⟩
theorem accz : ∀ x0 x1 x2 x3, Statement (.accz x0 x1 x2 x3) := fun _ _ _ _ => ⟨by decide, by decide, rfl⟩
theorem accadd : ∀ x0 x1 x2 x3, Statement (.accadd x0 x1 x2 x3) := fun _ _ _ _ => ⟨by decide, by decide, rfl⟩
theorem accrd : ∀ x0 x1 x2 x3, Statement (.accrd x0 x1 x2 x3) := fun _ _ _ _ => ⟨by decide, by decide, rfl⟩
theorem accset : ∀ x0 x1 x2 x3 x4, Statement (.accset x0 x1 x2 x3 x4) := fun _ _ _ _ _ => ⟨by decide, by decide, rfl⟩
theorem accfl : ∀ x0 x1 x2 x3, Statement (.accfl x0 x1 x2 x3) := fun _ _ _ _ => ⟨by decide, by decide, rfl⟩
theorem accout : ∀ x0 x1 x2 x3, Statement (.accout x0 x1 x2 x3) := fun _ _ _ _ => ⟨by decide, by decide, rfl⟩
theorem accpoi : ∀ x0 x1 x2 x3, Statement (.accpoi x0 x1 x2 x3) := fun _ _ _ _ => ⟨by decide, by decide, rfl⟩
theorem rast : ∀ x0 x1 x2 x3 x4, Statement (.rast x0 x1 x2 x3 x4) := fun _ _ _ _ _ => ⟨by decide, by decide, rfl⟩
theorem trav : ∀ x0 x1 x2 x3, Statement (.trav x0 x1 x2 x3) := fun _ _ _ _ => ⟨by decide, by decide, rfl⟩
theorem sample : ∀ x0 x1 x2 x3, Statement (.sample x0 x1 x2 x3) := fun _ _ _ _ => ⟨by decide, by decide, rfl⟩
theorem winacq : ∀ x0 x1 x2 x3, Statement (.winacq x0 x1 x2 x3) := fun _ _ _ _ => ⟨by decide, by decide, rfl⟩
theorem winrel : ∀ x0 x1 x2, Statement (.winrel x0 x1 x2) := fun _ _ _ => ⟨by decide, by decide, rfl⟩
theorem ordt : ∀ x0 x1 x2 x3 x4, Statement (.ordt x0 x1 x2 x3 x4) := fun _ _ _ _ _ => ⟨by decide, by decide, rfl⟩
theorem ttask : ∀ x0 x1 x2 x3, Statement (.ttask x0 x1 x2 x3) := fun _ _ _ _ => ⟨by decide, by decide, rfl⟩
theorem tfence : ∀ x0 x1 x2 x3, Statement (.tfence x0 x1 x2 x3) := fun _ _ _ _ => ⟨by decide, by decide, rfl⟩
theorem omrg : ∀ x0 x1 x2 x3, Statement (.omrg x0 x1 x2 x3) := fun _ _ _ _ => ⟨by decide, by decide, rfl⟩
theorem trap : ∀ x0 x1, Statement (.trap x0 x1) := fun _ _ => ⟨by decide, by decide, rfl⟩
theorem eret : ∀ x0, Statement (.eret x0) := fun _ => ⟨by decide, by decide, rfl⟩
theorem csrr : ∀ x0 x1 x2, Statement (.csrr x0 x1 x2) := fun _ _ _ => ⟨by decide, by decide, rfl⟩
theorem csrw : ∀ x0 x1 x2, Statement (.csrw x0 x1 x2) := fun _ _ _ => ⟨by decide, by decide, rfl⟩
theorem csrset : ∀ x0 x1 x2 x3, Statement (.csrset x0 x1 x2 x3) := fun _ _ _ _ => ⟨by decide, by decide, rfl⟩
theorem csrclr : ∀ x0 x1 x2 x3, Statement (.csrclr x0 x1 x2 x3) := fun _ _ _ _ => ⟨by decide, by decide, rfl⟩
theorem tlbinv : ∀ x0 x1 x2 x3 x4 x5, Statement (.tlbinv x0 x1 x2 x3 x4 x5) :=
  fun _ _ _ _ _ _ => ⟨by decide, by decide, rfl⟩
theorem launch : ∀ x0 x1 x2 x3, Statement (.launch x0 x1 x2 x3) := fun _ _ _ _ => ⟨by decide, by decide, rfl⟩
theorem wfi : ∀ x0, Statement (.wfi x0) := fun _ => ⟨by decide, by decide, rfl⟩
theorem halt : ∀ x0, Statement (.halt x0) := fun _ => ⟨by decide, by decide, rfl⟩
theorem rmark : ∀ x0 x1 x2, Statement (.rmark x0 x1 x2) := fun _ _ _ => ⟨by decide, by decide, rfl⟩
theorem ctxsave : ∀ x0 x1 x2 x3 x4, Statement (.ctxsave x0 x1 x2 x3 x4) :=
  fun _ _ _ _ _ => ⟨by decide, by decide, rfl⟩
theorem ctxload : ∀ x0 x1 x2, Statement (.ctxload x0 x1 x2) := fun _ _ _ => ⟨by decide, by decide, rfl⟩
theorem fill : ∀ x0 x1 x2 x3, Statement (.fill x0 x1 x2 x3) := fun _ _ _ _ => ⟨by decide, by decide, rfl⟩
theorem pwrh : ∀ x0 x1, Statement (.pwrh x0 x1) := fun _ _ => ⟨by decide, by decide, rfl⟩
theorem strq : ∀ x0 x1 x2, Statement (.strq x0 x1 x2) := fun _ _ _ => ⟨by decide, by decide, rfl⟩
theorem pgive : ∀ x0 x1 x2 x3 x4 x5, Statement (.pgive x0 x1 x2 x3 x4 x5) :=
  fun _ _ _ _ _ _ => ⟨by decide, by decide, rfl⟩
theorem ptake : ∀ x0 x1 x2 x3 x4, Statement (.ptake x0 x1 x2 x3 x4) := fun _ _ _ _ _ => ⟨by decide, by decide, rfl⟩
theorem pqry : ∀ x0 x1 x2, Statement (.pqry x0 x1 x2) := by
  intro x0 x1 x2
  cases x2 <;> exact ⟨by decide, by decide, rfl⟩
theorem pzero : ∀ x0 x1 x2 x3, Statement (.pzero x0 x1 x2 x3) := fun _ _ _ _ => ⟨by decide, by decide, rfl⟩
theorem instructionFetch : ∀ x0, Statement (.instructionFetch x0) := fun _ => rfl
theorem decodeFault : ∀ x0, Statement (.decodeFault x0) := fun _ => rfl
theorem faultEventReissue : ∀ x0, Statement (.faultEventReissue x0) := fun _ => rfl
theorem urgentAgeing : ∀ x0, Statement (.urgentAgeing x0) := fun _ => rfl
theorem yieldDemotionEnd : ∀ x0, Statement (.yieldDemotionEnd x0) := fun _ => rfl
theorem mshrRejectRetry : ∀ x0, Statement (.mshrRejectRetry x0) := fun _ => rfl
theorem loadComplete : ∀ x0, Statement (.loadComplete x0) := fun _ => rfl
theorem storePerformed : ∀ x0, Statement (.storePerformed x0) := fun _ => rfl
theorem forwardedWriteAck : ∀ x0 x1, Statement (.forwardedWriteAck x0 x1) := fun _ _ => rfl
theorem tagStep : ∀ x0, Statement (.tagStep x0) := fun _ => rfl
theorem tagWait : ∀ x0, Statement (.tagWait x0) := fun _ => rfl
theorem gatherOpen : ∀ x0, Statement (.gatherOpen x0) := fun _ => rfl
theorem gatherComplete : ∀ x0 x1, Statement (.gatherComplete x0 x1) := fun _ _ => rfl
theorem gatherWindowClose : ∀ x0 x1, Statement (.gatherWindowClose x0 x1) := fun _ _ => rfl
theorem requestEntry : ∀ x0, Statement (.requestEntry x0) := fun _ => rfl
theorem passGrant : ∀ x0, Statement (.passGrant x0) := fun _ => rfl
theorem qmeLineWrite : ∀ x0, Statement (.qmeLineWrite x0) := fun _ => rfl
theorem requestComplete : ∀ x0, Statement (.requestComplete x0) := fun _ => rfl
theorem copyOperationStart : ∀ x0, Statement (.copyOperationStart x0) := fun _ => rfl
theorem copyOperationComplete : ∀ x0, Statement (.copyOperationComplete x0) := fun _ => rfl
theorem enginePageServiceRequest : ∀ x0, Statement (.enginePageServiceRequest x0) := fun _ => rfl
theorem copylimExpiry : ∀ x0, Statement (.copylimExpiry x0) := fun _ => rfl
theorem cprLineWrite : ∀ x0, Statement (.cprLineWrite x0) := fun _ => rfl
theorem inboundPut : ∀ x0 x1 x2 x3 x4, Statement (.inboundPut x0 x1 x2 x3 x4) := fun _ _ _ _ _ => rfl
theorem putAcknowledge : ∀ x0 x1, Statement (.putAcknowledge x0 x1) := fun _ _ => rfl
theorem tokenJoinComplete : ∀ x0, Statement (.tokenJoinComplete x0) := fun _ => rfl
theorem contributionApply : ∀ x0, Statement (.contributionApply x0) := fun _ => rfl
theorem writeBack : ∀ x0 x1, Statement (.writeBack x0 x1) := fun _ _ => rfl
theorem barrierArrival : ∀ x0, Statement (.barrierArrival x0) := fun _ => rfl
theorem phaseOpen : ∀ x0, Statement (.phaseOpen x0) := fun _ => rfl
theorem barrierWave : ∀ x0, Statement (.barrierWave x0) := fun _ => rfl
theorem semaphoreServe : ∀ x0 x1, Statement (.semaphoreServe x0 x1) := fun _ _ => rfl
theorem hostMailboxWrite : ∀ x0 x1 x2, Statement (.hostMailboxWrite x0 x1 x2) := fun _ _ _ => rfl
theorem threadRelease : ∀ x0, Statement (.threadRelease x0) := fun _ => rfl
theorem blockComplete : ∀ x0, Statement (.blockComplete x0) := fun _ => rfl
theorem gridComplete : ∀ x0, Statement (.gridComplete x0) := fun _ => rfl
theorem recordPull : ∀ x0 x1, Statement (.recordPull x0 x1) := fun _ _ => rfl
theorem blockPlacement : ∀ x0 x1, Statement (.blockPlacement x0 x1) := fun _ _ => rfl
theorem distributorPreempt : ∀ x0, Statement (.distributorPreempt x0) := fun _ => rfl
theorem prelimExpiry : ∀ x0, Statement (.prelimExpiry x0) := fun _ => rfl
theorem preemptDeferEnd : ∀ x0, Statement (.preemptDeferEnd x0) := fun _ => rfl
theorem preemptDrainComplete : ∀ x0, Statement (.preemptDrainComplete x0) := fun _ => rfl
theorem unitRestore : ∀ x0 x1, Statement (.unitRestore x0 x1) := fun _ _ => rfl
theorem ptakeFlagPoll : ∀ x0, Statement (.ptakeFlagPoll x0) := fun _ => rfl
theorem ingressRelease : ∀ x0 x1, Statement (.ingressRelease x0 x1) := fun _ _ => rfl
theorem linkDrainComplete : ∀ x0, Statement (.linkDrainComplete x0) := fun _ => rfl
theorem linkTrainFail : ∀ x0, Statement (.linkTrainFail x0) := fun _ => rfl
theorem strholdExpiry : ∀ x0, Statement (.strholdExpiry x0) := fun _ => rfl
theorem throttleDecay : ∀ x0, Statement (.throttleDecay x0) := fun _ => rfl
theorem bctlResume : Statement (.bctlResume) := rfl
theorem bctlSkip : Statement (.bctlSkip) := rfl
theorem bctlKillt : Statement (.bctlKillt) := rfl
theorem bctlKillb : Statement (.bctlKillb) := rfl
theorem bctlPreempt : Statement (.bctlPreempt) := rfl
theorem bctlMigrate : Statement (.bctlMigrate) := rfl
theorem bctlPop : Statement (.bctlPop) := rfl
theorem bctlInvalid : Statement (.bctlInvalid) := rfl
theorem qtailWrite : ∀ x0 x1, Statement (.qtailWrite x0 x1) := fun _ _ => rfl
theorem gridnextWrite : ∀ x0, Statement (.gridnextWrite x0) := fun _ => rfl
theorem bfsWrite : ∀ x0 x1, Statement (.bfsWrite x0 x1) := fun _ _ => rfl
theorem partcfgWrite : ∀ x0 x1, Statement (.partcfgWrite x0 x1) := fun _ _ => rfl
theorem capctlWrite : ∀ x0, Statement (.capctlWrite x0) := fun _ => rfl
theorem registerWrite : ∀ x0 x1 x2, Statement (.registerWrite x0 x1 x2) := fun _ _ _ => rfl
theorem svcreqEntry : ∀ x0, Statement (.svcreqEntry x0) := fun _ => rfl
theorem clkcmpMatch : ∀ x0, Statement (.clkcmpMatch x0) := fun _ => rfl
theorem linkEventEntry : ∀ x0, Statement (.linkEventEntry x0) := fun _ => rfl
theorem heartbeatSend : ∀ x0, Statement (.heartbeatSend x0) := fun _ => rfl
theorem heartbeatMissed : ∀ x0 x1, Statement (.heartbeatMissed x0 x1) := fun _ _ => rfl
theorem takeover : ∀ x0, Statement (.takeover x0) := fun _ => rfl
theorem leaderClaim : ∀ x0, Statement (.leaderClaim x0) := fun _ => rfl
theorem stringMonitorEval : ∀ x0 x1, Statement (.stringMonitorEval x0 x1) := fun _ _ => rfl
theorem railGapExcursion : ∀ x0, Statement (.railGapExcursion x0) := fun _ => rfl
theorem railGapEnd : ∀ x0, Statement (.railGapEnd x0) := fun _ => rfl
theorem pwrhGraceEnd : ∀ x0, Statement (.pwrhGraceEnd x0) := fun _ => rfl
theorem fillExpiry : ∀ x0, Statement (.fillExpiry x0) := fun _ => rfl
theorem frequencyChange : ∀ x0 x1, Statement (.frequencyChange x0 x1) := fun _ _ => rfl
theorem thermalFlag : ∀ x0, Statement (.thermalFlag x0) := fun _ => rfl
theorem thermalUnflag : ∀ x0, Statement (.thermalUnflag x0) := fun _ => rfl
theorem migrationGo : ∀ x0, Statement (.migrationGo x0) := fun _ => rfl
theorem migrationDone : ∀ x0, Statement (.migrationDone x0) := fun _ => rfl
theorem ingressDelivery : ∀ x0 x1, Statement (.ingressDelivery x0 x1) := fun _ _ => rfl
theorem softError : ∀ x0, Statement (.softError x0) := fun _ => rfl
theorem hostAccess : ∀ x0 x1, Statement (.hostAccess x0 x1) := fun _ _ => rfl
theorem displayScanout : ∀ x0 x1, Statement (.displayScanout x0 x1) := fun _ _ => rfl
theorem flitCrcRetry : ∀ x0, Statement (.flitCrcRetry x0) := fun _ => rfl
theorem laneError : ∀ x0 x1, Statement (.laneError x0 x1) := fun _ _ => rfl
theorem lkctlPauseSet : ∀ x0, Statement (.lkctlPauseSet x0) := fun _ => rfl
theorem lkctlPauseClear : ∀ x0, Statement (.lkctlPauseClear x0) := fun _ => rfl
theorem lkctlRetrain : ∀ x0, Statement (.lkctlRetrain x0) := fun _ => rfl
theorem linkTrainComplete : ∀ x0, Statement (.linkTrainComplete x0) := fun _ => rfl
theorem reductionContribution : ∀ x0 x1 x2, Statement (.reductionContribution x0 x1 x2) := fun _ _ _ => rfl
theorem reductionTimeout : ∀ x0, Statement (.reductionTimeout x0) := fun _ => rfl
theorem transferLinkTimeout : ∀ x0, Statement (.transferLinkTimeout x0) := fun _ => rfl
theorem packagePowerUp : Statement (.packagePowerUp) := rfl
theorem bundleLengthWrite : ∀ x0, Statement (.bundleLengthWrite x0) := fun _ => rfl
theorem bankSwitch : Statement (.bankSwitch) := rfl
theorem attestationRequest : ∀ x0, Statement (.attestationRequest x0) := fun _ => rfl
theorem packageSuspend : Statement (.packageSuspend) := rfl
theorem packageResume : Statement (.packageResume) := rfl
theorem systemSuspend : Statement (.systemSuspend) := rfl
theorem systemResume : Statement (.systemResume) := rfl
theorem engineOperationComplete : ∀ x0, Statement (.engineOperationComplete x0) := fun _ => rfl
theorem memoryPlaneOff : ∀ x0, Statement (.memoryPlaneOff x0) := fun _ => rfl
theorem selfRefreshEntry : ∀ x0 x1, Statement (.selfRefreshEntry x0 x1) := fun _ _ => rfl

end Sys2Proof.Laws.LayoutOk
end

