-- ==== Sys2Proof/Tests/Slice0.lean ====
section
/-!
SUPPORT. Tests/Slice0.lean: the model's own tests. Terms that are not well formed are refused; words put together by hand from the
spec's encoding tables decode to their instructions; single steps give what the spec's rules and worked examples give; and, for every
obligation with hypotheses, a state and operands that meet them.
-/

namespace Sys2Proof.Tests

open Sys2Proof Sys2Proof.Machine

/-- The header of an unguarded word. -/
def p7 : Hdr := ⟨0, 7, false⟩

/-! ### Well-formedness: one ill-formed term for each check -/

theorem test_wf_accepts : ([.iadd p7 (.x 1) (.x 2) .xz .wrap, .loop p7 0 (.x 1) 256, .movsw p7 .xlwin (.x 1),
    .ldsf p7 (.x 4) (.x 1) 0 .b128 false true, .atom p7 (.x 4) (.x 6) (.x 8) .pkg .rlx true .add, .bar p7 0 .xz 0 false .die 3,
    .cpstage p7 (.x 1) 1 1 2, .csrw p7 .gridnext (.x 1), .tlbinv p7 .xz .xz .xz true .die] : List Instr).all Instr.wf = true := by
  decide
theorem test_wf_loop_length : (Instr.loop p7 0 (.x 1) 0).wf = false ∧ (Instr.loop p7 0 (.x 1) 257).wf = false ∧
    (Instr.loopi p7 0 1 0).wf = false ∧ (Instr.loopi p7 0 1 257).wf = false := by decide
theorem test_wf_movsw_readonly : (Instr.movsw p7 .lane (.x 1)).wf = false := by decide
theorem test_wf_tag_sizes : (Instr.ldsf p7 (.x 4) (.x 1) 0 .b16 false false).wf = false ∧
    (Instr.stse p7 (.x 4) (.x 1) 0 .b8 false).wf = false := by decide
theorem test_wf_fadd64 : (Instr.atom p7 (.x 4) (.x 6) (.x 8) .pkg .rlx true .fadd).wf = false ∧
    (Instr.atoms p7 (.x 4) (.x 6) (.x 8) .pkg .rlx true false .fadd).wf = false ∧
    (Instr.red p7 (.x 6) (.x 8) .pkg false true .fadd).wf = false := by decide
theorem test_wf_red_ops : (Instr.red p7 (.x 6) (.x 8) .pkg false false .cas).wf = false ∧
    (Instr.red p7 (.x 6) (.x 8) .pkg false false .xchg).wf = false := by decide
theorem test_wf_barrier_ids : (Instr.bar p7 0 .xz 0 false .quad 4).wf = false ∧ (Instr.bara p7 .xz 0 false .die 4).wf = false ∧
    (Instr.barw p7 0 false .pkg 2).wf = false ∧ (Instr.barn p7 (.x 1) .pod 1).wf = false := by decide
theorem test_wf_cpstage : (Instr.cpstage p7 (.x 1) 0 1 2).wf = false ∧ (Instr.cpstage p7 (.x 1) 1 1 1).wf = false ∧
    (Instr.cpstage p7 (.x 1) 1 1 33).wf = false ∧ (Instr.cpstage p7 (.x 1) 1 0 2).wf = false ∧
    (Instr.cpstage p7 (.x 1) 1 3 2).wf = false := by decide
theorem test_wf_readonly_csrs : (Instr.csrw p7 .sip (.x 2)).wf = false ∧ (Instr.csrset p7 (.x 2) .leadslot (.x 4)).wf = false ∧
    (Instr.csrclr p7 (.x 2) (.qhead 0) (.x 4)).wf = false := by decide
theorem test_wf_tlbinv_all : (Instr.tlbinv p7 (.x 2) .xz .xz true .die).wf = false := by decide
theorem test_wf_misaligned_group : (Instr.iadd64 p7 (.x 3) (.x 2) (.x 4)).wf = false := by decide
theorem test_wf_past_last_register : (Instr.iadd64 p7 (.x 190) (.x 2) (.x 4)).wf = false ∧
    (Instr.ldu p7 (.g 62) (.x 2) 0 .b128).wf = false := by decide
theorem test_wf_wrong_kind : (Instr.cpt p7 (.x 10) (.g 12) ⟨1, 1, 1, 1⟩ .e4).wf = false ∧
    (Instr.trav p7 (.g 16) (.g 8) ⟨1, 1, 1, 1⟩).wf = false ∧ (Instr.cpl p7 .xz (.x 1) ⟨1, 1, 1, 1⟩ .e4).wf = false := by decide

/-! ### Decoding -/

/-- Each word decodes to the instruction beside it. -/
def decodes (l : List (Nat × Instr)) : Bool := l.all fun p => decodeTableWord 64 p.1 == some p.2
/-- Each word is rejected for the reason beside it. -/
def rejects (l : List (Nat × Reject)) : Bool := l.all fun p => match decode (BitVec.ofNat 64 p.1) with
  | .error r => r == p.2
  | .ok _ => false

/-- CTRL: each word put together by hand from the encoding table of its entry. -/
theorem test_decode_ctrl : decodes [
    (0x0000038000000000, .nop p7),
    (0x00000780FFFFFF40, .bra p7 (-3)),
    (0x00000B8001800005, .brx p7 (.x 6) 5),
    (0x00000F8000000243, .call p7 9 3),
    (0x0000138031000000, .ret p7 (.g 4)),
    (0x0000178081400100, .loop p7 2 (.x 5) 256),
    (0x00001B8040000E01, .loopi p7 1 7 1),
    (0x00001F82FFFFFFC0, .brkl p7 2 (-1)),
    (0x0000238000000000, .yield p7),
    (0x00002783C07F8001, .cvset p7 15 (.x 1) (some 31) 0x8001),
    (0x000027802FC00003, .cvset p7 0 .xz none 3),
    (0x00002B8240000000, .sign p7 9),
    (0x00002F8000000000, .start p7),
    (0x00003380FC204000, .waitc p7 0 63 2 1),
    (0x00003780000A4189, .tkw p7 ⟨5, 4, 3, 2⟩ true),
    (0x00003B8000000000, .exit p7),
    (0x00003F8000E0004D, .sleep p7 (.x 3) true 77)] = true := by decide

/-- INT: each word put together by hand from the encoding table of its entry. -/
theorem test_decode_int : decodes [
    (0x100003AF807FC002, .iadd p7 (.x 190) (.x 1) (.g 63) .sat),
    (0x100007AF807FC003, .isub p7 (.x 190) (.x 1) (.g 63) .satU),
    (0x10000BAF807FC000, .imul p7 (.x 190) (.x 1) (.g 63)),
    (0x10000FAF807FC001, .imulh p7 (.x 190) (.x 1) (.g 63) true),
    (0x100013AF807FEFC0, .imad p7 (.x 190) (.x 1) (.g 63) .xz .wrap),
    (0x100017AF807FC001, .imin p7 (.x 190) (.x 1) (.g 63) true),
    (0x10001BAF807FC000, .imax p7 (.x 190) (.x 1) (.g 63) false),
    (0x10001F80C1000002, .iabs p7 (.x 3) (.x 4) true),
    (0x100023AF807FC000, .and p7 (.x 190) (.x 1) (.g 63)),
    (0x100027AF807FC000, .or p7 (.x 190) (.x 1) (.g 63)),
    (0x10002BAF807FC000, .xor p7 (.x 190) (.x 1) (.g 63)),
    (0x10002FAF807FC000, .andn p7 (.x 190) (.x 1) (.g 63)),
    (0x100033AF807FC000, .shl p7 (.x 190) (.x 1) (.g 63)),
    (0x100037AF807FC000, .shr p7 (.x 190) (.x 1) (.g 63)),
    (0x10003BAF807FC000, .sar p7 (.x 190) (.x 1) (.g 63)),
    (0x10003FAF807FC000, .rol p7 (.x 190) (.x 1) (.g 63)),
    (0x100043AF807FC001, .bfx p7 (.x 190) (.x 1) (.g 63) true),
    (0x100047AF807FC240, .bfi p7 (.x 190) (.x 1) (.g 63) (.x 9)),
    (0x10004B80C1000000, .popc p7 (.x 3) (.x 4)),
    (0x10004F80C1000000, .clz p7 (.x 3) (.x 4)),
    (0x10005380C1000000, .brev p7 (.x 3) (.x 4)),
    (0x100057808040837C, .isetp p7 2 (.x 1) (.x 2) .gt true (.xor 5 true)),
    (0x10005B8C4080F280, .plop p7 1 2 3 6 0xCA),
    (0x10005FAF807FC00D, .sel p7 (.x 190) (.x 1) (.g 63) 5 true),
    (0x10006380C1000000, .mov p7 (.x 3) (.x 4)),
    (0x100067B0BFFFFFFE, .movi p7 (.g 2) (-2)),
    (0x10006B80C000BEEF, .movhi p7 (.x 3) 0xBEEF),
    (0x10006F8100000022, .movs p7 (.x 4) (.mb 2)),
    (0x1000738001000040, .movsw p7 .xlwin (.x 4)),
    (0x10007781B001000F, .lea p7 (.x 6) (.g 0) (.x 4) 7 true),
    (0x10007B81B0010000, .iadd64 p7 (.x 6) (.g 0) (.x 4)),
    (0x10007F81C0000000, .pget p7 (.x 7)),
    (0x1000838001C0007F, .pput p7 (.x 7) 0x7F),
    (0x1000878040BFFFFF, .iaddi p7 (.x 1) (.x 2) (-1)),
    (0x10008B8040BFFFFF, .andi p7 (.x 1) (.x 2) (-1)),
    (0x10008F8040BFFFFF, .ori p7 (.x 1) (.x 2) (-1)),
    (0x1000938040BFFFFF, .xori p7 (.x 1) (.x 2) (-1)),
    (0x1000979AC0800009, .isetpi p7 3 (.x 2) 9 .ge true)] = true := by decide

/-- VFP: each word put together by hand from the encoding table of its entry. -/
theorem test_decode_vfp : decodes [
    (0x200003828081000D, .fadd p7 (.x 10) (.x 2) (.x 4) .rz true true),
    (0x200007828081000E, .fsub p7 (.x 10) (.x 2) (.x 4) .rm true true),
    (0x20000B828081000F, .fmul p7 (.x 10) (.x 2) (.x 4) .rp true true),
    (0x20000F82808101B2, .ffma p7 (.x 10) (.x 2) (.x 4) (.x 6) .rm false false true true),
    (0x2000138280810009, .fmin p7 (.x 10) (.x 2) (.x 4) true true),
    (0x2000178280810001, .fmax p7 (.x 10) (.x 2) (.x 4) false true),
    (0x20001B8081000008, .fabs p7 (.x 2) (.x 4) true),
    (0x20001F8081000000, .fneg p7 (.x 2) (.x 4) false),
    (0x200023804080C097, .fsetp p7 1 (.x 2) (.x 3) .nan (.and 2 false)),
    (0x2000278040800003, .frnd p7 (.x 1) (.x 2) .rp),
    (0x20002B8280810188, .fclamp p7 (.x 10) (.x 2) (.x 4) (.x 6) true),
    (0x20002F8040800005, .f2i p7 (.x 1) (.x 2) true .rz),
    (0x2000338040800004, .i2f p7 (.x 1) (.x 2) true .rn),
    (0x200037828081000D, .hadd2 p7 (.x 10) (.x 2) (.x 4) .rm true true),
    (0x20003B8280810002, .hmul2 p7 (.x 10) (.x 2) (.x 4) .rz false false),
    (0x20003F82808101C6, .hfma2 p7 (.x 10) (.x 2) (.x 4) (.x 7) .rp false false),
    (0x20004382808101C1, .dot2 p7 (.x 10) (.x 2) (.x 4) (.x 7) .rn true),
    (0x20004782808101C6, .dot4 p7 (.x 10) (.x 2) (.x 4) (.x 7) true .su),
    (0x20004B80408000F1, .cvt p7 (.x 1) (.x 2) (.x 3) 6 1),
    (0x20004F8102AFEFC3, .cvtpk p7 (.x 4) (.x 10) .xz .xz 3),
    (0x2000538102804007, .cvtup p7 (.x 4) (.x 10) (.x 1) 7),
    (0x2000578280810002, .fscl p7 (.x 10) (.x 2) (.x 4) .rm),
    (0x20005B8040800002, .fclass p7 (.x 1) (.x 2) .bf16)] = true := by decide

/-- SFU: each word put together by hand from the encoding table of its entry. -/
theorem test_decode_sfu : decodes [
    (0x3000038100C00000, .rcp p7 (.x 4) (.x 3)),
    (0x3000078100C00000, .rsq p7 (.x 4) (.x 3)),
    (0x30000F8100C00000, .exp2 p7 (.x 4) (.x 3)),
    (0x3000138100C00000, .log2 p7 (.x 4) (.x 3)),
    (0x3000178100C00000, .sin p7 (.x 4) (.x 3)),
    (0x30001B8100C00000, .cos p7 (.x 4) (.x 3)),
    (0x30001F8100C00000, .sincos p7 (.x 4) (.x 3)),
    (0x3000238100C00000, .tanh p7 (.x 4) (.x 3)),
    (0x30000B8100C00001, .sqrt p7 (.x 4) (.x 3) .rz),
    (0x3000278141320000, .tlu p7 (.x 5) (.x 4) (.g 8)),
    (0x30002B8180408000, .dropm p7 6 (.x 1) (.x 2)),
    (0x30002F8140408000, .csamp p7 (.x 5) (.x 1) (.x 2)),
    (0x3000338140400001, .rng p7 (.x 5) (.x 1) true),
    (0x3000378140408003, .fdiv p7 (.x 5) (.x 1) (.x 2) .rp)] = true := by decide

/-- XLN: each word put together by hand from the encoding table of its entry. -/
theorem test_decode_xln : decodes [
    (0x40000381404080C4, .xrd p7 (.x 5) (.x 1) (.x 2) (.x 3) .rot),
    (0x40000781411D0300, .xrdi p7 (.x 5) (.x 4) .xor .keep (.w 3)),
    (0x40000781410AFF00, .xrdi p7 (.x 5) (.x 4) .up .own (.n 255)),
    (0x40000B814100000A, .xred p7 (.x 5) (.x 4) .fmax),
    (0x40000F8141000014, .xscan p7 (.x 5) (.x 4) .umax true),
    (0x4000138182800000, .xvote p7 (.x 6) 2 true .bal),
    (0x4000178041C00002, .xpred p7 1 7 false .uni),
    (0x40001B818040008B, .xcmp p7 (.x 6) (.x 1) (.x 2) 3 true),
    (0x40001F8180400083, .xexp p7 (.x 6) (.x 1) (.x 2) 3 false),
    (0x4000238180400001, .xmatch p7 (.x 6) (.x 1) true)] = true := by decide

/-- MEM: each word put together by hand from the encoding table of its entry. -/
theorem test_decode_mem : decodes [
    (0x5000038200FFFF22, .lds p7 (.x 8) (.x 3) (-4) .b128 true),
    (0x5000078200C00301, .sts p7 (.x 8) (.x 3) 12 .b8 false),
    (0x50000B8240800451, .ldsf p7 (.x 9) (.x 2) 8 .b32 false true),
    (0x50000F820080041A, .stse p7 (.x 8) (.x 2) 8 .b64 true),
    (0x5000138000408003, .tags p7 (.x 1) (.x 2) false true),
    (0x5000178040800004, .tagr p7 (.x 1) (.x 2) true),
    (0x50001B8201801010, .ldg p7 (.x 8) (.x 6) 64 .b32),
    (0x50001F8231BFFE08, .stg p7 (.x 8) (.g 6) (-8) .b16),
    (0x500023B201800020, .ldu p7 (.g 8) (.x 6) 0 .b128),
    (0x5000278081802010, .pref p7 .l2 (.x 6) 128),
    (0x50002B800180400F, .cmaint p7 (.x 6) (.x 1) .far .ci)] = true := by decide

/-- SYNC: each word put together by hand from the encoding table of its entry. -/
theorem test_decode_sync : decodes [
    (0x600003800000001D, .fence p7 .sc .sys),
    (0x60000781823FFF18, .lda p7 (.x 6) (.x 8) (-1) .pod .b64 .global),
    (0x60000B8182000A11, .stl p7 (.x 6) (.x 8) 5 .core .b32 .spad),
    (0x60000F8182009D09, .atom p7 (.x 6) (.x 8) (.x 2) .pkg .rel true .cas),
    (0x600013818200CE8C, .atoms p7 (.x 6) (.x 8) (.x 3) .quad .ar false true .fadd),
    (0x600017800200D40B, .red p7 (.x 8) (.x 3) .die true false .dec),
    (0x60001B80807FFFA3, .bar p7 2 (.x 1) 16383 true .die 3),
    (0x60001F802FC0400F, .bara p7 .xz 64 false .core 15),
    (0x60002381C00000B1, .barw p7 7 true .pkg 1),
    (0x60002780C0000040, .barn p7 (.x 3) .pod 0),
    (0x60002B80C0400405, .semacq p7 .pkg (.x 1) 16 5),
    (0x60002F8A6FC0007F, .semrel p7 .quad (some 2) .xz 1 63),
    (0x6000338B80400247, .semtry p7 6 .sys (.x 1) 9 7),
    (0x6000378100000048, .semrd p7 (.x 4) true 8)] = true := by decide

/-- COPY: each word put together by hand from the encoding table of its entry. -/
theorem test_decode_copy : decodes [
    (0x7000038200CA418A, .cpl p7 (.x 8) (.x 3) ⟨5, 4, 3, 2⟩ .e16),
    (0x700007B2B30A4189, .cpt p7 (.g 10) (.g 12) ⟨5, 4, 3, 2⟩ .e8),
    (0x70000BB2B30A4188, .cpr p7 (.g 10) (.g 12) ⟨5, 4, 3, 2⟩),
    (0x70000F8000BFF120, .cpstage p7 (.x 2) 1023 4 32),
    (0x70000F8000000000, .cpstageOff p7),
    (0x70001380C0000002, .cpadv p7 (.x 3) .n),
    (0x700017B3328A4188, .cpremPut p7 (.g 12) (.g 10) ⟨5, 4, 3, 2⟩),
    (0x700017B3328A4189, .cpremPost p7 (.g 12) (.g 10) ⟨5, 4, 3, 2⟩),
    (0x70001B80000A4188, .tkj p7 ⟨5, 4, 3, 2⟩),
    (0x70001FB2B34A4188, .cpfill p7 (.g 10) (.g 13) ⟨5, 4, 3, 2⟩ .e4)] = true := by decide

/-- MTX: each word put together by hand from the encoding table of its entry. -/
theorem test_decode_mtx : decodes [
    (0x800003840C8A4189, .mma p7 (.x 16) 3 2 ⟨5, 4, 3, 2⟩ true),
    (0x800007853FCA4188, .mmas p7 (.x 20) 15 15 ⟨5, 4, 3, 2⟩ false),
    (0x80000B8400000000, .mrel p7 none),
    (0x80000B83C0000000, .mrel p7 (some 15)),
    (0x80000F8100000001, .mfq p7 (.x 4) true),
    (0x8000138140000002, .mqry p7 (.x 5) .cfg)] = true := by decide

/-- ACC: each word put together by hand from the encoding table of its entry. -/
theorem test_decode_acc : decodes [
    (0x900003B5B54A4188, .accz p7 (.g 22) (.g 21) ⟨5, 4, 3, 2⟩),
    (0x900013B5B54A4188, .accfl p7 (.g 22) (.g 21) ⟨5, 4, 3, 2⟩),
    (0x90001BB5B54A4188, .accpoi p7 (.g 22) (.g 21) ⟨5, 4, 3, 2⟩),
    (0x90000781824A4188, .accadd p7 (.x 6) (.x 9) ⟨5, 4, 3, 2⟩),
    (0x90000B8201800001, .accrd p7 (.x 8) (.x 6) .i64),
    (0x90000FB5B54A418B, .accset p7 (.g 22) (.g 21) ⟨5, 4, 3, 2⟩ .pkg),
    (0x900017B5B60A4188, .accout p7 (.g 22) (.g 24) ⟨5, 4, 3, 2⟩)] = true := by decide

/-- GFX: each word put together by hand from the encoding table of its entry. -/
theorem test_decode_gfx : decodes [
    (0xA0000382328C631A, .rast p7 (.x 8) (.g 10) 6 .front),
    (0xA0000784320A4188, .trav p7 (.x 16) (.g 8) ⟨5, 4, 3, 2⟩),
    (0xA0000B84320A4188, .sample p7 (.x 16) (.g 8) ⟨5, 4, 3, 2⟩),
    (0xA0000FB30000000A, .winacq p7 (.g 12) true 2),
    (0xA000138000000007, .winrel p7 false 7),
    (0xA00017B232CA4189, .ordt p7 (.g 8) (.g 11) ⟨5, 4, 3, 2⟩ true),
    (0xA0001BB232CA4188, .ttask p7 (.g 8) (.g 11) ⟨5, 4, 3, 2⟩),
    (0xA0001F80C10A4188, .tfence p7 (.x 3) (.x 4) ⟨5, 4, 3, 2⟩),
    (0xA0002382310A4188, .omrg p7 (.x 8) (.g 4) ⟨5, 4, 3, 2⟩)] = true := by decide

/-- SYS: each word put together by hand from the encoding table of its entry. -/
theorem test_decode_sys : decodes [
    (0xB0000380003FFFFF, .trap p7 (-1)),
    (0xB000078000000000, .eret p7),
    (0xB0000B8100000002, .csrr p7 (.x 4) .scause),
    (0xB0000F8001000150, .csrw p7 .gridnext (.x 4)),
    (0xB000138080C00004, .csrset p7 (.x 2) .sstat (.x 3)),
    (0xB00017AFC0C00306, .csrclr p7 .xz (.qoscls 6) (.x 3)),
    (0xB0001B8001018203, .tlbinv p7 (.x 4) (.x 6) (.x 8) false .pkg),
    (0xB0001B802FEFEFCA, .tlbinv p7 .xz .xz .xz true .die),
    (0xB0001FB5358A4188, .launch p7 (.g 20) (.g 22) ⟨5, 4, 3, 2⟩),
    (0xB000238000000000, .wfi p7),
    (0xB000278000000000, .halt p7),
    (0xB0002B8000C0004D, .rmark p7 (.x 3) 77),
    (0xB0002F8281018001, .ctxsave p7 (.x 10) (.x 4) (.x 6) true),
    (0xB000338281000000, .ctxload p7 (.x 10) (.x 4))] = true := by decide

/-- PWR: each word put together by hand from the encoding table of its entry. -/
theorem test_decode_pwr : decodes [
    (0xC0000380C14007D0, .fill p7 .vs (.x 5) 2000),
    (0xC000078140000000, .pwrh p7 .mtx),
    (0xC0000B8140000002, .strq p7 (.x 5) .lim)] = true := by decide

/-- PART: each word put together by hand from the encoding table of its entry. -/
theorem test_decode_part : decodes [
    (0xD00003B4330A418B, .pgive p7 (.g 16) (.g 12) ⟨5, 4, 3, 2⟩ true true),
    (0xD00007B4330A418A, .ptake p7 (.g 16) (.g 12) ⟨5, 4, 3, 2⟩ true),
    (0xD0000B80C1000000, .pqry p7 (.x 3) (.own (.x 4))),
    (0xD0000B80C0000001, .pqry p7 (.x 3) .dies),
    (0xD0000F8001018003, .pzero p7 (.x 4) (.x 6) .shared)] = true := by decide

/-- Rejected by name: a class the map leaves out (R52); an opcode past the last (R50); NOP with a nonzero unused field (R42); LOOP with a body of no word (R79); LOOP with a body of 257 words (R79); U without SAT (R88); a 64-bit FADD (R225); package barrier 2 (R232); a write of a read-only CSR (R366); .X2 with odd registers (R48, R127); CPT with an x descriptor (R253); a pair past the last register (R47, R48). -/
theorem test_decode_rejects : rejects [
    (0xE000000000000000, .illegalClass),
    (0x10009B8000000000, .illegalOp),
    (0x0000038000000001, .illegalOp),
    (0x0000178001400000, .illegalOp),
    (0x0000178001400101, .illegalOp),
    (0x100003804080C001, .illegalOp),
    (0x60000F818200810C, .illegalOp),
    (0x60001B8000400032, .illegalOp),
    (0xB0000F8001000382, .illegalOp),
    (0x20000F82804080C8, .illegalReg),
    (0x70000782B30A4188, .illegalReg),
    (0x10007BAF80810000, .illegalReg)] = true := by decide
/-! ### Small states -/

/-- The handle of the tests' block: block 0 of grid 5. -/
def hd : Nat := 5
/-- A thread of that block. -/
def tid (i : Nat) : Tid := ⟨hd, i⟩
/-- A thread at 0x1000 with these x registers. -/
def thr (x : Tab Word) : Thread := { x := x, pc := 0x1000 }
/-- A translation of the first 2^40 addresses to themselves. -/
def flat : TlbEnt := { cid := 0, va := 0, size := 2 ^ 40, pa := 0, r := true, w := true, x := true, u := true }
/-- A block of threads on core 0, with 4 KiB of scratchpad. -/
def blkOf (ts : List Thread) : Block :=
  { core := 0, grid := 5, blkid := 0, spadSize := 4096, regs := 191, part := 2, threads := ts.zipIdx.map fun p => (p.2, p.1) }
/-- The state of one block on a core, its threads the issue group at 0x1000. -/
def mach (b : Block) (k : Core) (ops : List Op) : State :=
  { cur := { core := b.core, pc := 0x1000, tids := b.threads.map fun p => tid p.1 }, nextId := 100, cores := [(b.core, k)]
    blocks := [(hd, b)], grids := [(5, {})], ops := ops }
/-- Two threads with some registers. -/
def two : State := mach (blkOf [thr [(1, 5), (2, 0x105), (3, 0x11F), (4, 0x120)], thr [(1, 7)]]) { tlb := [flat], clk := 100 } []
/-- One thread with some registers. -/
def one (x : Tab Word) (ops : List Op := []) : State := mach (blkOf [thr x]) { tlb := [flat], clk := 100 } ops
/-- An operation of the one thread. -/
def opr (k : OpKind) (c : List (Tid × Cnt) := []) : Op :=
  { id := 7, core := 0, blk := hd, kind := k, tids := [tid 0], cnts := c, pc := 0x1000 }

/-- The caches of a state hold nothing. -/
def bare (s : State) : Bool := s.mem.l2.isEmpty && s.cores.all (fun p => p.2.l1.isEmpty) && s.dies.all fun p => p.2.rdc.isEmpty
/-- Caches that hold nothing take this many bytes without giving up a line. -/
theorem test_roomy (s : State) (n : Nat) (h : bare s = true) (hn : n ≤ 4096) : s.roomy n := by
  simp only [bare, Bool.and_eq_true, List.all_eq_true, List.isEmpty_iff] at h
  obtain ⟨⟨h1, h2⟩, h3⟩ := h
  have look : ∀ {α : Type} (t : Tab α) (c : Nat) (v : α), Tab.find t c = some v → (c, v) ∈ t := by
    intro α t c v
    induction t with
    | nil => simp
    | cons p t ih =>
      obtain ⟨k, u⟩ := p
      rw [Tab.find_cons]
      split
      · rintro ⟨⟩; subst k; simp
      · intro e; simp [ih e]
  refine ⟨by simp [h1, Config.l2Lines, hn], fun c => ?_, fun d => ?_⟩
  · have : (s.core c).l1 = [] := by
      simp only [State.core, Tab.getD]
      cases e : Tab.find s.cores c with
      | none => rfl
      | some v => exact h2 _ (look _ _ _ e)
    simp [this, Config.l1Sectors, hn]
  · have : (s.die d).rdc = [] := by
      simp only [State.die, Tab.getD]
      cases e : Tab.find s.dies d with
      | none => rfl
      | some v => exact h3 _ (look _ _ _ e)
    simp only [this, Config.rdcLines, List.length_nil]
    omega

/-! ### Witnesses: integer, floating-point, special-function and cross-lane words -/

/-- BFX and BFI reach both clauses at their ends: length 0, position 31, position 32. -/
theorem test_witness_IntResults : two.groupOk = true ∧ (two.rd (tid 0) (.x 1)).toNat / 256 % 256 = 0 ∧
    (two.rd (tid 0) (.x 3)).toNat % 256 = 31 ∧ (two.rd (tid 0) (.x 4)).toNat % 256 = 32 ∧
    (two.rd (tid 0) (.x 3)).toNat / 256 % 256 = 1 := by decide
theorem test_witness_IntMoves : two.groupOk = true ∧ SReg.clk.wide = true ∧ SReg.lane.wide = false := by decide
theorem test_witness_IntPredicates : two.groupOk = true := by decide
theorem test_witness_FpResults : two.groupOk = true := by decide
theorem test_witness_FpPackedAndConversions : two.groupOk = true := by decide
theorem test_witness_FpSpecialValues : let nan := fun (w : Word) => w.extractLsb' 23 8 = 0xFF ∧ w.extractLsb' 0 23 ≠ 0
    nan 0x7F800001 ∧ ¬ nan 0x7F800000 := by decide
theorem test_witness_SfuResults : two.groupOk = true ∧ two.cur.tids ≠ [] ∧ two.ops = [] ∧
    (∀ t ∈ two.act p7, tluDesc (two.rds t (.g 0) 4) (two.block t.blk).spadSize = none) := by decide
/-- A TLU descriptor of one linear segment at offset 0 that is accepted. -/
theorem test_witness_SfuResults_tlu : let s := (one [(1, 0x3F000000)]).modBlock hd fun b => { b with g := [(1, 0), (2, 0x3F800000), (3, 1)] }
    s.groupOk = true ∧ s.cur.tids ≠ [] ∧ s.ops = [] ∧ ((tluDesc (s.rds (tid 0) (.g 0) 4) 4096).isSome = true) ∧ (v32 (s.rd (tid 0) (.x 1))).isNan = false ∧
    s.spadPoison 0 0 16 = false := by decide
theorem test_witness_CrossLaneResults : two.groupOk = true := by decide

/-! ### Witnesses: control words -/

theorem test_witness_BranchesJump : two.groupOk = true ∧ legalTarget (two.cur.pc + 8 * (-512 : BitVec 26).signExtend 64) ∧
    (∀ t ∈ two.act p7, legalTarget (two.rd64 t (.x 6) + 8 * (1 : BitVec 22).signExtend 64)) ∧
    ∀ t ∈ two.act p7, legalTarget (two.rd64 t (.x 6)) := by unfold legalTarget; decide
/-- Counts 0 and not, at levels 0 and 2, bodies of 1 and 256 words. -/
theorem test_witness_LoopsStart : two.groupOk = true ∧ (1 : Fin 512).val ≠ 0 ∧ (256 : Fin 512).val ≠ 0 ∧
    (∀ t ∈ two.act p7, (two.thread t).pc = two.cur.pc ∧ (two.thread t).loops.length = 3 ∧
      (two.thread t).atLoopEnd two.cur.pc = false ∧ ((two.thread t).win.drop 1).all (fun w => !w.issued) = true) ∧
    two.rd (tid 0) (.x 1) ≠ 0 ∧ two.rd (tid 0) (.x 9) = 0 := by decide
/-- Nothing to wait for; a load to wait for; a sleep that has ended, by its clocks or by a mailbox. -/
theorem test_witness_WaitsEnd : two.groupOk = true ∧ two.cur.tids ≠ [] ∧
    (∀ t ∈ two.act p7, (two.thread t).ld ≤ 0 ∧ (two.thread t).st ≤ 0 ∧ (two.thread t).cp ≤ 0 ∧ (two.thread t).mt ≤ 0) ∧
    (∀ t ∈ two.act p7, (two.thread t).since = none) ∧
    let s := (one [(1, 60)]).modBlock hd fun b => { b with
      threads := [(0, { (thr [(1, 60)]) with ld := 1, since := some 40 })], toks := [(1, { prod := true })] }
    let w := s.modCore 0 fun k => { k with mbAt := some 40 }
    s.groupOk = true ∧ (∀ t ∈ s.cur.tids, t ∈ s.act p7 ∧ 0 < (s.thread t).ld) ∧
    (s.thread (tid 0)).since = some 40 ∧ (s.thread (tid 0)).tkSnap = [] ∧ 40 + min (2 ^ 32 - 1) ((s.rd (tid 0) (.x 1)).toNat + 0) ≤ s.clk ∧
    w.groupOk = true ∧ (w.core w.cur.core).mbAt = some 40 ∧ 40 < w.clk ∧ isSvc w.cur.core = false ∧
    (∀ n ∈ (⟨1, 1, 1, 1⟩ : Toks).ins, ((s.block hd).tok n).prod = true) ∧ s.tokOps hd 1 = [] := by decide
/-- A service pair with CLKCMP pending and enabled. -/
def svcOne : State := { cur := { core := 320, pc := 0x1000, tids := [⟨0, 0⟩] }, nextId := 100, cores := [(320, { clk := 100 })]
                        svcs := [(0, { started := true, sie := 8, sstat := 5, fstat := 0x35, stvec := 0x2000, ftvec := 0x3000 })]
                        blocks := [(0, { svcBlock 0 with threads := [(0, { pc := 0x1000, level := .sup })] })] }
theorem test_witness_WaitsEnd_service : svcOne.groupOk = true ∧ isSvc svcOne.cur.core = true ∧
    svcOne.wakes (svcSlot svcOne.cur.core) = true := by decide
/-- A register with nothing signed; one of the block's row, armed. -/
theorem test_witness_ConvergenceAndExit : (∀ t ∈ two.act p7, (two.cv t.blk 3).signed = [] ∧ two.firing t.blk 3 = false) ∧
    let s := two.modBlock hd fun b => { b with cvs := [(3, { members := 1 })] }
    s.groupOk = true ∧ s.cur.tids ≠ [] ∧
    ∀ t ∈ s.act p7, (s.block t.blk).cvpend.all (fun p => p.1 != 3) = true ∧ (s.cv t.blk 3).members ≠ 0 ∧
      (s.cv t.blk 3).members.getLsbD t.row = true ∧ (s.cv t.blk 3).op = .none ∧ s.signWaits t 3 = false ∧
      (s.cv t.blk 3).tok = none := by decide

/-! ### Witnesses: memory words -/

/-- The last word of the scratchpad; an aligned address; an LDU from the lowest lane. -/
theorem test_witness_LoadsStart : let s := one [(1, 4092), (2, 0x2000)]
    s.groupOk = true ∧ s.act p7 = [tid 0] ∧ s.rejects [{ t := tid 0, loc := .mem 0x2000 }] = false ∧
    lowLane (s.act p7) hd = some (tid 0) := by decide
theorem test_witness_LoadsStart_places : let s := one [(1, 4092), (2, 0x2000)]
    s.spadAt (tid 0) false (s.rd (tid 0) (.x 1) + (0 : BitVec 16).signExtend 32).toNat 4 (0, 4092) ∧
    s.gAccLink (tid 0) (s.rd64 (tid 0) (.x 2) + (0 : BitVec 16).signExtend 64) 4 .r none
      = .ok { t := tid 0, loc := .mem 0x2000, va := 0x2000 } ∧
    s.gAcc (tid 0) (s.rd64 (tid 0) (.x 2) + ((0 : BitVec 13) ++ (0 : BitVec 3)).signExtend 64) 4 .r false
      = .ok { t := tid 0, loc := .mem 0x2000, va := 0x2000 } :=
  ⟨⟨by decide, by decide, by decide, rfl⟩, rfl, rfl⟩
/-- A QSPAD place of the block's own position in its quad group. -/
theorem test_witness_LoadsStart_qspad : let s := (one []).modBlock hd fun b => { b with qgid := some 0 }
    s.groupOk = true ∧ s.spadAt (tid 0) true 0 4 (0, 0) :=
  ⟨by decide, by decide, by decide, by decide, by decide, _, rfl, rfl⟩
/-- A core whose miss-status entries an ageing word has reserved. -/
theorem test_witness_LoadsStart_stays : let s := mach (blkOf [thr [], { (thr []) with aged := some 5 }]) { tlb := [flat] } []
    let s : State := { s with cur := { s.cur with tids := [tid 0] } }
    s.groupOk = true ∧ s.rejects [{ t := tid 0, loc := .mem 0x2000 }] = true := by decide
theorem test_witness_StoresStart : let s := one [(1, 4092), (2, 0x2000)]
    s.groupOk = true ∧ s.gAccLink (tid 0) (s.rd64 (tid 0) (.x 2) + (0 : BitVec 16).signExtend 64) 4 .w (some 5)
      = .ok { t := tid 0, loc := .mem 0x2000, va := 0x2000 } ∧
    s.gAcc (tid 0) (s.rd64 (tid 0) (.x 2) + ((0 : BitVec 13) ++ (0 : BitVec 3)).signExtend 64) 4 .w false
      = .ok { t := tid 0, loc := .mem 0x2000, va := 0x2000 } := ⟨by decide, rfl, rfl⟩

/-- The one operation of a state is found, nothing precedes it, and its threads exist. -/
def opOk (s : State) (o : Op) : Bool :=
  s.op? 7 == some o && s.firstAccess o && s.startable o && o.tids.all s.has && decide o.tids.Nodup && o.core == 0 && o.id == 7
/-- An access of the one thread. -/
def ac (l : Loc) : Acc := { t := tid 0, loc := l }

set_option maxRecDepth 20000 in
/-- The last bytes of the scratchpad; a memory place; a poisoned sector; an LDU; TAGR. -/
theorem test_witness_LoadsComplete :
    (∀ k ∈ [OpKind.load (ac (.spad 0 4092)) 4 (.x 5) none, .load (ac (.mem 0x2000)) 4 (.x 5) none,
        .loadU (ac (.mem 0x2000)) 4 (.x 5), .tagr (ac (.spad 0 0)) (.x 5)],
      let o := opr k [(tid 0, .ld)]
      opOk (one [] [o]) o = true ∧ o.stage = 0 ∧ o.cnts = o.tids.map fun u => (u, .ld)) ∧
    (one []).spadPoison 0 4092 4 = false ∧ isAperture 0x2000 = false ∧ 0x2000 % 4 = 0 ∧ bare (one []) = true ∧
    ((one []).readLoc 0 (.mem 0x2000) 4).2.1 = false ∧
    let s := (one []).modCore 0 fun k => { k with spoison := [63] }
    s.spadPoison 0 4092 4 = true ∧ (s.thread (tid 0)).status = .live ∧ (s.thread (tid 0)).trap = none := by decide
theorem test_witness_StoresPerformed :
    let accs := [{ ac (.spad 0 0) with data := 1 }, { ac (.spad 0 4092) with data := 2 }]
    let far := [{ ac (.mem 0x2000) with data := 1 }, { ac (.mem 0x2004) with data := 2 }]
    (∀ k ∈ [OpKind.store accs 4 none [], .store far 4 none [], .store accs 4 (some .core) [], .tags (tid 0) 0 3 1 true,
        .cmaint [128] .l1 .cln],
      let o := opr k [(tid 0, .st)]
      opOk (one [] [o]) o = true ∧ o.stage = 0 ∧ o.cnts = (o.tids.map fun u => (u, .st)) ∧ o.id < (one [] [o]).nextId ∧ o.prog < 1) ∧
    (∀ p ∈ (one [] [opr (.store far 4 none [])]).ops, p.kind.tagWords = none) ∧ (one []).memWf = true ∧ bare (one []) = true ∧
    (accs.Pairwise fun a b => a.loc.meets 4 b.loc 4 = false) ∧ (far.Pairwise fun a b => a.loc.meets 4 b.loc 4 = false) ∧
    (∀ j < 8, (one []).planeOff (0x2000 + j) = false ∧ (one []).atHome (0x2000 + j) = false) ∧ isAperture 0x2004 = false := by decide
theorem test_witness_TagWords : let s := one [(1, 0), (2, 1)]
    s.groupOk = true ∧ s.spadAt (tid 0) false 0 16 (0, 0) ∧
    s.tagAcc (tid 0) false (s.rd (tid 0) (.x 1)).toNat 128 = .ok { t := tid 0, loc := .spad 0 0, va := 0 } ∧
    s.tagAcc (tid 0) false (s.rd (tid 0) (.x 1)).toNat (4 * (s.rd (tid 0) (.x 2)).toNat)
      = .ok { t := tid 0, loc := .spad 0 0, va := 0 } :=
  ⟨by decide, ⟨by decide, by decide, by decide, rfl⟩, rfl, rfl⟩
/-- LDSF and STSE arrive and find their tags otherwise; wait, and find them as they wait for them; a limit of 99 clocks that has
passed. -/
theorem test_witness_TagWords_steps :
    let l := opr (.ldsf (ac (.spad 0 0)) 8 (.x 4) false) [(tid 0, .ld)]
    let w := opr (.stse (ac (.spad 0 0)) 8) [(tid 0, .st)]
    let at_ := fun (o : Op) (tags : List Nat) => (one [] [o]).modCore 0 fun k => { k with tags := tags }
    let e := { l with stage := 1, lim := 99 }
    (∀ o ∈ [l, w, e], opOk (at_ o []) o = true ∧ ∀ p ∈ (at_ o []).ops, p.kind.tagWords.isSome = true → p = o) ∧
    (at_ l []).opsBefore 7 = [] ∧ (at_ l []).tagsReady l.kind = false ∧ (at_ w [0]).tagsReady w.kind = false ∧
    (at_ w [0]).opsBefore 7 = [] ∧ (let r := { l with stage := 1 }; (at_ r [0, 1]).tagExpired r = false ∧
      (∀ i < 2, (at_ r [0, 1]).tag 0 (0 + i) = true) ∧ (at_ r [0, 1]).spadPoison 0 0 8 = false) ∧
    (let r := { w with stage := 1 }; (at_ r []).tagExpired r = false ∧ (∀ i < 2, (at_ r []).tag 0 (0 + i) = false) ∧
      (at_ r []).memWf = true) ∧
    e.lim ≠ 0 ∧ e.pageAt + e.lim < (at_ e []).now e.core ∧ isSvc e.core = false ∧ ((at_ e []).thread (tid 0)).pc = e.pc ∧
    ((at_ e []).block hd).faultq.length < 16 := by decide
/-- Done and not done. -/
theorem test_witness_HintsAndFences : two.groupOk = true ∧ two.cur.tids ≠ [] ∧
    (∀ t ∈ two.act p7, two.fencedDone t = true ∧ (two.thread t).fenceIds = none) ∧ two.act p7 ≠ [] ∧ bare two = true ∧ isSvc two.cur.core = false ∧
    let s := one [] [opr (.load (ac (.mem 0x2000)) 4 (.x 5) none)]
    s.groupOk = true ∧ ∀ t ∈ s.cur.tids, t ∈ s.act p7 ∧ s.fencedDone t = false := by decide
/-- CMAINT over a whole page up to its end. -/
theorem test_witness_HintsAndFences_cmaint : let s := one [(2, 0x2000), (4, 4096)]
    s.groupOk = true ∧ ∃ p, s.gRange true (tid 0) (s.rd64 (tid 0) (.x 2)) (s.rd (tid 0) (.x 4)).toNat .w = .ok p :=
  ⟨by decide, _, rfl⟩
theorem test_witness_MemoryEvents : let f : Fwd := { id := 3, bytes := [(0x2000, 1), (0x2001, 2)] }
    let s : State := { (one []) with dies := [(0, { fwd := [f] })] }
    (s.die 0).fwd = f :: [] ∧ (([] : List Fwd).all fun g => g.id != f.id) = true ∧ (f.bytes.map (·.1)).Nodup ∧
    (∀ c ∈ f.bytes, s.noPath 0 (secOf c.1 * 64) = false ∧ s.planeOff c.1 = false ∧ ∀ p ∈ s.cores, secOf c.1 ∉ p.2.owned) ∧
    bare s = true ∧ installed (0x80 * 64) = true ∧ (0x80 : Nat) < 2 ^ 47 := by decide

/-! ### Witnesses: atomics, barriers, semaphores -/

theorem test_witness_AtomicsStart : let s := one [(1, 4092), (2, 0x2000)]
    s.groupOk = true ∧ byLane (s.act p7) = [tid 0] ∧ s.gAcc (tid 0) (s.rd64 (tid 0) (.x 2)) 8 .rw true
      = .ok { t := tid 0, loc := .mem 0x2000, va := 0x2000 } ∧
    s.spadAt (tid 0) false (s.rd (tid 0) (.x 1)).toNat 4 (0, 4092) :=
  ⟨by decide, by decide, rfl, by decide, by decide, by decide, rfl⟩
theorem test_witness_AtomicValues : (4 = 4 ∨ 4 = 8) ∧ (8 = 4 ∨ 8 = 8) := by decide
/-- Lanes on two words; two lanes on one word. -/
theorem test_witness_AtomicsPerform :
    let a : Acc := { ac (.spad 0 0) with data := 1 }
    let b : Acc := { t := tid 1, loc := .spad 0 4, data := 2 }
    let c : Acc := { t := tid 1, loc := .spad 0 0, data := 2 }
    let mk := fun (l : List Acc) => { opr (.atom l 4 .add .rlx .core (.x 5)) [(tid 0, .ld), (tid 1, .ld)] with tids := [tid 0, tid 1] }
    let s := fun (l : List Acc) => ({ two with ops := [mk l] } : State)
    opOk (s [a, b]) (mk [a, b]) = true ∧ opOk (s [a, c]) (mk [a, c]) = true ∧ ([0, 1] : List Nat).Nodup ∧
    (∀ k < 2, (s [a, b]).spadPoison 0 (4 * k) 4 = false) ∧ (s [a, b]).memWf = true := by decide
theorem test_witness_ReductionsPerform :
    let k := fun r => OpKind.red [ac (.mem 0x2000)] 4 .add r
    let o := opr (k none) [(tid 0, .st)]
    let p := opr (k (some .pkg)) [(tid 0, .st)]
    let q := { p with stage := 1 }
    (∀ x ∈ [o, p, q], opOk (one [] [x]) x = true ∧ (one [] [x]).redMates x = [x] ∧ x.cnts = (x.tids.map fun u => (u, .st))) ∧
    (one [] [q]).acked q.core q.after = true := by decide
/-- No BARA of the barrier; one whose phase has opened; one whose phase has not. -/
theorem test_witness_BarriersStart : let b : BarId := ⟨.core, hd, 2⟩
    let s := one []
    let f := fun (res : List (Nat × Bool)) => (one []).modBlock hd fun k => { k with
      threads := [(0, { (thr []) with bara := [⟨b, 4⟩] })], bars := [(2, { phase := 5, results := res })] }
    s.groupOk = true ∧ (∀ t ∈ s.act p7, s.barOf t .core 2 = some b) ∧ s.act p7 = [tid 0] ∧ s.cur.tids = [tid 0] ∧
    (∀ t ∈ s.act p7, s.arriving t b = false ∧ (s.thread t).bara.find? (·.bar == b) = none) ∧
    ((f [(4, true)]).thread (tid 0)).bara.find? (·.bar == b) = some ⟨b, 4⟩ ∧ (f []).groupOk = true ∧
    (f []).arriving (tid 0) b = false ∧ ((f []).bar b).results.find? (·.1 == 4) = none ∧
    ((f [(4, true)]).bar b).results.find? (·.1 == 4) = some (4, true) := by decide
/-- An arrival that counts, one whose release is to be made, a phase that opens, a wave that is due. -/
theorem test_witness_BarriersRun : let b : BarId := ⟨.core, hd, 2⟩
    let a := opr (.barArr (tid 0) b 0 true (some 1))
    let r := opr (.barArr (tid 0) b 0 false (some 1))
    let w := opr (.barWait (tid 0) b 4 true 1)
    let s := one [] [a]
    let opens := (one []).modBlock hd fun k => { k with bars := [(2, { c0 := some 0, e := 1, part := [tid 0] })] }
    let waves := (one [] [w]).modBlock hd fun k => { k with
      bars := [(2, { phase := 5, waves := [7], waveAt := [(0, 50, 50)], results := [(4, true)] })] }
    s.has (tid 0) = true ∧ b.level = .core ∧ (s.blocks.find b.holder).isSome = true ∧ opOk s a = true ∧ a.clk + 1 ≤ s.now a.core ∧
    tid 0 ∉ (s.bar b).part ∧ s.opening b = none ∧ (s.bar b).c0 = none ∧ s.ops = [a] ∧ opOk (one [] [r]) r = true ∧ r.stage = 0 ∧
    (one [] [r]).earlierDone r.tids r.id = true ∧ opens.opening b = some true ∧ opOk waves w = true ∧ (waves.bar b).waves = [7] ∧
    (waves.bar b).waveAt = [(w.core, 50, 50)] ∧ 50 ≤ waves.now w.core ∧
    (waves.bar b).results.find? (·.1 == 4) = some (4, true) ∧
    (waves.grid (waves.block hd).grid).lrec.trapen.getLsbD 0 = false := by decide
/-- Counts 0 and 1,048,575; the head of a queue; SEMTRY; SEMREL in both stages. -/
theorem test_witness_Semaphores : let s := one [(1, 1048575)]
    s.groupOk = true ∧ (∀ t ∈ s.act p7, (s.rd t (.x 1) + (0 : BitVec 16).zeroExtend 32).toNat ≤ 1048575) ∧ s.cur.tids ≠ [] ∧
    s.act p7 ≠ [] ∧ (∀ t ∈ s.cur.tids, s.semBusy t = false) ∧
    let q := opr (.semacq (tid 0) 5 3 .core)
    let y := opr (.semtry (tid 0) 5 3 1 .core) [(tid 0, .ld)]
    let r := opr (.semrel (tid 0) 0 5 1048575 .core) [(tid 0, .st)]
    let r1 := { r with stage := 1 }
    let z := (one [] [q]).modCore 0 fun k => { k with sems := [(5, { count := 3, queue := [7] })] }
    opOk z q = true ∧ (z.sem 0 5).queue = 7 :: [] ∧ 3 ≤ (z.sem 0 5).count ∧ z.ownSemrel q 0 5 = false ∧
    (∀ o ∈ [y, r, r1], opOk (one [] [o]) o = true) ∧ (one [] [r1]).acked r1.core r1.after = true := by decide

/-! ### Witnesses: copies -/

/-- A state of one thread whose context holds channel 3. -/
def chan (x : Tab Word) : State :=
  let s := (one x).modBlock hd fun b => { b with cid := 7 }
  { s with pkg := { s.pkg with chcid := [(3, 7)] } }
/-- CPL of the last 16 bytes, CPT of two rows, CPFILL, PUT and POST of a channel, CPR of one line in phase 2. -/
theorem test_witness_CopiesStart :
    let l := one [(2, 0), (4, 4080), (6, 0x1400)]
    let t := one [(2, 0), (4, 64), (6, 8), (7, 8), (8, 0x00020008), (9, 0x1400)]
    let f := one [(2, 4080), (4, 16), (5, 0xFFFFFFFF), (6, 0x1000)]
    let p := chan [(2, 4092), (4, 4), (5, 3), (6, 0x400), (7, 0x800)]
    let q := chan [(2, 4092), (4, 4), (5, 3), (6, 0x1000)]
    let c := one [(2, 0x2000), (4, 256), (5, 0x1040)]
    let age := fun (s : State) => { s.modBlock hd fun b => { b with threads := b.threads ++ [(1, { (thr []) with aged := some 5 })] } with
      cur := s.cur }
    let lr := age (one [(2, 0), (4, 0x2000), (6, 0x1000)])
    let tr := age (one [(2, 0x2000), (9, 0x1000)])
    (∀ s ∈ [l, t, f, p, q, c], s.groupOk = true ∧ s.act p7 = [tid 0] ∧ s.produced p7 [] = true ∧ s.cur.tids ≠ [] ∧
      lowLane (s.act p7) hd = some (tid 0)) ∧
    (l.cplCheck (.x 2) (.x 6) .e16 (tid 0)).isOk = true ∧ (t.cptCheck (.x 2) (.x 4) .e8 (tid 0)).isOk = true ∧
    (f.cpfillCheck (.x 2) (.x 6) .e4 (tid 0)).isOk = true ∧ (p.putCheck (.x 2) (.x 6) (tid 0)).isOk = true ∧
    (q.postCheck (.x 2) (.x 6) (tid 0)).isOk = true ∧
    (c.cprRead (.x 2) (.x 4) (tid 0)).isOk = true ∧ l.rejects (l.cplAccs (.x 2) (.x 6) .e16 (l.act p7)).1 = false ∧
    t.rejects (t.cptAccs (.x 2) (.x 4) (t.act p7)) = false ∧ lr.groupOk = true ∧ tr.groupOk = true ∧
    lr.rejects (lr.cplAccs (.x 2) (.x 6) .e16 (lr.act p7)).1 = true ∧
    tr.rejects (tr.cptAccs (.x 2) (.x 4) (tr.act p7)) = true := by decide
/-- The last 16 bytes of the window, both fields faulting in turn. -/
theorem test_witness_CopyOperands :
    let s := one [(2, 4080), (4, 0), (6, 0x1400), (7, 0x1000), (8, 16), (9, 1), (10, 0x10000)]
    s.rd (tid 0) (.x 6) = 0x1400 ∧ s.rd (tid 0) (.x 7) = 0x1000 ∧ isSvc (s.block hd).core = false ∧
    (s.rd (tid 0) (.x 2)).toNat % 16 = 0 ∧ (s.rd (tid 0) (.x 2)).toNat + 16 ≤ (s.block hd).spadSize ∧
    (s.rd (tid 0) (Reg.plus (.x 2) 2)).toNat = 0 ∧ (s.rd (tid 0) (Reg.plus (.x 6) 2)).toNat = 16 ∧
    (s.rd (tid 0) (.x 9)).toNat % 4 ≠ 0 ∧ (s.rd (tid 0) (.x 10)).toNat / 2 ^ 16 ≠ 0 := by decide
/-- A ring of one stage of 4096 bytes at 0, and a ring with no, one, and two of two stages open. -/
theorem test_witness_StagingRings :
    let r := fun (h t : Nat) (s : State) => s.modBlock hd fun b => { b with
      ring := some { base := 0, size := 1, mn := 1, mx := 2, d := 1, head := h, tail := t } }
    let s := one []
    s.groupOk = true ∧ lowLane (s.act p7) hd = some (tid 0) ∧ (s.rd (tid 0) (.x 2)).toNat % 256 = 0 ∧
    (s.rd (tid 0) (.x 2)).toNat + 1 * 16 * 256 ≤ (s.block hd).spadSize ∧ s.cur.tids ≠ [] ∧ s.act p7 = s.cur.tids ∧
    (∀ p ∈ [(0, 0), (1, 0), (0, 2 ^ 32 - 1), (2, 0)], ((r p.1 p.2 s).block hd).ring.isSome = true) ∧
    (((r 0 (2 ^ 32 - 1) s).block hd).ring.any fun q => (q.head + 2 ^ 32 - q.tail) % 2 ^ 32 == 1) = true := by decide
/-- One operation for each clause of the copy engine. -/
theorem test_witness_CopyEngine :
    let g : Seg := { dsp := 1, dst := 4080, ssp := 1, src := 0, len := 16 }
    let f : Seg := { dsp := 1, dst := 0, ssp := 1, src := 4080, len := 16, pat := some (2 ^ 32 - 1) }
    let mk := fun (k : OpKind) => opr k [(tid 0, .cp)]
    let ok := fun (o : Op) => (opOk (one [] [o]) o && o.tids != [] && o.cnts == o.tids.map (fun u => (u, Cnt.cp))) = true
    ok { mk (.copy [g] 0x1400 16) with started := true } ∧ ok { mk (.copy [f] 0x1400 4) with started := true } ∧
    ok (mk (.copy [g] 0x1400 16)) ∧ ok (mk (.put 1 4092 4 0 1 3 0x400 0)) ∧
    ok { mk (.put 1 4092 4 0 1 3 0x400 0) with stage := 3 } ∧ ok { mk (.put 1 4092 4 0 1 3 0x400 0) with stage := 3 } ∧
    ok (mk (.post { chan := 3, blk := hd, dsp := 1, dst := 0, size := 4, ctl := 0x1000 })) ∧
    (let r : CprReq := { va := 0x2000, nl := 1, src := 0, phase := 2, sem := none }
     let w := { r with pas := [0x2000], slots := [100] }
     let o := { mk (.cpr r) with stage := cprOpen }
     ok o ∧ o.clk + 2 ≤ (one [] [o]).now 0 ∧ ((one [] [o]).cprDecide [] o r).isOk = true ∧ ok (mk (.cpr w)) ∧
     w.pas[0]? = some 0x2000 ∧ w.slots[0]? = some ((one [] [mk (.cpr w)]).now 0) ∧
     ok { mk (.cpr w) with prog := 1, pageAt := 96 } ∧ w.nl ≤ 1) ∧
    ok { mk (.copy [g] 0x1400 16) with stage := 1, pageAt := 60, lim := 40 } ∧
    (let o := opr .join; opOk (one [] [o]) o = true ∧ o.cnts = [] ∧ o.clk + 2 ≤ (one [] [o]).now o.core) ∧
    (one []).memWf = true ∧ 96 + 4 ≤ (one []).now 0 ∧ 60 + 40 ≤ (one []).now 0 ∧ ((one []).block hd).ring = none ∧
    ((one []).block hd).faultq.length < 16 ∧ ((one []).grids.find ((one []).block hd).grid).isSome = true ∧
    (g.src + g.len ≤ g.dst) ∧ (f.dst + f.len ≤ f.src) ∧ g.dst + g.len ≤ ((one []).block hd).spadSize ∧
    (∀ q ∈ (one [] [mk (.copy [g] 0x1400 16)]).ops, q.kind ≠ .group) := by decide
/-- A posting of exactly the length, one of a shorter length, none. -/
theorem test_witness_InboundTransfers :
    let p : Posting := { chan := 4095, blk := hd, dsp := 1, dst := 4088, size := 8, ctl := 0x1000 }
    let s : State := { one [] with fabric := { posts := [p] } }
    s.inboundOp 0 1 4095 0 = none ∧ s.fw.pkgSusp = false ∧ s.fw.sysSusp = false ∧ s.capturing = false ∧ s.replaying = false ∧
    s.memWf = true ∧ s.fabric.posts.find? (·.chan == 4095) = some p ∧ (s.blocks.find p.blk) = some (s.block hd) ∧ p.ctl.toNat / 2 ^ 14 % 4 = 0 ∧
    p.dst + p.size ≤ (s.block hd).spadSize ∧ (List.replicate 8 (0 : Byte)).length % 4 = 0 ∧
    p.size < (List.replicate 12 (0 : Byte)).length ∧ (one []).fabric.posts.find? (·.chan == 4095) = none := by decide

/-! ### Witnesses: matrix and accumulation -/

/-- A block with a command block at 0, B at 256, D at 0x2000, and a register of its row. -/
def matrix (fb : Word) : State :=
  ((one []).modBlock hd fun b => { b with
    spadSize := 32768, g := [(0, 0), (1, 256), (2, 0x2000), (3, 0)], fs := [1, fb], cvs := [(5, { members := 1 })] }).modCore 0
    fun k => { k with spad := [(2, 0x80), (4, 0x80)] }
theorem test_witness_MatrixSigns : ∀ sparse : Bool,
    let s := matrix (if sparse then 0x41 else 1)
    let z := s.useFree
    s.groupOk = true ∧ s.cur.tids ≠ [] ∧ s.act p7 = z.act p7 ∧ z.act p7 = [tid 0] ∧
    (∀ t ∈ z.act p7, (s.block t.blk).cvpend = [] ∧ (s.cv t.blk 5).op = .none ∧ (s.cv t.blk 5).signed = [] ∧
      s.signWaits t 5 = false ∧ z.windowQuiet t = true ∧
      z.signFault t (.x 8) 5 0 (fun _ => false) ⟨1, 1, 1, 1⟩ sparse false = none) ∧
    s.ops = [] ∧ (s.blocks.flatMap fun p => p.2.threads.filter fun t => t.2.tabAt.isSome) = [] ∧
    (blksOf (z.act p7)).length ≤ 16 := by decide
/-- A thread with a store to its window in flight. -/
theorem test_witness_MatrixSigns_waits :
    let s := one [] [opr (.store [ac (.spad 0 0)] 4 none [])]
    s.groupOk = true ∧ ∀ t ∈ s.useFree.cur.tids, t ∈ s.useFree.act p7 ∧ s.useFree.windowQuiet t = false := by decide
theorem test_witness_MatrixQueries :
    let r : MRec := { seq := 1, blk := hd, blkid := 0, code := 3, cv := 5, cmd := 0, detail := 9 }
    let s : State := { one [] with quads := [(0, { mfq := [r] })] }
    s.groupOk = true ∧ s.act p7 = [tid 0] ∧ (s.quads.flatMap fun q => q.2.mfq.filter (·.blk == hd)) = [r] ∧
    ((one []).quads.flatMap fun q => q.2.mfq.filter (·.blk == hd)) = [] ∧ (s.block hd).mrel = [] ∧ (s.inTable 0).length ≤ 16 := by decide
/-- A request at its entry, at a grant, at its first and behind its last line, and a failed one. -/
theorem test_witness_MatrixEngine :
    let r : MReq := { cv := 5, sparse := false, ru := false, desc := [0, 256, 0x2000, 0], cmd := [0x00800000, 128], fs := [1, 1]
                      rowIds := [0], ready := 100, full := some 4 }
    let mk := fun (r : MReq) => opr (.mtx r) [(tid 0, .mt)]
    let st := (matrix 1).modBlock hd fun b => { b with cvs := [(5, { members := 1, signed := [0], op := .mtx 0 7 })] }
    let at_ := fun (r : MReq) => ({ st with ops := [mk r] } : State)
    let e := { r with entered := true }
    let w := { e with passes := 1, pas := [0x2000] }
    let l := { w with lines := 64 }
    let f := { e with passes := 1, fail := some (4, 0) }
    (∀ x ∈ [r, e, w, l, f], (at_ x).op? 7 = some (mk x) ∧ (at_ x).has (tid 0) = true ∧ x.kch = 1 ∧ x.nl = 64) ∧
    r.ready ≤ (at_ r).now 0 ∧ r.tokOp ≠ some 7 ∧ ((at_ r).block hd).core = 0 ∧
    ((at_ r).inTable 0).length + ((at_ r).ops.filter fun p => match p.kind with
      | .mtx e => p.core / 4 == 0 && !e.entered && e.full.any fun f => decide (f < 4)
      | _ => false).length + ((at_ r).blocks.flatMap fun p => p.2.threads.filter fun t => t.2.tabAt.any fun f =>
      decide (f < 4)).length < 16 ∧
    (at_ e).startable (mk e) = true ∧ (mk e).clk + 1 ≤ (at_ e).now 0 ∧
    ((at_ e).quad 0).arrayAt.2 ≤ (at_ e).now ((at_ e).quad 0).arrayAt.1 ∧
    (at_ e).throttled 0 = false ∧ (∀ p ∈ (at_ e).inTable 0, p.id = 7) ∧
    w.pas[w.lines]? = some 0x2000 ∧ ((w.slots w.t0)[w.lines]?.map (·.2)) = some 0 ∧
    (∀ k ∈ (l.slots l.t0).map (·.2), k + 4 ≤ (at_ l).now 0) ∧ 4 ≤ (at_ l).now 0 ∧
    (at_ f).blockLive hd = true ∧ ((at_ f).quad 0).mfq.length < 16 ∧
    ((at_ f).grid ((at_ f).block hd).grid).lrec.trapen.getLsbD 2 = false := by decide
/-- Operands of each word; two lines. -/
theorem test_witness_AccumulationStarts :
    let s := one [(2, 0x2000), (4, 1), (5, 0x80000001), (6, 0), (8, 0x08000001), (9, 256)]
    s.groupOk = true ∧ s.produced p7 [] = true ∧ s.act p7 = [tid 0] ∧ lowLane (s.act p7) hd = some (tid 0) ∧
    (s.accaddCheck (.x 2) (.x 1) (tid 0)).isOk = true ∧ (s.acczCheck (.x 2) (.x 5) (tid 0)).isOk = true ∧
    (s.accoutCheck (.x 2) (.x 6) (tid 0)).isOk = true ∧
    (s.accRange (tid 0) (.x 2) (.x 4) false fun va pas => .accset va pas .pkg).isOk = true ∧
    (s.accRange (tid 0) (.x 2) (.x 4) false fun _ pas => .accfl pas).isOk = true ∧
    (s.accRange (tid 0) (.x 2) (.x 4) true fun _ pas => .accpoi pas).isOk = true ∧
    (s.accElem (tid 0) (s.rd64 (tid 0) (.x 2)) .r).isOk = true := by decide
/-- The last word of a FAST line, with and without a reservation; a line not established; a line to clear and to zero. -/
theorem test_witness_AccumulationLines :
    let one := fun (x : Tab Word) (ops : List Op) => (one x ops).modCore 0 fun k => { k with clk := 102 }
    let l : AccLine := { exact := false, e := 0, vals := List.replicate 64 0, estab := 1 }
    let a := opr (.accadd (ac (.mem 0x20FC)) 0x3F800000) [(tid 0, .mt)]
    let z := opr (.accz [0x2000] true 5) [(tid 0, .mt)]
    let p := opr (.accpoi [0x2000]) [(tid 0, .mt)]
    let r := opr (.accrd (ac (.mem 0x20FC)) .f32 (.x 5)) [(tid 0, .ld)]
    let on := fun (o : Op) => (let s := one [] [o]; { s with mem := { s.mem with lines := [(0x20, l)] } } : State)
    let res := fun (o : Op) => (on o).modBlock hd fun b => { b with accLines := 1 }
    (∀ o ∈ [a, z, p], opOk (on o) o = true ∧ o.cnts = o.tids.map (fun u => (u, Cnt.mt))) ∧ opOk (res a) a = true ∧
    (∀ p ∈ (on a).opsBefore 7, p.id = 0) ∧ (on a).mem.lines.find 0x20 = some l ∧ l.estab ≠ 0 ∧ (on a).accCopy 0 0x20 = none ∧
    ((on a).block hd).accLines = 0 ∧ ((res a).accHeld 0 hd).length < ((res a).block hd).accLines ∧
    opOk (one [] [r]) r = true ∧ (one [] [r]).mem.lines.find 0x20 = none ∧ (one [] [r]).accCopy 0 0x20 = none ∧
    (∀ i < 4, (one [] [r]).homePoison (0x20 * 4 + i) = false) ∧ bare (on a) = true ∧ (on a).cut 0 0x2000 = false ∧
    2 ≤ (on a).now 0 % 4 ∧ (∀ p ∈ (on a).ops, p = a) ∧ l.cap = [] := by decide
theorem test_witness_AccumulationLines_planes (pa : Nat) (o : Op) : (one [] [o]).planeOff pa = false := Bool.and_false _
/-- A copy to write back before an ACCADD opens another line of a reservation of one. -/
theorem test_witness_AccumulationLines_evict :
    let k : AccCopy := { settled := false, exact := false, e := 0, estab := 1, vals := List.replicate 64 0, touched := [], blk := hd, age := 3 }
    let a := opr (.accadd (ac (.mem 0x2100)) 0x3F800000) [(tid 0, .mt)]
    let s := ((one [] [a]).modBlock hd fun b => { b with accLines := 1 }).modCore 0 fun c => { c with acc := [(0x20, k)] }
    opOk s a = true ∧ s.accCopy 0 0x20 = some k ∧ (s.block k.blk).accLines ≤ (s.accHeld 0 k.blk).length ∧
    (∀ p ∈ s.accHeld 0 k.blk, k.age ≤ p.2.age) ∧ a.nextLine = some 0x21 ∧ s.accCopy 0 0x21 = none ∧ bare s = true := by decide

/-! ### Witnesses: handover and power -/

/-- A range of one page at 0x10000 with its flag at 0x20000, value 1. -/
def rd6 : List Word := [0x10000, 0, 1, 1, 0x20000, 0]
theorem test_witness_HandoverStarts :
    let s := one [(2, 0x10000), (3, 0), (4, 1), (5, 1), (6, 0x20000), (7, 0), (8, 0x10000), (9, 0), (10, 65535)]
    let z : State := { s with dies := [(0, { partT := true })] }
    s.groupOk = true ∧ s.produced p7 [] = true ∧ lowLane (s.act p7) hd = some (tid 0) ∧ s.act p7 = [tid 0] ∧
    (s.ptakeCheck (.x 2) (.x 6) false (tid 0)).isOk = true ∧ (s.pzeroCheck (.x 2) (.x 4) .p (tid 0)).isOk = true ∧
    ((List.range 8).filter fun x => (z.die x).partT).length = 1 := by decide
theorem test_witness_HandoverStarts_own : let s := one [(2, 0x10000)]
    s.gAcc (tid 0) (s.rd64 (tid 0) (.x 2)) 1 .r false = .ok { t := tid 0, loc := .mem 0x10000, va := s.rd64 (tid 0) (.x 2) } := rfl
/-- A PGIVE in its three stages; a PTAKE whose flag has reached its value, and one whose flag has not. -/
theorem test_witness_HandoverRuns :
    let on := fun (part : Nat) (o : Op) => (let s := (one [] [o]).modBlock hd fun b => { b with part := part }
      { s with mem := { s.mem with owner := [(1, .p), (2, .p)], dev := [(0x20000, 1)] } } : State)
    let g := opr (.pgive rd6 (tid 0) false false) [(tid 0, .st)]
    let k := fun (v : Word) (back : Bool) => opr (.ptake [0x10000, 0, 1, v, 0x20000, 0] (tid 0) [0x10000] 0x20000 back)
    let q := opr (.pqry (tid 0) 0x10000 (.x 5)) [(tid 0, .ld)]
    let z := opr (.pzero [1] .t) [(tid 0, .st)]
    (∀ o ∈ [g, { g with stage := 1 }, { g with stage := 2, done := [1], lim := 1 }, { g with stage := 3, prog := 0x20000 }, k 1 true, k 2 true, q, z],
      opOk (on 0 o) o = true ∧ o.id < (on 0 o).nextId ∧ o.tids = [tid 0] ∧ (∀ p ∈ (on 0 o).ops, p.kind ≠ .group)) ∧
    ((on 0 g).pgiveCheck rd6 (tid 0) false false).isOk = true ∧ (on 0 g).acked 0 [] = true ∧
    (on 0 g).lineAt 0x20000 = none ∧ (∀ j < 4, (on 0 g).planeOff (0x20000 + j) = false) ∧
    (∀ j < 4, (on 0 g).cut 0 (0x20000 + j) = false) ∧ bare (on 0 g) = true ∧ 0x20000 % 4 = 0 ∧
    (∀ q ∈ (on 0 { g with stage := 1 }).ops, q.id = 7) ∧ ((on 0 g).die 0).fwd = [] ∧ ((on 0 g).core 0).l1 = [] ∧
    (on 0 z).cut 0 0x10000 = false ∧
    (∀ c ∈ (on 0 g).cores, secOf 0x20000 ∉ c.2.owned) ∧ (1 : Nat) ≤ (on 0 g).homeRead 0x20000 4 ∧
    (on 0 g).homeRead 0x20000 4 < 2 ∧ ((on 0 g).block hd).part = 0 ∧ (on 0 g).ownerOf 0x10000 = .p ∧
    (on 0 z).planeOff 0x10000 = false := by decide
theorem test_witness_PowerWords : two.groupOk = true ∧ isSvc two.cur.core = false ∧ (byLane (two.act p7)).head? = some (tid 0) ∧
    (two.quad 0).dev = [(0 : BitVec 8).toInt, (0 : BitVec 8).toInt, (0 : BitVec 8).toInt, (0 : BitVec 8).toInt] ∧
    svcOne.groupOk = true ∧ isSvc svcOne.cur.core = true := by decide
/-- Normal quads, one at a deviation of 19 and one above; both steps; an excursion under way; its end; expiries that are due. -/
theorem test_witness_StringMonitor :
    let dev := fun (i : Int) (sum : Int) => if sum = 0 then 0 else max (-127) (min 127 (((4 * i - sum) * 128).tdiv sum))
    let q : Quad := {}
    (79 < 80 ∧ q.step = 0 ∧ q.hist = [] ∧ q.mstate = .normal ∧ q.hold + 1 < 256 * max 1 q.holdCfg) ∧
    ([dev 110 400, dev 90 400, dev 100 400, dev 100 400].all fun x => decide (x.natAbs ≤ max 1 (min 127 q.thrCfg) ∧ x.natAbs ≤ 19)) = true ∧
    ([dev 400 400, dev 0 400, dev 0 400, dev 0 400].any fun x => decide (19 < x.natAbs)) = true ∧
    (let qs : Tab Quad := [(0, { step := 1, mstate := .filler, thr := 7, dev := [19, -19, 0, 0] }),
       (1, { step := 2, thr := 1, mstate := .throttle, dev := [13, -13, 0, 0] }),
       (2, { mstate := .gap, gapSave := some (.normal, 0) })]
     let m : State := { quads := qs, cores := [(319, { clk := 100, grace := some 0, fill := some (.v, 100) })] }
     (m.quad 0).step = 1 ∧ (∀ x ∈ (m.quad 0).dev, x.natAbs ≤ 19) ∧ (m.quad 1).step = 2 ∧ (m.quad 1).thr ≤ 1 ∧
     (∀ x ∈ (m.quad 1).dev, x.natAbs ≤ max 1 (min 127 (m.quad 1).thrCfg)) ∧ (m.quad 1).dev.length = 4 ∧
     (m.quad 2).gapSave = some (.normal, 0) ∧ 319 < 320 ∧ (m.core 319).grace = some 0 ∧ 0 ≤ (m.quad 79).mclk ∧
     (m.core 319).fill = some (.v, 100) ∧ 100 ≤ m.now 319 ∧ (m.core 319).gap = false) ∧ 333 < 334 ∧ 512 ≤ 512 := by decide

/-! ### Witnesses: graphics -/

/-- A graphics grid of one producer, its channels 0 and 7 and regions 0 and 15 defined, the block in its quad group 0. -/
def gfx (x : Tab Word) (ops : List Op := []) (ch : Chan := {}) (r : Region := {}) : State :=
  let s := (one x ops).modBlock hd fun b => { b with qgid := some 0 }
  { s with grids := [(5, {
      lrec := { gfx := true }
      binds := 1 :: 0x80000001 :: List.replicate 6 0 ++ [0x80004001, 0x80000000] ++ List.replicate 14 0 ++ [0x80000000]
      qgroups := [(0, { chans := [(0, ch), (7, ch)] })]
      fences := [(0, { gen := 1 })]
      regions := [(0, r)] })] }
theorem test_witness_GraphicsStarts :
    let s := gfx [(2, 0), (3, 0x80010010), (4, 0), (6, 0x2000), (7, 0), (8, 0x00010001), (9, 0), (10, 64), (11, 0x2000), (12, 0),
      (14, 0), (15, 4), (16, 0), (17, 0x0101)]
    s.groupOk = true ∧ s.produced p7 [] = true ∧ lowLane (s.act p7) hd = some (tid 0) ∧ s.act p7 = [tid 0] ∧
    (s.sampleCheck (.x 24) (.x 6) (tid 0)).isOk = true ∧ (s.omrgCheck (.x 24) (.x 14) (tid 0)).isOk = true ∧
    (s.ttaskCheck (.x 6) (.x 20) (tid 0)).isOk = true ∧ (s.ordtCheck (.x 2) (.x 4) true (tid 0)).isOk = true ∧
    s.rejects (s.sampleAccs (.x 24) (.x 6) (s.act p7)) = false ∧
    (let r := s.modBlock hd fun b => { b with threads := b.threads ++ [(1, { (thr []) with aged := some 5 })] }
     r.groupOk = true ∧ r.produced p7 [] = true ∧ r.rejects (r.sampleAccs (.x 24) (.x 6) (r.act p7)) = true) ∧
    s.winFault (tid 0) false 0 false = none ∧ s.winFault (tid 0) true 0 false = none ∧ s.winFault (tid 0) true 7 false = none ∧
    (s.tfenceCheck (byLane (s.act p7)) (.x 10) (.x 20) (tid 0)).isOk = true := by decide
/-- WINREL of a side that is held. -/
theorem test_witness_GraphicsStarts_winrel :
    let s := gfx [] [] { pheld := true, cheld := true }
    s.groupOk = true ∧ s.cur.tids ≠ [] ∧ (∀ t ∈ s.act p7, s.winFault t false 0 true = none ∧ s.winFault t true 7 true = none ∧
      s.fencedDone t = true) ∧ blksOf (s.act p7) = [hd] ∧ (s.grids.find (s.block hd).grid).isSome = true := by decide
set_option maxRecDepth 20000 in
/-- One operation for each clause. -/
theorem test_witness_GraphicsRuns :
    let f := gfx [] []
    let w := fun cons => opr (.winacq (.x 5) cons 0)
    let tf := fun ex => opr (.tfence (tid 0) 0 1 ex (.x 5))
    let od := opr (.ordt 0 16 0x8001 7 true [] []) [(tid 0, .cp)]
    let ra := opr (.rast (.x 187) [tid 0] (List.replicate 10 0) [0, 0x00100010] .none) [(tid 0, .ld)]
    let sa := opr (.sample (tid 0) (.x 4) 0 [(0x2000, 0x2000, 65536)]) [(tid 0, .ld)]
    let om := fun (x : Word) => opr (.omrg (tid 0) [x, 0, 0, 0, 0, 0, 0, 0] [0, 4, 0, 0x0101]) [(tid 0, .st)]
    let tr := opr (.trav (tid 0) (.x 2) (List.replicate 16 0) (List.replicate 8 0))
    (∀ o ∈ [w false, tf true, tf false, od, { od with stage := 1 }, ra, sa, om 0, om 1, tr],
      opOk (gfx [] [o]) o = true ∧ (gfx [] [o]).blocks.find o.blk = some (f.block hd) ∧ (∀ q ∈ (gfx [] [o]).ops, q.kind ≠ .group)) ∧
    (f.grids.find (f.block hd).grid).isSome = true ∧ (f.chanOf 5 0 0).full false = false ∧
    opOk (gfx [] [w true] { full0 := true }) (w true) = true ∧ ((gfx [] [w true] { full0 := true }).chanOf 5 0 0).full false = true ∧
    ((f.grid 5).fences.getD 0 {}).gen = 1 ∧ ((f.grid 5).fences.getD 0 {}).task = none ∧
    rastTri (List.replicate 10 0) [0, 0x00100010] .none = none ∧ (f.readLoc 0 (.mem 0x2000) 4).2.1 = false ∧
    (f.grid 5).defRegions = [0, 15] ∧ (gfx [] [od]).earlierOrdt od = false ∧ ¬ ((1 : Nat) < 0 + 1) ∧ depthPass 0 0 0 = false := by decide
theorem test_witness_IngressEvents :
    let p : Packet := { prod := 0, seq := 7, fin := true, data := List.replicate 16 1 }
    let d := gfx [] [] {} { pend := [p], fins := [0] }
    let p2 : Packet := { p with prod := 1, seq := 9 }
    let i := gfx [] [] {} { pend := [p2], buf := List.replicate 16 0, cnt := 1 }
    let i : State := i.modCore 0 fun k => { k with clk := 256 }
    (d.regOwner 5 0) = some (hd, d.block hd) ∧ (d.grids.find 5).isSome = true ∧ ((d.grid 5).regWord 0).getLsbD 31 = true ∧
    (d.chanOf 5 0 7).full (d.chanOf 5 0 7).pidx = false ∧ ((d.grid 5).regions.getD 0 {}).last = false ∧
    ((d.grid 5).regions.getD 0 {}).next (d.grid 5).nprod = some p ∧
    32 + 0 + p.data.length ≤ 256 * (((d.grid 5).chan 7).toNat % 2 ^ 14) ∧
    (i.regOwner 5 0) = some (hd, i.block hd) ∧ ((i.grid 5).regions.getD 0 {}).cnt ≠ 0 ∧
    ((i.grid 5).regions.getD 0 {}).next (i.grid 5).nprod = none ∧ ((i.grid 5).regions.getD 0 {}).at_ + 256 ≤ i.now 0 ∧
    ((i.grid 5).regions.getD 0 {}).pend ≠ [] ∧ i.memWf = true ∧ ((i.grid 5).regions.getD 0 {}).buf.length % 16 = 0 := by decide

/-! ### Witnesses: special registers and system words -/

/-- The header of a word that no thread executes. -/
def never : Hdr := ⟨0, 0, false⟩
theorem test_witness_SpecialRegisters :
    let s := one [(2, 0xFFFFFFFF)]
    let b := fun (i : Nat) => { s.block hd with spw := [(i, 0xFFFFFFFF, 102)] }
    let k : Core := { clk := 100, mbPend := [(15, 7, 100)] }
    s.groupOk = true ∧ lowLane (s.act p7) hd = some (tid 0) ∧ s.capturing = false ∧ (∀ i < 3, (b i).spw = [(i, 0xFFFFFFFF, 102)]) ∧
    k.mbPend = [(15, 7, k.clk)] ∧ s.act never = [] ∧ (byLane (s.act p7)).head? = some (tid 0) ∧ (s.thread (tid 0)).tkSnap = [] ∧
    (s.release 0 .sys).relWaits 0 .sys = [] ∧ (s.csrWrite 0 .strcfg 5).isSome = true ∧ (s.csrWrite 0 .gridnext 0).isNone = true ∧
    s.outdated 0 = false := by decide
theorem test_witness_SpecialRegisters_values :
    (0xFFFFFFFF00 : DWord).toNat % 256 = 0 ∧ (1 : DWord).toNat % 256 ≠ 0 ∧ (0x1000 : DWord).toNat % 4096 = 0 ∧
    (0x800 : DWord).toNat % 4096 ≠ 0 ∧ (4095 : DWord).toNat % 2 ^ 32 ≤ 4095 ∧ ¬ (4096 : DWord).toNat % 2 ^ 32 ≤ 4095 ∧
    (65535 : DWord).toNat % 2 ^ 32 ≤ 65535 ∧ ¬ (65536 : DWord).toNat % 2 ^ 32 ≤ 65535 ∧
    (0x100000000 : DWord).toNat % 2 ^ 32 = 0 ∧ (0x80000000 : DWord).getLsbD 31 = true ∧
    ¬ ((0x7FFFFFFF : DWord).toNat % 2 ^ 32 = 0 ∨ (0x7FFFFFFF : DWord).getLsbD 31 = true) := by decide
theorem test_witness_SystemWords :
    let v := fun (f : Svc → Svc) (l : Level) => (svcOne.modSvc 0 f).modThread ⟨0, 0⟩ fun th => { th with level := l }
    two.groupOk = true ∧ isSvc two.cur.core = false ∧ (∀ t ∈ two.act p7, (two.thread t).pc = two.cur.pc) ∧ two.act p7 ≠ [] ∧
    (∀ b ∈ blksOf (two.act p7), (two.block b).faultq.length + ((two.act p7).filter (·.blk == b)).length ≤ 16) ∧
    hd ∈ blksOf (two.act p7) ∧ two.act never = [] ∧ svcOne.groupOk = true ∧ isSvc svcOne.cur.core = true ∧
    svcOne.act p7 = [Tid.mk (svcHandle (svcOne.cur.core - 320)) 0] ∧
    (svcOne.thread ⟨0, 0⟩).level ≠ .fw ∧ (svcOne.svc 0).sstat.getLsbD 0 = true ∧ (svcOne.svc 0).stvec ≠ 0 ∧
    ((svcOne.svc 0).sstat.extractLsb' 2 2).toNat ≤ (svcOne.thread ⟨0, 0⟩).level.num ∧
    ((v (fun k => { k with fstat := 0x34 }) .fw).thread ⟨0, 0⟩).level = .fw ∧
    ((v (fun k => { k with fstat := 0x34 }) .fw).svc 0).fstat.getLsbD 0 = false ∧
    (((v (fun k => { k with fstat := 0x34 }) .fw).svc 0).fstat.extractLsb' 2 2).toNat ≤ Level.fw.num ∧
    ((v (fun k => { k with sstat := 4 }) .user).svc 0).sstat.getLsbD 0 = false ∧
    (∀ t ∈ two.act p7, (two.thread t).tkSnap = []) ∧ (two.release 0 .pkg).relWaits 0 .pkg = [] ∧
    (∀ o ∈ two.ops, o.kind.placed = false) ∧ two.capturing = false ∧
    let c : State := { two with pkg := { two.pkg with capctl := 0x80000000, capsize := 1 } }
    blksOf (c.act p7) = [hd] ∧ lowLane (c.act p7) hd = some (tid 0) ∧ c.capturing = true ∧ c.replaying = false ∧
    c.pkg.capctl.getLsbD 29 = false ∧ c.pkg.capctl.toNat % 2 ^ 29 + 1 ≤ 256 * c.pkg.capsize.toNat := by decide

/-! ### Witnesses: launches, contexts, issue, blocks -/

/-- Page tables at 0x200000 and 0x300000 that map the first GiB of context 0 to itself, and a record of one block at 0x2000. -/
def paged : List Host.Cell :=
  [(0x2008, 1), (0x2019, 8), (0x100000, 0x01), (0x100002, 0x20), (0x200000, 0x01), (0x200002, 0x30), (0x300000, 0x3F)]
/-- A state with those tables, queue 0 of four records, and one thread at supervisor level. -/
def launchable (x : Tab Word) (ops : List Op) (ctl : Word) (recs : List (Nat × Bool)) : State :=
  let s := (one x ops).modBlock hd fun b => { b with threads := b.threads.map fun p => (p.1, { p.2 with level := .sup }) }
  { s with mem := { s.mem with dev := paged }, pkg := { s.pkg with ctxtab := 0x100000, queues := [(0, { ctl := ctl, recs := recs })] } }
theorem test_witness_LaunchAndContext_starts :
    let s := launchable [(2, 0x2000), (4, 15)] [] 0x90000004 []
    s.groupOk = true ∧ s.produced p7 [] = true ∧ lowLane (s.act p7) hd = some (tid 0) ∧
    (s.launchCheck (.x 2) (.x 4) (tid 0)).isOk = true ∧ (byLane (s.act p7)).head? = some (tid 0) ∧
    (s.rd64 (tid 0) (.x 2)).toNat % 4096 = 0 := by decide
/-- A launch in both stages, into an off, a full and a free queue, taken and refused; the context words in all stages. -/
theorem test_witness_LaunchAndContext :
    let l := fun (q stage : Nat) => { opr (.launch 0x2000 q (.x 5)) [(tid 0, .cp)] with stage := stage }
    let x := fun stage => { opr (.ctxsave (tid 0) (.x 5) 0x400000 5 true) [(tid 0, .st)] with stage := stage }
    let y := fun stage => { opr (.ctxload (tid 0) (.x 5) 0x400000) [(tid 0, .st)] with stage := stage }
    let s := fun (o : Op) => launchable [] [o] 0x90000004 []
    (∀ o ∈ [l 0 0, l 0 1, l 1 1, x 0, x 2, x 3, y 2, y 3], opOk (s o) o = true ∧ o.tids = [tid 0] ∧ o.after = []) ∧
    ((s (l 0 1)).thread (tid 0)).level ≠ .user ∧ ((s (l 1 1)).ringq 1).ctl.getLsbD 31 = false ∧
    (let r := (launchable [] [l 0 1] 0x90000004 [(8, false), (9, false), (10, false)]).ringq 0
     r.ctl.getLsbD 31 = true ∧ r.ctl.toNat % 2 ^ 16 ≠ 0 ∧ r.ctl.toNat % 2 ^ 16 ≤ r.recs.length + 1) ∧
    ((s (l 0 1)).ringq 0).recs.length + 1 < ((s (l 0 1)).ringq 0).ctl.toNat % 2 ^ 16 ∧
    ((s (x 0)).gridOf 5).isNone = true := by decide
set_option exponentiation.threshold 2100 in
set_option maxRecDepth 4000 in
theorem test_witness_LaunchAndContext_record :
    let v := 2 ^ 64 + 2 ^ 203
    let s := launchable [] [] 0x90000004 []
    let t := launchable [] [] 0xA0000004 []
    let named := s.withGid v
    named.2.recRefused 0 named.1 none = false ∧ (t.withGid v).2.recRefused 0 (t.withGid v).1 none = true := by decide
/-- The word at the pc fetched; a fault at a fetch; a word of no class; held threads; an eligible NOP. -/
theorem test_witness_IssueEvents :
    let w := fun (th : Thread) => mach (blkOf [th]) { tlb := [flat], clk := 2000 } []
    let nop : WinEnt := { word := some 0x0000038000000000, issued := false }
    let e := w { (thr []) with win := [{ nop with elig := some 900 }] }
    let f := w { (thr []) with pc := 0x1004 }
    let d := w { (thr []) with win := [{ word := some 0xE000000000000000, issued := false }] }
    let y := w { (thr []) with yield := 1, rejected := some 1992 }
    let h := (w (thr [])).modBlock hd fun b => { b with held := [({ id := 1, code := 2 }, [tid 0])] }
    (∀ s ∈ [w (thr []), e, f, d, y, h], s.has (tid 0) = true ∧ isSvc (s.block hd).core = false ∧ (s.block hd).onCore = true ∧ (s.block hd).faultq.length < 16) ∧
    ((w (thr [])).thread (tid 0)).status = .live ∧ (w (thr [])).mayFetch (tid 0) = true ∧
    ((w (thr [])).fetchWord (tid 0) ((w (thr [])).thread (tid 0)).fetchPc).isOk = true ∧
    (f.thread (tid 0)).win = [] ∧ f.runs (tid 0) = true ∧ (f.thread (tid 0)).trap = none ∧ 0 ≤ f.now 0 ∧
    (f.fetchWord (tid 0) (f.thread (tid 0)).pc).isOk = false ∧
    d.runs (tid 0) = true ∧ (d.decodeWord (tid 0) 0xE000000000000000).isOk = false ∧ (d.thread (tid 0)).heldAt = none ∧
    (h.block hd).held ≠ [] ∧
    (match e.decodeWord (tid 0) 0x0000038000000000 with
      | .ok i => e.runs (tid 0) && e.elig (tid 0) 0x1000 i && decide (900 + 1024 ≤ e.stamp 0)
      | .error _ => false) = true ∧ (e.thread (tid 0)).urgent = false ∧
    (y.thread (tid 0)).yield = 1 ∧ (y.thread (tid 0)).rejected = some 1992 ∧
    1992 + 8 ≤ y.now 0 := by decide

/-- A cross-lane word at which a row has arrived, its gather not yet open, open with the row there, and open for its window. -/
theorem test_witness_IssueEvents_gather :
    let xrd : WinEnt := { word := some 0x4000078141190100, issued := false }
    let w := fun (l : List Gather) => mach (blkOf [{ (thr []) with win := [xrd] }]) { tlb := [flat], clk := 2000, gathers := l } []
    let g := fun since => ({ blk := hd, row := 0, pc := 0x1000, since := since, win := 256 } : Gather)
    (w []).arrivedAt (tid 0) = some 0x1000 ∧ ((w []).core 0).gathers = [] ∧ (w [g 1999]).present (g 1999) ≠ [] ∧
    (w [g 1999]).openGather hd 0 (w [g 1999]).rowHere = some (g 1999) ∧ (tid 0).row = 0 ∧
    (w [g 1744]).openGather hd 0 (fun x => decide (x.since + x.win ≤ 2000)) = some (g 1744) := by decide
/-- A grid to place beside the tests' block, on a die that has pulled it. -/
def placing (g : Grid) (ctl : Word) : State :=
  { one [] with
    grids := [(5, {}), (6, g)]
    dies := [(1, { job := some (6, none) })]
    pkg := { queues := [(0, { ctl := ctl, recs := [(6, false)], tail := 1 })] } }
theorem test_witness_BlocksAndGrids :
    let s := placing { lrec := { spadb := 256, mbmask := 0x8000 }, order := 1 } 0xB0000004
    let t := fun (st : TStatus) => (one []).modThread (tid 0) fun th => { th with status := st }
    let d := { (placing {} 0) with grids := [(5, {}), (6, { status := .running, nextBlk := 1, doneBlks := [0], faulted := true })] }
    (s.grids.find 6).isSome = true ∧ s.blocks.find hd = some (s.block hd) ∧ 319 < 320 ∧ s.capturing = false ∧ s.replaying = false ∧
    (∀ st ∈ [TStatus.exited, .killed], ((t st).block hd).threads.find 0 = some ((t st).thread (tid 0)) ∧
      ((t st).thread (tid 0)).status = st ∧ (∀ o ∈ (t st).ops, tid 0 ∉ o.tids) ∧
      (∀ c ∈ [Cnt.ld, .st, .cp, .mt], ((t st).thread (tid 0)).cnt c = 0)) ∧
    (isSvc ((t .released).block hd).core = false ∧ ((t .released).block hd).bstate = .resident ∧
      (∀ p ∈ ((t .released).block hd).threads, p.2.status = .released) ∧ ∀ o ∈ (t .released).ops, o.blk ≠ hd) ∧
    (let g := d.grid 6; g.complete = false ∧ g.refuse = false ∧ g.lrec.nblk ≤ g.nextBlk ∧ g.lrec.nblk ≤ g.doneBlks.length ∧
      g.rel = [] ∧ g.lrec.doneva = 0 ∧ bare d = true ∧ ∀ k < 8, d.planeOff (0x5000 + k) = false) ∧
    (let g := s.grid 6; g.lrec.cores = false ∧ g.lrec.gfx = false ∧ g.lrec.qg = false ∧ g.lrec.dgn = 0 ∧ g.unplaced = true ∧
      (s.die (79 / 40)).job = some (6, none) ∧ s.inPart g.lrec.part (79 / 40) = true ∧ s.pkg.suspended = false ∧
      g.nextBlk ∉ g.killedBlks ∧ s.fits [] g.lrec.need 79 = some 0 ∧ g.lrec.mbmask.getLsbD 15 = true) ∧
    (s.ringq 0).ctl.toNat % 2 ^ 16 ≤ (4 : Word).toNat ∧ (0 : Word).toNat < (s.ringq 0).ctl.toNat % 2 ^ 16 ∧
    (s.ringq 0).ctl.toNat % 2 ^ 16 ≤ (s.ringq 0).recs.length + (0 + 4 - 1 % 4) % 4 ∧
    (s.ringq 0).recs.length + (2 + 4 - 1 % 4) % 4 < (s.ringq 0).ctl.toNat % 2 ^ 16 ∧ (0x80000000 : Word).getLsbD 31 = true ∧
    (0x7FFFFFFF : Word) ≠ 0 ∧ (0x7FFFFFFF : Word).getLsbD 31 = false := by decide
/-- The first candidate of a die; the place of a DONEVAL store. -/
theorem test_witness_BlocksAndGrids_pull :
    let s := placing { order := 1, lrec := { prio := 7 } } 0xB0000004
    s.candidates 7 = [(7 * 2 ^ 65 + 1, 5, none), (3, 6, none)] ∧ (s.grid 6).queue = 0 ∧ 7 < 8 ∧
    (launchable [] [] 0 []).sysAccess 0 .user 0x5000 8 .w = some 0x5000 := by decide
/-- A unit with a save area, a grid of higher priority, and each state of its pre-emption. -/
def saving (p : List Preempt) (st : BState) : State :=
  let s := (one []).modBlock hd fun b => { b with bstate := st, spadSize := 0, regs := 32 }
  { s with
    mem := { s.mem with dev := paged }
    grids := [(5, { lrec := { pcls := 1, save := 0x400000 } }), (6, { lrec := { prio := 7 } })]
    pkg := { ctxtab := 0x100000, queues := [(0, { ctl := 0xB0000004 })], preempts := p } }
theorem test_witness_Preemption :
    let s := saving [] .resident
    let p : Preempt := { unit := [hd], since := 0, core := 0 }
    let d := saving [p] .preempting
    let e := { saving [p] .preempting with cores := [(0, { clk := 400000 })] }
    let f := saving [{ p with phase := 1, imgs := [[(0x400000, 4096)]] }] .preempting
    s.blocks.find hd = some (s.block hd) ∧ isSvc (s.block hd).core = false ∧ s.pkg.suspended = false ∧
    (6, s.grid 6) ∈ s.grids ∧ (s.grid 6).unplaced = true ∧ (s.grid 6).deps = [] ∧ s.inPart (s.grid 6).lrec.part 0 = true ∧
    (s.ringq 0).ctl.getLsbD 31 = true ∧ (s.ringq 0).ctl.toNat % 2 ^ 16 ≠ 0 ∧
    s.inPart ((s.ringq 0).ctl.toNat / 2 ^ 28 % 4) 0 = true ∧ 1 ≤ (s.grid 5).lrec.pcls ∧
    (s.grid 5).lrec.prio < (s.grid 6).lrec.prio ∧ s.unitOf hd = [hd] ∧ (s.block hd).bstate = .resident ∧
    d.pkg.preempts.find? (fun p => p.unit.contains hd && p.phase == 0) = some p ∧ d.partArrived [hd] = false ∧
    0 + (e.core 0).prelim.toNat ≤ e.now 0 ∧
    (f.pkg.preempts.find? fun p => p.unit.contains hd && p.phase == 1) = some { p with phase := 1, imgs := [[(0x400000, 4096)]] } ∧
    f.landAll.drained [hd] = true := by decide
theorem test_witness_Preemption_area : ((saving [] .resident).saveAreas [hd]).isSome = true := by decide
theorem test_witness_Preemption_restore :
    let v : Saved := { blk := hd, unit := [hd], body := blkOf [thr []], auto := true }
    let s := saving [] .saved
    let s : State := { s with pkg := { s.pkg with saved := [v] }, dies := [(1, { job := some (5, some hd) })] }
    (s.pkg.saved.find? fun v => v.auto && v.unit.contains hd) = some v ∧ (s.pkg.saved.find? fun v => v.auto && v.blk == hd) = some v ∧
    s.pkg.suspended = false ∧ (s.die (79 / 40)).job = some ((s.block hd).grid, some hd) ∧ (s.block hd).qgid = none ∧
    ((s.block hd).part == 1) = (s.die (79 / 40)).partT ∧ s.fits [] (s.block hd).need 79 = some 0 ∧ (s.block hd).bstate = .saved ∧
    cellsWf v.spad = true ∧ cellsWf (s.core 79).spad = true := by decide
/-- A selected block with no record, with one of each kind, being pre-empted, saved; none selected. -/
theorem test_witness_BlockControl :
    let w := fun (q : List FRec) (st : BState) (susp : Option Nat) => (let s := (saving [] st).modBlock hd fun b => { b with
        faultq := q, threads := b.threads.map fun p => (p.1, { p.2 with susp := susp }) }
      { s with grids := [(5, { lrec := { gridid := 5, pcls := 1, save := 0x400000 } })], pkg := { s.pkg with bsel := 5 } } : State)
    let r : FRec := { id := 1, code := 2, susp := true, pc := 0x1000 }
    ({ one [] with pkg := { bsel := 9 } } : State).selected = none ∧ (one []).pkg.bctl = 0 ∧
    (∀ s ∈ [w [] .preempting none, w [] .saved none, w [] .completed none, w [] .resident none, w [r] .resident (some 1),
        w [{ r with code := 0x0E }] .resident (some 1), w [{ r with susp := false, imp := true, op := some 7 }] .resident none],
      s.pkg.bctl = 0 ∧ s.selected = some (5, 0) ∧ s.blocks.find (handle 5 0) = some (s.block hd) ∧
      ((s.block hd).threads.map (·.1)).Nodup ∧ (s.grids.find (s.block hd).grid).isSome = true) ∧
    ((w [r] .resident (some 1)).block hd).faultq = r :: [] ∧ ((w [r] .resident (some 1)).thread (tid 0)).susp = some r.id ∧
    ((w [r] .resident (some 1)).thread (tid 0)).status = .live ∧ ((w [r] .resident (some 1)).thread (tid 0)).pc = r.pc ∧
    ((w [r] .resident (some 1)).thread (tid 0)).atLoopEnd r.pc = false ∧
    (w [] .resident none).unitOf hd = [hd] ∧ ((w [] .resident none).saveAreas [hd]).isSome = true ∧
    (let s := w [] .resident none
     ({ s with grids := [(5, { lrec := { gridid := 5 } })] } : State).saveAreas [hd] = none) ∧
    (let o := { opr (.copy [] 0 4) with stage := 2, page := some 1 }
     let s : State := { w [{ r with susp := false, imp := true, op := some 7 }] .resident none with ops := [o] }
     s.op? 7 = some o ∧ o.page = some 1) := by decide

/-! ### Witnesses: the package -/

theorem test_witness_RegisterWrites :
    let s := saving [] .completed
    let s : State := { s with grids := [(5, { lrec := { gridid := 5 } })], pkg := { s.pkg with bsel := 5 } }
    ({ one [] with pkg := { bsel := 9 } } : State).selected = none ∧ s.selected = some (5, 0) ∧ (s.grids.find 5).isSome = true ∧ s.gridResident 5 = false ∧
    slotValid 8 = true ∧ slotValid 9 = false ∧ (8 : Word).toNat % 16 ≤ 8 ∧ (List.range 8).length = (8 : Word).toNat % 16 ∧
    (List.range 8).Nodup ∧ (0x80000000 : Word).getLsbD 31 ≠ s.capturing ∧
    (∃ p ∈ (one []).blocks, isSvc p.2.core = false ∧ p.2.bstate = .resident) ∧
    (∀ p ∈ s.blocks, p.2.onCore = false ∨ isSvc p.2.core = true) ∧ Csr.readOnly .gridnext = false ∧ Csr.reached 0 .gridnext = true ∧
    (s.csrWrite 0 .gridnext 0).isNone = true ∧ (s.csrWrite 0 .gridnext 1).isSome = true ∧
    (let m := fun (n dst : Nat) => ({ s with mdies := [(4, { migsrc := 0, migdst := BitVec.ofNat 64 dst
                                                             migctl := BitVec.ofNat 32 (2 ^ 31 + n), mig := none })] } : State)
     (m 1 65536).fw.pkgSusp = false ∧ ((m 1 65536).mdie 4).migctl.getLsbD 31 = true ∧ ((m 1 65536).mdie 4).mig = none ∧
     (m 1 65536).migRange 0 1 = true ∧ (m 1 65536).migRange 65536 1 = true ∧ 0 + 1 * 65536 ≤ 65536 ∧
     ((m 0 0).mdie 4).migctl.toNat % 2 ^ 16 = 0 ∧ (m 1 1).migRange 1 1 = false) ∧
    (let d : State := { s with mdies := [(5, { mig := some (0, 65536, 1) })] }
     (d.mdie 5).mig = some (0, 65536, 1) ∧ d.mdPath 5 (dieCode 65536) = true ∧ d.mem.wf = true ∧ d.planeOff 65536 = false) := by decide
/-- Two pairs that run, the first leading, its interrupts pending and enabled, with this silence of the second. -/
def pairs (missed : Tab Nat) (v : Svc) (w : Svc) : State :=
  { svcs := [(0, { v with missed := missed }), (1, w)]
    cores := [(320, { clk := 100 }), (321, { clk := 100 })]
    blocks := [(0, { svcBlock 0 with threads := [(0, { pc := 0x1000, level := .sup })] }), (svcHandle 1, svcBlock 1),
      (hd, { blkOf [thr []] with faultq := [{ id := 1, code := 2, susp := true }] })]
    grids := [(5, {})] }
theorem test_witness_ServiceEvents :
    let v : Svc := { started := true, epoch := 1, sie := 0xF, sstat := 5, fstat := 0x35, stvec := 0x2000, ftvec := 0x3000
                     linkPend := true, hbper := 50, irq := 12 }
    let w : Svc := { started := true, epoch := 1 }
    let s := pairs [] v w
    let n := pairs [(1, 2)] v w
    s.pairRuns 0 = true ∧ s.has ⟨svcHandle 0, 0⟩ = true ∧ (s.thread ⟨svcHandle 0, 0⟩).status = .live ∧
    (s.thread ⟨svcHandle 0, 0⟩).waitOp = none ∧ (s.svc 0).leads 0 = true ∧ s.svcPend.isSome = true ∧
    (s.svc 0).irq.testBit 2 = true ∧ (s.svc 0).irq.testBit 3 = true ∧
    (s.svc 0).sie.getLsbD 2 = true ∧ (s.svc 0).sstat.getLsbD 0 = true ∧ (s.thread ⟨svcHandle 0, 0⟩).level = .sup ∧
    (s.svc 0).stvec ≠ 0 ∧ (s.svc 0).clkcmp.toNat ≤ s.now 320 ∧ (s.svc 0).sie.getLsbD 3 = true ∧
    ((pairs [] { v with sie := 7 } w).svc 0).sie.getLsbD 3 = false ∧ (s.svc 0).linkPend = true ∧
    (s.svc 0).fstat.getLsbD 0 = true ∧ (s.svc 0).fstat.getLsbD 4 = true ∧ (s.svc 0).fstat.getLsbD 5 = true ∧
    (s.svc 0).hbAt + (s.svc 0).beatPer ≤ s.now 320 ∧ (s.svc 0).hbPend = false ∧ (s.svc 1).started = true ∧
    (s.svc 0).heard.getD 1 0 + 2 * (s.svc 0).beatPer ≤ s.now 320 ∧ (s.svc 0).missed.getD 1 0 + 1 ≠ 3 ∧
    (n.svc 0).missed.getD 1 0 + 1 = 3 ∧ ((pairs [(1, 2)] { v with fstat := 0x34 } w).svc 0).fstat.getLsbD 0 = false := by decide
theorem test_witness_ServiceEvents_takeover :
    let v : Svc := { started := true, epoch := 2 ^ 24 - 2, leadSlot := 1, entry := 0x4000 }
    let c := pairs [(1, 3)] v { started := true, epoch := 1, leadSlot := 1 }
    let l := pairs [] { v with leadSlot := 2, epoch := 1 } { started := true, epoch := 2, leadSlot := 1, prevLead := 0 }
    c.pairRuns 0 = true ∧ c.has ⟨svcHandle 0, 0⟩ = true ∧ (c.thread ⟨svcHandle 0, 0⟩).status = .live ∧ c.candidate 0 = true ∧
    (c.svc 0).epoch + 1 < 2 ^ 24 ∧ l.pairRuns 0 = true ∧ (l.svc 1).leads 1 = true ∧
    (∀ b < 14, b ≠ 0 → (l.svc b).leads b = true → b = 1) ∧ (l.svc 0).epoch < (l.svc 1).epoch := by decide
theorem test_witness_LinkEvents :
    let s := fun (l : Link) => ({ links := [(0, l)] } : State)
    isLinkEnd 0 = true ∧ isLinkEnd (13 * 256 + 7) = true ∧ (s {}).fw.pkgSusp = false ∧ ((s {}).link? 0).state = .active ∧
    ((s { fails := 14 }).link? 0).fails < 15 ∧ ((s {}).link? 0).clk < ((s {}).link? 0).winAt + ((s {}).link? 0).window ∧
    ((s { win := 63, thr := 0x004003E8 }).link? 0).win + 1 = ((s { thr := 0x004003E8 }).link? 0).thr.toNat / 2 ^ 16 ∧
    ((s {}).link? 0).twidth < 4 ∧ ((s {}).link? 0).pause = false ∧ ((s {}).link? 0).retrain = false ∧
    ((s { state := .paused, pause := true }).link? 0).state = .paused ∧ ((s { state := .paused, pause := true }).link? 0).pause = true ∧
    ((s { state := .failed }).link? 0).state = .failed ∧ ((s { state := .drain }).link? 0).state = .drain ∧
    ((s { state := .train }).link? 0).state = .train ∧ ((s {}).link? (linkOther 0)).pause = false := by decide
/-- A package that runs its firmware, its second bank filled. -/
def loaded : State := { one [] with fw := { loaded := true, banks := [some 1, some 2], rollback := 1 } }
theorem test_witness_OutsideEvents :
    let z : State := { one [] with fw := { pkgSusp := true } }
    let y : State := { one [] with fw := { sysSusp := true } }
    let s := loaded
    z.fw.pkgSusp = true ∧ y.fw.pkgSusp = false ∧ y.fw.sysSusp = true ∧ bootBytes - 8 < bootBytes ∧ (one []).fw.loaded = false ∧
    (List.replicate 8 (0 : Byte)).length = 8 ∧ s.fw.loaded = true ∧ s.hostReach (Config.nmdBytes - 1) 1 = true ∧
    s.planeOff 0x2000 = false ∧ (∀ x ∈ secsOf 0x2000 8, s.homePoison x = false ∧ x ∉ s.mem.devPoison) ∧
    bare s = true ∧ bare (one []) = true ∧ (s.recall (0x2000 / 64)).homePoison (0x2000 / 64) = false ∧ (s.fw.pkgSusp = false) ∧
    (∀ i < 8, s.planeOff (0x2000 + i) = false) ∧ s.hostReach 0x2000 8 = true ∧ 0x2000 % 8 = 0 ∧ s.capturing = false ∧ s.replaying = false ∧
    s.hostReach Config.nmdBytes 1 = false ∧ s.fw.banks.getD (1 - s.fw.active) none = some 2 ∧
    (∀ k < 14, (s.svc k).depth = 0 ∧ s.wakes k = false ∧ s.pairBusy k = false) ∧ s.fw.rollback ≤ 2 ∧
    (let l : State := { s with fw := { s.fw with rollback := 3 } }
     2 < l.fw.rollback) ∧ s.pkg.suspended = false ∧
    (let u : State := { s with pkg := { s.pkg with suspended := true } }
     u.pkg.suspended = true ∧ u.landAll.drainedAll = true ∧ u.landAll.linksMoving = false) ∧ s.fw.sysSusp = false := by decide
/-- A reduction whose last contribution is due, homed on another package and here. -/
theorem test_witness_OutsideEvents_reduction (g : Nat) :
    let r : RedGroup := { id := g, members := redMembers g
                          got := List.replicate (redMembers g - 1) (2, List.replicate (Config.redLength g) 0) }
    let s : State := { one [] with fabric := { reds := [r] } }
    s.fabric.reds.find? (·.id == g) = some r ∧ (∀ p ∈ r.got, p.1 ≠ 1) ∧ r.got.length + 1 = redMembers g ∧
    (List.replicate (Config.redLength g) (0 : Byte)).length = Config.redLength g ∧
    (∀ p ∈ r.got, p.2.length = Config.redLength g) ∧ s.redPuts g = [] ∧ s.fabric.posts = [] ∧
    s.fabric.reds.any (·.id == g) = true ∧ s.fw.pkgSusp = false ∧ s.fw.sysSusp = false ∧ 1 ≠ s.pkg.pkgNo ∧
    (one []).fabric.reds.find? (·.id == g) = none := by
  simp only [one, mach, redMembers]
  simp [State.redPuts]

/-! ### Witnesses: the machine as a whole -/

/-- What is kept of a clock: a barrier's word by the layout of spec/11 R237, a quad's THR and STATE by that of spec/16 R342. -/
theorem test_past_keeps_state_words :
    let tick := fun (s : State) (n : Nat) => match s.tickAll [] n with
      | .next s' => s'
      | _ => {}
    let s := (one []).modThread (tid 0) fun th => { th with status := .released }
    let s := s.modBlock hd fun k => { k with bars := [(2, { phase := 5, lastOk := false })] }
    let s : State := { s with quads := [(0, { thr := 7, mstate := .gap })] }
    let v := fun (s : State) => s.past.map fun p =>
      (p.clks, (p.bars.find? (·.1 == ⟨.core, hd, 2⟩)).map (·.2), (p.quads.find 0).map (·.2.1))
    s.fw.pkgSusp = false ∧ s.mayTick [] = true ∧ v (tick s 1) = [([(0, 100)], some 0x85000000, some 0xF8000000)] ∧
    (let r := (tick s 1).modBlock hd fun k => { k with bars := [] }
     (v (tick r 1)).map (·.1) = [[(0, 100)], [(0, 101)]] ∧
     (v (tick (r.modCore 0 fun k => { k with clk := 1124 }) 1)).map (·.1) = [[(0, 1124)]]) := by decide
/-- An issue of a NOP held in the window, and one fetched from 0x1000; clocks that pass and one that an owed word holds back; an
event. -/
theorem test_witness_StepRunsTheReadyWord :
    let g : Issue := { core := 0, pc := 0x1000, tids := [tid 0] }
    let n : WinEnt := { word := some 0x0000038000000000, issued := false }
    let s := mach (blkOf [{ (thr []) with win := [n] }]) { tlb := [flat], clk := 100 } []
    let s : State := { s with agenda := [.issue g] }
    let q : State := { s.landAll with agenda := [] }
    let p := q.prepare g
    s.landAll.agenda = [.issue g] ∧ p.groupOf g = [tid 0] ∧ (p.leads g).any (fun r => r.2 matches .go 0x0000038000000000 _) = true ∧
    p.select 0 (p.kern (tid 0), 0x1000) (.nop p7) = [tid 0] ∧ s.owes 0 = true ∧
    ((one []).modThread (tid 0) fun th => { th with status := .released }).mayTick [] = true ∧
    (let f := one []
     let f : State := { f with mem := { f.mem with dev := [(0x1004, 0x80), (0x1005, 3)] }, agenda := [.issue g] }
     let q : State := { f.landAll with agenda := [] }
     let p := q.prepare g
     let th := q.thread (tid 0)
     q.groupOf g = [tid 0] ∧ th.win = [] ∧ th.lbuf = [] ∧ th.pc = 0x1000 ∧ q.cut 0 0x1000 = false ∧
     (∀ x ∈ secsOf 0x1000 8, q.homePoison x = false) ∧ (∀ e ∈ q.mem.old, e.1 ≤ th.iseen) ∧
     ofBytes ((List.range 8).map fun k => q.codeByte th.iseen (0x1000 + k)) = 0x0000038000000000 ∧
     (q.gAccess 0 (q.block hd) th.level 0x1000 8 .x false).isOk = true ∧ p.runs (tid 0) = true ∧ th.trap = none ∧
     th.heldAt = none ∧ p.mayIssue (tid 0) 0x1000 (.nop p7) = true ∧ (p.cands 0).map (fun k => (k.t, k.pc, k.i)) =
       [(tid 0, 0x1000, .nop p7)]) := by decide
/-- A well-formed instruction with an encoding, whose word decodes. -/
theorem test_witness_EncodeDecode : let i := Instr.bra p7 (-3)
    i.wf = true ∧ encode i = some 0x00000780FFFFFF40 ∧ decodeTableWord 64 0x00000780FFFFFF40 = some i := by decide
/-- The state after power-up meets the invariant, and its first step answers a next state. -/
theorem test_witness_StepKeepsForm : State.reset.memWf = true ∧ State.reset.gridnextOk = true ∧
    (match step State.reset with
      | .next _ => true
      | _ => false) = true := by decide

/-! ### Worked examples of the spec, one step each -/

/-- The values a word puts in flight for register n of a thread. -/
def puts (s : State) (i : Instr) (t n : Nat) : List Word := match exec i s with
  | .next s' => ((s'.thread (tid t)).pend.filter (·.dst == n)).map (·.val)
  | _ => []
/-- The worked example of R91: a field, its sign-extended form, a field cut off at the register's end. -/
theorem test_bfx : let s := one [(1, 0xDEADBEEF), (2, 0x00000C08), (3, 0x00001C18)]
    puts s (.bfx p7 (.x 5) (.x 1) (.x 2) false) 0 5 = [0xDBE] ∧ puts s (.bfx p7 (.x 5) (.x 1) (.x 2) true) 0 5 = [0xFFFFFDBE] ∧
    puts s (.bfx p7 (.x 5) (.x 1) (.x 3) false) 0 5 = [0xDE] := by decide
/-- The worked example of R128: one rounding, two roundings. -/
theorem test_ffma_rounds_once : let s := one [(1, 0x3F800001), (2, 0x3F800001), (3, 0xBF800002), (4, 0x3F800002)]
    puts s (.ffma p7 (.x 10) (.x 1) (.x 2) (.x 3) .rn false false false false) 0 10 = [0x28800000] ∧
    puts s (.fmul p7 (.x 11) (.x 1) (.x 2) .rn false false) 0 11 = [0x3F800002] ∧
    puts s (.fadd p7 (.x 12) (.x 4) (.x 3) .rn false false) 0 12 = [0] := by decide
/-- The worked example of R110 and R129: four values into a word of T6e0, one at a time. -/
theorem test_cvtpk_t6 : 
    let x : Tab Word := [(10, 0x40300000), (11, 0xC0300000), (12, 0x3A83126F), (13, 0x42C80000), (20, 1), (21, 2), (22, 3)]
    let s := (one x).modBlock hd fun b => { b with fs := [0, 0, 0, 5] }
    puts s (.cvtpk p7 (.x 4) (.x 10) .xz .xz 3) 0 4 = [0x1A] ∧ puts s (.cvtpk p7 (.x 4) (.x 11) (.x 20) .xz 3) 0 4 = [0x980] ∧
    puts s (.cvtpk p7 (.x 4) (.x 12) (.x 21) .xz 3) 0 4 = [0x1000] ∧ puts s (.cvtpk p7 (.x 4) (.x 13) (.x 22) .xz 3) 0 4 = [0x7C0000] := by
  decide
theorem test_cvtup_t6 : let s := (one [(4, 0x007C199A), (21, 2)]).modBlock hd fun b => { b with fs := [0, 0, 0, 5] }
    puts s (.cvtup p7 (.x 5) (.x 4) (.x 21) 3) 0 5 = [0x3D800000] := by decide
/-- The worked example of R146: a linear segment, a clamped and an extrapolated input. -/
theorem test_tlu :
    let s := fun (g3 : Word) => ((mach (blkOf [thr [(4, 0x3FB00000)], thr [(4, 0x40200000)]]) { tlb := [flat] } []).modBlock hd fun b =>
      { b with spadSize := 0x1100, g := [(0, 0x1000), (1, 0), (2, 0x40000000), (3, g3)] }).modCore 0 fun k => { k with
        spad := [(0x1013, 0x3F), (0x1016, 0x80), (0x1017, 0x3E), (0x101A, 0x80), (0x101B, 0x3F), (0x101F, 0xBF)] }
    puts (s 4) (.tlu p7 (.x 5) (.x 4) (.g 0)) 0 5 = [0x3F300000] ∧ puts (s 4) (.tlu p7 (.x 5) (.x 4) (.g 0)) 1 5 = [0x3F000000] ∧
    puts (s 0x1004) (.tlu p7 (.x 5) (.x 4) (.g 0)) 1 5 = [0] := by decide
/-- The worked example of R164 and R165: the tree and the scan of the same values. -/
theorem test_xred_xscan :
    let s := mach (blkOf ([0x4B800000, 0x3F800000, 0x3F800000, 0x3F800000].map fun v => thr [(4, v)])) { tlb := [flat] } []
    (∀ t < 4, puts s (.xred p7 (.x 5) (.x 4) .fadd) t 5 = [0x4B800001]) ∧
    (∀ t < 4, puts s (.xscan p7 (.x 5) (.x 4) .fadd false) t 5 = [0x4B800000]) ∧
    puts s (.xscan p7 (.x 5) (.x 4) .fadd true) 0 5 = [0] := by decide
/-- The worked example of R352: the samples of both issues and the continuation tokens. -/
theorem test_rast :
    let run := fun (g9 : Word) =>
      let k := OpKind.rast (.x 8) [tid 0, tid 1, tid 2, tid 3] [0, 0, 0, 0x40800000, 0, 0, 0, 0x40800000, 0, g9] [0, 0x00080008] .none
      let o := { opr k with tids := [tid 0, tid 1, tid 2, tid 3] }
      match exec (.engineOperationComplete 7) (mach (blkOf (List.replicate 4 (thr []))) { tlb := [flat] } [o]) with
        | .next s => ((List.range 4).map fun t => s.rds (tid t) (.x 8) 4, s.rd (tid 0) (.g 9))
        | _ => ([], 1)
    run 0 = ([[0, 0, 0x3E000000, 0x3E000000], [1, 0, 0x3EC00000, 0x3E000000], [2, 0, 0x3F200000, 0x3E000000],
      [0, 1, 0x3E000000, 0x3EC00000]], 0x80000009) ∧
    run 0x80000009 = ([[1, 1, 0x3EC00000, 0x3EC00000], [0, 2, 0x3E000000, 0x3F200000], [0xFFFFFFFF, 0xFFFFFFFF, 0, 0],
      [0xFFFFFFFF, 0xFFFFFFFF, 0, 0]], 0) := by decide
set_option maxRecDepth 20000 in
/-- The worked example of R297: three deltas, each added at home alone, and two of them together. -/
theorem test_accumulation_batches :
    let l : AccLine := { exact := false, e := 0, vals := List.replicate 64 0, estab := 1 }
    let add := fun (v : Word) (s : State) => match exec (.contributionApply 7)
        { s with ops := [opr (.accadd (ac (.mem 0x2000)) v) [(tid 0, .mt)]] } with
      | .next s' => s'
      | _ => s
    let s : State := { (one []).modCore 0 (fun k => { k with clk := 102 }) with mem := { lines := [(0x20, l)] } }
    let r := s.modBlock hd fun b => { b with accLines := 1 }
    let a := add 0x4B800000 s
    let back := fun (s : State) => s.accWriteBack 0 0x20
    (add 0x3F800000 (add 0x3F800000 a)).homeRead 0x2000 4 = 0x4B800000 ∧
    (back (add 0x3F800000 (add 0x3F800000 (back (add 0x4B800000 r))))).homeRead 0x2000 4 = 0x4B800001 := by decide

end Sys2Proof.Tests
end

section
/-!
PROOFS. The integer words with register results (spec/04 R89 to R91, R95 to R97, R99): the shared shape of a word on
32-bit sources, the bit fields of R90 bit by bit, the pairs of R91, and the two statements about them.
-/

namespace Sys2Proof.Machine

/-! ### The shared shapes of the integer words -/

/-- A word with one result from 32-bit sources gives it, whatever name the rule has for the value. -/
theorem State.gives_int3 {s : State} {h : Hdr} {i : Instr} {lat : Nat} {d a b c : Reg} {f : Word → Word → Word → Word}
    {v : Tid → Word} (hg : s.groupOk = true) (he : exec i s = .next (s.int3 h lat d a b c f))
    (hv : ∀ t, f (s.rd t a) (s.rd t b) (s.rd t c) = v t) : s.gives h i lat fun t => [(d, v t)] :=
  s.gives_of hg he id fun t => congrArg (fun w => [(d, w)]) (hv t)

/-- As `gives_int3`, for a word whose result is not a function of its sources alone. -/
theorem State.gives_word {s : State} {h : Hdr} {i : Instr} {lat : Nat} {d : Reg} {f v : Tid → Word}
    (hg : s.groupOk = true) (he : exec i s = .next (s.fixed qInt h lat fun t => [(d, f t)]))
    (hv : ∀ t, f t = v t) : s.gives h i lat fun t => [(d, v t)] :=
  s.gives_of hg he id fun t => congrArg (fun w => [(d, w)]) (hv t)

/-- The halves of a pair result, low half first (spec/02 R48). -/
theorem pairOf_eq (d : Reg) (v : DWord) : pairOf d v = [(d, v.extractLsb' 0 32), (d.plus 1, v.extractLsb' 32 32)] := by
  rw [pairOf, truncate_low, truncate_high]

/-- What MOVS writes: a pair or the low half, by the width of the special register (spec/04 R99). -/
theorem movsWrites_eq (wide : Bool) (d : Reg) (v : DWord) :
    (if wide then pairOf d v else [(d, BitVec.truncate 32 v)]) =
      if wide then [(d, v.extractLsb' 0 32), (d.plus 1, v.extractLsb' 32 32)] else [(d, v.extractLsb' 0 32)] := by
  rw [pairOf_eq, truncate_low]

/-- A word whose result is a pair gives both halves. -/
theorem State.gives_pair {s : State} {h : Hdr} {i : Instr} {lat : Nat} {d : Reg} {v : Tid → DWord}
    (hg : s.groupOk = true) (he : exec i s = .next (s.fixed qInt h lat fun t => pairOf d (v t))) :
    s.gives h i lat fun t => [(d, (v t).extractLsb' 0 32), (d.plus 1, (v t).extractLsb' 32 32)] :=
  s.gives_of hg he id fun t => pairOf_eq d (v t)

/-! ### Bit fields -/

theorem fld_low_byte (y : Word) : fld y 0 8 = y.toNat % 256 :=
  congrArg (· % 256) (Nat.div_one y.toNat)

/-- Position and clipped length as R90 writes them; by definition, once the position is the low byte. -/
theorem bitField_eq (y : Word) : bitField y =
    if y.toNat / 256 % 256 = 0 ∨ 32 ≤ y.toNat % 256 then none
    else some (y.toNat % 256, min (y.toNat / 256 % 256) (32 - y.toNat % 256)) :=
  fld_low_byte y ▸ rfl

section
variable {x y z : Word}

theorem bfx_of_bitField_none {sg : Bool} (hy : bitField y = none) : bfx sg x y = 0 := by
  rw [bfx, hy]

theorem bfi_of_bitField_none (hy : bitField y = none) : bfi x y z = z := by
  rw [bfi, hy]

variable {pos w k : Nat}

theorem bfx_zeroExtend_getLsbD (hy : bitField y = some (pos, w)) (hk : k < 32) :
    (bfx false x y).getLsbD k = (decide (k < w) && x.getLsbD (pos + k)) := by
  rw [bfx, hy]
  exact bfx_bit x pos w k hk

theorem bfx_signExtend_getLsbD (hy : bitField y = some (pos, w)) (hw : 0 < w) (hk : k < 32) :
    (bfx true x y).getLsbD k = x.getLsbD (pos + min k (w - 1)) := by
  rw [bfx, hy]
  exact bfxs_bit x pos w k hw hk

theorem bfi_getLsbD (hy : bitField y = some (pos, w)) (hk : k < 32) :
    (bfi x y z).getLsbD k = if pos ≤ k ∧ k < pos + w then x.getLsbD (k - pos) else z.getLsbD k := by
  rw [bfi, hy]
  exact bfi_bit x z pos w k hk

end

/-- The bit fields of R90: an empty field, and a field clipped at bit 31, bit by bit. -/
theorem bitFields_eq (x y z : Word) :
    let pos := y.toNat % 256
    let len := y.toNat / 256 % 256
    let w := min len (32 - pos)
    if len = 0 ∨ 32 ≤ pos then bfx false x y = 0 ∧ bfx true x y = 0 ∧ bfi x y z = z
    else ∀ k < 32,
      (bfx false x y).getLsbD k = (decide (k < w) && x.getLsbD (pos + k)) ∧
      (bfx true x y).getLsbD k = x.getLsbD (pos + min k (w - 1)) ∧
      (bfi x y z).getLsbD k = if pos ≤ k ∧ k < pos + w then x.getLsbD (k - pos) else z.getLsbD k := by
  intro pos len w
  split
  case isTrue hempty =>
    have hy : bitField y = none := (bitField_eq y).trans (if_pos hempty)
    exact ⟨bfx_of_bitField_none hy, bfx_of_bitField_none hy, bfi_of_bitField_none hy⟩
  case isFalse hfield =>
    have hy : bitField y = some (pos, w) := (bitField_eq y).trans (if_neg hfield)
    have hw : 0 < w := by omega
    intro k hk
    exact ⟨bfx_zeroExtend_getLsbD hy hk, bfx_signExtend_getLsbD hy hw hk, bfi_getLsbD hy hk⟩

/-! ### The two statements -/

theorem sel_eq (p n : Bool) (x y : Word) : (if p != n then x else y) = if p = n then y else x := by
  by_cases hpn : p = n <;> simp [hpn]

/-- Settles O1: each word is `State.int3` (SEL: `State.fixed`) on a value that Laws/Int.lean names as core Lean's operation;
the fields of BFX and BFI are `bitFields_eq`. -/
theorem intResults : Obligations.IntResults := by
  intro s h d a b c hg
  refine ⟨?iadd, ?iaddSat, ?iaddSatU, ?isub, ?isubSat, ?isubSatU, ?imul, ?imulh, ?imulhU, ?imad, ?imadSat, ?imadSatU,
    ?imin, ?iminU, ?imax, ?imaxU, ?iabs, ?iabsSat, ?and, ?or, ?xor, ?andn, ?shl, ?shr, ?sar, ?rol, ?clz, ?brev, ?popc,
    ?mov, ?sel, fun t => bfx false (s.rd t a) (s.rd t b), fun t => bfx true (s.rd t a) (s.rd t b),
    fun t => bfi (s.rd t a) (s.rd t b) (s.rd t c), ?bfx, ?bfxS, ?bfi, ?fields⟩
  case iadd => exact s.gives_int3 hg rfl fun _ => wordOf_add _ _
  case iaddSat | isubSat | imadSat => exact s.gives_int3 hg rfl fun _ => clampInt_signed _
  case iaddSatU | isubSatU | imadSatU => exact s.gives_int3 hg rfl fun _ => clampInt_unsigned _
  case isub => exact s.gives_int3 hg rfl fun _ => wordOf_sub _ _
  case imulh => exact s.gives_int3 hg rfl fun _ => mulHigh_signed _ _
  case imulhU => exact s.gives_int3 hg rfl fun _ => mulHigh_unsigned _ _
  case imad => exact s.gives_int3 hg rfl fun _ => wordOf_mad _ _ _
  case imin => exact s.gives_int3 hg rfl fun _ => imin_signed _ _
  case iminU => exact s.gives_int3 hg rfl fun _ => imin_unsigned _ _
  case imax => exact s.gives_int3 hg rfl fun _ => imax_signed _ _
  case imaxU => exact s.gives_int3 hg rfl fun _ => imax_unsigned _ _
  case iabs => exact s.gives_int3 hg rfl fun _ => absInt_wrap _
  case iabsSat => exact s.gives_int3 hg rfl fun _ => absInt_sat _
  case imul | and | or | xor | andn | mov => exact s.gives_int3 hg rfl fun _ => rfl
  case shl => exact s.gives_int3 hg rfl fun _ => shiftLeft_eq _ _
  case shr => exact s.gives_int3 hg rfl fun _ => shiftRight_eq _ _
  case sar => exact s.gives_int3 hg rfl fun _ => shiftArith_eq _ _
  case rol => exact s.gives_int3 hg rfl fun _ => rotLeft_eq _ _
  case clz => exact s.gives_int3 hg rfl fun _ => leadZeros_eq _
  case brev => exact s.gives_int3 hg rfl fun _ => bitRev_eq _
  case popc => exact s.gives_int3 hg rfl fun _ => popcount_eq _
  case sel => exact fun p n => s.gives_word hg rfl fun t => sel_eq (s.rdP t p) n _ _
  case bfx | bfxS | bfi => exact s.gives_int3 hg rfl fun _ => rfl
  case fields => exact fun t => bitFields_eq (s.rd t a) (s.rd t b) (s.rd t c)

/-- Settles O2: LEA and IADD64 give pairs, the immediate words are `State.int3` or `State.fixed`, MOVS writes
by its register's width, and PGET's word is `State.predWord`. -/
theorem intMoves : Obligations.IntMoves := by
  intro s h d a b hg
  refine ⟨?lea, ?leaU, ?iadd64, ?movi, ?movhi, ?iaddi, ?andi, ?ori, ?xori, ?movs, s.predWord, ?pget, ?bits⟩
  case lea | leaU => exact fun k => s.gives_pair hg rfl
  case iadd64 => exact s.gives_pair hg rfl
  case movi => exact fun i => s.gives_word hg rfl fun _ => rfl
  case movhi => exact fun i => s.gives_word hg rfl fun _ => movhi_eq i _
  case iaddi | andi | ori | xori => exact fun i => s.gives_int3 hg rfl fun _ => rfl
  case movs => exact fun r => s.gives_of hg rfl id fun t => movsWrites_eq r.wide d (s.sreg t r)
  case pget => exact s.gives_word hg rfl fun _ => rfl
  case bits => exact fun t k hk => predWord_bit s t k hk

end Sys2Proof.Machine
end

section
/-!
PROOFS. The tapered formats (spec/05 R109, R111): negation is the two's complement of the pattern, so the table of R111
needs its left half only.
-/

namespace Sys2Proof.Machine

/-! ### Negation and NaR in every tapered format -/

/-- NaR is the sign bit alone and reads as NaN (spec/05 R109). -/
theorem decT_nar (n es : Nat) : decT n es (2 ^ (n - 1)) = .nan := by
  rw [decT, if_neg (Nat.two_pow_pos _).ne', if_pos rfl]

/-- Negation is the two's complement of the whole pattern (spec/05 R109). -/
theorem decT_two_pow_sub {n es p : Nat} (hpos : 0 < p) (hlt : p < 2 ^ (n - 1)) :
    decT n es (2 ^ n - p) = (decT n es p).flip := by
  have hn : n ≠ 0 := by rintro rfl; exact absurd hlt (Nat.not_lt.mpr hpos)
  have htwice : 2 * 2 ^ (n - 1) = 2 ^ n := mul_pow_sub_one hn 2
  have hne : 2 ^ n - p ≠ 0 ∧ 2 ^ n - p ≠ 2 ^ (n - 1) := by omega
  have hneg : 2 ^ (n - 1) ≤ 2 ^ n - p := by omega
  have hback : 2 ^ n - (2 ^ n - p) = p := by omega
  simp [decT, FV.flip, hne.1, hne.2, hneg, hback, hpos.ne', hlt.ne, hlt.not_ge]

/-! ### The values of R111 -/

/-- A finite value in 256ths, the unit in which both tables of R111 are integers. -/
def FV.in256ths : FV → Option Int
  | .fin neg m e => some ((if neg then -1 else 1) * (m * 2 ^ (e + 8).toNat : Nat))
  | _ => none

theorem FV.in256ths_flip (v : FV) : v.flip.in256ths = v.in256ths.map (-·) := by
  cases v with
  | nan | inf _ => rfl
  | fin neg m e => cases neg <;> simp [flip, in256ths]

/-- In the right half of R111's table, read from 0x3F down, stand the negations of the left half, read from 0x01 up. -/
theorem in256ths_decT_right {es : Nat} (p : Fin 31) :
    (decT 6 es (63 - p)).in256ths = (decT 6 es (p + 1)).in256ths.map (-·) := by
  have hpat : 63 - p.val = 2 ^ 6 - (p.val + 1) := by omega
  have hlt : p.val + 1 < 2 ^ (6 - 1) := by omega
  rw [hpat, decT_two_pow_sub p.val.succ_pos hlt, FV.in256ths_flip]

/-- Settles O7: the left half of R111's table is computed, the right half is its negation, and 0x20 is NaR. -/
theorem taperedValues : Obligations.TaperedValues := by
  refine (fun left => ⟨left, fun p => ?right, decT_nar 6 0, decT_nar 6 1⟩) ?left
  case left => decide
  case right =>
    obtain ⟨hleft0, hleft1⟩ := left p.succ
    exact ⟨(in256ths_decT_right p).trans (congrArg _ hleft0), (in256ths_decT_right p).trans (congrArg _ hleft1)⟩

end Sys2Proof.Machine
end
